-- ==== Sys2Proof/Word.lean ====
section
/-! DEFINITION. The word types of the PJ-470 and their plainest arithmetic. -/

namespace Sys2Proof

/-- A message byte, a store byte, a group set (spec/02, R21). -/
abbrev Byte := BitVec 8

/-- A signed 16-bit sample (spec/01, R1). -/
abbrev Sample := BitVec 16

/-- One left and one right sample (spec/00, terms). -/
abbrev Pair := Sample × Sample

/-- A set of event flags: the flag at place i has the weight 2^i (spec/03, R45). -/
abbrev EventSet := BitVec 32

/-- The nearest value in range (spec/00, "Clamped and refused"). -/
def clampInt (lo hi x : Int) : Int := max lo (min hi x)

/-- A count that saturates stops at its maximum (spec/00, "Counts"). -/
def satAdd (top n : Nat) : Nat := min top (n + 1)

end Sys2Proof
end

