-- ==== Sys2Proof/Syntax.lean ====
section
/-! DEFINITION. The commands of the PJ-470: one constructor per row of spec/opcode_table.json, with the
operands the row's rule takes from outside the part. -/

namespace Sys2Proof

/-- The tag of a control slot (R1: 0 IDLE, 1 START, 2 BODY, 3 END). -/
inductive SlotTag where
  | idle
  | start
  | body
  | done
  deriving DecidableEq, Repr

/-- The fields of a frame after its sync (R1). -/
structure LinkFrame where
  number : BitVec 16
  left : Sample
  right : Sample
  cue : Sample
  tag : SlotTag
  byte : Byte
  showRunning : Bool
  silent : Bool
  broken : Bool
  tapeEnd : Bool
  check : Byte
  deriving DecidableEq, Repr

/-- What the infrared receiver delivers: a burst or a space, with its length in microseconds (R191). -/
inductive IrElement where
  | burst (micros : Nat)
  | space (micros : Nat)
  deriving DecidableEq, Repr

/-- The commands, in the table's order. Link commands take their operands from the oldest receive buffer
(R28; log 1). -/
inductive Instr where
  | powerOnReset (strap : Bool) (button0 button1 button2 : Bool)
  | linkReset
  | frameReceived (frame : LinkFrame) (sync : Nat)
  | missingFrame
  | linkLossTimeout
  | originatedFrame
  | showSafeRaised
  | retryWaitEnd
  | stuckTone
  | stuckEnd
  | wordComplete
  | identify
  | setGroups
  | status
  | readEvents
  | clearEvents
  | setMasks
  | reset
  | setParam
  | readParam
  | loadCue
  | readCue
  | loadKey
  | readKey
  | loadSlot
  | readSlot
  | loadCurve
  | act
  | stop
  | clearJam
  | save
  | storeRead
  | protect
  | lampReplaced
  | calibrate
  | enumerate
  | unknownCommand
  | remoteRelay
  | pauseExpiry
  | shutterClosedSwitch (made : Bool)
  | gateDownSwitch (made : Bool)
  | indexPulse (homeMark : Bool)
  | gateUpSwitch (made : Bool) (slidePresent : Bool)
  | settleEnd
  | shutterOpenSwitch (made : Bool)
  | phaseLimitExpiry
  | seekExhausted
  | lampTick (currentPresent : Bool)
  | dissolveEnd
  | lampFailure
  | swapSwitch (made : Bool)
  | swapTimeout
  | litMinute
  | tempConversion (code : BitVec 10)
  | fanTachPulse
  | fanStartTimeout
  | fanSupervisionTimeout
  | fanRest
  | fanRestEnd
  | cooldownEnd
  | supplySample (reading : BitVec 10)
  | outputSample
  | masterFrameBuild (left right cue : BitVec 12)
  | calibrationComplete
  | tapeEndSensor (active : Bool)
  | ringOpenTimeout
  | enumerationWaitExpiry
  | irCodeFrame (elements : List IrElement)
  | irRepeatFrame (elements : List IrElement)
  | buttonPress (button : Fin 3) (readBefore readNow : Bool)
  | buttonRelease (button : Fin 3) (readBefore readNow : Bool)
  | holdEnd
  | keyRepeat
  | relayWaitExpiry
  | pageOperationDone
  | powerLoss
  | dimmerPeriodStart
  | irFrameDiscarded (elements : List IrElement)
  deriving DecidableEq, Repr

end Sys2Proof
end

