-- ==== Sys2Proof/Config.lean ====
section
/-! DEFINITION. What the part fixes (constants of its rules) and the values its manual leaves open. -/

namespace Sys2Proof.Config

/-- Frame times without a good frame that begin a link loss or open the ring (R11, R188). -/
def lossFrameTimes : Nat := 32

/-- Bad and missing frames in a row that raise BAD_RUN (R7). -/
def badRunLimit : Nat := 16

/-- Ticks of link loss that raise show-safe (R13). -/
def showSafeTicks : Nat := 200

/-- Frame numbers run from 0 to 63999 (R1). -/
def frameNumbers : Nat := 64000

/-- Frames in a block (R59). -/
def blockFrames : Nat := 160

/-- The limit of a filter state's magnitude (R66). -/
def filterLimit : Int := 2147483647

/-- The largest tone power (R67). -/
def powerTop : Int := 4294967295

/-- Receive buffers (R27). -/
def rxBuffers : Nat := 3

/-- Places of the reply queue (R29). -/
def replyPlaces : Nat := 4

/-- Places of the action queue (R97). -/
def queuePlaces : Nat := 16

/-- Pairs the audio FIFO holds (R168). -/
def fifoPairs : Nat := 8192

/-- Ticks of the cooldown timer (R154). -/
def cooldownTicks : Nat := 12000

/-- The gain step OFF, one step beyond 96 (R167). -/
def offStep : Nat := 97

/-- Factors of the gain steps 0 to 96: 32768 × 10^(−s/40) to the nearest integer, limited to 32767 (R175). -/
def gainFactors : List Nat :=
  [32767, 30935, 29205, 27571, 26029, 24573, 23198, 21900, 20675, 19519,
   18427, 17396, 16423, 15504, 14637, 13818, 13045, 12315, 11627, 10976,
   10362, 9783, 9235, 8719, 8231, 7771, 7336, 6925, 6538, 6172,
   5827, 5501, 5193, 4903, 4629, 4370, 4125, 3894, 3677, 3471,
   3277, 3093, 2920, 2757, 2603, 2457, 2320, 2190, 2068, 1952,
   1843, 1740, 1642, 1550, 1464, 1382, 1305, 1232, 1163, 1098,
   1036, 978, 924, 872, 823, 777, 734, 693, 654, 617,
   583, 550, 519, 490, 463, 437, 413, 389, 368, 347,
   328, 309, 292, 276, 260, 246, 232, 219, 207, 195,
   184, 174, 164, 155, 146, 138, 130]

/-- The bytes of a page left with unknown contents: the manual does not say which they are (R206, R207).
The first argument counts such pages, the second is the place in the page. A FREE VALUE (log 9). -/
opaque unknownByte : Nat → Nat → Byte

/-- Whether the start of a waiting swap comes before the queue's offer, where R103 and R159 let either come
first. The argument counts such meetings. A FREE VALUE (log 8). -/
opaque swapFirst : Nat → Bool

end Sys2Proof.Config
end

