-- ==== Sys2Proof/Machine/State.lean ====
section
/-! DEFINITION. The state of the PJ-470, block by block as spec/00 lists its owners, and the state after a
power-on reset. Plain data throughout. -/

namespace Sys2Proof.Machine

/-! ## Link receiver/forwarder (spec/01) -/

/-- The role the MASTER strap selects (R15). -/
inductive Role where
  | follower
  | master
  deriving DecidableEq, Repr

/-- The follower's link state (R11). -/
inductive LinkState where
  | acquiring
  | linked
  | lostOriginating
  | lostForwarding
  deriving DecidableEq, Repr

/-- An ENUMERATE being rewritten as it is forwarded: the offset of its next slot, its length byte once it has
passed, and the checks over the bytes as received and as forwarded (R17). -/
structure EnumTrack where
  offset : Nat
  length : Nat
  checkIn : Byte
  checkOut : Byte
  deriving DecidableEq, Repr

/-- State of the link receiver/forwarder (R20). -/
structure LinkRx where
  role : Role
  /-- 0 for the master, 1 to 32 or absent for a follower (R18). -/
  address : Option Nat
  groups : Byte
  state : LinkState
  /-- The bit time of the crystal's frame time at which the next sync is due (R3; log 12). -/
  reckoning : Option Nat
  /-- The window of the present frame time has closed without a sync, and the frame time was judged missing (R3;
  log 23). -/
  windowClosed : Bool
  sinceGood : Nat
  expected : Option Nat
  runCount : Nat
  showSafeCount : Nat
  showSafe : Bool
  lastPair : Pair
  showRunning : Bool
  /-- The raw TAPE_END condition of a follower (R5). -/
  tapeEnd : Bool
  /-- The raw SEQ_JUMP condition (R198). -/
  seqJump : Bool
  tracking : Option EnumTrack
  /-- The frame last sent on the link output, or none for idle fill (R8). -/
  output : Option LinkFrame
  deriving DecidableEq, Repr

/-! ## Message unit (spec/02) -/

/-- A complete message (R21); its length byte is the length of its payload. -/
structure Message where
  kind : Byte
  dest : Byte
  source : Byte
  payload : List Byte
  deriving DecidableEq, Repr

/-- A message in the reply queue. Its source, and a NOTICE's payload, are fixed when an attempt begins (R30). -/
structure OutMsg where
  kind : Byte
  dest : Byte
  payload : List Byte
  deriving DecidableEq, Repr

/-- A message being written into slots: what is still to be written, and whether it is the master's own
ENUMERATE rather than the head of the reply queue (R31, R187). -/
structure Attempt where
  slots : List (SlotTag × Byte)
  enumerate : Bool
  deriving DecidableEq, Repr

/-- A wait after a lost attempt, in frame times (R32). -/
structure RetryWait where
  elapsed : Nat
  total : Nat
  deriving DecidableEq, Repr

/-- State of the message unit (R35). -/
structure MsgUnit where
  assembly : Option (List Byte)
  assemblyErrors : Nat
  rx : List Message
  replies : List OutMsg
  /-- A reply place held for the command being carried out (R28). -/
  held : Bool
  attempt : Option Attempt
  /-- The head of the reply queue outlived a link reset for its present attempt only (R35). -/
  lastTry : Bool
  attempts : Nat
  wait : Option RetryWait
  /-- The slot before arrived tagged IDLE or END in a good frame (R30). -/
  slotFree : Bool
  /-- A RESET taken and held until the store is free (R47). -/
  heldReset : Option Message
  deriving DecidableEq, Repr

/-! ## Cue detector and cue engine (spec/04, spec/05) -/

/-- The four cue tones (R59). -/
inductive Tone where
  | l
  | m
  | h
  | t
  deriving DecidableEq, Repr

/-- A block verdict: one present tone, or ABSENT (none) (R74). -/
abbrev Verdict := Option Tone

/-- The state of the detector, with the number of the block in progress (R60). -/
inductive DetState where
  | waiting
  | inBlock (block : Nat)
  | boundary
  deriving DecidableEq, Repr

/-- The latest filter state and the one before it (R65). -/
structure Filter where
  latest : Int
  before : Int
  deriving DecidableEq, Repr

/-- State of the cue detector (R77). -/
structure Detector where
  state : DetState
  filterL : Filter
  filterM : Filter
  filterH : Filter
  filterT : Filter
  energy : Nat
  count : Nat
  overload : Bool
  damaged : Bool
  prevVerdict : Verdict
  prevDamaged : Bool
  deriving DecidableEq, Repr

/-- A qualified run of one tone, short or long (R81). -/
structure Symbol where
  tone : Tone
  long : Bool
  deriving DecidableEq, Repr

/-- The direction of a SHUTTER action and of the TAPE actions (R50). -/
inductive TapeCommand where
  | play
  | stop
  | windForward
  | windBack
  deriving DecidableEq, Repr

/-- An action: its kind and its operands, each in range (R96). -/
inductive Action where
  | advance (n : Nat) (skip : Bool)
  | reverse (n : Nat) (skip : Bool)
  | goto (position : Nat)
  | gotoMark (mark : Nat)
  | home
  | shutter (close : Bool)
  | lamp (level : Nat)
  | dissolve (target duration : Nat) (loaded : Bool)
  | audio (step : Nat)
  | mute (on : Bool)
  | tape (command : TapeCommand)
  | mark (n : Byte)
  | pause (duration : Nat)
  deriving DecidableEq, Repr

/-- One entry of the cue table (R88). -/
structure CueEntry where
  enabled : Bool
  once : Bool
  symbols : List Symbol
  group : Option Nat
  range : Option (Nat × Nat)
  actions : List Action
  deriving DecidableEq, Repr

/-- The default entry (R52, R88). -/
def CueEntry.default : CueEntry :=
  { enabled := false, once := false, symbols := [{ tone := .l, long := false }], group := none,
    range := none, actions := [.mark 0] }

/-- The state of the cue engine (R78). A run of 16 stands only while its STUCK_TONE step is due (log 25). -/
inductive EngineState where
  | ready
  | run (tone : Tone) (length : Nat)
  | gap
  | stuck
  deriving DecidableEq, Repr

/-- Whether a word has completed and its WORD_COMPLETE step is due, and the tone verdict or ABSENT that is to be
taken after it (R82, R84; log 25). -/
inductive Completion where
  | none
  | due
  | dueThen (v : Verdict)
  deriving DecidableEq, Repr

/-- State of the cue engine (R95). -/
structure CueEngine where
  state : EngineState
  word : List Symbol
  discarding : Bool
  gap : Nat
  stuckCount : Nat
  completion : Completion
  lastWord : List Symbol
  wordCounter : BitVec 16
  glitches : Nat
  pendingClears : List Nat
  table : Vector CueEntry 64
  unmatched : Bool
  dropped : Bool
  deriving DecidableEq, Repr

/-! ## Action queue (spec/06) -/

/-- Who placed an entry (R97). -/
inductive ActionSource where
  | cue
  | key
  | link
  | relay
  deriving DecidableEq, Repr

/-- A queue entry (R97). -/
structure QueueEntry where
  action : Action
  source : ActionSource
  deriving DecidableEq, Repr

/-- A running PAUSE (R105). -/
structure PauseTimer where
  elapsed : Nat
  duration : Nat
  deriving DecidableEq, Repr

/-- State of the action queue (R108). -/
structure ActionQueue where
  entries : List QueueEntry
  pause : Option PauseTimer
  accepted : BitVec 32
  taken : BitVec 32
  purged : BitVec 32
  deriving DecidableEq, Repr

/-! ## Changer (spec/07) -/

/-- The phases of a change (R119). -/
inductive ChangePhase where
  | shutterClose
  | lower
  | index
  | raise
  | settle
  | shutterOpen
  deriving DecidableEq, Repr

/-- The phases of a homing (R125). -/
inductive HomePhase where
  | shutterClose
  | lower
  | seek
  | raise
  deriving DecidableEq, Repr

/-- The phase a SUSPENDED changer begins next, and whether it belongs to a change or a homing (R109). -/
inductive Resume where
  | change (phase : ChangePhase)
  | home (phase : HomePhase)
  deriving DecidableEq, Repr

/-- The changer state, with its phase or resume record (R109). -/
inductive TrayState where
  | unhomed
  | homing (phase : HomePhase)
  | idle
  | changing (phase : ChangePhase)
  | suspended (resume : Resume)
  | jammed
  deriving DecidableEq, Repr

/-- TRAY_SENSE's two values (R112). -/
inductive Sense where
  | normal
  | reversed
  deriving DecidableEq, Repr

/-- A direction of travel, logical or of the motor (R109, R112). -/
inductive Direction where
  | forward
  | backward
  deriving DecidableEq, Repr

/-- What is present during a change (R109): direction, target, remaining and extra steps, and whether the 99th
extra step found no slide, so that SHUTTER_OPEN is to be skipped (R121). -/
structure Motion where
  direction : Direction
  target : Nat
  remaining : Nat
  extra : Nat
  dark : Bool
  deriving DecidableEq, Repr

/-- The gate drive (R110). -/
inductive GateDrive where
  | up
  | down
  | off
  deriving DecidableEq, Repr

/-- The occupancy of a position (R115). -/
inductive Occupancy where
  | unknown
  | present
  | empty
  deriving DecidableEq, Repr

/-- One entry of the slot map (R115). -/
structure SlotEntry where
  occupancy : Occupancy
  skip : Bool
  mark : Nat
  deriving DecidableEq, Repr

/-- A position never raised and never loaded (R136). -/
def SlotEntry.blank : SlotEntry := { occupancy := .unknown, skip := false, mark := 0 }

/-- State of the changer (R136). -/
structure Tray where
  state : TrayState
  timer : Nat
  position : Nat
  valid : Bool
  sense : Option Sense
  motion : Option Motion
  seekCount : Nat
  current : Option Action
  carried : Option Action
  /-- A STOP has cut the motion in progress short (R131, R132). -/
  cut : Bool
  holdDark : Bool
  /-- The shutter solenoid is energised (R110). -/
  shutterOpen : Bool
  gate : GateDrive
  motor : Option Direction
  closedSwitch : Bool
  openSwitch : Bool
  downSwitch : Bool
  upSwitch : Bool
  slidePresent : Bool
  slots : Vector SlotEntry 100
  cursor : Nat
  /-- Raw TRAY_EMPTY (R116). -/
  trayEmpty : Bool
  /-- Raw POSITION_ERROR (R113). -/
  positionError : Bool
  deriving DecidableEq, Repr

/-! ## Lamp controller, thermal and supply monitor (spec/08) -/

/-- One of the two lamps (R137). -/
inductive LampNo where
  | lamp0
  | lamp1
  deriving DecidableEq, Repr

/-- The status of a lamp record (R137). -/
inductive LampStatus where
  | ok
  | failed
  | absent
  deriving DecidableEq, Repr

/-- A lamp record (R137). -/
structure LampRecord where
  status : LampStatus
  minutes : Nat
  deriving DecidableEq, Repr

/-- A dissolve record (R137); `restart` marks the restart dissolve of a swap that succeeded (R160). -/
structure Dissolve where
  start : Nat
  target : Nat
  duration : Nat
  loaded : Bool
  elapsed : Nat
  restart : Bool
  deriving DecidableEq, Repr

/-- The lamp changer state, with its swap timer (R137). -/
inductive LampChanger where
  | idle
  | waitChanger
  | swapping (timer : Nat)
  | jammed
  deriving DecidableEq, Repr

/-- State of the lamp controller (R165). -/
structure Lamp where
  target : Nat
  computed : Nat
  applied : Nat
  held : Bool
  dissolve : Option Dissolve
  curve : Vector Nat 33
  complete : Bool
  /-- The segments 0 to 3 loaded since the curve was marked incomplete (R144). -/
  segments : BitVec 4
  active : LampNo
  /-- The SETTINGS working copy of the choice, and whether a swap's choice waits for a SAVE to end (R164). -/
  savedActive : LampNo
  activeWaits : Bool
  record0 : LampRecord
  record1 : LampRecord
  failCount : Nat
  litCount : Nat
  changer : LampChanger
  swapSwitch : Bool
  /-- The level of the dimmer's present period (R138). -/
  dimmer : Nat
  deriving DecidableEq, Repr

/-- The thermal state (R149). -/
inductive ThermalState where
  | cold
  | warm
  | hot
  | overheat
  deriving DecidableEq, Repr

/-- The fan state, with its timer; `stalled` says whether a tick has passed since the stall (R152, R153). -/
inductive FanState where
  | off
  | starting (timer : Nat)
  | running (timer : Nat)
  | stalled (ticked : Bool)
  | resting (timer : Nat)
  deriving DecidableEq, Repr

/-- The supply state (R155). -/
inductive SupplyState where
  | normal
  | low
  | critical
  deriving DecidableEq, Repr

/-- State of the thermal and supply monitor (R166). -/
structure Monitor where
  temperature : Nat
  /-- Ticks since the last conversion, up to 10 (R148). -/
  sinceConversion : Nat
  thermal : ThermalState
  fan : FanState
  fanAttempts : Nat
  cooldown : Nat
  supply : SupplyState
  deriving DecidableEq, Repr

/-! ## Sound path (spec/09) -/

/-- The reader's state (R167). -/
inductive ReaderState where
  | playing
  | filling
  deriving DecidableEq, Repr

/-- The mute reasons, each raised or not (R172). -/
structure MuteReasons where
  link : Bool
  badRun : Bool
  silent : Bool
  underflow : Bool
  command : Bool
  fill : Bool
  delayChange : Bool
  deriving DecidableEq, Repr

/-- State of the sound path (R179). -/
structure Sound where
  fifo : List Pair
  reader : ReaderState
  delay : Nat
  pendingDelay : Option Nat
  lastRead : Pair
  holdoff : Nat
  slips : BitVec 16
  reasons : MuteReasons
  showLevel : Nat
  /-- The current gain step, 0 to 96, or OFF as one step beyond (R167). -/
  step : Nat
  rampCount : Nat
  /-- The pair the output converter is given (R175). -/
  output : Pair
  deriving DecidableEq, Repr

/-! ## Tape unit and ring supervision (spec/10) -/

/-- The transport state (R182). -/
inductive Transport where
  | stopped
  | playing
  | windForward
  | windBack
  | atEnd
  deriving DecidableEq, Repr

/-- One reading of the three track converters (R180). -/
structure Readings where
  left : BitVec 12
  right : BitVec 12
  cue : BitVec 12
  deriving DecidableEq, Repr

/-- A calibration running (R184). -/
structure Calibration where
  count : Nat
  sumLeft : Nat
  sumRight : Nat
  sumCue : Nat
  deriving DecidableEq, Repr

/-- Three track trims (R185). -/
structure Trims where
  left : Int
  right : Int
  cue : Int
  deriving DecidableEq, Repr

/-- The ring supervision's state (R188). -/
inductive RingState where
  | waiting
  | closed
  | opened
  deriving DecidableEq, Repr

/-- State of the tape unit, the frame origination and the ring supervision (R190). -/
structure Tape where
  latest : Option Readings
  transport : Transport
  endSensor : Bool
  calibration : Option Calibration
  pendingTrims : Option Trims
  nextNumber : Nat
  ring : RingState
  sinceReturn : Nat
  enumDue : Bool
  enumWait : Option Nat
  enumAttempts : Nat
  deriving DecidableEq, Repr

/-! ## Remote decoder, event unit, show store (spec/11) -/

/-- The infrared receiver's state with the bits gathered; in `bits`, whether a burst has come and its space is
awaited (R191). -/
inductive IrState where
  | waitLeader
  | leaderSpace
  | bits (gathered : List Bool) (spaceDue : Bool)
  | stop (gathered : List Bool)
  deriving DecidableEq, Repr

/-- Where a hold came from (R191). -/
inductive KeySource where
  | ir
  | button
  deriving DecidableEq, Repr

/-- A key held (R191); `repeatDue` stands from a tick at which the key repeats until KEY_REPEAT (R194). -/
structure Hold where
  code : Byte
  source : KeySource
  ticks : Nat
  frameTicks : Nat
  repeatDue : Bool
  deriving DecidableEq, Repr

/-- The scope of a key map entry (R195). -/
inductive KeyScope where
  | here
  | relay
  | both
  deriving DecidableEq, Repr

/-- A relay sent and awaited (R191). -/
structure RelayWait where
  action : Action
  scope : KeyScope
  ticks : Nat
  deriving DecidableEq, Repr

/-- One entry of the key map (R197). -/
structure KeyEntry where
  code : Byte
  enabled : Bool
  repeats : Bool
  duringShow : Bool
  scope : KeyScope
  action : Action
  deriving DecidableEq, Repr

/-- The default entries 3 to 15 (R197). -/
def KeyEntry.blank : KeyEntry :=
  { code := 0x00, enabled := false, repeats := false, duringShow := false, scope := .here, action := .mark 0 }

/-- The default key map (R197). -/
def KeyEntry.defaults : Vector KeyEntry 16 :=
  (((Vector.replicate 16 KeyEntry.blank).setIfInBounds 0
    { KeyEntry.blank with code := 0xF0, enabled := true, action := .advance 1 true }).setIfInBounds 1
    { KeyEntry.blank with code := 0xF1, enabled := true, action := .reverse 1 true }).setIfInBounds 2
    { KeyEntry.blank with code := 0xF2, enabled := true, action := .shutter true }

/-- State of the remote decoder (R191, R192, R197). -/
structure Remote where
  ir : IrState
  hold : Option Hold
  relayWait : Option RelayWait
  lapsed : Option Action
  ignored : Nat
  keys : Vector KeyEntry 16
  button0 : Bool
  button1 : Bool
  button2 : Bool
  deriving DecidableEq, Repr

/-- State of the event unit (R198, R200). -/
structure Events where
  latched : EventSet
  attention : EventSet
  alarm : EventSet
  lastMark : Byte
  deriving DecidableEq, Repr

/-- The bytes of the show store that differ from 0xFF, addresses (page × 32 + offset) strictly rising. -/
abbrev ShowMem := List Host.Cell

/-- The regions a SAVE names, in region code order (R56). -/
inductive Region where
  | settings
  | cues
  | keys
  | slots
  | curve
  deriving DecidableEq, Repr

/-- What a job does (R203): a SAVE, a lamp write of one or both lamps, or a PROTECT with its set. -/
inductive JobKind where
  | save (region : Region)
  | lampWrite (lamp0 lamp1 : Bool)
  | protect (set : Byte)
  deriving DecidableEq, Repr

/-- The two parts of a page operation (R202). -/
inductive PagePhase where
  | erase
  | program
  deriving DecidableEq, Repr

/-- A page operation: the page, its new contents, its part, and whether a CRITICAL supply has stopped it (R202,
R206). -/
structure PageOp where
  page : Nat
  contents : List Byte
  phase : PagePhase
  stopped : Bool
  deriving DecidableEq, Repr

/-- A job in flight: its pages still to begin, and the page operation in progress or stopped. With no page
operation and pages left, the job is suspended before its next page (R206). -/
structure Job where
  kind : JobKind
  pages : List Nat
  op : Option PageOp
  deriving DecidableEq, Repr

/-- State of the show store (R207). -/
structure Store where
  mem : ShowMem
  /-- Pages left with unknown contents (R206, R207; log 9). -/
  broken : List Nat
  job : Option Job
  pendingLamp0 : Bool
  pendingLamp1 : Bool
  /-- The active protection set: region code r at weight 2^r (R205). -/
  protection : Byte
  /-- The store-error set: regions at their codes, lamps 0 and 1 at weights 2^5 and 2^6 (R207). -/
  errors : BitVec 7
  deriving DecidableEq, Repr

/-! ## The whole part -/

/-- The 21 working parameters in id order, four bytes each (R48, R201). -/
abbrev Params := Vector (BitVec 32) 21

/-- The defaults of the parameter table (R48). -/
def Params.default : Params :=
  #v[1024, 6, 2, 8, 3, 0, 24, 12, 15, 1, 0, 0, 1, 1, 1, 0, 0, 0, 0, 0, 1]

/-- The state of the part. -/
structure State where
  link : LinkRx
  msg : MsgUnit
  det : Detector
  cue : CueEngine
  queue : ActionQueue
  tray : Tray
  lamp : Lamp
  mon : Monitor
  sound : Sound
  tape : Tape
  remote : Remote
  events : Events
  store : Store
  params : Params
  /-- The supply is up: the model's own field (log 6). -/
  powered : Bool
  /-- How many free values have been drawn: the model's own field (logs 8 and 9). -/
  drawn : Nat
  /-- The commands waiting, first in first out. -/
  pending : List Instr
  deriving DecidableEq, Repr

/-- Reasons to stop. The spec names none: every error of the part is an event flag or a reply status, and the
part goes on. Nothing raises a fault; having none is safe. -/
inductive Fault where
  deriving DecidableEq, Repr

/-- Reasons to refuse a command. -/
inductive Refusal where
  /-- Raised by `exec` alone, for a row that has no meaning yet; safe. No row is left so. -/
  | notModelled (mnemonic : String)
  deriving DecidableEq, Repr

/-! ## Right after power-on reset -/

/-- A filter at the start of a block (R60). -/
def Filter.zero : Filter := { latest := 0, before := 0 }

/-- The receiver of a follower after power-on reset, its groups given (R20). -/
def LinkRx.powerOn (role : Role) (groups : Byte) : LinkRx :=
  { role := role, address := if role = .master then some 0 else none, groups := groups, state := .acquiring,
    reckoning := none, windowClosed := false, sinceGood := 0, expected := none, runCount := 0, showSafeCount := 0, showSafe := false,
    lastPair := (0, 0), showRunning := false, tapeEnd := false, seqJump := false, tracking := none,
    output := none }

/-- The message unit after power-on reset (R35). -/
def MsgUnit.powerOn : MsgUnit :=
  { assembly := none, assemblyErrors := 0, rx := [], replies := [], held := false, attempt := none,
    lastTry := false, attempts := 0, wait := none, slotFree := false, heldReset := none }

/-- The detector after either reset (R77). -/
def Detector.restart : Detector :=
  { state := .waiting, filterL := Filter.zero, filterM := Filter.zero, filterH := Filter.zero,
    filterT := Filter.zero, energy := 0, count := 0, overload := false, damaged := false, prevVerdict := none,
    prevDamaged := false }

/-- The cue engine after either reset, its table given (R95). -/
def CueEngine.restart (table : Vector CueEntry 64) : CueEngine :=
  { state := .ready, word := [], discarding := false, gap := 0, stuckCount := 0, completion := .none,
    lastWord := [], wordCounter := 0, glitches := 0, pendingClears := [], table := table, unmatched := false,
    dropped := false }

/-- The action queue after either reset (R108). -/
def ActionQueue.empty : ActionQueue :=
  { entries := [], pause := none, accepted := 0, taken := 0, purged := 0 }

/-- The default slot map (R136). -/
def SlotEntry.blanks : Vector SlotEntry 100 := Vector.replicate 100 SlotEntry.blank

/-- The changer after power-on reset, its slot map given (R136). The levels of its switches and of the slide-present
sensor are the mechanism's, no rule gives them a value, and they stay as last seen (DESIGN CHOICE, log 35). -/
def Tray.powerOn (old : Tray) (slots : Vector SlotEntry 100) : Tray :=
  { state := .unhomed, timer := 0, position := 0, valid := false, sense := none, motion := none, seekCount := 0,
    current := none, carried := none, cut := false, holdDark := false, shutterOpen := false, gate := .off,
    motor := none, closedSwitch := old.closedSwitch, openSwitch := old.openSwitch, downSwitch := old.downSwitch,
    upSwitch := old.upSwitch, slidePresent := old.slidePresent, slots := slots, cursor := 0, trayEmpty := false,
    positionError := false }

/-- The points of LINEAR: point i is 32 × i (R143). -/
def linearCurve : Vector Nat 33 := Vector.ofFn fun i => 32 * i.val

/-- A record whose page fails its check (R165). -/
def LampRecord.missing : LampRecord := { status := .absent, minutes := 0 }

/-- The lamp controller after power-on reset, with what the store loads (R165). The level of the swap switch is the
mechanism's, no rule gives it a value, and it stays as last seen (DESIGN CHOICE, log 35). -/
def Lamp.powerOn (old : Lamp) (curve : Vector Nat 33) (complete : Bool) (active : LampNo)
    (record0 record1 : LampRecord) : Lamp :=
  { target := 0, computed := 0, applied := 0, held := false, dissolve := none, curve := curve,
    complete := complete, segments := 0, active := active, savedActive := active, activeWaits := false,
    record0 := record0, record1 := record1, failCount := 0, litCount := 0, changer := .idle,
    swapSwitch := old.swapSwitch, dimmer := 0 }

/-- The thermal and supply monitor after power-on reset (R166). -/
def Monitor.powerOn : Monitor :=
  { temperature := 0, sinceConversion := 0, thermal := .cold, fan := .starting 0, fanAttempts := 0,
    cooldown := 12000, supply := .normal }

/-- No mute reason but FILL (R179). -/
def MuteReasons.fillOnly : MuteReasons :=
  { link := false, badRun := false, silent := false, underflow := false, command := false, fill := true,
    delayChange := false }

/-- The sound path after power-on reset, with AUDIO_DELAY and AUDIO_LEVEL as loaded (R179). -/
def Sound.powerOn (delay level : Nat) : Sound :=
  { fifo := [], reader := .filling, delay := delay, pendingDelay := none, lastRead := (0, 0), holdoff := 0,
    slips := 0, reasons := MuteReasons.fillOnly, showLevel := level, step := 97, rampCount := 0,
    output := (0, 0) }

/-- The tape unit, frame origination and ring supervision after power-on reset (R190). The level of the end sensor is
the mechanism's, no rule gives it a value, and it stays as last seen (DESIGN CHOICE, log 35). -/
def Tape.powerOn (endSensor : Bool) : Tape :=
  { latest := none, transport := .stopped, endSensor := endSensor, calibration := none, pendingTrims := none,
    nextNumber := 0, ring := .waiting, sinceReturn := 0, enumDue := false, enumWait := none, enumAttempts := 0 }

/-- The remote decoder after either reset, its key map and the buttons' states given (R192, R197). -/
def Remote.restart (keys : Vector KeyEntry 16) (button0 button1 button2 : Bool) : Remote :=
  { ir := .waitLeader, hold := none, relayWait := none, lapsed := none, ignored := 0, keys := keys,
    button0 := button0, button1 := button1, button2 := button2 }

/-- The event unit after power-on reset (R199, R200). -/
def Events.powerOn : Events := { latched := 0, attention := 0, alarm := 0, lastMark := 0 }

/-- Every switch open and no slide seen, as State.reset presumes the mechanism (log 7). -/
def Tray.untouched : Tray :=
  { state := .unhomed, timer := 0, position := 0, valid := false, sense := none, motion := none, seekCount := 0,
    current := none, carried := none, cut := false, holdDark := false, shutterOpen := false, gate := .off,
    motor := none, closedSwitch := false, openSwitch := false, downSwitch := false, upSwitch := false,
    slidePresent := false, slots := SlotEntry.blanks, cursor := 0, trayEmpty := false, positionError := false }

/-- The part right after a power-on reset: a follower (MASTER strap low) with an erased show store, so that every
region and lamp record has failed its check, the tables hold their defaults, and STORE_ERROR (place 23) has
latched (R20, R35, R77, R95, R108, R136, R165, R166, R179, R190, R197, R199, R200, R207; log 7). -/
def State.reset : State :=
  { link := LinkRx.powerOn .follower 0
    msg := MsgUnit.powerOn
    det := Detector.restart
    cue := CueEngine.restart (Vector.replicate 64 CueEntry.default)
    queue := ActionQueue.empty
    tray := Tray.untouched
    lamp :=
      { target := 0, computed := 0, applied := 0, held := false, dissolve := none, curve := linearCurve,
        complete := true, segments := 0, active := .lamp0, savedActive := .lamp0, activeWaits := false,
        record0 := LampRecord.missing, record1 := LampRecord.missing, failCount := 0, litCount := 0,
        changer := .idle, swapSwitch := false, dimmer := 0 }
    mon := Monitor.powerOn
    sound := Sound.powerOn 0 12
    tape := Tape.powerOn false
    remote := Remote.restart KeyEntry.defaults false false false
    events := { Events.powerOn with latched := 0x00800000 }
    store :=
      { mem := [], broken := [], job := none, pendingLamp0 := false, pendingLamp1 := false, protection := 0,
        errors := 0x7F }
    params := Params.default
    powered := true
    drawn := 0
    pending := [] }

end Sys2Proof.Machine
end

