-- ==== Sys2Proof/Machine/Ops.lean ====
section
/-! DEFINITION. Operations the blocks share: bits and bytes, checks, the show store's memory, working parameters,
free values, and the places of the reply queue. -/

namespace Sys2Proof.Machine

/-! ## Bits, bytes and checks -/

/-- The bits of a value, most significant first (R1, R22). -/
def bitsOf (w n : Nat) : List Bool := (List.range w).reverse.map fun i => n.testBit i

/-- A byte of a natural number. -/
def byteOf (n : Nat) : Byte := BitVec.ofNat 8 n

/-- A value in `k` bytes, most significant byte first (R37). -/
def bytesOf (k n : Nat) : List Byte := (List.range k).reverse.map fun i => byteOf (n >>> (8 * i))

/-- The unsigned value of bytes sent most significant first (R37). -/
def natOf (bs : List Byte) : Nat := bs.foldl (fun n b => n * 256 + b.toNat) 0

/-- One bit of a CRC-8 with x^8+x^2+x+1 (R2). -/
def crc8Bit (reg : Byte) (bit : Bool) : Byte :=
  if reg.msb != bit then (reg <<< 1) ^^^ 0x07 else reg <<< 1

/-- A CRC-8 over bits in the order they are sent (R2). -/
def crc8 (start : Byte) (bits : List Bool) : Byte := bits.foldl crc8Bit start

/-- The message check: a register at 0x00, then one byte after another, most significant bit first (R22). -/
def messageCheck (start : Byte) (bytes : List Byte) : Byte :=
  bytes.foldl (fun reg b => crc8 reg (bitsOf 8 b.toNat)) start

/-- One bit of the store's CRC-16 with x^16+x^12+x^5+1 (R201). -/
def crc16Bit (reg : BitVec 16) (bit : Bool) : BitVec 16 :=
  if reg.msb != bit then (reg <<< 1) ^^^ 0x1021 else reg <<< 1

/-- The store's check over bytes: a register at 0xFFFF, most significant bit first (R201). -/
def crc16 (bytes : List Byte) : BitVec 16 :=
  bytes.foldl (fun reg b => (bitsOf 8 b.toNat).foldl crc16Bit reg) 0xFFFF

/-- The code of a slot tag (R1). -/
def tagCode : SlotTag → Nat
  | .idle => 0
  | .start => 1
  | .body => 2
  | .done => 3

/-- The 78 bits of a frame from its number to its last flag, in the order sent (R1, R2). -/
def frameBits (f : LinkFrame) : List Bool :=
  bitsOf 16 f.number.toNat ++ bitsOf 16 f.left.toNat ++ bitsOf 16 f.right.toNat ++ bitsOf 16 f.cue.toNat ++
    bitsOf 2 (tagCode f.tag) ++ bitsOf 8 f.byte.toNat ++ [f.showRunning, f.silent, f.broken, f.tapeEnd]

/-- The frame check over a frame's bits, the register starting at 0xFF (R2). -/
def frameCrc (f : LinkFrame) : Byte := crc8 0xFF (frameBits f)

/-- The frame with its check computed over its bits (R9, R14, R186). -/
def sealFrame (f : LinkFrame) : LinkFrame := { f with check := frameCrc f }

/-- A good frame: its check is right and its number below 64000 (R3). -/
def frameGood (f : LinkFrame) : Bool :=
  decide (f.check = frameCrc f) && decide (f.number.toNat < Config.frameNumbers)

/-- The sample nearest an integer (R181). -/
def sampleOf (x : Int) : Sample := BitVec.ofInt 16 (clampInt (-32768) 32767 x)

/-- The frame number after n; after 63999 comes 0 (R1, R4). -/
def nextFrameNumber (n : Nat) : Nat := if n + 1 < Config.frameNumbers then n + 1 else 0

/-! ## The memory of the show store (R201) -/

/-- What a byte that the list does not name holds: an erased byte (R201). -/
def erasedByte : Byte := 0xFF

/-- The byte at an address. -/
def ShowMem.read : ShowMem → Nat → Byte
  | [], _ => erasedByte
  | (x, b) :: m, a => if a = x then b else ShowMem.read m a

/-- The memory with one byte replaced, in canonical form. -/
def ShowMem.write : ShowMem → Nat → Byte → ShowMem
  | [], a, b => if b = erasedByte then [] else [(a, b)]
  | (x, c) :: m, a, b =>
    if a < x then (if b = erasedByte then (x, c) :: m else (a, b) :: (x, c) :: m)
    else if a = x then (if b = erasedByte then m else (a, b) :: m)
    else (x, c) :: ShowMem.write m a b

/-- The memory with consecutive bytes replaced. -/
def ShowMem.writeList (m : ShowMem) (a : Nat) : List Byte → ShowMem
  | [] => m
  | b :: bs => ShowMem.writeList (m.write a b) (a + 1) bs

/-- Addresses above `low` strictly rising and no erased byte listed. -/
def ShowMem.wfAbove (low : Nat) : ShowMem → Bool
  | [] => true
  | (x, b) :: m => decide (low ≤ x) && decide (b ≠ erasedByte) && ShowMem.wfAbove (x + 1) m

/-- The canonical form: addresses strictly rising and no entry equal to what an unlisted address reads as. -/
def ShowMem.wf (m : ShowMem) : Bool := ShowMem.wfAbove 0 m

/-- Bytes of a page (R201). -/
def pageBytes : Nat := 32

/-- The contents of a page as stored (R201). -/
def ShowMem.page (m : ShowMem) (p : Nat) : List Byte :=
  (List.range pageBytes).map fun i => m.read (p * pageBytes + i)

/-- The contents of a run of pages, in ascending page order (R201). -/
def ShowMem.pages (m : ShowMem) (first count : Nat) : List Byte :=
  (List.range count).flatMap fun i => m.page (first + i)

/-- Contents filled up to 32 bytes with 0xFF, and cut there (R201). -/
def padPage (bs : List Byte) : List Byte := (bs ++ List.replicate pageBytes erasedByte).take pageBytes

/-- The memory with one page replaced. -/
def ShowMem.writePage (m : ShowMem) (p : Nat) (contents : List Byte) : ShowMem :=
  m.writeList (p * pageBytes) (padPage contents)

/-! ## Working parameters (R48) -/

/-- The parameters of the table (R48). -/
inductive Param where
  | levelT
  | purity
  | dominance
  | wordGap
  | retryLimit
  | audioDelay
  | rampInterval
  | audioLevel
  | muteMask
  | safeAction
  | remoteChannel
  | traySense
  | skipEmpty
  | autoSwap
  | supplyPreset
  | cueGain
  | trimL
  | trimR
  | trimC
  | tempTrim
  | soundOut
  deriving DecidableEq, Repr

/-- The parameters in id order (R48). -/
def Param.all : List Param :=
  [.levelT, .purity, .dominance, .wordGap, .retryLimit, .audioDelay, .rampInterval, .audioLevel, .muteMask,
   .safeAction, .remoteChannel, .traySense, .skipEmpty, .autoSwap, .supplyPreset, .cueGain, .trimL, .trimR,
   .trimC, .tempTrim, .soundOut]

/-- The parameter with an id, if the table names it (R48). -/
def Param.ofId (n : Nat) : Option Param := Param.all[n]?

/-- The id of a parameter (R48). -/
def Param.id : Param → Nat
  | .levelT => 0
  | .purity => 1
  | .dominance => 2
  | .wordGap => 3
  | .retryLimit => 4
  | .audioDelay => 5
  | .rampInterval => 6
  | .audioLevel => 7
  | .muteMask => 8
  | .safeAction => 9
  | .remoteChannel => 10
  | .traySense => 11
  | .skipEmpty => 12
  | .autoSwap => 13
  | .supplyPreset => 14
  | .cueGain => 15
  | .trimL => 16
  | .trimR => 17
  | .trimC => 18
  | .tempTrim => 19
  | .soundOut => 20

/-- Whether the value is read as signed (R48). -/
def Param.signed : Param → Bool
  | .trimL => true
  | .trimR => true
  | .trimC => true
  | .tempTrim => true
  | _ => false

/-- The bounds of a parameter's range (R48). -/
def Param.range : Param → Int × Int
  | .levelT => (0, 4294967295)
  | .purity => (1, 10)
  | .dominance => (0, 4)
  | .wordGap => (3, 20)
  | .retryLimit => (1, 7)
  | .audioDelay => (0, 8000)
  | .rampInterval => (1, 255)
  | .audioLevel => (0, 96)
  | .muteMask => (0, 15)
  | .safeAction => (0, 1)
  | .remoteChannel => (0, 15)
  | .traySense => (0, 1)
  | .skipEmpty => (0, 1)
  | .autoSwap => (0, 1)
  | .supplyPreset => (0, 3)
  | .cueGain => (0, 3)
  | .trimL => (-7, 7)
  | .trimR => (-7, 7)
  | .trimC => (-7, 7)
  | .tempTrim => (-15, 15)
  | .soundOut => (0, 1)

/-- The value a SET_PARAM sets: clamped to the range, and for MUTE_MASK the low four bits (R48). -/
def Param.clamp (p : Param) (w : BitVec 32) : BitVec 32 :=
  match p with
  | .muteMask => w &&& 0x0F
  | _ => BitVec.ofInt 32 (clampInt p.range.1 p.range.2 (if p.signed then w.toInt else (w.toNat : Int)))

/-- The working value of a parameter as held. -/
def State.param (s : State) (p : Param) : BitVec 32 := s.params.getD p.id 0

/-- The working value read as unsigned. -/
def State.paramNat (s : State) (p : Param) : Nat := (s.param p).toNat

/-- The working value read as signed. -/
def State.paramInt (s : State) (p : Param) : Int := (s.param p).toInt

/-- An on/off parameter (R48). -/
def State.paramOn (s : State) (p : Param) : Bool := decide (s.paramNat p ≠ 0)

/-- The state with one working value replaced. -/
def State.setParam (s : State) (p : Param) (w : BitVec 32) : State :=
  { s with params := s.params.setIfInBounds p.id w }

/-- The value of TRAY_SENSE (R112). -/
def State.traySense (s : State) : Sense := if s.paramNat .traySense = 0 then .normal else .reversed

/-! ## Role, address, link loss -/

/-- The unit is a follower (R15). -/
def State.isFollower (s : State) : Bool := decide (s.link.role = .follower)

/-- The unit is the master (R15). -/
def State.isMaster (s : State) : Bool := decide (s.link.role = .master)

/-- A follower is in link loss (R11, R12). -/
def State.inLoss (s : State) : Bool :=
  s.isFollower && (decide (s.link.state = .lostOriginating) || decide (s.link.state = .lostForwarding))

/-- The source byte of the unit's messages: its address, or 0xFE while unassigned (R21). -/
def State.sourceByte (s : State) : Byte :=
  match s.link.address with
  | some a => byteOf a
  | none => 0xFE

/-- Group g is in the unit's group set (R43). -/
def State.inGroup (s : State) (g : Nat) : Bool := s.link.groups.getLsbD g

/-- The unit's show-running state as the remote decoder reads it: the frames' in a follower, false during a link
loss; the transport's in the master (R5, R12, R183). -/
def State.showRunning (s : State) : Bool :=
  if s.isMaster then decide (s.tape.transport = .playing) else s.link.showRunning && !s.inLoss

/-! ## The reply queue's places (R29) -/

/-- Places filled or held (R29). -/
def State.placesUsed (s : State) : Nat := s.msg.replies.length + (if s.msg.held then 1 else 0)

/-- The reply queue has a free place (R29). -/
def State.placeFree (s : State) : Bool := decide (s.placesUsed < Config.replyPlaces)

/-- The notice-pending flag: a NOTICE is in the reply queue (R34). -/
def State.noticePending (s : State) : Bool := s.msg.replies.any fun m => m.kind == 0x81

/-- A message placed at the tail of the reply queue. -/
def State.enqueueReply (s : State) (m : OutMsg) : State :=
  { s with msg := { s.msg with replies := s.msg.replies ++ [m] } }

/-! ## Free values -/

/-- The state after one more free value has been drawn. -/
def State.draw (s : State) : State := { s with drawn := s.drawn + 1 }

/-- Whether a row of the table finds the supply up; without it nothing happens (log 6). -/
def whenPowered (s t : State) : Host.Outcome State Fault Refusal := .next (if s.powered then t else s)

end Sys2Proof.Machine
end

