-- ==== Sys2Proof/Machine/Flags.lean ====
section
/-! DEFINITION. The event unit: the 26 flags and their places, raw conditions, latching with its NOTICE, clearing,
masks, attention and alarm (R198 to R200, R34, R45, R46). -/

namespace Sys2Proof.Machine

/-- The event flags in the order of the list (R198). -/
inductive Flag where
  | linkLost
  | ringOpen
  | badFrames
  | seqJump
  | rxOverflow
  | txGiveup
  | cueUnmatched
  | cueStuck
  | cueDropped
  | actionDiscarded
  | mark
  | jam
  | trayEmpty
  | positionError
  | lampFailed
  | lampSwapped
  | swapJam
  | fanStall
  | overheat
  | supplyLow
  | supplyCritical
  | audioSlip
  | storeDone
  | storeError
  | relayLost
  | tapeEnd
  deriving DecidableEq, Repr

/-- The place of a flag in the event sets (R198). -/
def Flag.place : Flag → Nat
  | .linkLost => 0
  | .ringOpen => 1
  | .badFrames => 2
  | .seqJump => 3
  | .rxOverflow => 4
  | .txGiveup => 5
  | .cueUnmatched => 6
  | .cueStuck => 7
  | .cueDropped => 8
  | .actionDiscarded => 9
  | .mark => 10
  | .jam => 11
  | .trayEmpty => 12
  | .positionError => 13
  | .lampFailed => 14
  | .lampSwapped => 15
  | .swapJam => 16
  | .fanStall => 17
  | .overheat => 18
  | .supplyLow => 19
  | .supplyCritical => 20
  | .audioSlip => 21
  | .storeDone => 22
  | .storeError => 23
  | .relayLost => 24
  | .tapeEnd => 25

/-- The flags in list order (R198). -/
def Flag.all : List Flag :=
  [.linkLost, .ringOpen, .badFrames, .seqJump, .rxOverflow, .txGiveup, .cueUnmatched, .cueStuck, .cueDropped,
   .actionDiscarded, .mark, .jam, .trayEmpty, .positionError, .lampFailed, .lampSwapped, .swapJam, .fanStall,
   .overheat, .supplyLow, .supplyCritical, .audioSlip, .storeDone, .storeError, .relayLost, .tapeEnd]

/-- The weight of a flag in an event set (R45). -/
def Flag.weight (f : Flag) : EventSet := (1 : EventSet) <<< f.place

/-- The 26 places an event set uses; the upper six bits are 0 (R45). -/
def eventPlaces : EventSet := 0x03FFFFFF

/-- A flag is latched (R198). -/
def State.latchedFlag (s : State) (f : Flag) : Bool := s.events.latched.getLsbD f.place

/-! ## Raw conditions -/

/-- The lamp record of a number (R137). -/
def Lamp.record (l : Lamp) : LampNo → LampRecord
  | .lamp0 => l.record0
  | .lamp1 => l.record1

/-- The lamp changer is SWAPPING (R137). -/
def LampChanger.isSwapping : LampChanger → Bool
  | .swapping _ => true
  | _ => false

/-- The raw condition of the fan: STALLED, RESTING, or STARTING after an attempt (R153). -/
def Monitor.rawStall (m : Monitor) : Bool :=
  match m.fan with
  | .stalled _ => true
  | .resting _ => true
  | .starting _ => decide (0 < m.fanAttempts)
  | _ => false

/-- The FIFO level lies outside D − 64 to D + 64 (R170). -/
def Sound.outsideWindow (a : Sound) : Bool :=
  decide (a.delay + 64 < a.fifo.length) || decide (a.fifo.length + 64 < a.delay)

/-- The raw condition of each flag, as its owner gives it; the momentary ones read false (R198). -/
def State.rawFlag (s : State) : Flag → Bool
  | .linkLost => s.inLoss
  | .ringOpen => decide (s.tape.ring = .opened)
  | .badFrames => decide (Config.badRunLimit ≤ s.link.runCount)
  | .seqJump => s.link.seqJump
  | .rxOverflow => decide (s.msg.rx.length = Config.rxBuffers)
  | .txGiveup => false
  | .cueUnmatched => s.cue.unmatched
  | .cueStuck => decide (s.cue.state = .stuck)
  | .cueDropped => s.cue.dropped
  | .actionDiscarded => false
  | .mark => false
  | .jam => decide (s.tray.state = .jammed)
  | .trayEmpty => s.tray.trayEmpty
  | .positionError => s.tray.positionError
  | .lampFailed => decide ((s.lamp.record s.lamp.active).status = .failed)
  | .lampSwapped => s.lamp.dissolve.any fun d => d.restart
  | .swapJam => decide (s.lamp.changer = .jammed)
  | .fanStall => s.mon.rawStall
  | .overheat => decide (s.mon.thermal = .overheat)
  | .supplyLow => decide (s.mon.supply ≠ .normal)
  | .supplyCritical => decide (s.mon.supply = .critical)
  | .audioSlip => decide (s.sound.reader = .playing) && s.sound.outsideWindow
  | .storeDone => s.store.job.isNone && !s.store.pendingLamp0 && !s.store.pendingLamp1
  | .storeError => decide (s.store.errors ≠ 0)
  | .relayLost => s.remote.lapsed.isSome
  | .tapeEnd => if s.isMaster then decide (s.tape.transport = .atEnd) else s.link.tapeEnd

/-- The event set of the flags that meet a test (R45). -/
def eventSet (test : Flag → Bool) : EventSet :=
  Flag.all.foldl (fun w f => if test f then w ||| f.weight else w) 0

/-- The raw set READ_EVENTS carries (R45). -/
def State.rawSet (s : State) : EventSet := eventSet s.rawFlag

/-! ## Latching -/

/-- The event unit asks for a NOTICE: a follower places one when none is pending and a place is free; otherwise the
request is not kept. A master places none (R34, R200). -/
def State.askNotice (s : State) : State :=
  if s.isFollower && !s.noticePending && s.placeFree then
    s.enqueueReply { kind := 0x81, dest := 0x00, payload := [] }
  else s

/-- A flag's event: it latches; a new latch of a flag in the attention mask asks for a NOTICE (R199, R200). -/
def State.latch (s : State) (f : Flag) : State :=
  if s.latchedFlag f then s
  else
    let t := { s with events := { s.events with latched := s.events.latched ||| f.weight } }
    if s.events.attention.getLsbD f.place then t.askNotice else t

/-- A flag's event that happens only under a condition. -/
def State.latchIf (s : State) (c : Bool) (f : Flag) : State := if c then s.latch f else s

/-- The attention bit: a latched flag is in the attention mask (R200). -/
def State.attentionBit (s : State) : Bool := decide (s.events.latched &&& s.events.attention ≠ 0)

/-- The alarm output: active while a latched flag is in the alarm mask (R200); not without a supply (logs 6 and 26). -/
def State.alarmOutput (s : State) : Bool := s.powered && decide (s.events.latched &&& s.events.alarm ≠ 0)

/-- The named latched flags become clear; bits above place 25 are ignored (R45). -/
def State.clearEvents (s : State) (named : EventSet) : State :=
  { s with events := { s.events with latched := s.events.latched &&& ~~~(named &&& eventPlaces) } }

/-- Both masks replaced, bits above place 25 taken as 0 (R46). -/
def State.setMasks (s : State) (attention alarm : EventSet) : State :=
  { s with events := { s.events with attention := attention &&& eventPlaces, alarm := alarm &&& eventPlaces } }

/-- Each flag whose raw condition is true latches, as after a link reset (R199). -/
def State.latchRaw (s : State) : State :=
  Flag.all.foldl (fun t f => if s.rawFlag f then t.latch f else t) s

end Sys2Proof.Machine
end

