-- ==== Sys2Proof/Machine/Operands.lean ====
section
/-! DEFINITION. The byte forms of operands: action records, symbol codes, cue and key entries, slot entries, messages,
and the form each table takes in a store page. -/

namespace Sys2Proof.Machine

/-- The nearest value in range for a count (R50). -/
def clampNat (lo hi n : Nat) : Nat := max lo (min hi n)

/-! ## Action records (R50) -/

/-- The TAPE command of a code (R50). -/
def tapeOfCode : Nat → Option TapeCommand
  | 0 => some .play
  | 1 => some .stop
  | 2 => some .windForward
  | 3 => some .windBack
  | _ => none

/-- The code of a TAPE command (R50). -/
def tapeCode : TapeCommand → Byte
  | .play => 0
  | .stop => 1
  | .windForward => 2
  | .windBack => 3

/-- The action a four-byte record names, its operands clamped; none when the record is invalid (R50). -/
def actionOf (kind a b c : Byte) : Option Action :=
  let w := b.toNat * 256 + c.toNat
  match kind.toNat with
  | 0x01 => some (.advance (clampNat 1 99 a.toNat) (decide (b ≠ 0)))
  | 0x02 => some (.reverse (clampNat 1 99 a.toNat) (decide (b ≠ 0)))
  | 0x03 => if a.toNat ≤ 99 then some (.goto a.toNat) else none
  | 0x04 => if 1 ≤ a.toNat ∧ a.toNat ≤ 63 then some (.gotoMark a.toNat) else none
  | 0x05 => some .home
  | 0x06 => if a.toNat ≤ 1 then some (.shutter (decide (a = 1))) else none
  | 0x07 => some (.lamp a.toNat)
  | 0x08 => some (.dissolve a.toNat (min 2550 (w % 32768)) (decide (32768 ≤ w)))
  | 0x09 => some (.audio (min 96 a.toNat))
  | 0x0A => if a.toNat ≤ 1 then some (.mute (decide (a = 1))) else none
  | 0x0B => (tapeOfCode a.toNat).map .tape
  | 0x0C => some (.mark a)
  | 0x0D => some (.pause (min 2550 w))
  | _ => none

/-- The four-byte form of an action: operand bytes its kind does not use carry 0 (R50). -/
def recordOf : Action → List Byte
  | .advance n skip => [0x01, byteOf n, if skip then 1 else 0, 0]
  | .reverse n skip => [0x02, byteOf n, if skip then 1 else 0, 0]
  | .goto p => [0x03, byteOf p, 0, 0]
  | .gotoMark m => [0x04, byteOf m, 0, 0]
  | .home => [0x05, 0, 0, 0]
  | .shutter close => [0x06, if close then 1 else 0, 0, 0]
  | .lamp level => [0x07, byteOf level, 0, 0]
  | .dissolve target duration loaded =>
    [0x08, byteOf target] ++ bytesOf 2 (duration + (if loaded then 32768 else 0))
  | .audio step => [0x09, byteOf step, 0, 0]
  | .mute on => [0x0A, if on then 1 else 0, 0, 0]
  | .tape c => [0x0B, tapeCode c, 0, 0]
  | .mark n => [0x0C, n, 0, 0]
  | .pause d => [0x0D, 0] ++ bytesOf 2 d

/-- The action of a list of exactly four bytes (R50). -/
def actionOfBytes : List Byte → Option Action
  | [k, a, b, c] => actionOf k a b c
  | _ => none

/-- The actions of a run of records; none when one is invalid or the run does not divide by four (R50, R52). -/
def actionsOfBytes : List Byte → Option (List Action)
  | [] => some []
  | k :: a :: b :: c :: rest =>
    match actionOf k a b c, actionsOfBytes rest with
    | some x, some xs => some (x :: xs)
    | _, _ => none
  | _ => none

/-- A kind of action the changer owns (R96). -/
def Action.forChanger : Action → Bool
  | .advance _ _ => true
  | .reverse _ _ => true
  | .goto _ => true
  | .gotoMark _ => true
  | .home => true
  | .shutter _ => true
  | .lamp _ => false
  | .dissolve _ _ _ => false
  | .audio _ => false
  | .mute _ => false
  | .tape _ => false
  | .mark _ => false
  | .pause _ => false

/-! ## Symbols (R44) -/

/-- The code of a symbol (R44). -/
def symbolCode (s : Symbol) : Byte :=
  byteOf ((match s.tone with | .l => 1 | .m => 3 | .h => 5 | .t => 7) + (if s.long then 1 else 0))

/-- The symbol of a code 1 to 8 (R44). -/
def symbolOfCode (n : Nat) : Option Symbol :=
  match n with
  | 1 => some ⟨.l, false⟩
  | 2 => some ⟨.l, true⟩
  | 3 => some ⟨.m, false⟩
  | 4 => some ⟨.m, true⟩
  | 5 => some ⟨.h, false⟩
  | 6 => some ⟨.h, true⟩
  | 7 => some ⟨.t, false⟩
  | 8 => some ⟨.t, true⟩
  | _ => none

/-- Three symbol codes, absent positions 0 (R44). -/
def symbolCodes (w : List Symbol) : List Byte := ((w.map symbolCode) ++ [0, 0, 0]).take 3

/-- The symbols of three codes; none when a code is above 8, the first is absent, or a present one follows an absent
one (R52). -/
def symbolsOf (a b c : Byte) : Option (List Symbol) :=
  match symbolOfCode a.toNat, symbolOfCode b.toNat, symbolOfCode c.toNat with
  | some x, some y, some z => some [x, y, z]
  | some x, some y, none => if c = 0 then some [x, y] else none
  | some x, none, none => if b = 0 ∧ c = 0 then some [x] else none
  | _, _, _ => none

/-! ## Cue entries (R52) -/

/-- The form LOAD_CUE and READ_CUE carry an entry in, without the index (R52). -/
def cueBytes (e : CueEntry) : List Byte :=
  [byteOf ((if e.enabled then 0x80 else 0) + (if e.once then 0x40 else 0) + (if e.group.isSome then 0x20 else 0) +
      (if e.range.isSome then 0x10 else 0) + e.group.getD 0)] ++ symbolCodes e.symbols ++
    [byteOf (e.range.getD (0, 0)).1, byteOf (e.range.getD (0, 0)).2] ++ e.actions.flatMap recordOf

/-- The slot range of an entry's bytes: refused when present and out of order or above 99 (R52). -/
def cueRange (flags low high : Byte) : Option (Option (Nat × Nat)) :=
  if flags.getLsbD 4 then
    if low.toNat ≤ high.toNat ∧ high.toNat ≤ 99 then some (some (low.toNat, high.toNat)) else none
  else some none

/-- The entry that bytes in LOAD_CUE's form give, or none where R52 refuses them. Weight 0x08 of the flags byte, to which
R52 gives no meaning, is not kept (DESIGN CHOICE, log 37). -/
def cueOfBytes : List Byte → Option CueEntry
  | flags :: s1 :: s2 :: s3 :: low :: high :: records =>
    match symbolsOf s1 s2 s3, cueRange flags low high, actionsOfBytes records with
    | some symbols, some range, some actions =>
      some
        { enabled := flags.getLsbD 7, once := flags.getLsbD 6, symbols := symbols,
          group := if flags.getLsbD 5 then some (flags.toNat % 8) else none, range := range, actions := actions }
    | _, _, _ => none
  | _ => none

/-- The bytes of a CUES page that hold its entry: the six fixed bytes and the records up to the first 0xFF kind
(R201; log 21). -/
def cuePageBytes (page : List Byte) : List Byte :=
  let r (i : Nat) : List Byte :=
    if ((page.drop (6 + 4 * i)).headD 0xFF) = 0xFF then [] else (page.drop (6 + 4 * i)).take 4
  page.take 6 ++ (if r 0 = [] then [] else r 0 ++ (if r 1 = [] then [] else r 1 ++
    (if r 2 = [] then [] else r 2 ++ r 3)))

/-! ## Key entries (R53) -/

/-- The code of a scope (R53). -/
def scopeCode : KeyScope → Nat
  | .here => 0
  | .relay => 1
  | .both => 2

/-- The scope of a code (R53). -/
def scopeOfCode : Nat → Option KeyScope
  | 0 => some .here
  | 1 => some .relay
  | 2 => some .both
  | _ => none

/-- The six bytes of a key map entry (R53). -/
def keyBytes (e : KeyEntry) : List Byte :=
  [e.code, byteOf ((if e.enabled then 0x80 else 0) + (if e.repeats then 0x40 else 0) +
      (if e.duringShow then 0x20 else 0) + scopeCode e.scope)] ++ recordOf e.action

/-- The entry that six bytes give, or none where R53 refuses them. -/
def keyOfBytes : List Byte → Option KeyEntry
  | [code, flags, k, a, b, c] =>
    match scopeOfCode (flags.toNat % 4), actionOf k a b c with
    | some scope, some action =>
      some
        { code := code, enabled := flags.getLsbD 7, repeats := flags.getLsbD 6, duringShow := flags.getLsbD 5,
          scope := scope, action := action }
    | _, _ => none
  | _ => none

/-! ## Slot entries (R54) -/

/-- The skip-and-mark byte of an entry (R54). -/
def slotByte (e : SlotEntry) : Byte := byteOf ((if e.skip then 0x80 else 0) + e.mark)

/-- The code of an occupancy (R54). -/
def occupancyCode : Occupancy → Byte
  | .unknown => 0
  | .present => 1
  | .empty => 2

/-- The entry with the skip flag and mark of a byte; its occupancy stays (R54). -/
def slotWithByte (e : SlotEntry) (b : Byte) : SlotEntry := { e with skip := b.getLsbD 7, mark := b.toNat % 64 }

/-! ## Messages (R21 to R24) -/

/-- A partial message of 4 + L bytes as a message (R21). -/
def messageOf : List Byte → Option Message
  | kind :: dest :: source :: length :: payload =>
    if payload.length = length.toNat then some { kind := kind, dest := dest, source := source, payload := payload }
    else none
  | _ => none

/-- The bytes of an outgoing message from its kind to its last payload byte (R21). -/
def outBytes (source : Byte) (m : OutMsg) : List Byte :=
  [m.kind, m.dest, source, byteOf m.payload.length] ++ m.payload

/-- The slots of a message: START, BODY up to the last payload byte, END for the check (R21, R31). -/
def slotsOf (bytes : List Byte) : List (SlotTag × Byte) :=
  match bytes with
  | [] => []
  | k :: rest => (.start, k) :: (rest.map fun b => (.body, b)) ++ [(.done, messageCheck 0x00 bytes)]

/-- The destination is a group's (R21). -/
def groupOfDest (d : Byte) : Option Nat := if 0x40 ≤ d.toNat ∧ d.toNat ≤ 0x47 then some (d.toNat - 0x40) else none

/-- A message in a buffer needs a reply when its kind is a command kind or ENUMERATE and it was addressed to the unit
alone; what else is taken is addressed to a group or to all (R26). -/
def Message.needsReply (m : Message) : Bool :=
  decide (m.kind ≠ 0x82) && (groupOfDest m.dest).isNone && decide (m.dest ≠ 0xFF)

/-! ## Tables in store pages (R201) -/

/-- The code of a region (R56). -/
def regionCode : Region → Nat
  | .settings => 0
  | .cues => 1
  | .keys => 2
  | .slots => 3
  | .curve => 4

/-- The region of a code (R56). -/
def regionOfCode : Nat → Option Region
  | 0 => some .settings
  | 1 => some .cues
  | 2 => some .keys
  | 3 => some .slots
  | 4 => some .curve
  | _ => none

/-- A region's first page and the number of its pages (R201). -/
def regionPages : Region → Nat × Nat
  | .settings => (0, 4)
  | .cues => (4, 64)
  | .keys => (68, 4)
  | .slots => (72, 7)
  | .curve => (79, 3)

/-- The number of a lamp (R137). -/
def lampCode : LampNo → Byte
  | .lamp0 => 0
  | .lamp1 => 1

/-- The code of a record's status (R201). -/
def lampStatusCode : LampStatus → Byte
  | .ok => 0
  | .failed => 1
  | .absent => 2

/-- The contents of a LAMPS page: the record's four bytes and their check (R201). -/
def lampPage (r : LampRecord) : List Byte :=
  let four := lampStatusCode r.status :: bytesOf 3 r.minutes
  padPage (four ++ bytesOf 2 (crc16 four).toNat)

/-- The record of a LAMPS page, or none when its check fails or its status byte is none of the three (R201, R207). -/
def lampOfPage (page : List Byte) : Option LampRecord :=
  match page with
  | st :: m2 :: m1 :: m0 :: c1 :: c0 :: _ =>
    if natOf [c1, c0] = (crc16 [st, m2, m1, m0]).toNat then
      match st.toNat with
      | 0 => some { status := .ok, minutes := natOf [m2, m1, m0] }
      | 1 => some { status := .failed, minutes := natOf [m2, m1, m0] }
      | 2 => some { status := .absent, minutes := natOf [m2, m1, m0] }
      | _ => none
    else none
  | _ => none

/-- The working tables in the form of a region's pages, before filling up with 0xFF (R201). -/
def regionBytes (s : State) : Region → List Byte
  | .settings =>
    s.params.toList.flatMap (fun w => bytesOf 4 w.toNat) ++ [s.link.groups, lampCode s.lamp.savedActive]
  | .cues => s.cue.table.toList.flatMap fun e => padPage (cueBytes e)
  | .keys => s.remote.keys.toList.flatMap keyBytes
  | .slots => s.tray.slots.toList.map slotByte
  | .curve =>
    s.lamp.curve.toList.flatMap (fun p => bytesOf 2 p) ++ [if s.lamp.complete then 1 else 0]

/-- The new contents of a region's page number k (R201). -/
def regionPage (s : State) (r : Region) (k : Nat) : List Byte :=
  padPage (((regionBytes s r).drop (k * pageBytes)).take pageBytes)

/-- All the pages of a region in its new contents (R201, R203). -/
def regionContents (s : State) (r : Region) : List Byte :=
  (List.range (regionPages r).2).flatMap fun k => regionPage s r k

/-- The bytes of page 255: the protection set, then its complement (R201). -/
def protectionPage (set : Byte) : List Byte := padPage [set, ~~~set]

/-- The active set a page 255 gives: the set when its complement agrees and no code above 4 is named; otherwise the
empty set (R205). -/
def protectionOf (page : List Byte) : Byte :=
  match page with
  | a :: b :: _ => if b = ~~~a ∧ a.toNat < 32 then a else 0
  | _ => 0

/-! ## Codes of states in replies (R44, R51) -/

/-- The changer state's code (R44). -/
def trayCode : TrayState → Byte
  | .unhomed => 0
  | .homing _ => 1
  | .idle => 2
  | .changing _ => 3
  | .suspended _ => 4
  | .jammed => 5

/-- The lamp changer state's code (R51). -/
def lampChangerCode : LampChanger → Byte
  | .idle => 0
  | .waitChanger => 1
  | .swapping _ => 2
  | .jammed => 3

/-- The thermal state's code (R44). -/
def thermalCode : ThermalState → Byte
  | .cold => 0
  | .warm => 1
  | .hot => 2
  | .overheat => 3

/-- The fan state's code (R44). -/
def fanCode : FanState → Byte
  | .off => 0
  | .starting _ => 1
  | .running _ => 2
  | .stalled _ => 3
  | .resting _ => 4

/-- The supply state's code (R44). -/
def supplyCode : SupplyState → Byte
  | .normal => 0
  | .low => 1
  | .critical => 2

/-- The transport state's code (R44). -/
def transportCode : Transport → Byte
  | .stopped => 0
  | .playing => 1
  | .windForward => 2
  | .windBack => 3
  | .atEnd => 4

end Sys2Proof.Machine
end

