-- ==== Sys2Proof/Machine/StoreOps.lean ====
section
/-! DEFINITION. The show store: page operations, jobs, suspension, lamp writes, protection and the checks at a load
(R201 to R207). -/

namespace Sys2Proof.Machine

/-- No job is in flight (R203). -/
def State.storeIdle (s : State) : Bool := s.store.job.isNone

/-- The store has neither a job nor a pending lamp write (R47). -/
def State.storeFree (s : State) : Bool := s.storeIdle && !s.store.pendingLamp0 && !s.store.pendingLamp1

/-- A SAVE of a region is in flight (R41). -/
def State.saving (s : State) (r : Region) : Bool :=
  match s.store.job with
  | some j => decide (j.kind = .save r)
  | none => false

/-- The store's state replaced in its job. -/
def State.setJob (s : State) (j : Option Job) : State := { s with store := { s.store with job := j } }

/-- The pages a job writes, in order (R203, R204, R205). -/
def jobPages : JobKind → List Nat
  | .save r => (List.range (regionPages r).2).map (fun k => (regionPages r).1 + k) ++ [254]
  | .lampWrite a b => (if a then [82] else []) ++ (if b then [83] else [])
  | .protect _ => [255]

/-- Page 254 with a region's new check and the other regions' checks as stored (R203); every byte after the five checks
holds 0xFF (R201). -/
def checksPage (s : State) (r : Region) : List Byte :=
  let old := (s.store.mem.page 254).take 10
  padPage
    (old.take (2 * regionCode r) ++ bytesOf 2 (crc16 (regionContents s r)).toNat ++ old.drop (2 * regionCode r + 2))

/-- The new contents of a page of a job (R203, R204, R205). -/
def jobContents (s : State) (k : JobKind) (p : Nat) : List Byte :=
  match k with
  | .save r => if p = 254 then checksPage s r else regionPage s r (p - (regionPages r).1)
  | .lampWrite _ _ => lampPage (if p = 82 then s.lamp.record0 else s.lamp.record1)
  | .protect set => protectionPage set

/-- Some byte of the new contents has a one where the stored byte has a zero (R202). -/
def needsErase (stored new : List Byte) : Bool := (List.zip stored new).any fun x => decide (x.2 &&& ~~~x.1 ≠ 0)

/-- The weight of a region in the store-error set. -/
def regionError (r : Region) : BitVec 7 := (1 : BitVec 7) <<< regionCode r

/-- The weight of a lamp in the store-error set. -/
def lampError : LampNo → BitVec 7
  | .lamp0 => 0x20
  | .lamp1 => 0x40

/-- The store-error set without some members. -/
def State.clearErrors (s : State) (w : BitVec 7) : State :=
  { s with store := { s.store with errors := s.store.errors &&& ~~~w } }

/-- The trims of a completed calibration become the working trims (R185). -/
def State.setTrims (s : State) (t : Trims) : State :=
  ((s.setParam .trimL (BitVec.ofInt 32 t.left)).setParam .trimR (BitVec.ofInt 32 t.right)).setParam .trimC
    (BitVec.ofInt 32 t.cue)

/-- The trims that waited for a SAVE of SETTINGS are taken (R185, R203). -/
def State.takePendingTrims (s : State) : State :=
  match s.tape.pendingTrims with
  | some t => { s.setTrims t with tape := { s.tape with pendingTrims := none } }
  | none => s

/-- The choice a swap made during a SAVE of SETTINGS reaches the working copy (R164, R203). -/
def State.takeDeferredActive (s : State) : State :=
  if s.lamp.activeWaits then
    { s with lamp := { s.lamp with savedActive := s.lamp.active, activeWaits := false } }
  else s

/-- One entry of the cue table becomes disabled (R92). -/
def CueEngine.disable (c : CueEngine) (i : Nat) : CueEngine :=
  { c with table := c.table.setIfInBounds i { c.table.getD i CueEntry.default with enabled := false } }

/-- The entries of the pending clears become disabled and the pending clears are emptied (R93, R203). -/
def State.takePendingClears (s : State) : State :=
  { s with cue := { s.cue.pendingClears.foldl CueEngine.disable s.cue with pendingClears := [] } }

/-- A job ends: a SAVE latches STORE_DONE, its region leaves the store-error set and its deferred changes take effect;
a PROTECT latches STORE_DONE; a lamp write removes its lamps from the store-error set, both of them here at the job's
end (DESIGN CHOICE, log 43) (R203, R204, R205). -/
def finishJob (k : JobKind) (s : State) : State :=
  let t := s.setJob none
  match k with
  | .save r =>
    let u := (t.clearErrors (regionError r)).latch .storeDone
    match r with
    | .settings => u.takeDeferredActive.takePendingTrims
    | .cues => u.takePendingClears
    | .keys => u
    | .slots => u
    | .curve => u
  | .lampWrite a b =>
    t.clearErrors ((if a then lampError .lamp0 else 0) ||| (if b then lampError .lamp1 else 0))
  | .protect _ => t.latch .storeDone

/-- A page's contents are known again. -/
def State.mendPage (s : State) (p : Nat) : State :=
  { s with store := { s.store with broken := s.store.broken.filter fun q => q != p } }

/-- A job goes on with its next page: passed over when the new contents equal the stored ones, otherwise begun, or
suspended before it while the supply is CRITICAL; with no page left the job ends (R202, R203, R206). A page that compares
equal starts no page operation, so it is passed over while the supply is CRITICAL too (DESIGN CHOICE, log 42). -/
def runPages (k : JobKind) : List Nat → State → State
  | [], s => finishJob k s
  | p :: rest, s =>
    let new := jobContents s k p
    let stored := s.store.mem.page p
    if new = stored then runPages k rest (s.mendPage p)
    else if s.mon.supply = .critical then s.setJob (some { kind := k, pages := p :: rest, op := none })
    else
      let phase := if needsErase stored new then PagePhase.erase else PagePhase.program
      s.setJob (some { kind := k, pages := rest, op := some { page := p, contents := new, phase := phase, stopped := false } })

/-- An idle store with a pending lamp write starts its job, and the pending set is emptied (R204). -/
def State.startPending (s : State) : State :=
  if s.storeIdle && (s.store.pendingLamp0 || s.store.pendingLamp1) then
    let k := JobKind.lampWrite s.store.pendingLamp0 s.store.pendingLamp1
    runPages k (jobPages k) { s with store := { s.store with pendingLamp0 := false, pendingLamp1 := false } }
  else s

/-- A job begins; if it ends at once, a pending lamp write follows it (R203, R204). -/
def State.startJob (s : State) (k : JobKind) : State := (runPages k (jobPages k) s).startPending

/-- A lamp write is requested: at once when the store is idle, otherwise it joins the pending set (R204). -/
def State.requestLampWrite (s : State) (n : LampNo) : State :=
  if s.storeIdle then
    s.startJob (.lampWrite (decide (n = .lamp0)) (decide (n = .lamp1)))
  else
    match n with
    | .lamp0 => { s with store := { s.store with pendingLamp0 := true } }
    | .lamp1 => { s with store := { s.store with pendingLamp1 := true } }

/-- A page of the store takes new contents. -/
def State.storePage (s : State) (p : Nat) (contents : List Byte) : State :=
  { s with store := { s.store with mem := s.store.mem.writePage p contents } }

/-- A page erase ends and its program begins, or a program ends and the job goes on (R202, R203). -/
def pageOperationEnds (s : State) : State :=
  match s.store.job with
  | some ⟨k, pages, some op⟩ =>
    if op.stopped then s
    else
      match op.phase with
      | .erase =>
        (s.storePage op.page []).setJob (some { kind := k, pages := pages, op := some { op with phase := .program } })
      | .program => (runPages k pages ((s.storePage op.page op.contents).mendPage op.page)).startPending
  | _ => s

/-- The unknown contents of a page, by the count of free values drawn. Irreducible, since nothing can be known of them
(log 9). -/
@[irreducible] def unknownPage (drawn : Nat) : List Byte :=
  (List.range pageBytes).map fun i => Config.unknownByte drawn i

/-- A page is left with unknown contents: free values, which may differ from page to page (R206, R207; log 9). -/
def State.spoilPage (s : State) (p : Nat) : State :=
  { s with
    store := { s.store with
      mem := s.store.mem.writePage p (unknownPage s.drawn)
      broken := p :: s.store.broken.filter fun q => q != p }
    drawn := s.drawn + 1 }

/-- The supply enters CRITICAL: a page operation in progress stops at once, its page left with unknown contents (R206;
log 9). -/
def storeSuspend (s : State) : State :=
  match s.store.job with
  | some ⟨k, pages, some op⟩ =>
    (s.spoilPage op.page).setJob (some { kind := k, pages := pages, op := some { op with stopped := true } })
  | _ => s

/-- The contents with which a stopped page starts again: those it was to have, but for a lamp's record, which is taken as
it stands when the page operation starts (R203, R204, R206). -/
def restartContents (s : State) (k : JobKind) (op : PageOp) : List Byte :=
  match k with
  | .lampWrite _ _ => jobContents s k op.page
  | .save _ => op.contents
  | .protect _ => op.contents

/-- The supply leaves CRITICAL: a stopped page is erased and programmed afresh; a page not begun is compared as usual
(R206). -/
def storeResume (s : State) : State :=
  match s.store.job with
  | some ⟨k, pages, some op⟩ =>
    if op.stopped then
      s.setJob (some { kind := k, pages := pages, op := some { page := op.page, contents := restartContents s k op, phase := .erase, stopped := false } })
    else s
  | some ⟨k, pages, none⟩ => (runPages k pages (s.setJob none)).startPending
  | none => s

/-- What a STORE_READ of a page returns: the new contents of a page being written, otherwise the stored ones (R202). -/
def State.readPage (s : State) (p : Nat) : List Byte :=
  match s.store.job with
  | some ⟨_, _, some op⟩ => if op.page = p then op.contents else s.store.mem.page p
  | _ => s.store.mem.page p

/-- The active protection set formed from page 255 as read (R205). -/
def State.activateProtection (s : State) (page : List Byte) (broken : Bool) : State :=
  { s with store := { s.store with protection := if broken then 0 else protectionOf page } }

/-- Page 255 as stored is a page left with unknown contents and is not being written. -/
def State.protectionBroken (s : State) : Bool :=
  match s.store.job with
  | some ⟨_, _, some op⟩ => if op.page = 255 then false else s.store.broken.contains 255
  | _ => s.store.broken.contains 255

/-- The supply fails outright: the page of an operation in progress or stopped is left with unknown contents, and the
job and the pending set are gone (R206, R207; log 9). -/
def storePowerLoss (s : State) : State :=
  let t :=
    match s.store.job with
    | some ⟨_, _, some op⟩ => s.spoilPage op.page
    | _ => s
  { t with store := { t.store with job := none, pendingLamp0 := false, pendingLamp1 := false } }

/-- A region's check agrees with the one in page 254 and none of these pages is left broken (R207). -/
def State.regionAgrees (s : State) (r : Region) : Bool :=
  let first := (regionPages r).1
  let count := (regionPages r).2
  !(s.store.broken.any fun p => decide (first ≤ p) && decide (p < first + count)) && !(s.store.broken.contains 254) &&
    decide (natOf (((s.store.mem.page 254).drop (2 * regionCode r)).take 2) =
      (crc16 (s.store.mem.pages first count)).toNat)

/-- The record a LAMPS page gives at power-on, or none when its check disagrees (R207). -/
def State.loadLamp (s : State) (n : LampNo) : Option LampRecord :=
  let p := match n with
    | .lamp0 => 82
    | .lamp1 => 83
  if s.store.broken.contains p then none else lampOfPage (s.store.mem.page p)

end Sys2Proof.Machine
end

