-- ==== Sys2Proof/Machine/LampOps.lean ====
section
/-! DEFINITION. Lamp levels, dissolves, caps, the fan's demand, the start and the withdrawal of a swap, and the events
that hold the lamp down (R137 to R163). -/

namespace Sys2Proof.Machine

/-! ## Dissolves (R140 to R144) -/

/-- Point i of the curve a dissolve uses: the loaded curve when selected and complete, otherwise LINEAR (R143). -/
def Lamp.point (l : Lamp) (loaded : Bool) (i : Nat) : Nat :=
  if loaded && l.complete then l.curve.getD i 0 else 32 * i

/-- The curve value at p (R141). -/
def Lamp.curveValue (l : Lamp) (loaded : Bool) (p : Nat) : Int :=
  let i := p / 32
  let frac := p - 32 * i
  if i = 32 then (l.point loaded 32 : Int)
  else
    (l.point loaded i : Int) +
      (((l.point loaded (i + 1) : Int) - (l.point loaded i : Int)) * (frac : Int)) / 32

/-- The computed level of a dissolve at its elapsed count: division toward zero (R141). -/
def Lamp.dissolveLevel (l : Lamp) (d : Dissolve) : Nat :=
  let p := d.elapsed * 1024 / d.duration
  let cv := l.curveValue d.loaded p
  ((d.start : Int) + (((d.target : Int) - (d.start : Int)) * cv).tdiv 1024).toNat

/-- One tick of a dissolve (R141). A record whose elapsed equals its duration has ended. -/
def Lamp.dissolveStep (l : Lamp) : Lamp :=
  match l.dissolve with
  | some d =>
    if d.elapsed < d.duration then
      let e := { d with elapsed := d.elapsed + 1 }
      { l with dissolve := some e, computed := l.dissolveLevel e }
    else l
  | none => l

/-! ## Caps (R145) -/

/-- The thermal cap (R145). -/
def thermalCap : ThermalState → Nat
  | .cold => 255
  | .warm => 255
  | .hot => 160
  | .overheat => 0

/-- The supply cap (R145). -/
def supplyCap : SupplyState → Nat
  | .normal => 255
  | .low => 128
  | .critical => 0

/-- The fan state is RUNNING (R145). -/
def FanState.isRunning : FanState → Bool
  | .running _ => true
  | _ => false

/-- A zero condition holds: the fan is not RUNNING, the lamp changer is SWAPPING or JAMMED, or the active lamp's record
is FAILED (R145). -/
def State.lampHeldDark (s : State) : Bool :=
  !s.mon.fan.isRunning || s.lamp.changer.isSwapping || decide (s.lamp.changer = .jammed) ||
    decide ((s.lamp.record s.lamp.active).status = .failed)

/-- The lower of the two caps (R145). -/
def State.lampCap (s : State) : Nat := min (thermalCap s.mon.thermal) (supplyCap s.mon.supply)

/-- The allowed level (R145). -/
def State.allowed (s : State) : Nat := if s.lampHeldDark then 0 else min s.lamp.computed s.lampCap

/-! ## The fan's demand (R151, R152) -/

/-- The speeds of the fan output (R151). -/
inductive FanSpeed where
  | low
  | mid
  | high
  deriving DecidableEq, Repr

/-- The duty of the fan output at a speed, in hundredths (R151). -/
def FanSpeed.duty : FanSpeed → Nat
  | .low => 40
  | .mid => 70
  | .high => 100

/-- The fan's demand (R151). -/
def State.fanDemand (s : State) : Option FanSpeed :=
  if s.mon.thermal = .hot ∨ s.mon.thermal = .overheat then some .high
  else if s.mon.thermal = .warm then some .mid
  else if 0 < s.lamp.applied ∨ 0 < s.mon.cooldown ∨ 180 ≤ s.mon.temperature then some .low
  else none

/-- The fan's drive: HIGH in STARTING, the demand's speed in RUNNING, otherwise off (R152). -/
def State.fanDrive (s : State) : Option FanSpeed :=
  match s.mon.fan with
  | .starting _ => some .high
  | .running _ => s.fanDemand
  | _ => none

/-- The duty the fan output has, in hundredths; 0 while the fan is off, and without a supply (R151, R152; logs 6 and
26). -/
def State.fanDuty (s : State) : Nat :=
  if s.powered then
    match s.fanDrive with
    | some speed => speed.duty
    | none => 0
  else 0

/-- The fan acts on the demand as it stands: OFF without one, STARTING from OFF with one (R152, R153). -/
def State.reformDemand (s : State) : State :=
  if s.fanDemand = none then { s with mon := { s.mon with fan := .off, fanAttempts := 0 } }
  else if s.mon.fan = .off then { s with mon := { s.mon with fan := .starting 0 } }
  else s

/-! ## The applied level (R146) -/

/-- The applied level takes a value: the held flag is formed after the update, and a fall from above 0 to 0 restarts
the cooldown timer and requests a lamp write of the active record (R146, R154, R163). A change forms the fan's demand
again (R151). -/
def State.setApplied (s : State) (a : Nat) : State :=
  let t := { s with lamp := { s.lamp with applied := a, held := decide (a < s.lamp.computed) } }
  if a = 0 ∧ 0 < s.lamp.applied then
    (({ t with mon := { t.mon with cooldown := Config.cooldownTicks } } : State).reformDemand).requestLampWrite s.lamp.active
  else if a = s.lamp.applied then t
  else t.reformDemand

/-- The update at an event before which the allowed level stood at a value: where the allowed level has fallen, the applied
level follows at once if it stands above it, and the held flag is formed in any case (R146). Where it has not fallen
there is no update (DEDUCED, log 18). -/
def State.lampFall (s : State) (before : Nat) : State :=
  if s.allowed < before ∨ s.allowed < s.lamp.applied then s.setApplied (min s.lamp.applied s.allowed) else s

/-- The applied level at a tick (R146). -/
def State.tickLevel (s : State) : Nat :=
  if s.allowed < s.lamp.applied then s.allowed
  else if s.lamp.held then min s.allowed (s.lamp.applied + 8)
  else s.allowed

/-- The lamp controller's part of a tick: the dissolve step, the applied level, the lamp current sample and the lit
time (R141, R146, R157, R162). -/
def State.lampTickWork (s : State) (currentPresent : Bool) : State :=
  let t := { s with lamp := s.lamp.dissolveStep }
  let u := t.setApplied t.tickLevel
  { u with lamp := { u.lamp with
      failCount := if 32 ≤ u.lamp.applied ∧ currentPresent = false then u.lamp.failCount + 1 else 0
      litCount := if 0 < u.lamp.applied then u.lamp.litCount + 1 else u.lamp.litCount } }

/-- A LAMP action: target and computed level, and the running dissolve superseded (R139). -/
def State.setLamp (s : State) (level : Nat) : State :=
  ({ s with lamp := { s.lamp with target := level, computed := level, dissolve := none } } : State).lampFall s.allowed

/-- A DISSOLVE action: with duration 0 a LAMP of its target, otherwise a new record from the computed level (R140). -/
def State.beginDissolve (s : State) (target duration : Nat) (loaded : Bool) : State :=
  if duration = 0 then s.setLamp target
  else
    { s with lamp := { s.lamp with
        target := target
        dissolve := some { start := s.lamp.computed, target := target, duration := duration, loaded := loaded, elapsed := 0, restart := false } } }

/-! ## The lamp changer (R158 to R161) -/

/-- The lamp that is not this one. -/
def LampNo.other : LampNo → LampNo
  | .lamp0 => .lamp1
  | .lamp1 => .lamp0

/-- A lamp's record replaced. -/
def Lamp.setRecord (l : Lamp) (n : LampNo) (r : LampRecord) : Lamp :=
  match n with
  | .lamp0 => { l with record0 := r }
  | .lamp1 => { l with record1 := r }

/-- The shutter driven closed, or open (R110, R128). -/
def State.driveShutter (s : State) (opened : Bool) : State := { s with tray := { s.tray with shutterOpen := opened } }

/-- The tray changer is HOMING, CHANGING or SUSPENDED (R158). -/
def TrayState.busy : TrayState → Bool
  | .homing _ => true
  | .changing _ => true
  | .suspended _ => true
  | _ => false

/-- The lamp changer motor is driven: from the start of a swap, which makes the lamp changer SWAPPING, to either of its
endings, which leave that state (R159, R160); not without a supply (logs 6 and 26). -/
def State.lampMotor (s : State) : Bool := s.powered && s.lamp.changer.isSwapping

/-- The start of a swap: the motor starts with SWAPPING with its timer at 0, the applied level at 0, the shutter closed,
the failure count 0 (R159, R128). -/
def State.startSwap (s : State) : State :=
  (({ s with lamp := { s.lamp with changer := .swapping 0, failCount := 0 } } : State).lampFall s.allowed).driveShutter false

/-- A swap request, taken only when the lamp changer is IDLE (R158). -/
def State.requestSwap (s : State) : State :=
  if s.lamp.changer = .idle then
    if s.tray.state.busy then { s with lamp := { s.lamp with changer := .waitChanger } } else s.startSwap
  else s

/-- A waiting lamp changer moves on: the swap starts when the active record is still FAILED, otherwise it is withdrawn
(R159). -/
def State.swapMovesOn (s : State) : State :=
  if (s.lamp.record s.lamp.active).status = .failed then s.startSwap
  else { s with lamp := { s.lamp with changer := .idle } }

/-- The active lamp has failed (R157). -/
def State.lampFails (s : State) : State :=
  let r := s.lamp.record s.lamp.active
  let t := ({ s with lamp := { s.lamp.setRecord s.lamp.active { r with status := .failed } with failCount := 0 } } : State)
  let u := (t.latch .lampFailed).lampFall s.allowed
  if u.paramOn .autoSwap && decide ((u.lamp.record u.lamp.active.other).status = .ok) then u.requestSwap else u

/-- The swap switch ends a swap, and its motor stops: the other lamp becomes active, LAMP_SWAPPED latches, and the
restart dissolve from 0 to the target over 50 ticks begins. The SETTINGS copy follows, after a SAVE of SETTINGS in
flight (R160, R164). -/
def State.swapSucceeds (s : State) : State :=
  let n := s.lamp.active.other
  let waits := s.saving .settings
  ({ s with lamp := { s.lamp with
      changer := .idle
      active := n
      savedActive := if waits then s.lamp.savedActive else n
      activeWaits := waits
      held := false
      computed := 0
      dissolve := some { start := 0, target := s.lamp.target, duration := 50, loaded := false, elapsed := 0, restart := true } } }
    : State).latch .lampSwapped

/-- The swap timer's limit: the swap has jammed, and its motor stops (R160). -/
def State.swapJams (s : State) : State :=
  ({ s with lamp := { s.lamp with changer := .jammed } } : State).latch .swapJam

/-- LAMP_REPLACED's effects: the record, the failure count or a swap request, and the lamp write (R57, R161, R163). -/
def State.replaceLamp (s : State) (n : LampNo) : State :=
  let t := ({ s with lamp := s.lamp.setRecord n { status := .ok, minutes := 0 } } : State)
  let u :=
    if n = t.lamp.active then { t with lamp := { t.lamp with failCount := 0 } }
    else if (t.lamp.record t.lamp.active).status = .failed ∧ t.paramOn .autoSwap = true then t.requestSwap
    else t
  u.requestLampWrite n

/-- A lit minute is added to the active record, and each 30th requests a lamp write (R162, R163). -/
def State.addLitMinute (s : State) : State :=
  let n := s.lamp.active
  let r := s.lamp.record n
  let m := satAdd 16777215 r.minutes
  let t := ({ s with lamp := { s.lamp.setRecord n { r with minutes := m } with litCount := 0 } } : State)
  if m % 30 = 0 then t.requestLampWrite n else t

/-- The fan enters STALLED: FAN_STALL latches and the lamp is held dark (R153). -/
def State.fanStalls (s : State) : State :=
  ((({ s with mon := { s.mon with fan := .stalled false } } : State).latch .fanStall).lampFall s.allowed)

/-! ## Thermal state and supply state (R148 to R156) -/

/-- The thermal states in order (R149). -/
def thermalRank : ThermalState → Nat
  | .cold => 0
  | .warm => 1
  | .hot => 2
  | .overheat => 3

/-- A state counts at temperature t when its entry threshold is reached, or its stay threshold while it is not above
the present one (R149). -/
def thermalReached (present state : ThermalState) (t : Nat) : Bool :=
  let stay := decide (thermalRank state ≤ thermalRank present)
  match state with
  | .cold => true
  | .warm => decide (240 ≤ t) || (stay && decide (220 ≤ t))
  | .hot => decide (340 ≤ t) || (stay && decide (320 ≤ t))
  | .overheat => decide (400 ≤ t) || (stay && decide (380 ≤ t))

/-- The thermal state a conversion forms (R149). -/
def nextThermal (present : ThermalState) (t : Nat) : ThermalState :=
  if thermalReached present .overheat t then .overheat
  else if thermalReached present .hot t then .hot
  else if thermalReached present .warm t then .warm
  else .cold

/-- The housing temperature of a code, trimmed and clamped (R148). -/
def State.trimmedTemperature (s : State) (code : BitVec 10) : Nat :=
  (clampInt 0 1023 ((code.toNat : Int) + s.paramInt .tempTrim)).toNat

/-- The thresholds of a SUPPLY_PRESET: LOW entered, LOW left, CRITICAL entered, CRITICAL left (R155). -/
def supplyThresholds : Nat → Nat × Nat × Nat × Nat
  | 0 => (420, 430, 380, 390)
  | 1 => (440, 450, 400, 410)
  | 2 => (450, 460, 410, 420)
  | _ => (460, 470, 420, 430)

/-- The supply state a sample forms (R155). -/
def nextSupply (preset : Nat) (present : SupplyState) (r : Nat) : SupplyState :=
  match supplyThresholds preset with
  | (lowIn, lowOut, critIn, critOut) =>
    if r < critIn then .critical
    else if present = .critical ∧ r < critOut then .critical
    else if r < lowIn then .low
    else if present ≠ .normal ∧ r < lowOut then .low
    else .normal

end Sys2Proof.Machine
end

