-- ==== Sys2Proof/Machine/TrayOps.lean ====
section
/-! DEFINITION. The changer up to the point where it comes to rest: positions, eligibility and targets, the phases it
begins, suspension, the shutter action, and taking a head (R109 to R129, R133). -/

namespace Sys2Proof.Machine

/-! ## Positions and targets (R111, R116 to R118) -/

/-- A state with its changer replaced. -/
def State.setTray (s : State) (t : Tray) : State := { s with tray := t }

/-- One place in a direction, modulo 100 (R111). -/
def stepFrom (d : Direction) (p : Nat) : Nat :=
  match d with
  | .forward => (p + 1) % 100
  | .backward => (p + 99) % 100

/-- The distance from p to q in a direction, 0 to 99 (R113, R116). -/
def distanceIn (d : Direction) (p q : Nat) : Nat :=
  match d with
  | .forward => (q + 100 - p % 100) % 100
  | .backward => (p + 100 - q % 100) % 100

/-- A slot map entry (R115). -/
def Tray.slot (t : Tray) (p : Nat) : SlotEntry := t.slots.getD p SlotEntry.blank

/-- A position is eligible for an ADVANCE or REVERSE with or without its skip flag (R116). -/
def Tray.eligible (t : Tray) (skip : Bool) (p : Nat) : Bool :=
  decide (p ≠ 0) && !(t.slot p).skip && !(decide ((t.slot p).occupancy = .empty) && skip)

/-- The 100 positions from the one next to p in a direction, p itself last (R116). -/
def positionsFrom (d : Direction) (p : Nat) : List Nat :=
  (List.range 100).map fun k =>
    match d with
    | .forward => (p + 1 + k) % 100
    | .backward => (p + 199 - k) % 100

/-- The nth eligible position met going round the tray as often as n needs; none when no position is eligible
(R116). -/
def Tray.nthEligible (t : Tray) (d : Direction) (n : Nat) (skip : Bool) : Option Nat :=
  let found := (positionsFrom d t.position).filter (t.eligible skip)
  found[(n - 1) % found.length]?

/-- The first position forward of the current one that carries a mark, the current one not searched (R118). -/
def Tray.nextMarked (t : Tray) (m : Nat) : Option Nat :=
  ((positionsFrom .forward t.position).take 99).find? fun p => decide ((t.slot p).mark = m)

/-- What the choice of a target gives: a motion, none with nothing to report, none for want of an eligible position,
or none for want of the mark (R116 to R118). -/
inductive Choice where
  | motion (m : Motion)
  | none
  | trayEmpty
  | noMark
  deriving DecidableEq, Repr

/-- A motion to a target in a direction. -/
def motionTo (d : Direction) (p target : Nat) : Motion :=
  { direction := d, target := target, remaining := distanceIn d p target, extra := 0, dark := false }

/-- The choice of a target for an action, from the position as it stands (R116, R117, R118). -/
def Tray.choose (t : Tray) (a : Action) : Choice :=
  match a with
  | .advance n skip =>
    match t.nthEligible .forward n skip with
    | some q => .motion (motionTo .forward t.position q)
    | none => .trayEmpty
  | .reverse n skip =>
    match t.nthEligible .backward n skip with
    | some q => .motion (motionTo .backward t.position q)
    | none => .trayEmpty
  | .goto p =>
    let d := distanceIn .forward t.position p
    if d = 0 then .none
    else if d ≤ 50 then .motion (motionTo .forward t.position p)
    else .motion (motionTo .backward t.position p)
  | .gotoMark m =>
    match t.nextMarked m with
    | some q => .motion (motionTo .forward t.position q)
    | none => .noMark
  | _ => .none

/-- TRAY_EMPTY's event: it latches and its raw condition holds until the next change begins (R116, R121). -/
def State.reportTrayEmpty (s : State) : State :=
  (s.setTray { s.tray with trayEmpty := true }).latch .trayEmpty

/-- A choice without a motion latches its flag (R116, R118). -/
def State.reportChoice (s : State) (c : Choice) : State :=
  match c with
  | .trayEmpty => s.reportTrayEmpty
  | .noMark => s.latch .actionDiscarded
  | .motion _ => s
  | .none => s

/-! ## Phases (R119, R120, R125) -/

/-- The physical direction of the motor for a logical direction (R112). -/
def motorFor (sense : Option Sense) (d : Direction) : Direction :=
  match sense, d with
  | some .reversed, .forward => .backward
  | some .reversed, .backward => .forward
  | _, d => d

/-- At the end of a phase or step the supply is read: while it is CRITICAL the changer is SUSPENDED with the phase to
begin next, its motor stopped and its timer stopped; otherwise the next phase begins (R133). -/
def State.boundary (s : State) (r : Resume) (begin : State → State) : State :=
  if s.mon.supply = .critical then s.setTray { s.tray with state := .suspended r, motor := none, timer := 0 }
  else begin s

/-- SETTLE begins (R119). -/
def State.beginSettle (s : State) : State := s.setTray { s.tray with state := .changing .settle, timer := 0 }

/-- INDEX, or its next step, begins with the motor in the direction (R119, R120). -/
def State.beginIndex (s : State) : State :=
  match s.tray.motion with
  | some m =>
    s.setTray { s.tray with state := .changing .index, timer := 0, motor := some (motorFor s.tray.sense m.direction) }
  | none => s

/-- SEEK, or its next step, begins with the motor logical FORWARD (R125). -/
def State.beginSeek (s : State) : State :=
  s.setTray { s.tray with state := .homing .seek, timer := 0, motor := some (motorFor s.tray.sense .forward) }

/-- The position's occupancy as the slide-present sensor shows it, recorded while the position is valid (R115). -/
def State.recordOccupancy (s : State) (present : Bool) : State :=
  if s.tray.valid then
    let e := { s.tray.slot s.tray.position with occupancy := if present then Occupancy.present else .empty }
    s.setTray { s.tray with slots := s.tray.slots.setIfInBounds s.tray.position e }
  else s

/-- The action calls for extra steps: an ADVANCE or REVERSE whose skip flag is set (R121). -/
def wantsSlide : Option Action → Bool
  | some (.advance _ skip) => skip
  | some (.reverse _ skip) => skip
  | _ => false

/-- LOWER of an extra step begins, with one step to go; a gate already down ends it at once (R121, R110). -/
def State.beginExtraLower (s : State) : State :=
  let t := s.setTray { s.tray with state := .changing .lower, gate := .down, timer := 0 }
  if t.tray.downSwitch then t.boundary (.change .index) State.beginIndex else t

/-- RAISE of a change ends: occupancy is recorded and the extra-step test made (R120, R121). Under a STOP's cut SETTLE
follows without a test, and TRAY_EMPTY does not latch after the 99th extra step either (R131; DESIGN CHOICE, log 51). -/
def State.raiseEnds (s : State) (present : Bool) : State :=
  let t := s.recordOccupancy present
  match t.tray.motion with
  | some m =>
    if wantsSlide t.tray.current && t.tray.valid && !t.tray.cut && !t.tray.eligible true t.tray.position then
      if m.extra < 99 then
        (t.setTray { t.tray with motion := some { m with
            extra := m.extra + 1, target := stepFrom m.direction t.tray.position, remaining := 1 } }).boundary
          (.change .lower) State.beginExtraLower
      else
        ((t.setTray { t.tray with motion := some { m with dark := true } }).reportTrayEmpty).boundary
          (.change .settle) State.beginSettle
    else t.boundary (.change .settle) State.beginSettle
  | none => t.boundary (.change .settle) State.beginSettle

/-- RAISE of a change begins; a gate already up ends it at once (R119, R110). -/
def State.beginRaise (s : State) : State :=
  let t := s.setTray { s.tray with state := .changing .raise, gate := .up, timer := 0 }
  if t.tray.upSwitch then t.raiseEnds t.tray.slidePresent else t

/-- The steps a change still has to make. -/
def Tray.remaining (t : Tray) : Nat :=
  match t.motion with
  | some m => m.remaining
  | none => 0

/-- INDEX begins, or is passed over when no steps remain (R120). -/
def State.beginIndexOrRaise (s : State) : State := if s.tray.remaining = 0 then s.beginRaise else s.beginIndex

/-- LOWER of a change ends: INDEX, or RAISE when no steps remain, follows (R120, R133). -/
def State.lowerEnds (s : State) : State :=
  s.boundary (.change (if s.tray.remaining = 0 then .raise else .index)) State.beginIndexOrRaise

/-- LOWER of a change begins; a gate already down ends it at once (R119, R110). -/
def State.beginLower (s : State) : State :=
  let t := s.setTray { s.tray with state := .changing .lower, gate := .down, timer := 0 }
  if t.tray.downSwitch then t.lowerEnds else t

/-- SHUTTER_CLOSE of a change ends: LOWER follows (R120, R133). -/
def State.closeEnds (s : State) : State := s.boundary (.change .lower) State.beginLower

/-- SHUTTER_CLOSE of a change begins with the shutter driven closed; a shutter already closed ends it at once (R119,
R110). -/
def State.beginClose (s : State) : State :=
  let t := s.setTray { s.tray with state := .changing .shutterClose, shutterOpen := false, timer := 0 }
  if t.tray.closedSwitch then t.closeEnds else t

/-- A change begins (R119): raw TRAY_EMPTY ends with it (R116). -/
def State.beginChange (s : State) (a : Action) (m : Motion) : State :=
  (s.setTray { s.tray with
    motion := some m, current := some a, cut := false, trayEmpty := false }).beginClose

/-- LOWER of a homing ends: SEEK follows (R125, R133). -/
def State.homeLowerEnds (s : State) : State := s.boundary (.home .seek) State.beginSeek

/-- LOWER of a homing begins; a gate already down ends it at once (R125). -/
def State.beginHomeLower (s : State) : State :=
  let t := s.setTray { s.tray with state := .homing .lower, gate := .down, timer := 0 }
  if t.tray.downSwitch then t.homeLowerEnds else t

/-- SHUTTER_CLOSE of a homing ends: LOWER follows (R125, R133). -/
def State.homeCloseEnds (s : State) : State := s.boundary (.home .lower) State.beginHomeLower

/-- SHUTTER_CLOSE of a homing begins (R125). -/
def State.beginHomeClose (s : State) : State :=
  let t := s.setTray { s.tray with state := .homing .shutterClose, shutterOpen := false, timer := 0 }
  if t.tray.closedSwitch then t.homeCloseEnds else t

/-- A homing begins: the position becomes invalid, TRAY_SENSE is read, the seek count is 0 (R125). An action taken while
UNHOMED, a HOME among them, is the carried action (R109, R126; log 19). Either way the action is the current action too,
from the start of its homing (DESIGN CHOICE, log 54). -/
def State.beginHoming (s : State) (a : Action) : State :=
  (s.setTray { s.tray with
    valid := false, sense := some s.traySense, seekCount := 0, current := some a,
    carried := if s.tray.state = .unhomed then some a else none, motion := none, cut := false }).beginHomeClose

/-! ## The shutter action and the taking of a head (R101, R129) -/

/-- A SHUTTER action: OPEN clears hold-dark and opens unless OVERHEAT holds; CLOSE closes (R129). -/
def State.shutterAction (s : State) (close : Bool) : State :=
  if close then s.driveShutter false
  else
    let t := s.setTray { s.tray with holdDark := false }
    if s.mon.thermal = .overheat then t else t.driveShutter true

/-- A changer-kind head taken while UNHOMED homes first; one taken while IDLE begins at once (R101, R119, R125). -/
def State.trayTake (s : State) (a : Action) : State :=
  if s.tray.state = .unhomed then s.beginHoming a
  else
    match a with
    | .home => s.beginHoming a
    | .shutter close => s.shutterAction close
    | _ =>
      match s.tray.choose a with
      | .motion m => s.beginChange a m
      | c => s.reportChoice c

/-- The tray changer stands at rest in IDLE, UNHOMED or JAMMED (R159). -/
def TrayState.atRest : TrayState → Bool
  | .idle => true
  | .unhomed => true
  | .jammed => true
  | _ => false

end Sys2Proof.Machine
end

