-- ==== Sys2Proof/Machine/SoundOps.lean ====
section
/-! DEFINITION. The sound path: writes and reads of the FIFO, slips, mute reasons, the gain and its target, delay
changes (R167 to R178). -/

namespace Sys2Proof.Machine

/-- A state with its sound path replaced. -/
def State.setSound (s : State) (a : Sound) : State := { s with sound := a }

/-- A state with its mute reasons replaced. -/
def State.setReasons (s : State) (r : MuteReasons) : State := s.setSound { s.sound with reasons := r }

/-! ## Mute reasons and the gain target (R172, R173) -/

/-- The sound path is muted: a reason that is not maskable is raised, or a maskable one in MUTE_MASK (R173). -/
def State.muted (s : State) : Bool :=
  let r := s.sound.reasons
  let mask := s.param .muteMask
  r.command || r.fill || r.delayChange || (r.link && mask.getLsbD 0) || (r.badRun && mask.getLsbD 1) ||
    (r.silent && mask.getLsbD 2) || (r.underflow && mask.getLsbD 3)

/-- The gain target: OFF while muted, otherwise the show level (R173). -/
def State.gainTarget (s : State) : Nat := if s.muted then Config.offStep else s.sound.showLevel

/-! ## Writing (R168, R169) -/

/-- A slip: the count adds one, wrapping, and AUDIO_SLIP latches (R168, R170). -/
def State.slip (s : State) : State := (s.setSound { s.sound with slips := s.sound.slips + 1 }).latch .audioSlip

/-- A write that brings the level to D or above ends FILLING (R169). -/
def State.endFilling (s : State) : State :=
  if s.sound.reader = .filling ∧ s.sound.delay ≤ s.sound.fifo.length ∧ 1 ≤ s.sound.fifo.length then
    s.setSound { s.sound with
      reader := .playing
      reasons := { s.sound.reasons with fill := false, underflow := false } }
  else s

/-- A pair is written at the FIFO's tail, or dropped as a slip when 8192 are held (R168). The holdoff, which R170 sets at
a slip of a read, stays as it stands at such a drop (DESIGN CHOICE, log 40). -/
def State.writePair (s : State) (p : Pair) : State :=
  if Config.fifoPairs ≤ s.sound.fifo.length then s.slip
  else (s.setSound { s.sound with fifo := s.sound.fifo ++ [p] }).endFilling

/-! ## Reading (R169, R170) -/

/-- What a read does at its level (R169, R170). -/
inductive ReadKind where
  | filling
  | underflow
  | drop
  | repeated
  | normal
  deriving DecidableEq, Repr

/-- The read an output sample makes (R169, R170). -/
def Sound.readKind (a : Sound) : ReadKind :=
  match a.reader with
  | .filling => .filling
  | .playing =>
    if a.fifo.length = 0 then .underflow
    else if a.holdoff = 0 ∧ a.delay + 64 < a.fifo.length then .drop
    else if a.holdoff = 0 ∧ a.fifo.length + 64 < a.delay then .repeated
    else .normal

/-- One read: the pair it outputs and the state after it (R169, R170). -/
def State.readPair (s : State) : Pair × State :=
  let a := s.sound
  match a.readKind with
  | .filling => ((0, 0), s)
  | .underflow =>
    ((0, 0), s.setSound { a with
      reader := .filling, holdoff := a.holdoff - 1, reasons := { a.reasons with underflow := true } })
  | .drop =>
    match a.fifo with
    | _ :: p :: rest => (p, (s.setSound { a with fifo := rest, lastRead := p, holdoff := 160 }).slip)
    | _ => ((0, 0), s)
  | .repeated => (a.lastRead, (s.setSound { a with holdoff := 160 }).slip)
  | .normal =>
    match a.fifo with
    | p :: rest => (p, s.setSound { a with fifo := rest, lastRead := p, holdoff := a.holdoff - 1 })
    | [] => ((0, 0), s)

/-! ## The gain (R174, R175) -/

/-- One step toward a target. -/
def stepToward (n target : Nat) : Nat := if n < target then n + 1 else if target < n then n - 1 else n

/-- The gain at an output sample: the ramp count adds one, and the step moves when it is due (R174). -/
def State.rampGain (s : State) : State :=
  let count := satAdd 255 s.sound.rampCount
  if s.sound.step ≠ s.gainTarget ∧ s.paramNat .rampInterval ≤ count then
    s.setSound { s.sound with step := stepToward s.sound.step s.gainTarget, rampCount := 0 }
  else s.setSound { s.sound with rampCount := count }

/-- The factor of a gain step; that of OFF is 0 (R175). -/
def gainFactor (step : Nat) : Nat := Config.gainFactors.getD step 0

/-- A sample scaled by a step, rounded down (R175). -/
def scaleSample (step : Nat) (x : Sample) : Sample := BitVec.ofInt 16 ((x.toInt * (gainFactor step : Int)) / 32768)

/-- The pair the output converter is given (R175). -/
def State.driveOutput (s : State) (p : Pair) : State :=
  s.setSound { s.sound with
    output :=
      if s.paramOn .soundOut then (scaleSample s.sound.step p.1, scaleSample s.sound.step p.2) else (0, 0) }

/-! ## Delay changes (R177, R178) -/

/-- The flush of a delay change (R178). -/
def State.flushDelay (s : State) : State :=
  match s.sound.pendingDelay with
  | some d =>
    s.setSound { s.sound with
      fifo := [], delay := d, pendingDelay := none, lastRead := (0, 0), holdoff := 0, reader := .filling,
      reasons := { s.sound.reasons with delayChange := false, underflow := false, fill := true } }
  | none => s

/-- The flush follows when the gain stands at OFF with a delay pending (R177). -/
def State.flushIfOff (s : State) : State := if s.sound.step = Config.offStep then s.flushDelay else s

/-- A SET_PARAM of AUDIO_DELAY starts or restarts a delay change (R177). -/
def State.changeDelay (s : State) (d : Nat) : State :=
  (s.setSound { s.sound with
    pendingDelay := some d, reasons := { s.sound.reasons with delayChange := true } }).flushIfOff

/-- One output sample: the read, the gain, the output and a flush that has become due (R169 to R178). -/
def State.outputSampleWork (s : State) : State :=
  let r := s.readPair
  ((r.2.rampGain).driveOutput r.1).flushIfOff

/-! ## Actions and parameters of level (R176) -/

/-- The show level taken from an AUDIO action or from AUDIO_LEVEL (R176). -/
def State.setShowLevel (s : State) (step : Nat) : State := s.setSound { s.sound with showLevel := step }

/-- A MUTE action (R176). -/
def State.setCommandMute (s : State) (on : Bool) : State := s.setReasons { s.sound.reasons with command := on }

end Sys2Proof.Machine
end

