-- ==== Sys2Proof/Machine/QueueOps.lean ====
section
/-! DEFINITION. The action queue: placement, the offer of its head to the owners, PAUSE, STOP's purge, and the meeting
of the offer with a waiting swap; the TAPE action's effect on the transport (R96 to R108, R182, R183, R159). -/

namespace Sys2Proof.Machine

/-! ## The end of a calibration (R184, R185) -/

/-- The trim a sum of 256 codes gives: rounded to the nearest with halves away from zero, and clamped (R184). -/
def trimOf (sum : Nat) : Int :=
  let x : Int := 524288 - (sum : Int)
  let n : Int := (((x.natAbs + 1024) / 2048 : Nat) : Int)
  clampInt (-7) 7 (if x < 0 then -n else n)

/-- The calibration has its 256 readings (R184). -/
def State.calibrationDue (s : State) : Bool := s.tape.calibration.any fun c => decide (256 ≤ c.count)

/-- CALIBRATION_COMPLETE (R184, R185). -/
def State.calibrationEnds (s : State) : State :=
  match s.tape.calibration with
  | some c =>
    if 256 ≤ c.count then
      let trims : Trims := { left := trimOf c.sumLeft, right := trimOf c.sumRight, cue := trimOf c.sumCue }
      let t := ({ s with tape := { s.tape with calibration := none } } : State)
      if s.saving .settings then { t with tape := { t.tape with pendingTrims := some trims } } else t.setTrims trims
    else s
  | none => s

/-! ## The transport (R182, R183) -/

/-- The speeds of the transport drive (R182). -/
inductive TransportDrive where
  | stopped
  | play
  | fastForward
  | rewind
  deriving DecidableEq, Repr

/-- The drive a transport state gives (R182). -/
def Transport.drive : Transport → TransportDrive
  | .stopped => .stopped
  | .playing => .play
  | .windForward => .fastForward
  | .windBack => .rewind
  | .atEnd => .stopped

/-- The transport drive; without a supply it is stopped (R182, R190; logs 6 and 26). -/
def State.transportDrive (s : State) : TransportDrive := if s.powered then s.tape.transport.drive else .stopped

/-- The state a TAPE action asks for from the state it finds (R182). -/
def Transport.after (t : Transport) (c : TapeCommand) : Transport :=
  match t, c with
  | .stopped, .play => .playing
  | .stopped, .stop => .stopped
  | .stopped, .windForward => .windForward
  | .stopped, .windBack => .windBack
  | .playing, .play => .playing
  | .playing, .stop => .stopped
  | .playing, .windForward => .windForward
  | .playing, .windBack => .windBack
  | .windForward, .play => .playing
  | .windForward, .stop => .stopped
  | .windForward, .windForward => .windForward
  | .windForward, .windBack => .windBack
  | .windBack, .play => .playing
  | .windBack, .stop => .stopped
  | .windBack, .windForward => .windForward
  | .windBack, .windBack => .windBack
  | .atEnd, .play => .atEnd
  | .atEnd, .stop => .stopped
  | .atEnd, .windForward => .atEnd
  | .atEnd, .windBack => .windBack

/-- A state in which the tape runs toward its end (R183). -/
def Transport.towardEnd : Transport → Bool
  | .playing => true
  | .windForward => true
  | _ => false

/-- The transport enters END, and TAPE_END latches (R183). -/
def State.enterTapeEnd (s : State) : State :=
  ({ s with tape := { s.tape with transport := .atEnd } } : State).latch .tapeEnd

/-- A TAPE action in the master: entering PLAYING or WIND_FWD with the end sensor active enters END instead; leaving
STOPPED abandons a calibration, but for one whose 256th reading has been taken, which completes. A follower takes the
action without effect (R104, R182, R183, R185). -/
def State.tapeAction (s : State) (c : TapeCommand) : State :=
  if s.isMaster then
    let old := s.tape.transport
    let new := old.after c
    let t :=
      if old = .stopped ∧ new ≠ .stopped then
        let c := s.calibrationEnds
        { c with tape := { c.tape with calibration := none } }
      else s
    if new ≠ old ∧ new.towardEnd = true ∧ s.tape.endSensor = true then t.enterTapeEnd
    else { t with tape := { t.tape with transport := new } }
  else s

/-- A MARK action: the last-mark value and its flag (R104). -/
def State.markAction (s : State) (n : Byte) : State :=
  ({ s with events := { s.events with lastMark := n } } : State).latch .mark

/-- An immediate-kind action handed to its owner (R104); the changer kinds and PAUSE are not handed so. -/
def State.handImmediate (s : State) (a : Action) : State :=
  match a with
  | .lamp level => s.setLamp level
  | .dissolve target duration loaded => s.beginDissolve target duration loaded
  | .audio step => s.setShowLevel step
  | .mute on => s.setCommandMute on
  | .tape c => s.tapeAction c
  | .mark n => s.markAction n
  | _ => s

/-! ## The offer (R100 to R105) -/

/-- The head leaves the queue and counts as taken (R107). -/
def State.takeHead (s : State) (rest : List QueueEntry) : State :=
  { s with queue := { s.queue with entries := rest, taken := s.queue.taken + 1 } }

/-- A changer-kind head may be taken (R101). -/
def State.changerFree (s : State) : Bool :=
  (decide (s.tray.state = .idle) || decide (s.tray.state = .unhomed)) && !s.lamp.changer.isSwapping &&
    decide (s.mon.supply ≠ .critical)

/-- A swap waits for the tray changer, and the tray changer stands at rest (R159). -/
def State.swapCanMove (s : State) : Bool := decide (s.lamp.changer = .waitChanger) && s.tray.state.atRest

/-- The waiting swap moves on when the tray changer stands at rest (R159). -/
def State.moveSwap (s : State) : State := if s.swapCanMove then s.swapMovesOn else s

/-- Where the start of a waiting swap and the queue's offer may come in either order, a free value says whether the
swap is first (R103, R159; log 8). -/
def State.raceSwap (s : State) : State :=
  if s.swapCanMove then (if Config.swapFirst s.drawn then s.draw.swapMovesOn else s.draw) else s

/-- The heads of the queue offered one after another: each is taken, waits, or is discarded (R100 to R105). -/
def offerEntries : List QueueEntry → State → State
  | [], s => s
  | e :: rest, s =>
    if e.action.forChanger then
      if s.tray.state = .jammed then
        offerEntries rest ((s.takeHead rest).latch .actionDiscarded)
      else if s.changerFree then
        offerEntries rest (((s.takeHead rest).trayTake e.action).raceSwap)
      else s
    else
      match e.action with
      | .pause d =>
        if d = 0 then offerEntries rest (s.takeHead rest)
        else
          let t := s.takeHead rest
          { t with queue := { t.queue with pause := some { elapsed := 0, duration := d } } }
      | a => offerEntries rest ((s.takeHead rest).handImmediate a)

/-- The queue offers its head when no PAUSE is running (R100); a swap that waits on a changer still at rest afterwards
moves on (R159). -/
def State.offer (s : State) : State :=
  (if s.queue.pause.isSome then s else offerEntries s.queue.entries s).moveSwap

/-- The tray changer has entered IDLE, UNHOMED or JAMMED: it tells the queue and a waiting swap (R100, R109, R159). -/
def State.trayRests (s : State) : State := s.raceSwap.offer

/-! ## Placement (R97, R98) -/

/-- Entries placed at the tail, counted as accepted; placed into an empty queue, the head is offered (R91, R97, R100,
R107). -/
def State.place (s : State) (actions : List Action) (source : ActionSource) : State :=
  let t := { s with queue := { s.queue with
      entries := s.queue.entries ++ actions.map (fun a => { action := a, source := source })
      accepted := s.queue.accepted + BitVec.ofNat 32 actions.length } }
  if s.queue.entries = [] then t.offer else t

/-- Free places of the queue (R97). -/
def State.queueRoom (s : State) : Nat := Config.queuePlaces - s.queue.entries.length

/-- A KEY or RELAY action, or an ACT to a group or to all, is placed, or discarded at a full queue (R98). -/
def State.placeOrDiscard (s : State) (a : Action) (source : ActionSource) : State :=
  if 1 ≤ s.queueRoom then s.place [a] source else s.latch .actionDiscarded

/-- The entries removed by STOP, counted as purged, and a running PAUSE cancelled (R106, R107). -/
def State.purge (s : State) : State :=
  { s with queue := { s.queue with
      entries := [], pause := none, purged := s.queue.purged + BitVec.ofNat 32 s.queue.entries.length } }

end Sys2Proof.Machine
end

