-- ==== Sys2Proof/Machine/ChangerOps.lean ====
section
/-! DEFINITION. The changer from a phase's end to its rest: the ends of changes and homings, jams, index pulses,
the switches, STOP, TRAY_SENSE, and resumption (R111 to R134). -/

namespace Sys2Proof.Machine

/-! ## The ends of a change and of a homing (R122, R126, R132) -/

/-- The changer comes to rest: IDLE when the position is valid, otherwise UNHOMED; what was present during the motion
ceases, and the queue and a waiting swap are told (R109, R122). -/
def State.endMotion (s : State) : State :=
  (s.setTray { s.tray with
    state := if s.tray.valid then TrayState.idle else .unhomed
    timer := 0, motion := none, seekCount := 0, current := none, carried := none, cut := false
    motor := none }).trayRests

/-- A homing ends in UNHOMED (R112, R132). -/
def State.enterUnhomed (s : State) : State := (s.setTray { s.tray with valid := false }).endMotion

/-- SHUTTER_OPEN begins with the shutter driven open; a shutter already open ends it, and the change, at once (R119,
R110, R122). -/
def State.beginShutterOpen (s : State) : State :=
  let t := s.setTray { s.tray with state := .changing .shutterOpen, shutterOpen := true, timer := 0 }
  if t.tray.openSwitch then t.endMotion else t

/-- SHUTTER_OPEN is to be skipped: hold-dark, OVERHEAT, or the 99th extra step without a slide (R120, R121). -/
def State.endsDark (s : State) : Bool :=
  s.tray.holdDark || decide (s.mon.thermal = .overheat) || s.tray.motion.any fun m => m.dark

/-- SETTLE ends (R120, R133). -/
def State.settleEnds (s : State) : State :=
  if s.endsDark then s.endMotion else s.boundary (.change .shutterOpen) State.beginShutterOpen

/-- RAISE of a homing ends: occupancy is recorded, a carried SHUTTER is carried out, and the homing ends (R115,
R126). -/
def State.homeRaiseEnds (s : State) (present : Bool) : State :=
  let t := s.recordOccupancy present
  match t.tray.carried with
  | some (.shutter close) => (t.shutterAction close).endMotion
  | _ => t.endMotion

/-- RAISE of a homing begins; a gate already up ends it at once (R125, R110). -/
def State.beginHomeRaise (s : State) : State :=
  let t := s.setTray { s.tray with state := .homing .raise, gate := .up, timer := 0 }
  if t.tray.upSwitch then t.homeRaiseEnds t.tray.slidePresent else t

/-! ## Jams (R123, R127) -/

/-- The changer enters JAMMED: every drive stops, the shutter closes, the position is invalid, JAM latches, and
ACTION_DISCARDED for a carried action; the queue and a waiting swap are told (R123, R127). -/
def State.jam (s : State) : State :=
  let t := s.setTray { s.tray with
    state := .jammed, timer := 0, valid := false, motion := none, seekCount := 0, current := none, carried := none,
    cut := false, shutterOpen := false, gate := .off, motor := none }
  ((t.latch .jam).latchIf s.tray.carried.isSome .actionDiscarded).trayRests

/-- The limit of a phase, or of a step of INDEX or SEEK, in ticks (R119, R125). -/
def TrayState.limit : TrayState → Option Nat
  | .changing .shutterClose => some 10
  | .changing .lower => some 40
  | .changing .index => some 30
  | .changing .raise => some 40
  | .changing .settle => none
  | .changing .shutterOpen => some 10
  | .homing .shutterClose => some 10
  | .homing .lower => some 40
  | .homing .seek => some 30
  | .homing .raise => some 40
  | _ => none

/-- A phase or step has reached its limit (R123). -/
def State.phaseExpired (s : State) : Bool := s.tray.state.limit.any fun n => decide (n ≤ s.tray.timer)

/-- A homing's SEEK has counted 101 pulses without a home mark (R127). -/
def State.seekSpent (s : State) : Bool := decide (s.tray.state = .homing .seek) && decide (101 ≤ s.tray.seekCount)

/-- SETTLE has run its 15 ticks (R119). -/
def State.settleDue (s : State) : Bool := decide (s.tray.state = .changing .settle) && decide (15 ≤ s.tray.timer)

/-! ## Index pulses (R111 to R114, R126) -/

/-- An unexpected pulse (R114): a valid position becomes invalid and POSITION_ERROR latches; IDLE becomes UNHOMED. -/
def State.unexpectedPulse (s : State) : State :=
  if s.tray.valid then
    let t := (s.setTray { s.tray with valid := false, positionError := true }).latch .positionError
    if s.tray.state = .idle then t.endMotion else t
  else s

/-- The sense in use equals TRAY_SENSE (R112). -/
def State.senseAgrees (s : State) : Bool := decide (s.tray.sense = some s.traySense)

/-- The home mark met at a counted pulse of a change, after the count (R113; log 30). -/
def State.resync (s : State) (m : Motion) : State :=
  let zeroed := { s.tray with
    position := 0, motion := some { m with remaining := distanceIn m.direction 0 m.target } }
  if s.tray.valid then
    if s.tray.position = 0 then s.setTray { s.tray with positionError := false }
    else (s.setTray { zeroed with positionError := true }).latch .positionError
  else
    let agreed := s.tray.positionError && decide (s.tray.position ≠ 0)
    if s.senseAgrees then s.setTray { zeroed with valid := true, positionError := agreed }
    else s.setTray { s.tray with position := 0, positionError := agreed }

/-- A STOP has cut the change short: the remaining steps become 0 (R131). -/
def Tray.cutSteps (t : Tray) : Tray := { t with motion := t.motion.map fun m => { m with remaining := 0 } }

/-- A pulse counted in INDEX (R111, R113, R120, R131): with no steps left the motor stops and RAISE follows,
otherwise the next step. -/
def State.indexPulse (s : State) (m : Motion) (homeMark : Bool) : State :=
  let n := { m with remaining := m.remaining - 1 }
  let t := s.setTray { s.tray with position := stepFrom m.direction s.tray.position, motion := some n }
  let u := if homeMark then t.resync n else t
  let v := if u.tray.cut then u.setTray u.tray.cutSteps else u
  if v.tray.remaining = 0 then
    (v.setTray { v.tray with motor := none }).boundary (.change .raise) State.beginRaise
  else v.boundary (.change .index) State.beginIndex

/-- After the home mark the carried action chooses its target from position 0: with a motion of a step or more the
change goes on in INDEX, otherwise RAISE follows (R126), the current action kept to the homing's end (DESIGN CHOICE,
log 54). -/
def State.carryOn (s : State) : State :=
  match s.tray.carried with
  | some (.shutter _) => s.boundary (.home .raise) State.beginHomeRaise
  | some .home => s.boundary (.home .raise) State.beginHomeRaise
  | some a =>
    match s.tray.choose a with
    | .motion m =>
      if m.remaining = 0 then
        (s.setTray { s.tray with carried := none }).boundary (.home .raise) State.beginHomeRaise
      else
        (s.setTray { s.tray with
          motion := some m, current := some a, carried := none, seekCount := 0, cut := false
          trayEmpty := false }).boundary (.change .index) State.beginIndex
    | c =>
      ((s.setTray { s.tray with carried := none }).reportChoice c).boundary (.home .raise) State.beginHomeRaise
  | none => s.boundary (.home .raise) State.beginHomeRaise

/-- The home mark found in SEEK (R126); with TRAY_SENSE differing from the sense in use the homing ends in UNHOMED and
its carried action is discarded (R112), raw POSITION_ERROR kept (DESIGN CHOICE, log 52). -/
def State.homeFound (s : State) : State :=
  if s.senseAgrees then
    (s.setTray { s.tray with position := 0, valid := true, positionError := false, motor := none }).carryOn
  else
    let t := s.setTray { s.tray with motor := none, carried := none }
    (t.latchIf s.tray.carried.isSome .actionDiscarded).enterUnhomed

/-- A pulse counted in SEEK (R111, R126, R127, R132). A homing that a STOP has cut enters UNHOMED at its pulse, the 101st
without a home mark among them (DESIGN CHOICE, log 47), and keeps raw POSITION_ERROR at a pulse with the mark (DESIGN
CHOICE, log 52). -/
def State.seekPulse (s : State) (homeMark : Bool) : State :=
  let t := s.setTray { s.tray with
    position := stepFrom .forward s.tray.position, seekCount := min 101 (s.tray.seekCount + 1) }
  if t.tray.cut then t.enterUnhomed
  else if homeMark then t.homeFound
  else if 101 ≤ t.tray.seekCount then t
  else t.boundary (.home .seek) State.beginSeek

/-- An index pulse (R111, R114). -/
def State.pulse (s : State) (homeMark : Bool) : State :=
  match s.tray.state, s.tray.motor, s.tray.motion with
  | .changing .index, some _, some m => s.indexPulse m homeMark
  | .homing .seek, some _, _ => s.seekPulse homeMark
  | _, _, _ => s.unexpectedPulse

/-! ## Switches (R110, R120, R125, R132) -/

/-- A phase of a homing that a STOP has cut ends in UNHOMED, otherwise as given (R132). -/
def State.homePhaseEnds (s : State) (next : State → State) : State := if s.tray.cut then s.enterUnhomed else next s

/-- The shutter-closed switch; made, it opens the other (R110, R120; log 14). -/
def State.closedSwitch (s : State) (made : Bool) : State :=
  let t := s.setTray { s.tray with closedSwitch := made, openSwitch := s.tray.openSwitch && !made }
  match t.tray.state with
  | .changing .shutterClose => if made then t.closeEnds else t
  | .homing .shutterClose => if made then t.homePhaseEnds State.homeCloseEnds else t
  | _ => t

/-- The gate-down switch (R110, R120; log 14). -/
def State.downSwitch (s : State) (made : Bool) : State :=
  let t := s.setTray { s.tray with downSwitch := made, upSwitch := s.tray.upSwitch && !made }
  match t.tray.state with
  | .changing .lower => if made then t.lowerEnds else t
  | .homing .lower => if made then t.homePhaseEnds State.homeLowerEnds else t
  | _ => t

/-- The gate-up switch, with the slide-present sensor as it stands (R110, R115, R120, R126; logs 14 and 15). -/
def State.upSwitch (s : State) (made present : Bool) : State :=
  let t := s.setTray { s.tray with
    upSwitch := made, downSwitch := s.tray.downSwitch && !made, slidePresent := present }
  match t.tray.state with
  | .changing .raise => if made then t.raiseEnds present else t
  | .homing .raise => if made then t.homeRaiseEnds present else t
  | _ => t

/-- The shutter-open switch (R110, R120, R122; log 14). -/
def State.openSwitch (s : State) (made : Bool) : State :=
  let t := s.setTray { s.tray with openSwitch := made, closedSwitch := s.tray.closedSwitch && !made }
  match t.tray.state with
  | .changing .shutterOpen => if made then t.endMotion else t
  | _ => t

/-! ## STOP (R106, R131, R132) -/

/-- The motion in progress is marked cut, with its remaining steps taken away when INDEX is not yet under way. -/
def State.cutMotion (s : State) (steps : Bool) : State :=
  s.setTray { (if steps then s.tray.cutSteps else s.tray) with cut := true }

/-- A STOP at the changer (R131, R132). A homing that goes on after it keeps its current action (DESIGN CHOICE,
log 54). -/
def State.changerStop (s : State) : State :=
  let t := s.setTray { s.tray with holdDark := true, shutterOpen := false }
  match t.tray.state with
  | .changing .shutterClose => t.cutMotion true
  | .changing .lower => t.cutMotion true
  | .changing .index => t.cutMotion false
  | .changing .raise => t.cutMotion false
  | .changing .settle => t.cutMotion false
  | .changing .shutterOpen => t.endMotion
  | .suspended (.change .shutterOpen) => t.endMotion
  | .suspended (.change .shutterClose) => t.cutMotion true
  | .suspended (.change .lower) => t.cutMotion true
  | .suspended (.change .index) => t.cutMotion true
  | .suspended (.change .raise) => t.cutMotion false
  | .suspended (.change .settle) => t.cutMotion false
  | .homing .raise => t.setTray { t.tray with carried := none }
  | .homing _ => t.setTray { t.tray with carried := none, cut := true }
  | .suspended (.home .raise) => t.setTray { t.tray with carried := none }
  | .suspended (.home _) => (t.setTray { t.tray with carried := none }).enterUnhomed
  | _ => t

/-- The STOP of the action queue (R106). -/
def State.stopAll (s : State) : State := s.purge.changerStop

/-! ## The supply, the housing and TRAY_SENSE (R112, R133, R134) -/

/-- The phase a resume record names begins; SHUTTER_OPEN ends the change dark when a hold stands (R133; log 20). -/
def State.beginResumed (s : State) : Resume → State
  | .change .shutterClose => s.beginClose
  | .change .lower => s.beginLower
  | .change .index => s.beginIndexOrRaise
  | .change .raise => s.beginRaise
  | .change .settle => s.beginSettle
  | .change .shutterOpen => if s.endsDark then s.endMotion else s.beginShutterOpen
  | .home .shutterClose => s.beginHomeClose
  | .home .lower => s.beginHomeLower
  | .home .seek => s.beginSeek
  | .home .raise => s.beginHomeRaise

/-- The supply leaves CRITICAL: a SUSPENDED changer goes on (R133). -/
def State.resumeChanger (s : State) : State :=
  match s.tray.state with
  | .suspended r => s.beginResumed r
  | _ => s

/-- The thermal state enters OVERHEAT: the shutter closes, and a SHUTTER_OPEN phase ends with its change (R128,
R134). -/
def State.changerOverheats (s : State) : State :=
  let t := s.driveShutter false
  if t.tray.state = .changing .shutterOpen then t.endMotion else t

/-- The working TRAY_SENSE has been set: where it differs from the sense in use, a valid position becomes invalid, and
IDLE becomes UNHOMED (R112). -/
def State.senseCheck (s : State) : State :=
  if s.tray.valid && !s.senseAgrees then
    let t := s.setTray { s.tray with valid := false }
    if s.tray.state = .idle then t.endMotion else t
  else s

/-- CLEAR_JAM at the changer (R124). -/
def State.clearTrayJam (s : State) : State := if s.tray.state = .jammed then s.enterUnhomed else s

end Sys2Proof.Machine
end

