-- ==== Sys2Proof/Machine/CueOps.lean ====
section
/-! DEFINITION. The cue detector and the cue engine: filters, powers, verdicts, runs, words, lookup and firing
(R59 to R94). -/

namespace Sys2Proof.Machine

/-! ## The engine (R78 to R86) -/

/-- The word holds symbols or carries the discarding mark (R80, R82). -/
def CueEngine.holdsWord (c : CueEngine) : Bool := !c.word.isEmpty || c.discarding

/-- One ABSENT verdict more in the gap; the count is at most 20 (R78, R84). -/
def CueEngine.countGap (c : CueEngine) : CueEngine := { c with gap := min 20 (c.gap + 1) }

/-- One glitch more (R82). -/
def CueEngine.countGlitch (c : CueEngine) : CueEngine := { c with glitches := satAdd 65535 c.glitches }

/-- A symbol joins the word, makes it overlength, or is discarded under the mark; the gap count becomes 0 (R81,
R83). -/
def CueEngine.addSymbol (c : CueEngine) (x : Symbol) : CueEngine :=
  let d := { c with gap := 0 }
  if d.discarding then d
  else if d.word.length < 3 then { d with word := d.word ++ [x] }
  else { d.countGlitch with word := [], discarding := true }

/-- An ABSENT verdict in a gap, with the completion due when the count reaches WORD_GAP (R80, R84). -/
def CueEngine.absentInGap (wordGap : Nat) (c : CueEngine) : CueEngine :=
  let d := { c.countGap with state := .gap }
  if wordGap ≤ d.gap then { d with completion := .due } else d

/-- The verdict that ended a run, taken after the run is judged (R80). -/
def CueEngine.afterRun (wordGap : Nat) (c : CueEngine) : Verdict → CueEngine
  | some x => { c with state := .run x 1 }
  | none => if c.holdsWord then c.absentInGap wordGap else { c with state := .ready }

/-- The end of a glitch: its block counts in a gap, and a gap that has reached WORD_GAP completes the word before the
verdict that ended it is taken (R82). -/
def CueEngine.afterGlitch (wordGap : Nat) (c : CueEngine) (v : Verdict) : CueEngine :=
  let d := c.countGlitch
  if d.holdsWord then
    let e := d.countGap
    if wordGap ≤ e.gap then { e with state := .gap, completion := .dueThen v } else e.afterRun wordGap v
  else d.afterRun wordGap v

/-- A run ended by a verdict (R80, R81). -/
def CueEngine.endRun (wordGap : Nat) (c : CueEngine) (x : Tone) (length : Nat) (v : Verdict) : CueEngine :=
  if length = 1 then c.afterGlitch wordGap v
  else (c.addSymbol { tone := x, long := decide (6 ≤ length) }).afterRun wordGap v

/-- A verdict taken by the engine with nothing due (R79, R80, R84, R85). -/
def CueEngine.verdict (wordGap : Nat) (c : CueEngine) (v : Verdict) : CueEngine :=
  match c.state with
  | .ready =>
    match v with
    | some x => { c with state := .run x 1 }
    | none => c
  | .run x n => if v = some x then { c with state := .run x (n + 1) } else c.endRun wordGap x n v
  | .gap =>
    match v with
    | some x => if wordGap ≤ c.gap then { c with completion := .dueThen v } else { c with state := .run x 1 }
    | none => c.absentInGap wordGap
  | .stuck => { c with stuckCount := if v.isSome then 0 else min 2 (c.stuckCount + 1) }

/-- A run of 16 is a stuck tone (R85). -/
def CueEngine.runStuck (c : CueEngine) : Bool :=
  match c.state with
  | .run _ n => decide (16 ≤ n)
  | _ => false

/-- Two ABSENT verdicts in a row in STUCK (R85). -/
def CueEngine.stuckOver (c : CueEngine) : Bool := decide (c.state = .stuck) && decide (2 ≤ c.stuckCount)

/-- A state with its engine replaced. -/
def State.setCue (s : State) (c : CueEngine) : State := { s with cue := c }

/-- The engine enters STUCK: the run and the word are discarded and CUE_STUCK latches (R85). -/
def State.enterStuck (s : State) : State :=
  (s.setCue { s.cue with
    state := .stuck, word := [], discarding := false, gap := 0, stuckCount := 0, completion := .none }).latch .cueStuck

/-- The engine leaves STUCK (R85); the stuck count goes back to 0 (DESIGN CHOICE, log 39). -/
def State.leaveStuck (s : State) : State := s.setCue { s.cue with state := .ready, stuckCount := 0 }

/-! ## Lookup and firing (R89 to R94) -/

/-- An entry matches a word: its symbols, its group condition and its slot range (R89, R90). -/
def State.cueMatches (s : State) (w : List Symbol) (e : CueEntry) : Bool :=
  decide (e.symbols = w) && e.group.all s.inGroup &&
    e.range.all fun r => s.tray.valid && decide (r.1 ≤ s.tray.position) && decide (s.tray.position ≤ r.2)

/-- An entry is passed over: disabled, or in the pending clears (R89). -/
def CueEngine.passedOver (c : CueEngine) (i : Nat) : Bool :=
  !(c.table.getD i CueEntry.default).enabled || c.pendingClears.contains i

/-- The first entry not passed over that matches (R89). -/
def State.cueLookup (s : State) (w : List Symbol) : Option Nat :=
  (List.range 64).find? fun i => !s.cue.passedOver i && s.cueMatches w (s.cue.table.getD i CueEntry.default)

/-- A ONCE entry that fires is disabled, or joins the pending clears while a SAVE of CUES is in flight (R92, R93). -/
def State.clearOnce (s : State) (i : Nat) : State :=
  if (s.cue.table.getD i CueEntry.default).once then
    if s.saving .cues then
      s.setCue { s.cue with pendingClears := s.cue.pendingClears ++ [i] }
    else s.setCue (s.cue.disable i)
  else s

/-- What the most recent lookup leaves in the raw conditions (R94). -/
def State.setLookup (s : State) (unmatched dropped : Bool) : State :=
  s.setCue { s.cue with unmatched := unmatched, dropped := dropped }

/-- An entry fires: all its actions are placed, or none (R91, R92). -/
def State.cueFire (s : State) (i : Nat) : State :=
  let actions := (s.cue.table.getD i CueEntry.default).actions
  let t := s.clearOnce i
  if actions.length ≤ t.queueRoom then (t.setLookup false false).place actions .cue
  else (t.setLookup false true).latch .cueDropped

/-- A word handed on is looked up (R86, R89). -/
def State.lookUp (s : State) (w : List Symbol) : State :=
  match s.cueLookup w with
  | some i => s.cueFire i
  | none => (s.setLookup true false).latch .cueUnmatched

/-- The engine back in READY with an empty word (R84). -/
def CueEngine.backToReady (c : CueEngine) : CueEngine :=
  { c with state := .ready, word := [], discarding := false, gap := 0, completion := .none }

/-- A word completes: under the discarding mark nothing is handed on; otherwise it is recorded, counted and looked up
(R84, R86). -/
def State.completeWord (s : State) : State :=
  let c := s.cue.backToReady
  if s.cue.discarding then s.setCue c
  else (s.setCue { c with lastWord := s.cue.word, wordCounter := s.cue.wordCounter + 1 }).lookUp s.cue.word

/-- The completion that is due, with the verdict to be taken after it (R82, R84). -/
def State.wordCompletes (s : State) : State :=
  match s.cue.completion with
  | .none => s
  | .due => s.completeWord
  | .dueThen v =>
    let t := s.completeWord
    t.setCue (t.cue.verdict (t.paramNat .wordGap) v)

/-- The engine's step that is due, carried out (R84, R85; log 25). -/
def State.engineDue (s : State) : State :=
  if s.cue.runStuck then s.enterStuck
  else if s.cue.stuckOver then s.leaveStuck
  else s.wordCompletes

/-- A verdict handed to the engine; what was due comes first (R74). -/
def State.takeVerdict (s : State) (v : Verdict) : State :=
  let t := s.engineDue
  t.setCue (t.cue.verdict (t.paramNat .wordGap) v)

/-- The engine at the start of a link loss (R87). -/
def CueEngine.linkLoss (c : CueEngine) : CueEngine := { c.backToReady with stuckCount := 0 }

/-! ## The detector (R59 to R73) -/

/-- The coefficient of a tone (R59). -/
def toneCoefficient : Tone → Int
  | .l => 30274
  | .m => 27939
  | .h => 21281
  | .t => 12540

/-- The new state a filter forms, before its limit. The quotient is rounded down, as R65 says in words; its figure
30274 × (−1) / 16384 = −1 does not fit them, and here the quotient is −2 (DEDUCED, log 53). -/
def filterNext (x : Tone) (u : Int) (f : Filter) : Int := (toneCoefficient x * f.latest) / 16384 + u - f.before

/-- The magnitude of a computed state exceeds the limit (R66). -/
def filterOver (x : Int) : Bool := decide (Config.filterLimit < x) || decide (x < -Config.filterLimit)

/-- One step of a filter, its state limited (R65, R66). -/
def filterStep (x : Tone) (u : Int) (f : Filter) : Filter :=
  { latest := clampInt (-Config.filterLimit) Config.filterLimit (filterNext x u f), before := f.latest }

/-- The conditioned sample: divided by 16 and rounded down (R64). -/
def conditioned (x : Sample) : Int := x.toInt / 16

/-- A sample taken into the block (R61, R65, R66, R68). -/
def Detector.takeSample (d : Detector) (x : Sample) : Detector :=
  let u := conditioned x
  { d with
    filterL := filterStep .l u d.filterL
    filterM := filterStep .m u d.filterM
    filterH := filterStep .h u d.filterH
    filterT := filterStep .t u d.filterT
    energy := d.energy + (u * u).toNat
    count := d.count + 1
    overload := d.overload || filterOver (filterNext .l u d.filterL) || filterOver (filterNext .m u d.filterM) ||
      filterOver (filterNext .h u d.filterH) || filterOver (filterNext .t u d.filterT) }

/-- The power of a tone from its two latest states (R67), its inner quotient rounded down as in the filter step (log 53). -/
def tonePower (x : Tone) (f : Filter) : Nat :=
  let numerator := f.latest * f.latest + f.before * f.before - (toneCoefficient x * f.latest) / 16384 * f.before
  (clampInt 0 Config.powerTop (numerator / 65536)).toNat

/-- The block energy (R68). -/
def Detector.blockEnergy (d : Detector) : Nat := d.energy / 1024

/-- A tone meets the test against the energy and the other three powers (R69). -/
def meetsTest (levelT purity dominance energy power : Nat) (others : List Nat) : Bool :=
  decide (levelT ≤ power) && decide (purity * energy ≤ 8 * power) &&
    others.all fun q => decide (q * 2 ^ dominance ≤ power)

/-- The verdict of a clean block from the four powers and the energy (R69, R70). -/
def verdictOf (levelT purity dominance energy pL pM pH pT : Nat) (overload : Bool) : Verdict :=
  let test := meetsTest levelT purity dominance energy
  if overload then none
  else
    match test pL [pM, pH, pT], test pM [pL, pH, pT], test pH [pL, pM, pT], test pT [pL, pM, pH] with
    | true, false, false, false => some .l
    | false, true, false, false => some .m
    | false, false, true, false => some .h
    | false, false, false, true => some .t
    | _, _, _, _ => none

/-- The verdict a block ends with: judged when clean, by the damage rules when damaged (R70, R71, R73). -/
def State.blockVerdict (s : State) : Verdict :=
  let d := s.det
  if d.damaged then (if d.prevDamaged then none else d.prevVerdict)
  else
    verdictOf (s.paramNat .levelT) (s.paramNat .purity) (s.paramNat .dominance) d.blockEnergy
      (tonePower .l d.filterL) (tonePower .m d.filterM) (tonePower .h d.filterH) (tonePower .t d.filterT) d.overload

/-- A state with its detector replaced. -/
def State.setDet (s : State) (d : Detector) : State := { s with det := d }

/-- A block ends, and its verdict is handed on (R61, R73). -/
def State.endBlock (s : State) : State :=
  let v := s.blockVerdict
  (s.setDet { s.det with state := .boundary, prevVerdict := v, prevDamaged := s.det.damaged }).takeVerdict v

/-- A block begins (R60). -/
def Detector.beginBlock (d : Detector) (block : Nat) (damaged : Bool) : Detector :=
  { d with
    state := .inBlock block, filterL := Filter.zero, filterM := Filter.zero, filterH := Filter.zero
    filterT := Filter.zero, energy := 0, count := 0, overload := false, damaged := damaged }

/-- A frame's sample taken into the block in progress, and the block's end at the remainder 159 (R60, R61). -/
def State.takeFrame (s : State) (number : Nat) (cue : Sample) : State :=
  let t := s.setDet (s.det.takeSample cue)
  if number % Config.blockFrames = Config.blockFrames - 1 then t.endBlock else t

/-- A frame begins a block (R60). -/
def State.openBlock (s : State) (number : Nat) (cue : Sample) (damaged : Bool) : State :=
  (s.setDet (s.det.beginBlock (number / Config.blockFrames) damaged)).takeFrame number cue

/-- A frame handed to the detector with its number, its cue sample and its marks (R60, R62, R72). -/
def State.handFrame (s : State) (number : Nat) (cue : Sample) (bad broke : Bool) : State :=
  match s.det.state with
  | .waiting => if number % Config.blockFrames = 0 then s.openBlock number cue bad else s
  | .boundary => s.openBlock number cue (bad || broke)
  | .inBlock b =>
    if broke && decide (number / Config.blockFrames ≠ b) then
      ((s.setDet { s.det with damaged := true }).endBlock).openBlock number cue true
    else (s.setDet { s.det with damaged := s.det.damaged || bad || broke }).takeFrame number cue

end Sys2Proof.Machine
end

