-- ==== Sys2Proof/Machine/LinkOps.lean ====
section
/-! DEFINITION. The message unit and the link receiver/forwarder: assembly, the destination filter, receive buffers,
insertion and arbitration, the rewrite of ENUMERATE, the follower's frames, link loss, the frames a follower
originates, and the master's returning frames (R3 to R18, R24 to R33, R188). -/

namespace Sys2Proof.Machine

/-! ## Assembly and the destination filter (R24 to R27) -/

/-- A state with its message unit replaced. -/
def State.setMsg (s : State) (m : MsgUnit) : State := { s with msg := m }

/-- A state with its receiver replaced. -/
def State.setLink (s : State) (l : LinkRx) : State := { s with link := l }

/-- A state with its tape unit replaced. -/
def State.setTape (s : State) (t : Tape) : State := { s with tape := t }

/-- A message placed in a receive buffer, or dropped with RX_OVERFLOW when all three are full (R27). -/
def State.placeRx (s : State) (m : Message) : State :=
  if s.msg.rx.length < Config.rxBuffers then s.setMsg { s.msg with rx := s.msg.rx ++ [m] } else s.latch .rxOverflow

/-- The unit takes a message with this destination (R26). -/
def State.takesDest (s : State) (d : Byte) : Bool :=
  decide (d = 0xFF) || (groupOfDest d).any s.inGroup || s.link.address.any fun a => decide (d.toNat = a)

/-- The address a follower takes from a count (R18). -/
def addressOf (c : Byte) : Option Nat := if 1 ≤ c.toNat ∧ c.toNat ≤ 32 then some c.toNat else none

/-- A REMOTE_RELAY taken: a first-pass one is re-emitted by a master with a free place, a relayed one is placed; any other
payload is dropped (R26, R33). -/
def State.deliverRelay (s : State) (m : Message) : State :=
  match m.payload with
  | [marker, origin, k, a, b, c] =>
    if marker = 0x00 then
      if s.isMaster && s.placeFree then
        s.enqueueReply { kind := 0x82, dest := 0xFF, payload := [0x01, origin, k, a, b, c] }
      else s
    else if marker = 0x01 then s.placeRx m
    else s
  | _ => s

/-- An ENUMERATE taken: one to all gives a follower its address; one without a count is dropped (R18, R26). -/
def State.deliverEnumerate (s : State) (m : Message) : State :=
  match m.payload with
  | [] => s
  | c :: _ =>
    if s.isFollower && decide (m.dest = 0xFF) then (s.setLink { s.link with address := addressOf c }).placeRx m
    else s.placeRx m

/-- A complete message that the unit takes (R18, R26, R33). -/
def State.deliver (s : State) (m : Message) : State :=
  if m.kind = 0x80 ∨ m.kind = 0x81 then s
  else if m.kind = 0x82 then s.deliverRelay m
  else if m.kind = 0x01 then s.deliverEnumerate m
  else s.placeRx m

/-- The message in assembly is abandoned and counted (R24, R25). -/
def State.abandon (s : State) : State :=
  if s.msg.assembly.isSome then
    s.setMsg { s.msg with assembly := none, assemblyErrors := satAdd 255 s.msg.assemblyErrors }
  else s

/-- A partial message after one BODY more, or none when that abandons it (R24). -/
def appendBody (partialBytes : List Byte) (b : Byte) : Option (List Byte) :=
  let bytes := partialBytes ++ [b]
  if bytes.length ≤ 3 then some bytes
  else
    let l := (bytes.getD 3 0).toNat
    if 24 < l ∨ 4 + l < bytes.length then none else some bytes

/-- The END slot judges the message (R24). -/
def State.judgeMessage (s : State) (bytes : List Byte) (check : Byte) : State :=
  match messageOf bytes with
  | some m =>
    if check = messageCheck 0x00 bytes then
      let t := s.setMsg { s.msg with assembly := none }
      if t.takesDest m.dest then t.deliver m else t
    else s.abandon
  | none => s.abandon

/-- A slot of a good frame at the receive side (R24). -/
def State.takeSlot (s : State) (tag : SlotTag) (b : Byte) : State :=
  match tag with
  | .idle => s.abandon
  | .start =>
    let t := s.abandon
    t.setMsg { t.msg with assembly := some [b] }
  | .body =>
    match s.msg.assembly with
    | some bytes =>
      match appendBody bytes b with
      | some more => s.setMsg { s.msg with assembly := some more }
      | none => s.abandon
    | none => s
  | .done =>
    match s.msg.assembly with
    | some bytes => s.judgeMessage bytes b
    | none => s

/-! ## Insertion (R30 to R32) -/

/-- A message that has been written whole leaves: a reply-queue message with its attempt count, or an ENUMERATE, after
which the enumeration wait starts (R31, R187, R189). -/
def State.attemptDone (s : State) (a : Attempt) : State :=
  if a.enumerate then (s.setMsg { s.msg with attempt := none }).setTape { s.tape with enumWait := some 0 }
  else s.setMsg { s.msg with attempt := none, replies := s.msg.replies.tail, attempts := 0, lastTry := false }

/-- The next byte of an attempt is written (R31, R187). -/
def State.writeSlot (s : State) (a : Attempt) : (SlotTag × Byte) × State :=
  match a.slots with
  | [] => ((.idle, 0x00), s.setMsg { s.msg with attempt := none })
  | [x] => (x, s.attemptDone a)
  | x :: rest => (x, s.setMsg { s.msg with attempt := some { a with slots := rest } })

/-- The bytes of the head of the reply queue as an attempt begins: its source, and a NOTICE's payload, are fixed then
(R30, R34). -/
def State.fixedBytes (s : State) (m : OutMsg) : List Byte :=
  outBytes s.sourceByte
    (if m.kind = 0x81 then { m with payload := bytesOf 4 s.events.latched.toNat } else m)

/-- The attempt that would begin with the head of the reply queue (R30, R33). -/
def State.newAttempt (s : State) : Option Attempt :=
  match s.msg.replies with
  | [] => none
  | m :: _ => some { slots := slotsOf (s.fixedBytes m), enumerate := false }

/-- What the message unit writes into a slot it may use: the next byte of its attempt, or the kind of the head when no
wait runs and a message may begin here (R30, R31). -/
def State.supplySlot (s : State) (mayBegin : Bool) : Option (SlotTag × Byte) × State :=
  match s.msg.attempt with
  | some a =>
    let r := s.writeSlot a
    (some r.1, r.2)
  | none =>
    if mayBegin && s.msg.wait.isNone then
      match s.newAttempt with
      | some a =>
        let r := s.writeSlot a
        (some r.1, r.2)
      | none => (none, s)
    else (none, s)

/-- The head of the reply queue is removed with its attempt count (R32, R35). -/
def MsgUnit.dropHead (m : MsgUnit) : MsgUnit :=
  { m with attempt := none, replies := m.replies.tail, attempts := 0, lastTry := false }

/-- The frame times of a wait (R32). -/
def State.waitLength (s : State) : Nat := 8 * s.link.address.getD 33

/-- An attempt is lost or interrupted (R31, R32, R35). One that outlived a link reset has no further attempt: it counts
like any other, and where its count stays below RETRY_LIMIT it is discarded without a flag (DEDUCED, log 46). -/
def State.loseAttempt (s : State) : State :=
  if s.msg.attempt.isNone then s
  else if s.paramNat .retryLimit ≤ s.msg.attempts + 1 then (s.setMsg s.msg.dropHead).latch .txGiveup
  else if s.msg.lastTry then s.setMsg s.msg.dropHead
  else
    s.setMsg { s.msg with
      attempt := none, attempts := s.msg.attempts + 1, wait := some { elapsed := 0, total := s.waitLength } }

/-- One frame time of a wait (R32; log 13). -/
def State.countWait (s : State) : State :=
  match s.msg.wait with
  | some w => s.setMsg { s.msg with wait := some { w with elapsed := min w.total (w.elapsed + 1) } }
  | none => s

/-- A wait has run its frame times (R32). -/
def State.waitOver (s : State) : Bool := s.msg.wait.any fun w => decide (w.total ≤ w.elapsed)

/-- The end of the wait (R32). -/
def State.endWait (s : State) : State := if s.waitOver then s.setMsg { s.msg with wait := none } else s

/-! ## The rewrite of ENUMERATE (R17) -/

/-- The count a follower forwards for a received count (R17). -/
def nextCount (c : Byte) : Byte := if 1 ≤ c.toNat ∧ c.toNat ≤ 32 then c + 1 else 33

/-- The tracking after one BODY, and the byte forwarded in its place (R17). -/
def EnumTrack.body (t : EnumTrack) (b : Byte) : Option EnumTrack × Byte :=
  let keep : EnumTrack :=
    { t with offset := t.offset + 1, checkIn := messageCheck t.checkIn [b], checkOut := messageCheck t.checkOut [b] }
  match t.offset with
  | 1 => (if b = 0xFF then some keep else none, b)
  | 2 => (some keep, b)
  | 3 => (if b = 0 then none else some { keep with length := b.toNat }, b)
  | 4 => (some { keep with checkOut := messageCheck t.checkOut [nextCount b] }, nextCount b)
  | _ => if 4 + t.length ≤ t.offset then (none, b) else (some keep, b)

/-- The tracking after a slot of a good frame, and the byte forwarded in its place (R17). -/
def trackSlot (t : Option EnumTrack) (tag : SlotTag) (b : Byte) : Option EnumTrack × Byte :=
  match tag, t with
  | .idle, _ => (none, b)
  | .start, _ =>
    if b = 0x01 then
      (some { offset := 1, length := 0, checkIn := messageCheck 0x00 [b], checkOut := messageCheck 0x00 [b] }, b)
    else (none, b)
  | .body, some e => e.body b
  | .body, none => (none, b)
  | .done, some e => (none, e.checkOut ^^^ (b ^^^ e.checkIn))
  | .done, none => (none, b)

/-! ## Link loss (R11 to R13, R63, R87) -/

/-- The start of a link loss (R12, R13, R63, R87). -/
def State.beginLoss (s : State) : State :=
  let t := s.setReasons { s.sound.reasons with link := true }
  (((t.setDet Detector.restart).setCue t.cue.linkLoss).setLink
    { t.link with showSafeCount := 0, showSafe := false }).latch .linkLost

/-- The end of a link loss (R12, R13). -/
def State.endLoss (s : State) : State :=
  (s.setReasons { s.sound.reasons with link := false }).setLink
    { s.link with showSafeCount := 0, showSafe := false }

/-- A state of a link loss (R12). -/
def LinkState.isLost : LinkState → Bool
  | .lostOriginating => true
  | .lostForwarding => true
  | _ => false

/-- The receiver enters a link state: a loss begins or ends when the state says so (R11, R12). At the beginning of a loss
a word that has completed, a run of 16 or the end of a stuck tone that stands due in the engine comes first (R84, R85;
log 25). -/
def State.enterLink (s : State) (new : LinkState) : State :=
  let t := s.setLink { s.link with state := new }
  if new.isLost && !s.link.state.isLost then
    let e := s.engineDue
    (e.setLink { e.link with state := new }).beginLoss
  else if !new.isLost && s.link.state.isLost then t.endLoss
  else t

/-- 32 frame times have passed without a good frame (R11). -/
def State.lossDue (s : State) : Bool :=
  s.isFollower && decide (s.link.state ≠ .lostOriginating) && decide (Config.lossFrameTimes ≤ s.link.sinceGood)

/-- LINK_LOSS_TIMEOUT (R11). -/
def State.lossTimeout (s : State) : State := if s.lossDue then s.enterLink .lostOriginating else s

/-! ## Judging a frame (R3, R4, R7) -/

/-- The number is not the expected one (R4). -/
def LinkRx.jumps (l : LinkRx) (number : Nat) : Bool := l.expected.any fun n => decide (n ≠ number)

/-- A good frame numbered and counted (R3, R4, R7). -/
def State.countGood (s : State) (number sync : Nat) : State :=
  let jump := s.link.jumps number
  let t := s.setLink { s.link with
    expected := some (nextFrameNumber number), runCount := 0, sinceGood := 0, seqJump := jump
    reckoning := some (sync % 128), windowClosed := false }
  (if s.isFollower then t.setReasons { t.sound.reasons with badRun := false } else t).latchIf jump .seqJump

/-- A bad or missing frame numbered and counted; a follower in LOST_ORIGINATING advances its expected number by the
frames it sends (R4, R7, R11; log 10). -/
def State.countBad (s : State) : State :=
  let count := satAdd 255 s.link.runCount
  let originating := s.isFollower && decide (s.link.state = .lostOriginating)
  let t := s.setLink { s.link with
    expected := if originating then s.link.expected else s.link.expected.map nextFrameNumber
    runCount := count, sinceGood := min Config.lossFrameTimes (s.link.sinceGood + 1) }
  if count = Config.badRunLimit then
    (if s.isFollower then t.setReasons { t.sound.reasons with badRun := true } else t).latch .badFrames
  else t

/-! ## A follower's frames (R5 to R12, R14) -/

/-- The frame with the samples the receiver hands on (R5). -/
def handed (f : LinkFrame) (x : Sample) : Sample := if f.silent then 0 else x

/-- A good frame handed on in LINKED (R5). After power-on, when no good frame has come before, a set TAPE_END flag
latches (DESIGN CHOICE, log 45). -/
def State.handOn (s : State) (f : LinkFrame) (jump : Bool) : State :=
  let pair : Pair := (handed f f.left, handed f f.right)
  let newEnd := f.tapeEnd && !s.link.tapeEnd
  let t := s.setLink { s.link with lastPair := pair, showRunning := f.showRunning, tapeEnd := f.tapeEnd }
  let u := (t.setReasons { t.sound.reasons with silent := f.silent }).writePair pair
  (u.latchIf newEnd .tapeEnd).handFrame f.number.toNat (handed f f.cue) false jump

/-- A bad or missing frame handed on in LINKED, under the number it would have carried (R6; log 11). -/
def State.handOnBad (s : State) (expected : Option Nat) : State :=
  let t := s.writePair s.link.lastPair
  match expected with
  | some n => t.handFrame n 0 true false
  | none => t

/-- The frame leaves on the link output with what the message unit supplies in an IDLE slot, or with a rewritten
enumeration byte (R9, R10, R17, R30, R31). -/
def State.forward (s : State) (f : LinkFrame) : State :=
  match f.tag with
  | .idle =>
    let r := s.supplySlot s.msg.slotFree
    let g := match r.1 with
      | some x => { f with tag := x.1, byte := x.2 }
      | none => f
    r.2.setLink { r.2.link with output := some (sealFrame g), tracking := none }
  | tag =>
    let t := s.loseAttempt
    let r := trackSlot t.link.tracking tag f.byte
    t.setLink { t.link with output := some (sealFrame { f with byte := r.2 }), tracking := r.1 }

/-- A frame that ends LOST_ORIGINATING is forwarded when its output start falls after the originated frame in progress
(R14; log 12). -/
def LinkRx.forwardsAfterLoss (l : LinkRx) (sync : Nat) : Bool :=
  decide (76 ≤ (sync + 102 + 128 - l.reckoning.getD 0 % 128) % 128)

/-- The slot before the next one arrived IDLE or END in a good frame, or it did not (R30). -/
def State.noteSlot (s : State) (free : Bool) : State := s.setMsg { s.msg with slotFree := free }

/-- A slot that frees the next one (R30). -/
def freesNext : SlotTag → Bool
  | .idle => true
  | .done => true
  | _ => false

/-- A good frame flagged BROKEN hands nothing on; its TAPE_END flag becomes the raw condition, as that of the last good
frame, without a latch (R5, R198; log 24). -/
def State.keepBroken (s : State) (f : LinkFrame) : State := s.setLink { s.link with tapeEnd := f.tapeEnd }

/-- A good frame at a follower (R4, R5, R9 to R12, R14). The frame that ends ACQUIRING is handed on in the state it
brings, and forwarded, like the one that ends a loss (DEDUCED, log 44). One that is not forwarded starts no tracking of
an ENUMERATE (DESIGN CHOICE, log 50). -/
def State.followerGood (s : State) (f : LinkFrame) (sync : Nat) : State :=
  let jump := s.link.jumps f.number.toNat
  let originating := decide (s.link.state = .lostOriginating)
  let t := s.countGood f.number.toNat sync
  let u := (if originating then t.loseAttempt else t).enterLink (if f.broken then .lostForwarding else .linked)
  let v := (if f.broken then u.keepBroken f else u.handOn f jump).takeSlot f.tag f.byte
  let w := if originating && !s.link.forwardsAfterLoss sync then v else v.forward f
  (w.noteSlot (freesNext f.tag)).countWait

/-- Where the receiver opens a window, a bad frame realigns the reckoning to its sync; with no sync the window has closed
(R3). -/
def LinkRx.windowPast (l : LinkRx) (sync : Option Nat) : LinkRx :=
  match sync with
  | some b => { l with reckoning := some (b % 128), windowClosed := false }
  | none => { l with windowClosed := true }

/-- A bad frame at a follower, or with no bits a missing one (R3, R4, R6, R8, R9, R31). -/
def State.followerBad (s : State) (f : Option LinkFrame) (sync : Nat) : State :=
  let t := s.countBad
  let u := match s.link.state with
    | .acquiring => t
    | .linked =>
      let h := (t.handOnBad s.link.expected).loseAttempt
      h.setLink { h.link.windowPast (f.map fun _ => sync) with output := f }
    | .lostOriginating => t
    | .lostForwarding =>
      let h := t.loseAttempt
      h.setLink { h.link.windowPast (f.map fun _ => sync) with output := f }
  let v := u.abandon
  ((v.setLink { v.link with tracking := none }).noteSlot false).countWait

/-- The frame a follower originates in LOST_ORIGINATING (R14). -/
def originatedFrame (number : Nat) (slot : SlotTag × Byte) : LinkFrame :=
  sealFrame
    { number := BitVec.ofNat 16 number, left := 0, right := 0, cue := 0, tag := slot.1, byte := slot.2
      showRunning := false, silent := true, broken := true, tapeEnd := false, check := 0 }

/-- One frame of the unit's own in LOST_ORIGINATING (R4, R14, R30, R31). -/
def State.originate (s : State) : State :=
  if s.isFollower && decide (s.link.state = .lostOriginating) then
    let n := s.link.expected.getD 0
    let r := s.supplySlot true
    r.2.setLink { r.2.link with
      expected := some (nextFrameNumber n), output := some (originatedFrame n (r.1.getD (.idle, 0x00))) }
  else s

/-! ## The master's returning frames (R16, R188) -/

/-- A frame has returned (R188, R189). Entering CLOSED makes an ENUMERATE due afresh; a wait that a link reset on a ring
not closed left running goes on, with its attempt count (DESIGN CHOICE, log 36). -/
def State.ringReturns (s : State) : State :=
  if s.tape.ring = .closed then s.setTape { s.tape with sinceReturn := 0 }
  else s.setTape { s.tape with ring := .closed, sinceReturn := 0, enumDue := true }

/-- A good frame at the master's return input (R16, R188). -/
def State.masterGood (s : State) (f : LinkFrame) (sync : Nat) : State :=
  let t := (s.countGood f.number.toNat sync).takeSlot f.tag f.byte
  if f.broken then t else t.ringReturns

/-- A bad or missing frame at the master's return input (R3, R16). A frame time without a sync counts as missing also
before the first sync since power-on (DESIGN CHOICE, log 49). -/
def State.masterBad (s : State) (sync : Option Nat) : State :=
  let t := s.countBad.abandon
  t.setLink (t.link.windowPast sync)

/-- The receiver opens windows: in a master, and in a follower in LINKED or LOST_FORWARDING (R3). -/
def State.opensWindow (s : State) : Bool :=
  s.isMaster || decide (s.link.state = .linked) || decide (s.link.state = .lostForwarding)

/-- A sync comes after a window that closed empty and was not yet judged: 5 to 101 bit times after the reckoned place. A
sync 102 to 123 bit times after it is as much before the next place, and no window has closed (R3; DEDUCED, log 23). -/
def State.syncLate (s : State) (sync : Nat) : Bool :=
  s.opensWindow && !s.link.windowClosed &&
    s.link.reckoning.any fun r =>
      let late := (sync + 128 - r % 128) % 128
      decide (5 ≤ late) && decide (late ≤ 101)

/-- A frame whose sync is found (R3). -/
def State.receive (s : State) (f : LinkFrame) (sync : Nat) : State :=
  if s.isMaster then (if frameGood f then s.masterGood f sync else s.masterBad (some sync))
  else if frameGood f then s.followerGood f sync
  else s.followerBad (some f) sync

/-- A frame time with no sync (R3). -/
def State.miss (s : State) : State := if s.isMaster then s.masterBad none else s.followerBad none 0

/-! ## The ring open, enumerations (R188, R189) -/

/-- 32 frame times without a return (R188). -/
def State.ringDue (s : State) : Bool :=
  s.isMaster && decide (s.tape.ring ≠ .opened) && decide (Config.lossFrameTimes ≤ s.tape.sinceReturn)

/-- RING_OPEN_TIMEOUT (R188, R189). An ENUMERATE just being written is written on, the attempt count at 0, and its END
starts a wait in OPEN (DESIGN CHOICE, log 48). -/
def State.ringOpens (s : State) : State :=
  if s.ringDue then
    (s.setTape { s.tape with ring := .opened, enumDue := false, enumWait := none, enumAttempts := 0 }).latch .ringOpen
  else s

/-- The enumeration wait has run its 64 frame times (R189). -/
def State.enumWaitOver (s : State) : Bool := s.tape.enumWait.any fun n => decide (64 ≤ n)

/-- ENUMERATION_WAIT_EXPIRY (R189). An ENUMERATE that is already due stays due where TX_GIVEUP ends the enumeration
(DESIGN CHOICE, log 36). -/
def State.enumExpires (s : State) : State :=
  if s.enumWaitOver then
    if s.paramNat .retryLimit ≤ s.tape.enumAttempts + 1 then
      (s.setTape { s.tape with enumWait := none, enumAttempts := 0 }).latch .txGiveup
    else s.setTape { s.tape with enumWait := none, enumAttempts := s.tape.enumAttempts + 1, enumDue := true }
  else s

/-- The command handler passes on a returned ENUMERATE; it ends the enumeration while the wait runs (R42, R189). An
ENUMERATE that is already due stays due (DESIGN CHOICE, log 36). -/
def State.enumReturned (s : State) : State :=
  if s.tape.enumWait.isSome then s.setTape { s.tape with enumWait := none, enumAttempts := 0 } else s

/-! ## The master's frames (R180 to R187) -/

/-- A converter code with its trim as a sample (R181). -/
def trackSample (code : BitVec 12) (trim : Int) : Sample := sampleOf (((code.toNat : Int) - 2048 + 8 * trim) * 16)

/-- The cue sample with its gain (R181). -/
def cueSample (code : BitVec 12) (trim : Int) (gain : Nat) : Sample :=
  sampleOf ((trackSample code trim).toInt * 2 ^ gain)

/-- A conversion: the latest readings, and one reading more for a calibration (R180, R184). -/
def State.convert (s : State) (r : Readings) : State :=
  s.setTape { s.tape with
    latest := some r
    calibration := s.tape.calibration.map fun c =>
      { count := min 256 (c.count + 1), sumLeft := c.sumLeft + r.left.toNat
        sumRight := c.sumRight + r.right.toNat, sumCue := c.sumCue + r.cue.toNat } }

/-- The slot of a frame the master builds (R33, R187). -/
def State.masterSlot (s : State) : (SlotTag × Byte) × State :=
  match s.msg.attempt with
  | some a => s.writeSlot a
  | none =>
    if s.tape.enumDue then
      (s.setTape { s.tape with enumDue := false }).writeSlot
        { slots := slotsOf [0x01, 0xFF, 0x00, 0x01, 0x01], enumerate := true }
    else
      match s.newAttempt with
      | some a => s.writeSlot a
      | none => ((.idle, 0x00), s)

/-- The frame the master builds from a reading and a slot (R186). -/
def State.builtFrame (s : State) (r : Readings) (slot : SlotTag × Byte) : LinkFrame :=
  let playing := decide (s.tape.transport = .playing)
  sealFrame
    { number := BitVec.ofNat 16 s.tape.nextNumber
      left := if playing then trackSample r.left (s.paramInt .trimL) else 0
      right := if playing then trackSample r.right (s.paramInt .trimR) else 0
      cue := if playing then cueSample r.cue (s.paramInt .trimC) (s.paramNat .cueGain) else 0
      tag := slot.1, byte := slot.2, showRunning := playing, silent := !playing, broken := false
      tapeEnd := decide (s.tape.transport = .atEnd), check := 0 }

/-- One frame time of the master's frame clock: conversion, frame, slot, the hand-overs and the counts (R75, R168,
R172, R180 to R189). -/
def State.buildFrame (s : State) (r : Readings) : State :=
  if s.isMaster then
    let t := s.convert r
    let u := t.setTape { t.tape with
      sinceReturn := min Config.lossFrameTimes (t.tape.sinceReturn + 1)
      enumWait := t.tape.enumWait.map fun n => min 64 (n + 1) }
    let w := u.masterSlot
    let f := w.2.builtFrame r w.1
    let v := (w.2.setLink { w.2.link with output := some f }).setTape
      { w.2.tape with nextNumber := nextFrameNumber w.2.tape.nextNumber }
    let x := (v.setReasons { v.sound.reasons with silent := f.silent }).writePair (f.left, f.right)
    x.handFrame s.tape.nextNumber f.cue false false
  else s

end Sys2Proof.Machine
end

