-- ==== Sys2Proof/Machine/HandlerOps.lean ====
section
/-! DEFINITION. The command handler: the taking of the oldest receive buffer, the reply in its held place, and what
each link command changes and answers (R28, R36 to R58). -/

namespace Sys2Proof.Machine

/-! ## Taking a buffer and answering (R28, R37, R39) -/

/-- The statuses of a reply (R37). -/
inductive ReplyStatus where
  | ok
  | busy
  | full
  | range
  | protect
  | unknown
  | role
  deriving DecidableEq, Repr

/-- The code of a status (R37). -/
def ReplyStatus.code : ReplyStatus → Byte
  | .ok => 0x00
  | .busy => 0x01
  | .full => 0x02
  | .range => 0x03
  | .protect => 0x04
  | .unknown => 0x05
  | .role => 0x06

/-- What a command answers: its status, and data when the status is OK (R37). -/
structure Answer where
  status : ReplyStatus
  data : List Byte
  deriving DecidableEq, Repr

/-- A refusal carries no data (R37). -/
def Answer.refusal (r : ReplyStatus) : Answer := { status := r, data := [] }

/-- OK with data (R37). -/
def Answer.good (data : List Byte) : Answer := { status := .ok, data := data }

/-- The reply to a command (R23, R37). -/
def replyTo (m : Message) (a : Answer) : OutMsg :=
  { kind := 0x80, dest := m.source, payload := [m.kind, a.status.code] ++ a.data }

/-- The oldest buffer may be taken: no RESET is held, and a message that needs a reply finds a free place (R28,
R47). -/
def State.mayTake (s : State) (m : Message) : Bool := s.msg.heldReset.isNone && (!m.needsReply || s.placeFree)

/-- The buffer freed and, where needed, the place held (R28). -/
def State.takeOldest (s : State) (m : Message) : State :=
  s.setMsg { s.msg with rx := s.msg.rx.tail, held := m.needsReply }

/-- The reply placed in the held place (R28), at the tail as it stands when the command has been carried out, so after a
NOTICE placed meanwhile (DESIGN CHOICE, log 38); a message that needs none gets none (R39). -/
def State.answer (s : State) (m : Message) (a : Answer) : State :=
  let t := s.setMsg { s.msg with held := false }
  if m.needsReply then t.enqueueReply (replyTo m a) else t

/-- The handler carries out the oldest message when it meets a test and may be taken (R28, R40; log 1). -/
def State.serve (s : State) (test : Message → Bool) (work : Message → State → Answer × State) : State :=
  match s.msg.rx with
  | [] => s
  | m :: _ =>
    if test m && s.mayTake m then
      let r := work m (s.takeOldest m)
      r.2.answer m r.1
    else s

/-- A message of one kind. -/
def isKind (k : Byte) (m : Message) : Bool := decide (m.kind = k)

/-! ## Management (R42 to R47) -/

/-- IDENTIFY (R42). -/
def identify (m : Message) (s : State) : Answer × State :=
  if m.payload.length ≠ 0 then (.refusal .range, s)
  else (.good [0x04, 0x70, 1, s.sourceByte, s.link.groups, if s.isMaster then 1 else 0], s)

/-- SET_GROUPS (R41, R43). -/
def setGroups (m : Message) (s : State) : Answer × State :=
  match m.payload with
  | [g] =>
    if s.saving .settings then (.refusal .busy, s) else (.good [g], s.setLink { s.link with groups := g })
  | _ => (.refusal .range, s)

/-- The summary record of STATUS (R44). -/
def State.statusRecord (s : State) : List Byte :=
  [trayCode s.tray.state, if s.tray.valid then byteOf s.tray.position else 0xFF, byteOf s.lamp.applied,
    thermalCode s.mon.thermal, fanCode s.mon.fan, supplyCode s.mon.supply, byteOf s.queue.entries.length,
    if s.isMaster then transportCode s.tape.transport else 0, if s.attentionBit then 1 else 0] ++
    symbolCodes s.cue.lastWord ++ bytesOf 2 s.cue.wordCounter.toNat

/-- STATUS (R44). -/
def status (m : Message) (s : State) : Answer × State :=
  if m.payload.length ≠ 0 then (.refusal .range, s) else (.good s.statusRecord, s)

/-- The sixteen bytes of READ_EVENTS (R45). -/
def State.eventsRecord (s : State) : List Byte :=
  bytesOf 4 s.events.latched.toNat ++ bytesOf 4 s.rawSet.toNat ++ [byteOf s.msg.assemblyErrors] ++
    bytesOf 2 s.cue.glitches ++ bytesOf 2 s.sound.slips.toNat ++ bytesOf 2 s.remote.ignored ++ [s.events.lastMark]

/-- READ_EVENTS (R45). -/
def readEvents (m : Message) (s : State) : Answer × State :=
  if m.payload.length ≠ 0 then (.refusal .range, s) else (.good s.eventsRecord, s)

/-- CLEAR_EVENTS (R45). -/
def clearEventsCommand (m : Message) (s : State) : Answer × State :=
  if m.payload.length ≠ 4 then (.refusal .range, s)
  else
    let t := s.clearEvents (BitVec.ofNat 32 (natOf m.payload))
    (.good (bytesOf 4 t.events.latched.toNat), t)

/-- SET_MASKS (R46). -/
def setMasksCommand (m : Message) (s : State) : Answer × State :=
  if m.payload.length ≠ 8 then (.refusal .range, s)
  else
    let t := s.setMasks (BitVec.ofNat 32 (natOf (m.payload.take 4))) (BitVec.ofNat 32 (natOf (m.payload.drop 4)))
    (.good (bytesOf 4 t.events.attention.toNat ++ bytesOf 4 t.events.alarm.toNat), t)

/-- RESET: the handler takes the message and holds it, with the place for its reply, until the store has neither a job
nor a pending lamp write; LINK_RESET then carries it out (R47). -/
def State.serveReset (s : State) : State :=
  match s.msg.rx with
  | [] => s
  | m :: _ =>
    if isKind 0x08 m && s.mayTake m then
      let t := s.takeOldest m
      if m.payload.length ≠ 0 then t.answer m (.refusal .range)
      else t.setMsg { t.msg with heldReset := some m }
    else s

/-! ## Parameters (R48) -/

/-- What a block does at once with a parameter just set (R112, R176, R177). -/
def State.afterParam (s : State) (p : Param) : State :=
  match p with
  | .traySense => s.senseCheck
  | .audioDelay => s.changeDelay (s.paramNat .audioDelay)
  | .audioLevel => s.setShowLevel (s.paramNat .audioLevel)
  | _ => s

/-- SET_PARAM (R41, R48). -/
def setParamCommand (m : Message) (s : State) : Answer × State :=
  match m.payload with
  | [id, a, b, c, d] =>
    match Param.ofId id.toNat with
    | some p =>
      if s.saving .settings then (.refusal .busy, s)
      else
        let w := p.clamp (BitVec.ofNat 32 (natOf [a, b, c, d]))
        (.good (id :: bytesOf 4 w.toNat), (s.setParam p w).afterParam p)
    | none => (.refusal .range, s)
  | _ => (.refusal .range, s)

/-- READ_PARAM (R48). -/
def readParam (m : Message) (s : State) : Answer × State :=
  match m.payload with
  | [id] =>
    match Param.ofId id.toNat with
    | some p => (.good (id :: bytesOf 4 (s.paramNat p)), s)
    | none => (.refusal .range, s)
  | _ => (.refusal .range, s)

/-! ## Tables (R52 to R55) -/

/-- LOAD_CUE (R41, R52). -/
def loadCue (m : Message) (s : State) : Answer × State :=
  match m.payload with
  | index :: rest =>
    if [10, 14, 18, 22].contains rest.length && decide (index.toNat ≤ 63) then
      match cueOfBytes rest with
      | some e =>
        if s.saving .cues then (.refusal .busy, s)
        else (.good [index], s.setCue { s.cue with table := s.cue.table.setIfInBounds index.toNat e })
      | none => (.refusal .range, s)
    else (.refusal .range, s)
  | [] => (.refusal .range, s)

/-- READ_CUE (R52). -/
def readCue (m : Message) (s : State) : Answer × State :=
  match m.payload with
  | [index] =>
    if index.toNat ≤ 63 then (.good (cueBytes (s.cue.table.getD index.toNat CueEntry.default)), s)
    else (.refusal .range, s)
  | _ => (.refusal .range, s)

/-- A state with its remote decoder replaced. -/
def State.setRemote (s : State) (r : Remote) : State := { s with remote := r }

/-- LOAD_KEY (R41, R53). -/
def loadKey (m : Message) (s : State) : Answer × State :=
  match m.payload with
  | index :: rest =>
    if index.toNat ≤ 15 then
      match keyOfBytes rest with
      | some e =>
        if s.saving .keys then (.refusal .busy, s)
        else (.good [index], s.setRemote { s.remote with keys := s.remote.keys.setIfInBounds index.toNat e })
      | none => (.refusal .range, s)
    else (.refusal .range, s)
  | [] => (.refusal .range, s)

/-- READ_KEY (R53). -/
def readKey (m : Message) (s : State) : Answer × State :=
  match m.payload with
  | [index] =>
    if index.toNat ≤ 15 then (.good (keyBytes (s.remote.keys.getD index.toNat KeyEntry.blank)), s)
    else (.refusal .range, s)
  | _ => (.refusal .range, s)

/-- The slot map with entries loaded from a position on (R54). -/
def loadSlots (slots : Vector SlotEntry 100) (p : Nat) : List Byte → Vector SlotEntry 100
  | [] => slots
  | b :: rest =>
    loadSlots (slots.setIfInBounds p (slotWithByte (slots.getD p SlotEntry.blank) b)) (p + 1) rest

/-- LOAD_SLOT (R41, R54). -/
def loadSlot (m : Message) (s : State) : Answer × State :=
  match m.payload with
  | p :: entries =>
    let k := entries.length
    if 1 ≤ k ∧ k ≤ 8 ∧ p.toNat ≤ 99 ∧ p.toNat + k ≤ 100 ∧ entries.all (fun b => !b.getLsbD 6) = true then
      if s.saving .slots then (.refusal .busy, s)
      else (.good [p, byteOf k], s.setTray { s.tray with slots := loadSlots s.tray.slots p.toNat entries })
    else (.refusal .range, s)
  | [] => (.refusal .range, s)

/-- A READ_SLOT from a cursor: the entries, up to 8 and not past 99, and the cursor after it (R54). -/
def State.readSlots (s : State) (cursor : Nat) : Answer × State :=
  let k := min 8 (100 - cursor)
  let data := (List.range k).flatMap fun i =>
    let e := s.tray.slot (cursor + i)
    [occupancyCode e.occupancy, slotByte e]
  (.good ([byteOf cursor, byteOf k] ++ data), s.setTray { s.tray with cursor := min 99 (cursor + k) })

/-- READ_SLOT (R54). -/
def readSlot (m : Message) (s : State) : Answer × State :=
  match m.payload with
  | [q] =>
    if q.toNat ≤ 99 then s.readSlots q.toNat
    else if q = 0xFF then s.readSlots s.tray.cursor
    else (.refusal .range, s)
  | _ => (.refusal .range, s)

/-- The value a curve point is set to (R55). -/
def curvePoint (i sent : Nat) : Nat := if i = 0 then 0 else if i = 32 then 1024 else min 1024 sent

/-- The values sent for eight points (R55). -/
def sentPoints (bytes : List Byte) : List Nat := (List.range 8).map fun i => natOf ((bytes.drop (2 * i)).take 2)

/-- The curve with a segment's points written (R55). -/
def loadPoints (curve : Vector Nat 33) (i : Nat) : List Nat → Vector Nat 33
  | [] => curve
  | p :: rest => loadPoints (curve.setIfInBounds i (curvePoint i p)) (i + 1) rest

/-- The complete mark and the loaded segments after a load (R144). -/
def Lamp.segmentLoaded (l : Lamp) (seg : Nat) : Bool × BitVec 4 :=
  if seg < 4 then
    if l.complete then (false, (1 : BitVec 4) <<< seg) else (false, l.segments ||| ((1 : BitVec 4) <<< seg))
  else if l.complete then (false, 0)
  else if l.segments = 0xF then (true, 0)
  else (false, l.segments)

/-- LOAD_CURVE (R41, R55, R144). -/
def loadCurve (m : Message) (s : State) : Answer × State :=
  match m.payload with
  | seg :: bytes =>
    if bytes.length = 16 ∧ seg.toNat ≤ 4 then
      if s.saving .curve then (.refusal .busy, s)
      else
        let n := seg.toNat
        let sent := if n = 4 then (sentPoints bytes).take 1 else sentPoints bytes
        let curve := loadPoints s.lamp.curve (8 * n) sent
        let mark := s.lamp.segmentLoaded n
        let data := (List.range 8).flatMap fun i =>
          bytesOf 2 (if n = 4 ∧ i ≠ 0 then 0 else curve.getD (8 * n + i) 0)
        (.good (seg :: data),
          { s with lamp := { s.lamp with curve := curve, complete := mark.1, segments := mark.2 } })
    else (.refusal .range, s)
  | [] => (.refusal .range, s)

/-! ## Actions (R51) -/

/-- ACT; with no reply to give, a full queue latches ACTION_DISCARDED (R39, R51, R98). -/
def actCommand (m : Message) (s : State) : Answer × State :=
  match actionOfBytes m.payload with
  | some a =>
    if 1 ≤ s.queueRoom then (.good (recordOf a), s.place [a] .link)
    else (.refusal .full, s.latchIf (!m.needsReply) .actionDiscarded)
  | none => (.refusal .range, s)

/-- STOP (R51, R106). -/
def stopCommand (m : Message) (s : State) : Answer × State :=
  if m.payload.length ≠ 0 then (.refusal .range, s) else (.good [], s.stopAll)

/-- A lamp changer in JAMMED becomes IDLE (R51, R161). -/
def State.clearSwapJam (s : State) : State :=
  if s.lamp.changer = .jammed then { s with lamp := { s.lamp with changer := .idle } } else s

/-- CLEAR_JAM (R51, R124, R161). -/
def clearJam (m : Message) (s : State) : Answer × State :=
  if m.payload.length ≠ 0 then (.refusal .range, s)
  else
    let t := s.clearSwapJam.clearTrayJam
    (.good [trayCode t.tray.state, lampChangerCode t.lamp.changer], t)

/-! ## Store and calibration (R56 to R58) -/

/-- SAVE (R56). -/
def saveCommand (m : Message) (s : State) : Answer × State :=
  match m.payload with
  | [code] =>
    match regionOfCode code.toNat with
    | some r =>
      if s.store.protection.getLsbD (regionCode r) then (.refusal .protect, s)
      else if s.storeIdle then (.good [code], s.startJob (.save r))
      else (.refusal .busy, s)
    | none => (.refusal .range, s)
  | _ => (.refusal .range, s)

/-- PROTECT (R56). -/
def protectCommand (m : Message) (s : State) : Answer × State :=
  match m.payload with
  | [set] =>
    if set.toNat < 32 then
      if s.storeIdle then (.good [set], s.startJob (.protect set)) else (.refusal .busy, s)
    else (.refusal .range, s)
  | _ => (.refusal .range, s)

/-- STORE_READ; of page 255 it also activates the protection set that page holds (R57, R205). -/
def storeRead (m : Message) (s : State) : Answer × State :=
  match m.payload with
  | [page, half] =>
    if half.toNat ≤ 1 then
      let bytes := s.readPage page.toNat
      let t := if page = 0xFF then s.activateProtection bytes s.protectionBroken else s
      (.good ([page, half] ++ (bytes.drop (16 * half.toNat)).take 16), t)
    else (.refusal .range, s)
  | _ => (.refusal .range, s)

/-- LAMP_REPLACED (R57, R161). -/
def lampReplaced (m : Message) (s : State) : Answer × State :=
  match m.payload with
  | [n] =>
    if n.toNat ≤ 1 then (.good [n], s.replaceLamp (if n = 0 then .lamp0 else .lamp1)) else (.refusal .range, s)
  | _ => (.refusal .range, s)

/-- A CALIBRATE is refused with BUSY (R58). -/
def State.calibrateBusy (s : State) : Bool :=
  decide (s.tape.transport ≠ .stopped) || s.tape.calibration.isSome || s.saving .settings

/-- CALIBRATE (R38, R58, R184). -/
def calibrateCommand (m : Message) (s : State) : Answer × State :=
  if s.isFollower then (.refusal .role, s)
  else if m.payload.length ≠ 0 then (.refusal .range, s)
  else if s.calibrateBusy then (.refusal .busy, s)
  else
    (.good [], s.setTape { s.tape with
      calibration := some { count := 0, sumLeft := 0, sumRight := 0, sumCue := 0 } })

/-! ## ENUMERATE and unknown kinds (R36, R42) -/

/-- ENUMERATE at the handler: to the unit alone it is answered RANGE; one to all that returns to a master is passed to
the ring supervision (R42). -/
def enumerateCommand (m : Message) (s : State) : Answer × State :=
  (.refusal .range, if s.isMaster && decide (m.dest = 0xFF) then s.enumReturned else s)

/-- The kinds the handler knows, with the message unit's own (R23, R36). -/
def knownKinds : List Byte :=
  [0x01, 0x02, 0x03, 0x04, 0x05, 0x06, 0x07, 0x08, 0x10, 0x11, 0x20, 0x21, 0x22, 0x23, 0x24, 0x25, 0x26, 0x30, 0x31,
   0x32, 0x40, 0x41, 0x42, 0x43, 0x50, 0x80, 0x81, 0x82]

/-- A kind the handler does not know (R36). -/
def unknownKind (m : Message) : Bool := !knownKinds.contains m.kind

/-- An unknown kind is answered UNKNOWN (R36). -/
def unknownCommand (_m : Message) (s : State) : Answer × State := (.refusal .unknown, s)

end Sys2Proof.Machine
end

