-- ==== Sys2Proof/Machine/RemoteOps.lean ====
section
/-! DEFINITION. The remote decoder: the infrared receiver, presses, holds and repeats, scopes and the relay (R191 to
R197). -/

namespace Sys2Proof.Machine

/-! ## Elements (R191) -/

/-- A length within 25 % of its nominal length, in microseconds (R191). -/
def nearNominal (nominal micros : Nat) : Bool :=
  decide (3 * nominal ≤ 4 * micros) && decide (4 * micros ≤ 5 * nominal)

/-- A space that ends a frame (R191). -/
def endsFrame (micros : Nat) : Bool := decide (2500 < micros)

/-- The bit a space gives, or none outside both tolerances (R191). -/
def bitOfSpace (micros : Nat) : Option Bool :=
  if nearNominal 500 micros then some false else if nearNominal 1500 micros then some true else none

/-- What an element leads to: the receiver goes on in a state, or a frame is complete (R191). -/
inductive IrResult where
  | goesOn (next : IrState)
  | repeatFrame
  | codeFrame (bits : List Bool)
  deriving DecidableEq, Repr

/-- The frame is discarded (R191). -/
def IrResult.discard : IrResult := .goesOn .waitLeader

/-- One element at the receiver (R191). An element that discards a frame is spent on it: a burst that does is not taken
as a leader besides (DESIGN CHOICE, log 55). -/
def irTake (st : IrState) (e : IrElement) : IrResult :=
  match st, e with
  | .waitLeader, .burst n => if nearNominal 4000 n then .goesOn .leaderSpace else .discard
  | .waitLeader, .space _ => .discard
  | .leaderSpace, .space n => if nearNominal 2000 n then .goesOn (.bits [] false) else .discard
  | .leaderSpace, .burst _ => .discard
  | .bits g false, .burst n =>
    if nearNominal 500 n then (if g.length = 16 then .goesOn (.stop g) else .goesOn (.bits g true)) else .discard
  | .bits _ false, .space _ => .discard
  | .bits g true, .space n =>
    if g.isEmpty && endsFrame n then .repeatFrame
    else
      match bitOfSpace n with
      | some b => .goesOn (.bits (g ++ [b]) false)
      | none => .discard
  | .bits _ true, .burst _ => .discard
  | .stop g, .space n => if endsFrame n then .codeFrame g else .discard
  | .stop _, .burst _ => .discard

/-- The value of bits sent most significant first (R191). -/
def natOfBits (bits : List Bool) : Nat := bits.foldl (fun n b => 2 * n + (if b then 1 else 0)) 0

/-- The channel, key and check of a code frame's 16 bits (R191). -/
def codeFields (bits : List Bool) : Nat × Nat × Nat :=
  (natOfBits (bits.take 4), natOfBits ((bits.drop 4).take 8), natOfBits (bits.drop 12))

/-- A code frame is accepted (R191). -/
def codeAccepted (channel : Nat) (bits : List Bool) : Bool :=
  let f := codeFields bits
  decide (f.2.2 = f.1 ^^^ (f.2.1 / 16) ^^^ (f.2.1 % 16)) && decide (f.1 = channel)

/-! ## Scopes and the relay (R195, R196) -/

/-- One ignored key more (R191). -/
def State.countIgnored (s : State) : State :=
  s.setRemote { s.remote with ignored := satAdd 65535 s.remote.ignored }

/-- The action a key uses: SKIP_EMPTY sets the skip flag of an ADVANCE or REVERSE (R193). -/
def State.keyAction (s : State) (a : Action) : Action :=
  match a with
  | .advance n skip => .advance n (skip || s.paramOn .skipEmpty)
  | .reverse n skip => .reverse n (skip || s.paramOn .skipEmpty)
  | _ => a

/-- A first-pass REMOTE_RELAY is asked for: placed with its relay wait, or RELAY_LOST (R195). -/
def State.sendRelay (s : State) (a : Action) (scope : KeyScope) : State :=
  if s.placeFree then
    (s.enqueueReply { kind := 0x82, dest := 0x00, payload := [0x00, s.sourceByte] ++ recordOf a }).setRemote
      { s.remote with relayWait := some { action := a, scope := scope, ticks := 0 }, lapsed := none }
  else s.latch .relayLost

/-- A used key's action carried out by the entry's scope (R195). -/
def State.keyScope (s : State) (a : Action) (scope : KeyScope) : State :=
  match scope with
  | .here => s.placeOrDiscard a .key
  | .relay => if s.remote.relayWait.isSome then s.countIgnored else s.sendRelay a .relay
  | .both => if s.remote.relayWait.isSome then s.countIgnored else (s.placeOrDiscard a .key).sendRelay a .both

/-- A copy matches a record when its originator is the unit's address as it stands and its record the same (R196). -/
def State.copyMatches (s : State) (origin : Byte) (record : List Byte) (a : Action) : Bool :=
  decide (origin = s.sourceByte) && decide (record = recordOf a)

/-- A relayed action offered to the queue, or discarded when its record is invalid (R98, R196). -/
def State.offerRelayed (s : State) (record : List Byte) : State :=
  match actionOfBytes record with
  | some a => s.placeOrDiscard a .relay
  | none => s.latch .actionDiscarded

/-- A relayed REMOTE_RELAY at the decoder (R196). -/
def State.relayCopy (s : State) (origin : Byte) (record : List Byte) : State :=
  match s.remote.relayWait, s.remote.lapsed with
  | some w, _ =>
    if s.copyMatches origin record w.action then
      let t := s.setRemote { s.remote with relayWait := none }
      if w.scope = .both then t else t.offerRelayed record
    else s.offerRelayed record
  | none, some a =>
    if s.copyMatches origin record a then s.setRemote { s.remote with lapsed := none } else s.offerRelayed record
  | none, none => s.offerRelayed record

/-- The handler hands a relayed REMOTE_RELAY on (R28, R196). -/
def relayCommand (m : Message) (s : State) : Answer × State :=
  (.good [], s.relayCopy (m.payload.getD 1 0) (m.payload.drop 2))

/-- The relay wait has run its 100 ticks (R195). -/
def State.relayOver (s : State) : Bool := s.remote.relayWait.any fun w => decide (100 ≤ w.ticks)

/-- RELAY_WAIT_EXPIRY (R195). -/
def State.relayExpires (s : State) : State :=
  match s.remote.relayWait with
  | some w =>
    if 100 ≤ w.ticks then
      (s.setRemote { s.remote with relayWait := none, lapsed := some w.action }).latch .relayLost
    else s
  | none => s

/-! ## Presses, holds and repeats (R193, R194) -/

/-- The first enabled entry that carries a code (R193). -/
def State.keyEntry (s : State) (code : Byte) : Option KeyEntry :=
  s.remote.keys.toList.find? fun e => e.enabled && decide (e.code = code)

/-- A key's entry is used, unless the show lockout stands (R193). -/
def State.useKey (s : State) (e : KeyEntry) : State :=
  if s.showRunning && !e.duringShow then s.countIgnored else s.keyScope (s.keyAction e.action) e.scope

/-- A hold begins and replaces the one before it (R193, R194). -/
def State.beginHold (s : State) (code : Byte) (source : KeySource) : State :=
  s.setRemote { s.remote with
    hold := some { code := code, source := source, ticks := 0, frameTicks := 0, repeatDue := false } }

/-- A press (R193). -/
def State.press (s : State) (code : Byte) (source : KeySource) : State :=
  if code = 0x00 ∧ source = .ir then s.stopAll.beginHold code source
  else
    match s.keyEntry code with
    | some e => (s.beginHold code source).useKey e
    | none => s.beginHold code source

/-- A repeat frame (R194). -/
def State.keepHold (s : State) : State :=
  match s.remote.hold with
  | some h => if h.source = .ir then s.setRemote { s.remote with hold := some { h with frameTicks := 0 } } else s
  | none => s

/-- An infrared hold has run 15 ticks without a repeat frame (R194). -/
def State.holdOver (s : State) : Bool :=
  s.remote.hold.any fun h => decide (h.source = .ir) && decide (15 ≤ h.frameTicks)

/-- HOLD_END (R194). -/
def State.endHold (s : State) : State := if s.holdOver then s.setRemote { s.remote with hold := none } else s

/-- A key repeats at tick 50 and every 20th after it (R194). -/
def repeatsAt (ticks : Nat) : Bool := decide (50 ≤ ticks) && decide ((ticks - 50) % 20 = 0)

/-- A repeat is due (R194). -/
def State.repeatDue (s : State) : Bool := s.remote.hold.any fun h => h.repeatDue

/-- KEY_REPEAT (R193, R194). -/
def State.keyRepeats (s : State) : State :=
  match s.remote.hold with
  | some h =>
    if h.repeatDue then
      let t := s.setRemote { s.remote with hold := some { h with repeatDue := false } }
      if h.code = 0x00 ∧ h.source = .ir then t
      else
        match t.keyEntry h.code with
        | some e => if e.repeats then t.useKey e else t
        | none => t
    else s
  | none => s

/-- One tick of a hold: the frame count is advanced and tested before the tick's repeat (R191, R194). Once the count has
saturated at 65535 no further repeat falls due (DESIGN CHOICE, log 41). -/
def Hold.tick (h : Hold) : Hold :=
  let n := satAdd 65535 h.ticks
  let f := if h.source = .ir then min 15 (h.frameTicks + 1) else h.frameTicks
  { h with
    ticks := n
    frameTicks := f
    repeatDue := decide (h.ticks < 65535) && repeatsAt n && !(decide (h.source = .ir) && decide (15 ≤ f)) }

/-! ## Frames and buttons (R191, R192) -/

/-- A complete frame, or the receiver going on (R191, R193, R194). -/
def State.irElement (s : State) (e : IrElement) : State :=
  match irTake s.remote.ir e with
  | .goesOn next => s.setRemote { s.remote with ir := next }
  | .repeatFrame => (s.setRemote { s.remote with ir := .waitLeader }).keepHold
  | .codeFrame bits =>
    let t := s.setRemote { s.remote with ir := .waitLeader }
    if codeAccepted (t.paramNat .remoteChannel) bits then t.press (byteOf (codeFields bits).2.1) .ir else t

/-- The elements of a frame, one after another (R191). -/
def State.irElements (s : State) (es : List IrElement) : State := es.foldl State.irElement s

/-- The pressed state of a button (R192). -/
def Remote.button (r : Remote) (b : Fin 3) : Bool :=
  match b with
  | 0 => r.button0
  | 1 => r.button1
  | 2 => r.button2

/-- A button's pressed state replaced. -/
def Remote.setButton (r : Remote) (b : Fin 3) (down : Bool) : Remote :=
  match b with
  | 0 => { r with button0 := down }
  | 1 => { r with button1 := down }
  | 2 => { r with button2 := down }

/-- The key code of a button (R192). -/
def buttonCode (b : Fin 3) : Byte := byteOf (0xF0 + b.val)

/-- A button read pressed at two consecutive ticks while released is pressed (R192). -/
def State.buttonDown (s : State) (b : Fin 3) (before now : Bool) : State :=
  if before && now && !s.remote.button b then
    (s.setRemote (s.remote.setButton b true)).press (buttonCode b) .button
  else s

/-- A button read open at two consecutive ticks while pressed is released and ends a hold of its code (R192, R194). -/
def State.buttonUp (s : State) (b : Fin 3) (before now : Bool) : State :=
  if !before && !now && s.remote.button b then
    let t := s.setRemote (s.remote.setButton b false)
    if t.remote.hold.any (fun h => decide (h.code = buttonCode b)) then t.setRemote { t.remote with hold := none }
    else t
  else s

end Sys2Proof.Machine
end

