-- ==== Sys2Proof/Machine/TickOps.lean ====
section
/-! DEFINITION. The tick and the steps that a count brings about: show-safe, PAUSE, dissolves, lamp failure, lit
minutes, swaps, fan and cooldown, temperature, supply, the end sensor, and the supply's outright failure. -/

namespace Sys2Proof.Machine

/-! ## The tick (log 3) -/

/-- A tick at the fan's timers (R152, R153). -/
def FanState.tick : FanState → FanState
  | .off => .off
  | .starting n => .starting (min 100 (n + 1))
  | .running n => .running (min 50 (n + 1))
  | .stalled _ => .stalled true
  | .resting n => .resting (min 100 (n + 1))

/-- A tick at the show-safe count (R13). -/
def State.tickLink (s : State) : State :=
  if s.inLoss && !s.link.showSafe then
    s.setLink { s.link with showSafeCount := min Config.showSafeTicks (s.link.showSafeCount + 1) }
  else s

/-- A tick at the pause timer (R105). -/
def State.tickPause (s : State) : State :=
  { s with queue := { s.queue with
      pause := s.queue.pause.map fun p => { p with elapsed := min p.duration (p.elapsed + 1) } } }

/-- The changer is in motion (R109). -/
def TrayState.inMotion : TrayState → Bool
  | .homing _ => true
  | .changing _ => true
  | _ => false

/-- A tick at the phase timer (R119). -/
def State.tickTray (s : State) : State :=
  if s.tray.state.inMotion then s.setTray { s.tray with timer := min 40 (s.tray.timer + 1) } else s

/-- A tick at the swap timer (R160). -/
def State.tickSwap (s : State) : State :=
  match s.lamp.changer with
  | .swapping n => { s with lamp := { s.lamp with changer := .swapping (min 300 (n + 1)) } }
  | _ => s

/-- A tick at the monitor's timers (R148, R152 to R154). -/
def State.tickMonitor (s : State) : State :=
  { s with mon := { s.mon with
      sinceConversion := min 10 (s.mon.sinceConversion + 1)
      fan := s.mon.fan.tick
      cooldown := s.mon.cooldown - 1 } }

/-- A tick at the hold and at the relay wait (R194, R195). -/
def State.tickRemote (s : State) : State :=
  s.setRemote { s.remote with
    hold := s.remote.hold.map Hold.tick
    relayWait := s.remote.relayWait.map fun w => { w with ticks := min 100 (w.ticks + 1) } }

/-- A tick of the local timebase: the counts, then the lamp controller's work (R146; log 3). -/
def State.tick (s : State) (currentPresent : Bool) : State :=
  (s.tickLink.tickPause.tickTray.tickSwap.tickMonitor.tickRemote).lampTickWork currentPresent

/-! ## Show-safe and PAUSE (R13, R105, R147) -/

/-- The show-safe count has reached 200 ticks (R13). -/
def State.showSafeDue (s : State) : Bool :=
  s.inLoss && !s.link.showSafe && decide (Config.showSafeTicks ≤ s.link.showSafeCount)

/-- SHOW_SAFE_RAISED (R13, R147). -/
def State.raiseShowSafe (s : State) : State :=
  if s.showSafeDue then
    let t := s.setLink { s.link with showSafe := true }
    if t.paramOn .safeAction then t.stopAll.beginDissolve 0 100 false else t
  else s

/-- The pause timer has reached its duration (R105). -/
def State.pauseDue (s : State) : Bool := s.queue.pause.any fun p => decide (p.duration ≤ p.elapsed)

/-- PAUSE_EXPIRY (R105). -/
def State.pauseExpires (s : State) : State :=
  if s.pauseDue then ({ s with queue := { s.queue with pause := none } } : State).offer else s

/-! ## The lamp (R141, R157, R160, R162) -/

/-- A dissolve has run its duration (R141). -/
def State.dissolveDue (s : State) : Bool := s.lamp.dissolve.any fun d => decide (d.duration ≤ d.elapsed)

/-- DISSOLVE_END (R141). -/
def State.dissolveEnds (s : State) : State :=
  if s.dissolveDue then { s with lamp := { s.lamp with dissolve := none } } else s

/-- The failure count has reached 20 (R157). -/
def State.failureDue (s : State) : Bool := decide (20 ≤ s.lamp.failCount)

/-- LAMP_FAILURE (R157). -/
def State.lampFailure (s : State) : State := if s.failureDue then s.lampFails else s

/-- The lit-time count has reached 6000 (R162). -/
def State.minuteDue (s : State) : Bool := decide (6000 ≤ s.lamp.litCount)

/-- LIT_MINUTE (R162, R163). -/
def State.litMinute (s : State) : State := if s.minuteDue then s.addLitMinute else s

/-- The swap timer has reached 300 (R160). -/
def State.swapDue (s : State) : Bool :=
  match s.lamp.changer with
  | .swapping n => decide (300 ≤ n)
  | _ => false

/-- SWAP_TIMEOUT: the swap has jammed, and the queue offers its head (R160, R100). -/
def State.swapTimeout (s : State) : State := if s.swapDue then s.swapJams.offer else s

/-- The swap switch; its making in SWAPPING ends the swap (R160, R100). -/
def State.swapSwitch (s : State) (made : Bool) : State :=
  let t : State := { s with lamp := { s.lamp with swapSwitch := made } }
  if made && !s.lamp.swapSwitch && s.lamp.changer.isSwapping then t.swapSucceeds.offer else t

/-! ## The fan (R152 to R154) -/

/-- A tachometer pulse (R152, R153). -/
def State.tachPulse (s : State) : State :=
  match s.mon.fan with
  | .starting _ => { s with mon := { s.mon with fan := .running 0, fanAttempts := 0 } }
  | .running _ => { s with mon := { s.mon with fan := .running 0 } }
  | _ => s

/-- The start timer has reached 100 (R152). -/
def State.fanStartDue (s : State) : Bool :=
  match s.mon.fan with
  | .starting n => decide (100 ≤ n)
  | _ => false

/-- FAN_START_TIMEOUT (R152, R153). -/
def State.fanStartTimeout (s : State) : State := if s.fanStartDue then s.fanStalls else s

/-- The supervision timer has reached 50 (R152). -/
def State.fanSilent (s : State) : Bool :=
  match s.mon.fan with
  | .running n => decide (50 ≤ n)
  | _ => false

/-- FAN_SUPERVISION_TIMEOUT (R152, R153). -/
def State.fanSupervisionTimeout (s : State) : State := if s.fanSilent then s.fanStalls else s

/-- A tick has come in STALLED (R153). -/
def State.fanRestDue (s : State) : Bool := decide (s.mon.fan = .stalled true)

/-- FAN_REST (R153). -/
def State.fanRests (s : State) : State :=
  if s.fanRestDue then { s with mon := { s.mon with fan := .resting 0 } } else s

/-- The rest timer has reached 100 (R153). -/
def State.fanRested (s : State) : Bool :=
  match s.mon.fan with
  | .resting n => decide (100 ≤ n)
  | _ => false

/-- FAN_REST_END (R153). -/
def State.fanRestEnds (s : State) : State :=
  if s.fanRested then
    { s with mon := { s.mon with fan := .starting 0, fanAttempts := satAdd 255 s.mon.fanAttempts } }
  else s

/-- The cooldown timer stands at 0, and with no demand the fan is to be OFF (R152, R154). -/
def State.cooldownDue (s : State) : Bool :=
  decide (s.mon.cooldown = 0) && s.fanDemand.isNone && decide (s.mon.fan ≠ .off)

/-- COOLDOWN_END; a fan that leaves RUNNING makes the allowed level fall (R146, R152, R154). -/
def State.cooldownEnds (s : State) : State := if s.cooldownDue then s.reformDemand.lampFall s.allowed else s

/-! ## Temperature and supply (R148 to R156) -/

/-- The thermal state entered at a conversion, before which the thermal state and the allowed level were these, acts on
the lamp, the fan and the changer (R146, R150). -/
def State.enterThermal (s : State) (old : ThermalState) (before : Nat) : State :=
  let t := s.reformDemand.lampFall before
  if s.mon.thermal = .overheat ∧ old ≠ .overheat then (t.latch .overheat).changerOverheats else t

/-- TEMP_CONVERSION; conversions come every 10 ticks (R148 to R151; log 28). -/
def State.convertTemperature (s : State) (code : BitVec 10) : State :=
  if s.mon.sinceConversion < 10 then s
  else
    let t := s.trimmedTemperature code
    ({ s with mon := { s.mon with
        temperature := t, sinceConversion := 0, thermal := nextThermal s.mon.thermal t } } : State).enterThermal
      s.mon.thermal s.allowed

/-- The supply state entered at a sample, before which the supply state and the allowed level were these, acts on the
lamp, the flags, the changer, the store and the queue (R146, R156, R133, R206, R100). -/
def State.enterSupply (s : State) (old : SupplyState) (before : Nat) : State :=
  let t := ((s.lampFall before).latchIf (decide (old = .normal) && decide (s.mon.supply ≠ .normal)) .supplyLow).latchIf
    (decide (old ≠ .critical) && decide (s.mon.supply = .critical)) .supplyCritical
  if s.mon.supply = .critical ∧ old ≠ .critical then storeSuspend t
  else if s.mon.supply ≠ .critical ∧ old = .critical then (storeResume t.resumeChanger).offer
  else t

/-- SUPPLY_SAMPLE (R155, R156). -/
def State.sampleSupply (s : State) (reading : BitVec 10) : State :=
  let new := nextSupply (s.paramNat .supplyPreset) s.mon.supply reading.toNat
  ({ s with mon := { s.mon with supply := new } } : State).enterSupply s.mon.supply s.allowed

/-! ## The end sensor, the dimmer, the supply's failure (R138, R183, R206, R207) -/

/-- TAPE_END_SENSOR (R183). -/
def State.endSensorReads (s : State) (active : Bool) : State :=
  let t := s.setTape { s.tape with endSensor := active }
  if active && !s.tape.endSensor && s.isMaster && s.tape.transport.towardEnd then t.enterTapeEnd else t

/-- DIMMER_PERIOD_START (R138). -/
def State.dimmerPeriod (s : State) : State := { s with lamp := { s.lamp with dimmer := s.lamp.applied } }

/-- POWER_LOSS: the store keeps its pages but for one being written, and every drive loses its supply (R110, R206,
R207; log 6). -/
def State.losePower (s : State) : State :=
  let t := storePowerLoss s
  { t with
    powered := false
    tray := { t.tray with shutterOpen := false, gate := .off, motor := none }
    lamp := { t.lamp with dimmer := 0 }
    link := { t.link with output := none } }

end Sys2Proof.Machine
end

