-- ==== Sys2Proof/Machine/ResetOps.lean ====
section
/-! DEFINITION. The load of the working tables from the show store and the two resets (R20, R35, R47, R49, R77, R95,
R108, R135, R136, R165, R166, R179, R190, R197, R199, R200, R207). -/

namespace Sys2Proof.Machine

/-! ## What the store loads (R201, R207) -/

/-- A value of `k` bytes at an offset, most significant byte first. -/
def fieldAt (bytes : List Byte) (offset k : Nat) : Nat := natOf ((bytes.drop offset).take k)

/-- The pages of a region as stored. -/
def State.regionStored (s : State) (r : Region) : List Byte :=
  s.store.mem.pages (regionPages r).1 (regionPages r).2

/-- The parameters a load gives (R49). -/
def State.loadedParams (s : State) : Params :=
  if s.regionAgrees .settings then
    let bytes := s.regionStored .settings
    Vector.ofFn fun i => BitVec.ofNat 32 (fieldAt bytes (4 * i.val) 4)
  else Params.default

/-- The group set a load gives (R19). -/
def State.loadedGroups (s : State) : Byte :=
  if s.regionAgrees .settings then (s.regionStored .settings).getD 84 0 else 0

/-- The active lamp a load gives (R164). -/
def State.loadedActive (s : State) : LampNo :=
  if s.regionAgrees .settings && decide ((s.regionStored .settings).getD 85 0 = 1) then .lamp1 else .lamp0

/-- The cue table a load gives (R88). -/
def State.loadedCues (s : State) : Vector CueEntry 64 :=
  if s.regionAgrees .cues then
    Vector.ofFn fun i => (cueOfBytes (cuePageBytes (s.store.mem.page (4 + i.val)))).getD CueEntry.default
  else Vector.replicate 64 CueEntry.default

/-- The key map a load gives (R197). -/
def State.loadedKeys (s : State) : Vector KeyEntry 16 :=
  if s.regionAgrees .keys then
    let bytes := s.regionStored .keys
    Vector.ofFn fun i => (keyOfBytes ((bytes.drop (6 * i.val)).take 6)).getD KeyEntry.blank
  else KeyEntry.defaults

/-- The slot map a load gives, each occupancy as it stood (R115, R136). -/
def State.loadedSlots (s : State) (old : Vector SlotEntry 100) : Vector SlotEntry 100 :=
  let bytes := if s.regionAgrees .slots then s.regionStored .slots else List.replicate 100 0
  Vector.ofFn fun i => slotWithByte (old.getD i.val SlotEntry.blank) (bytes.getD i.val 0)

/-- The curve and its complete mark that a load gives (R144, R165). -/
def State.loadedCurve (s : State) : Vector Nat 33 × Bool :=
  if s.regionAgrees .curve then
    let bytes := s.regionStored .curve
    (Vector.ofFn fun i => fieldAt bytes (2 * i.val) 2, decide (bytes.getD 66 0 = 1))
  else (linearCurve, true)

/-- The regions that fail their check, in the store-error set (R207). -/
def State.regionErrors (s : State) : BitVec 7 :=
  [Region.settings, .cues, .keys, .slots, .curve].foldl
    (fun w r => if s.regionAgrees r then w else w ||| regionError r) 0

/-- The lamps whose records fail their check, in the store-error set (R207). -/
def State.lampErrors (s : State) : BitVec 7 :=
  [LampNo.lamp0, .lamp1].foldl (fun w n => if (s.loadLamp n).isSome then w else w ||| lampError n) 0

/-! ## Power-on reset -/

/-- The store's own state after a power-on reset (R205, R207). -/
def State.storePowerOn (s : State) : Store :=
  { s.store with
    job := none, pendingLamp0 := false, pendingLamp1 := false
    protection := if s.store.broken.contains 255 then 0 else protectionOf (s.store.mem.page 255)
    errors := s.regionErrors ||| s.lampErrors }

/-- Every block after a power-on reset, the event unit without the load's flag (R15, R20, R35, R77, R95, R108, R136,
R165, R166, R179, R190, R192, R197, R199, R200, R207). -/
def State.freshBlocks (s : State) (strap b0 b1 b2 : Bool) : State :=
  let params := s.loadedParams
  let curve := s.loadedCurve
  { link := LinkRx.powerOn (if strap then .master else .follower) s.loadedGroups
    msg := MsgUnit.powerOn
    det := Detector.restart
    cue := CueEngine.restart s.loadedCues
    queue := ActionQueue.empty
    tray := s.tray.powerOn (s.loadedSlots SlotEntry.blanks)
    lamp := s.lamp.powerOn curve.1 curve.2 s.loadedActive ((s.loadLamp .lamp0).getD LampRecord.missing)
      ((s.loadLamp .lamp1).getD LampRecord.missing)
    mon := Monitor.powerOn
    sound := Sound.powerOn (params.getD Param.audioDelay.id 0).toNat (params.getD Param.audioLevel.id 0).toNat
    tape := Tape.powerOn s.tape.endSensor
    remote := Remote.restart s.loadedKeys b0 b1 b2
    events := Events.powerOn
    store := s.storePowerOn
    params := params
    powered := true
    drawn := s.drawn
    pending := s.pending }

/-- POWER_ON_RESET; where the supply had not been seen to fail, it failed before it rose (R20, R207; log 6). -/
def State.powerOn (s : State) (strap b0 b1 b2 : Bool) : State :=
  let t := if s.powered then storePowerLoss s else s
  let u := t.freshBlocks strap b0 b1 b2
  u.latchIf (decide (u.store.errors ≠ 0)) .storeError

/-! ## Link reset (R47) -/

/-- The receiver after a link reset (R20). -/
def State.linkAfterReset (s : State) : LinkRx := { s.link with groups := s.loadedGroups, lastPair := (0, 0) }

/-- An attempt with the head of the reply queue is in progress (R35). -/
def MsgUnit.headInProgress (m : MsgUnit) : Bool := m.attempt.any fun a => !a.enumerate

/-- The message unit after a link reset (R35). -/
def MsgUnit.afterReset (m : MsgUnit) : MsgUnit :=
  { m with
    rx := [], replies := if m.headInProgress then m.replies.take 1 else [], held := false
    lastTry := m.headInProgress, attempts := 0, wait := none, heldReset := none }

/-- The changer after a link reset (R135, R136). -/
def State.trayAfterReset (s : State) : Tray :=
  let t := { s.tray with
    motion := none, seekCount := 0, current := none, carried := none, cut := false, timer := 0, motor := none
    slots := s.loadedSlots s.tray.slots, cursor := 0, trayEmpty := false, positionError := false }
  if s.tray.state.busy then
    { t with
      state := .unhomed, valid := false, shutterOpen := false
      gate := if s.tray.downSwitch then .off else .down }
  else t

/-- The lamp controller after a link reset (R164, R165). -/
def State.lampAfterReset (s : State) : Lamp :=
  let curve := s.loadedCurve
  { s.lamp with
    target := 0, computed := 0, applied := 0, held := false, dissolve := none, curve := curve.1
    complete := curve.2, segments := 0, savedActive := s.lamp.active, activeWaits := false, failCount := 0 }

/-- The sound path after a link reset, with the reasons the receiver raises again (R20, R179). -/
def State.soundAfterReset (s : State) (params : Params) : Sound :=
  { (Sound.powerOn (params.getD Param.audioDelay.id 0).toNat (params.getD Param.audioLevel.id 0).toNat) with
    step := s.sound.step
    output := s.sound.output
    reasons := { MuteReasons.fillOnly with
      link := s.inLoss
      badRun := s.isFollower && decide (Config.badRunLimit ≤ s.link.runCount) } }

/-- The tape unit and the ring supervision after a link reset; an ENUMERATE becomes due in a master (R189, R190). -/
def State.tapeAfterReset (s : State) : Tape :=
  { s.tape with
    calibration := none, pendingTrims := none, enumDue := s.isMaster, enumWait := none, enumAttempts := 0 }

/-- The store's own state after a link reset (R205, R207). -/
def State.storeAfterReset (s : State) : Store :=
  { s.store with
    protection := if s.store.broken.contains 255 then 0 else protectionOf (s.store.mem.page 255)
    errors := s.regionErrors }

/-- Every block after a link reset, with the latched set cleared (R20, R35, R49, R77, R95, R108, R135, R165, R166, R179,
R190, R197, R199, R200, R207). -/
def State.restarted (s : State) : State :=
  let params := s.loadedParams
  { s with
    link := s.linkAfterReset
    msg := s.msg.afterReset
    det := Detector.restart
    cue := CueEngine.restart s.loadedCues
    queue := ActionQueue.empty
    tray := s.trayAfterReset
    lamp := s.lampAfterReset
    sound := s.soundAfterReset params
    tape := s.tapeAfterReset
    remote := Remote.restart s.loadedKeys s.remote.button0 s.remote.button1 s.remote.button2
    events := { s.events with latched := 0, lastMark := 0 }
    store := s.storeAfterReset
    params := params }

/-- The applied level has fallen to 0 by a reset: the cooldown timer restarts and the active record's write is requested
(R154, R163, R165). -/
def State.resetFall (s : State) : State :=
  (({ s with mon := { s.mon with cooldown := Config.cooldownTicks } } : State).reformDemand).requestLampWrite
    s.lamp.active

/-- The link reset of a held RESET: the blocks' values, the reply, the raw flags, TRAY_SENSE, a waiting swap, and the
lamp's fall (R47, R112, R159, R165, R199; log 27). -/
def State.linkReset (s : State) (m : Message) : State :=
  let t := s.restarted
  let u := (if m.needsReply then t.enqueueReply (replyTo m (.good [])) else t).latchRaw
  let v := u.senseCheck.moveSwap
  if 0 < s.lamp.applied then v.resetFall else v.reformDemand

/-- A held RESET may be carried out (R47). -/
def State.resetDue (s : State) : Bool := s.msg.heldReset.isSome && s.storeFree

/-- LINK_RESET (R47). -/
def State.carryReset (s : State) : State :=
  match s.msg.heldReset with
  | some m => if s.storeFree then s.linkReset m else s
  | none => s

end Sys2Proof.Machine
end

