-- ==== Sys2Proof/Machine/Internal.lean ====
section
/-! DEFINITION. The steps the part takes by itself when their time has come, all of them carried out before any other
command (log 2), and what the part does with no command waiting (log 4). -/

namespace Sys2Proof.Machine

/-- No step of the part's own is due. -/
def State.quiet (s : State) : Bool :=
  !s.calibrationDue && !s.cue.runStuck && !s.cue.stuckOver && decide (s.cue.completion = .none) && !s.lossDue &&
    !s.ringDue && !s.showSafeDue && !s.waitOver && !s.enumWaitOver && !s.dissolveDue && !s.failureDue &&
    !s.minuteDue && !s.swapDue && !s.fanStartDue && !s.fanSilent && !s.fanRestDue && !s.fanRested &&
    !s.cooldownDue && !s.phaseExpired && !s.seekSpent && !s.settleDue && !s.pauseDue && !s.holdOver &&
    !s.repeatDue && !s.relayOver && !s.resetDue

/-- STUCK_TONE (R85). -/
def State.stuckTone (s : State) : State := if s.cue.runStuck then s.enterStuck else s

/-- STUCK_END (R85). -/
def State.stuckEnd (s : State) : State := if s.cue.stuckOver then s.leaveStuck else s

/-- PHASE_LIMIT_EXPIRY (R123). -/
def State.phaseLimit (s : State) : State := if s.phaseExpired then s.jam else s

/-- SEEK_EXHAUSTED (R127). -/
def State.seekExhausted (s : State) : State := if s.seekSpent then s.jam else s

/-- SETTLE_END (R119, R120). -/
def State.settleEnd (s : State) : State := if s.settleDue then s.settleEnds else s

/-- Every step that is due, carried out in one fixed order (log 2). -/
def settle (s : State) : State :=
  s.calibrationEnds.stuckTone.stuckEnd.wordCompletes.lossTimeout.ringOpens.raiseShowSafe.endWait.enumExpires
    |>.dissolveEnds.lampFailure.litMinute.swapTimeout.fanStartTimeout.fanSupervisionTimeout.fanRests.fanRestEnds
    |>.cooldownEnds.phaseLimit.seekExhausted.settleEnd.pauseExpires.endHold.keyRepeats.relayExpires.carryReset

/-- What a command from outside does to a part that has its supply: the due steps come first (logs 2 and 6). -/
def whenSettled (s : State) (f : State → State) : Host.Outcome State Fault Refusal := whenPowered s (f (settle s))

/-- A frame whose sync is found at a bit time: a window that closed empty before it is judged missing first, with what
that makes due (R3; logs 2 and 23). -/
def State.frameArrives (s : State) (f : LinkFrame) (sync : Nat) : State :=
  (if s.syncLate sync then settle s.miss else s).receive f sync

/-- What the handler does with a message of a kind, RESET apart; nothing with the message unit's own kinds (R36). -/
def workOf (k : Byte) : Option (Message → State → Answer × State) :=
  if k = 0x01 then some enumerateCommand
  else if k = 0x02 then some identify
  else if k = 0x03 then some setGroups
  else if k = 0x04 then some status
  else if k = 0x05 then some readEvents
  else if k = 0x06 then some clearEventsCommand
  else if k = 0x07 then some setMasksCommand
  else if k = 0x10 then some setParamCommand
  else if k = 0x11 then some readParam
  else if k = 0x20 then some loadCue
  else if k = 0x21 then some readCue
  else if k = 0x22 then some loadKey
  else if k = 0x23 then some readKey
  else if k = 0x24 then some loadSlot
  else if k = 0x25 then some readSlot
  else if k = 0x26 then some loadCurve
  else if k = 0x30 then some actCommand
  else if k = 0x31 then some stopCommand
  else if k = 0x32 then some clearJam
  else if k = 0x40 then some saveCommand
  else if k = 0x41 then some storeRead
  else if k = 0x42 then some protectCommand
  else if k = 0x43 then some lampReplaced
  else if k = 0x50 then some calibrateCommand
  else if k = 0x82 then some relayCommand
  else if knownKinds.contains k then none
  else some unknownCommand

/-- The handler takes and carries out its oldest buffer, whatever command it holds (R28, R36). -/
def State.serveOldest (s : State) : State :=
  match s.msg.rx with
  | [] => s
  | m :: _ =>
    if m.kind = 0x08 then s.serveReset
    else
      match workOf m.kind with
      | some work => s.serve (isKind m.kind) work
      | none => s

/-- The part with no command waiting: its due steps, then its handler with the oldest buffer (log 4). -/
def idleStep (s : State) : State := if s.powered then (settle s).serveOldest else s

end Sys2Proof.Machine
end

