-- ==== Sys2Proof/Machine/ChangerFamily.lean ====
section
/-! DEFINITION. The commands of the changer and the PAUSE of the queue, one definition for each row of the table. -/

namespace Sys2Proof.Machine

/-- PAUSE_EXPIRY: the pause timer has reached its duration (R105). -/
def execPauseExpiry (s : State) : Host.Outcome State Fault Refusal := whenPowered s s.pauseExpires

/-- SHUTTER_CLOSED_SWITCH: made, it ends SHUTTER_CLOSE (R110, R120, R125). -/
def execShutterClosedSwitch (made : Bool) (s : State) : Host.Outcome State Fault Refusal :=
  whenSettled s fun t => t.closedSwitch made

/-- GATE_DOWN_SWITCH: made, it ends LOWER (R110, R120, R125). -/
def execGateDownSwitch (made : Bool) (s : State) : Host.Outcome State Fault Refusal :=
  whenSettled s fun t => t.downSwitch made

/-- INDEX_PULSE (R111 to R114, R126). -/
def execIndexPulse (homeMark : Bool) (s : State) : Host.Outcome State Fault Refusal :=
  whenSettled s fun t => t.pulse homeMark

/-- GATE_UP_SWITCH: made, it ends RAISE (R115, R120, R121, R126). -/
def execGateUpSwitch (made slidePresent : Bool) (s : State) : Host.Outcome State Fault Refusal :=
  whenSettled s fun t => t.upSwitch made slidePresent

/-- SETTLE_END: the phase timer has reached 15 (R119, R120). -/
def execSettleEnd (s : State) : Host.Outcome State Fault Refusal := whenPowered s s.settleEnd

/-- SHUTTER_OPEN_SWITCH: made, it ends SHUTTER_OPEN and the change (R110, R122). -/
def execShutterOpenSwitch (made : Bool) (s : State) : Host.Outcome State Fault Refusal :=
  whenSettled s fun t => t.openSwitch made

/-- PHASE_LIMIT_EXPIRY: a phase or step has reached its limit (R123, R127). -/
def execPhaseLimitExpiry (s : State) : Host.Outcome State Fault Refusal := whenPowered s s.phaseLimit

/-- SEEK_EXHAUSTED: 101 pulses of SEEK without a home mark (R127). -/
def execSeekExhausted (s : State) : Host.Outcome State Fault Refusal := whenPowered s s.seekExhausted

end Sys2Proof.Machine
end

