-- ==== Sys2Proof/Machine/CommandFamily.lean ====
section
/-! DEFINITION. The commands of link commands, one definition for each row of the table. -/

namespace Sys2Proof.Machine

/-- IDENTIFY: the handler carries it out when it is the oldest buffer (R42, R28). -/
def execIdentify (s : State) : Host.Outcome State Fault Refusal :=
  whenSettled s fun t => t.serve (isKind 0x02) identify

/-- SET_GROUPS: the handler carries it out when it is the oldest buffer (R43, R28). -/
def execSetGroups (s : State) : Host.Outcome State Fault Refusal :=
  whenSettled s fun t => t.serve (isKind 0x03) setGroups

/-- STATUS: the handler carries it out when it is the oldest buffer (R44, R28). -/
def execStatus (s : State) : Host.Outcome State Fault Refusal := whenSettled s fun t => t.serve (isKind 0x04) status

/-- READ_EVENTS: the handler carries it out when it is the oldest buffer (R45, R28). -/
def execReadEvents (s : State) : Host.Outcome State Fault Refusal :=
  whenSettled s fun t => t.serve (isKind 0x05) readEvents

/-- CLEAR_EVENTS: the handler carries it out when it is the oldest buffer (R45, R28). -/
def execClearEvents (s : State) : Host.Outcome State Fault Refusal :=
  whenSettled s fun t => t.serve (isKind 0x06) clearEventsCommand

/-- SET_MASKS: the handler carries it out when it is the oldest buffer (R46, R28). -/
def execSetMasks (s : State) : Host.Outcome State Fault Refusal :=
  whenSettled s fun t => t.serve (isKind 0x07) setMasksCommand

/-- RESET: the handler takes it and holds it (R47). -/
def execReset (s : State) : Host.Outcome State Fault Refusal := whenSettled s State.serveReset

/-- SET_PARAM: the handler carries it out when it is the oldest buffer (R48, R28). -/
def execSetParam (s : State) : Host.Outcome State Fault Refusal :=
  whenSettled s fun t => t.serve (isKind 0x10) setParamCommand

/-- READ_PARAM: the handler carries it out when it is the oldest buffer (R48, R28). -/
def execReadParam (s : State) : Host.Outcome State Fault Refusal :=
  whenSettled s fun t => t.serve (isKind 0x11) readParam

/-- LOAD_CUE: the handler carries it out when it is the oldest buffer (R52, R28). -/
def execLoadCue (s : State) : Host.Outcome State Fault Refusal :=
  whenSettled s fun t => t.serve (isKind 0x20) loadCue

/-- READ_CUE: the handler carries it out when it is the oldest buffer (R52, R28). -/
def execReadCue (s : State) : Host.Outcome State Fault Refusal :=
  whenSettled s fun t => t.serve (isKind 0x21) readCue

/-- LOAD_KEY: the handler carries it out when it is the oldest buffer (R53, R28). -/
def execLoadKey (s : State) : Host.Outcome State Fault Refusal :=
  whenSettled s fun t => t.serve (isKind 0x22) loadKey

/-- READ_KEY: the handler carries it out when it is the oldest buffer (R53, R28). -/
def execReadKey (s : State) : Host.Outcome State Fault Refusal :=
  whenSettled s fun t => t.serve (isKind 0x23) readKey

/-- LOAD_SLOT: the handler carries it out when it is the oldest buffer (R54, R28). -/
def execLoadSlot (s : State) : Host.Outcome State Fault Refusal :=
  whenSettled s fun t => t.serve (isKind 0x24) loadSlot

/-- READ_SLOT: the handler carries it out when it is the oldest buffer (R54, R28). -/
def execReadSlot (s : State) : Host.Outcome State Fault Refusal :=
  whenSettled s fun t => t.serve (isKind 0x25) readSlot

/-- LOAD_CURVE: the handler carries it out when it is the oldest buffer (R55, R28). -/
def execLoadCurve (s : State) : Host.Outcome State Fault Refusal :=
  whenSettled s fun t => t.serve (isKind 0x26) loadCurve

/-- ACT: the handler carries it out when it is the oldest buffer (R51, R28). -/
def execAct (s : State) : Host.Outcome State Fault Refusal :=
  whenSettled s fun t => t.serve (isKind 0x30) actCommand

/-- STOP: the handler carries it out when it is the oldest buffer (R51, R28). -/
def execStop (s : State) : Host.Outcome State Fault Refusal :=
  whenSettled s fun t => t.serve (isKind 0x31) stopCommand

/-- CLEAR_JAM: the handler carries it out when it is the oldest buffer (R51, R28). -/
def execClearJam (s : State) : Host.Outcome State Fault Refusal :=
  whenSettled s fun t => t.serve (isKind 0x32) clearJam

/-- SAVE: the handler carries it out when it is the oldest buffer (R56, R28). -/
def execSave (s : State) : Host.Outcome State Fault Refusal :=
  whenSettled s fun t => t.serve (isKind 0x40) saveCommand

/-- STORE_READ: the handler carries it out when it is the oldest buffer (R57, R28). -/
def execStoreRead (s : State) : Host.Outcome State Fault Refusal :=
  whenSettled s fun t => t.serve (isKind 0x41) storeRead

/-- PROTECT: the handler carries it out when it is the oldest buffer (R56, R28). -/
def execProtect (s : State) : Host.Outcome State Fault Refusal :=
  whenSettled s fun t => t.serve (isKind 0x42) protectCommand

/-- LAMP_REPLACED: the handler carries it out when it is the oldest buffer (R57, R28). -/
def execLampReplaced (s : State) : Host.Outcome State Fault Refusal :=
  whenSettled s fun t => t.serve (isKind 0x43) lampReplaced

/-- CALIBRATE: the handler carries it out when it is the oldest buffer (R58, R28). -/
def execCalibrate (s : State) : Host.Outcome State Fault Refusal :=
  whenSettled s fun t => t.serve (isKind 0x50) calibrateCommand

/-- ENUMERATE: the handler carries it out when it is the oldest buffer (R42, R28). -/
def execEnumerate (s : State) : Host.Outcome State Fault Refusal :=
  whenSettled s fun t => t.serve (isKind 0x01) enumerateCommand

/-- UNKNOWN_COMMAND: a kind the handler does not know (R36). -/
def execUnknownCommand (s : State) : Host.Outcome State Fault Refusal :=
  whenSettled s fun t => t.serve unknownKind unknownCommand

/-- REMOTE_RELAY: a relayed copy goes to the remote decoder (R28, R196). -/
def execRemoteRelay (s : State) : Host.Outcome State Fault Refusal :=
  whenSettled s fun t => t.serve (isKind 0x82) relayCommand

end Sys2Proof.Machine
end

