-- ==== Sys2Proof/Machine/CueFamily.lean ====
section
/-! DEFINITION. The commands of the cue engine, one definition for each row of the table. -/

namespace Sys2Proof.Machine

/-- STUCK_TONE: a run has reached 16 blocks (R85). -/
def execStuckTone (s : State) : Host.Outcome State Fault Refusal := whenPowered s s.stuckTone

/-- STUCK_END: two ABSENT verdicts in a row in STUCK (R85). -/
def execStuckEnd (s : State) : Host.Outcome State Fault Refusal := whenPowered s s.stuckEnd

/-- WORD_COMPLETE: the gap has reached WORD_GAP (R84, R86, R89 to R93). -/
def execWordComplete (s : State) : Host.Outcome State Fault Refusal := whenPowered s s.wordCompletes

end Sys2Proof.Machine
end

