-- ==== Sys2Proof/Machine/LampFamily.lean ====
section
/-! DEFINITION. The commands of the lamp, one definition for each row of the table. -/

namespace Sys2Proof.Machine

/-- LAMP_TICK: the tick of the local timebase (R141, R146, R157, R162; log 3). -/
def execLampTick (currentPresent : Bool) (s : State) : Host.Outcome State Fault Refusal :=
  whenSettled s fun t => t.tick currentPresent

/-- DISSOLVE_END: a dissolve has run its duration (R141). -/
def execDissolveEnd (s : State) : Host.Outcome State Fault Refusal := whenPowered s s.dissolveEnds

/-- LAMP_FAILURE: the failure count has reached 20 (R157). -/
def execLampFailure (s : State) : Host.Outcome State Fault Refusal := whenPowered s s.lampFailure

/-- SWAP_SWITCH: its making in SWAPPING ends the swap (R160). -/
def execSwapSwitch (made : Bool) (s : State) : Host.Outcome State Fault Refusal :=
  whenSettled s fun t => t.swapSwitch made

/-- SWAP_TIMEOUT: the swap timer has reached 300 (R160). -/
def execSwapTimeout (s : State) : Host.Outcome State Fault Refusal := whenPowered s s.swapTimeout

/-- LIT_MINUTE: the lit-time count has reached 6000 (R162, R163). -/
def execLitMinute (s : State) : Host.Outcome State Fault Refusal := whenPowered s s.litMinute

/-- DIMMER_PERIOD_START: the period takes the applied level (R138). -/
def execDimmerPeriodStart (s : State) : Host.Outcome State Fault Refusal := whenSettled s State.dimmerPeriod

end Sys2Proof.Machine
end

