-- ==== Sys2Proof/Machine/LinkFamily.lean ====
section
/-! DEFINITION. The commands of the show link, one definition for each row of the table. -/

namespace Sys2Proof.Machine

/-- POWER_ON_RESET: the supply rises, the role is sampled from the strap, and every block takes its power-on values
(R15, R20). -/
def execPowerOnReset (strap : Bool) (button0 button1 button2 : Bool) (s : State) : Host.Outcome State Fault Refusal :=
  .next (s.powerOn strap button0 button1 button2)

/-- LINK_RESET: a held RESET is carried out once the store has neither a job nor a pending lamp write (R47). -/
def execLinkReset (s : State) : Host.Outcome State Fault Refusal := whenPowered s s.carryReset

/-- FRAME_RECEIVED: a frame whose sync is found at a bit time (R3 to R12, R16). -/
def execFrameReceived (frame : LinkFrame) (sync : Nat) (s : State) : Host.Outcome State Fault Refusal :=
  whenSettled s fun t => t.frameArrives frame sync

/-- MISSING_FRAME: a frame time in which no sync is found (R3, R6). -/
def execMissingFrame (s : State) : Host.Outcome State Fault Refusal := whenSettled s State.miss

/-- LINK_LOSS_TIMEOUT: 32 frame times without a good frame (R11, R12). -/
def execLinkLossTimeout (s : State) : Host.Outcome State Fault Refusal := whenPowered s s.lossTimeout

/-- ORIGINATED_FRAME: one frame of the unit's own in LOST_ORIGINATING (R14). -/
def execOriginatedFrame (s : State) : Host.Outcome State Fault Refusal := whenSettled s State.originate

/-- SHOW_SAFE_RAISED: 200 ticks of link loss (R13, R147). -/
def execShowSafeRaised (s : State) : Host.Outcome State Fault Refusal := whenPowered s s.raiseShowSafe

/-- RETRY_WAIT_END: the wait after a lost attempt ends (R32). -/
def execRetryWaitEnd (s : State) : Host.Outcome State Fault Refusal := whenPowered s s.endWait

end Sys2Proof.Machine
end

