-- ==== Sys2Proof/Machine/MasterFamily.lean ====
section
/-! DEFINITION. The commands of the master role, one definition for each row of the table. -/

namespace Sys2Proof.Machine

/-- MASTER_FRAME_BUILD: one frame time of the master's frame clock (R180 to R187). -/
def execMasterFrameBuild (left right cue : BitVec 12) (s : State) : Host.Outcome State Fault Refusal :=
  whenSettled s fun t => t.buildFrame { left := left, right := right, cue := cue }

/-- CALIBRATION_COMPLETE: the 256th reading (R184, R185). -/
def execCalibrationComplete (s : State) : Host.Outcome State Fault Refusal := whenPowered s s.calibrationEnds

/-- TAPE_END_SENSOR (R183). -/
def execTapeEndSensor (active : Bool) (s : State) : Host.Outcome State Fault Refusal :=
  whenSettled s fun t => t.endSensorReads active

/-- RING_OPEN_TIMEOUT: 32 frame times without a return (R188, R189). -/
def execRingOpenTimeout (s : State) : Host.Outcome State Fault Refusal := whenPowered s s.ringOpens

/-- ENUMERATION_WAIT_EXPIRY: 64 frame times after the ENUMERATE's END (R189). -/
def execEnumerationWaitExpiry (s : State) : Host.Outcome State Fault Refusal := whenPowered s s.enumExpires

end Sys2Proof.Machine
end

