-- ==== Sys2Proof/Machine/MonitorFamily.lean ====
section
/-! DEFINITION. The commands of the thermal and supply monitor, one definition for each row of the table. -/

namespace Sys2Proof.Machine

/-- TEMP_CONVERSION: every 10 ticks (R148 to R151). -/
def execTempConversion (code : BitVec 10) (s : State) : Host.Outcome State Fault Refusal :=
  whenSettled s fun t => t.convertTemperature code

/-- FAN_TACH_PULSE (R152, R153). -/
def execFanTachPulse (s : State) : Host.Outcome State Fault Refusal := whenSettled s State.tachPulse

/-- FAN_START_TIMEOUT: 100 ticks of STARTING without a pulse (R152, R153). -/
def execFanStartTimeout (s : State) : Host.Outcome State Fault Refusal := whenPowered s s.fanStartTimeout

/-- FAN_SUPERVISION_TIMEOUT: 50 ticks of RUNNING without a pulse (R152, R153). -/
def execFanSupervisionTimeout (s : State) : Host.Outcome State Fault Refusal :=
  whenPowered s s.fanSupervisionTimeout

/-- FAN_REST: the tick after a stall (R153). -/
def execFanRest (s : State) : Host.Outcome State Fault Refusal := whenPowered s s.fanRests

/-- FAN_REST_END: 100 ticks of RESTING (R153). -/
def execFanRestEnd (s : State) : Host.Outcome State Fault Refusal := whenPowered s s.fanRestEnds

/-- COOLDOWN_END: the cooldown timer stands at 0 and the demand is formed again (R152, R154). -/
def execCooldownEnd (s : State) : Host.Outcome State Fault Refusal := whenPowered s s.cooldownEnds

/-- SUPPLY_SAMPLE (R155, R156). -/
def execSupplySample (reading : BitVec 10) (s : State) : Host.Outcome State Fault Refusal :=
  whenSettled s fun t => t.sampleSupply reading

end Sys2Proof.Machine
end

