-- ==== Sys2Proof/Machine/RemoteFamily.lean ====
section
/-! DEFINITION. The commands of the remote decoder, one definition for each row of the table. -/

namespace Sys2Proof.Machine

/-- IR_CODE_FRAME: the bursts and spaces of a code frame (R191, R193). -/
def execIrCodeFrame (elements : List IrElement) (s : State) : Host.Outcome State Fault Refusal :=
  whenSettled s fun t => t.irElements elements

/-- IR_REPEAT_FRAME: the bursts and spaces of a repeat frame (R191, R194). -/
def execIrRepeatFrame (elements : List IrElement) (s : State) : Host.Outcome State Fault Refusal :=
  whenSettled s fun t => t.irElements elements

/-- BUTTON_PRESS: two consecutive reads of a wired button (R192, R193). -/
def execButtonPress (button : Fin 3) (readBefore readNow : Bool) (s : State) : Host.Outcome State Fault Refusal :=
  whenSettled s fun t => t.buttonDown button readBefore readNow

/-- BUTTON_RELEASE: two consecutive reads of a wired button (R192, R194). -/
def execButtonRelease (button : Fin 3) (readBefore readNow : Bool) (s : State) : Host.Outcome State Fault Refusal :=
  whenSettled s fun t => t.buttonUp button readBefore readNow

/-- HOLD_END: 15 ticks without a repeat frame (R194). -/
def execHoldEnd (s : State) : Host.Outcome State Fault Refusal := whenPowered s s.endHold

/-- KEY_REPEAT: the key held repeats (R194). -/
def execKeyRepeat (s : State) : Host.Outcome State Fault Refusal := whenPowered s s.keyRepeats

/-- RELAY_WAIT_EXPIRY: 100 ticks without the awaited copy (R195). -/
def execRelayWaitExpiry (s : State) : Host.Outcome State Fault Refusal := whenPowered s s.relayExpires

/-- IR_FRAME_DISCARDED: the bursts and spaces of a frame the decoder discards (R191). -/
def execIrFrameDiscarded (elements : List IrElement) (s : State) : Host.Outcome State Fault Refusal :=
  whenSettled s fun t => t.irElements elements

end Sys2Proof.Machine
end

