-- ==== Sys2Proof/Machine/SoundFamily.lean ====
section
/-! DEFINITION. The commands of the sound path, one definition for each row of the table. -/

namespace Sys2Proof.Machine

/-- OUTPUT_SAMPLE: the read, the gain and the output (R169 to R178). -/
def execOutputSample (s : State) : Host.Outcome State Fault Refusal := whenSettled s State.outputSampleWork

end Sys2Proof.Machine
end

