-- ==== Sys2Proof/Machine/StoreFamily.lean ====
section
/-! DEFINITION. The commands of the show store, one definition for each row of the table. -/

namespace Sys2Proof.Machine

/-- PAGE_OPERATION_DONE: an erase or a program has taken its time (R202 to R204; log 22). -/
def execPageOperationDone (s : State) : Host.Outcome State Fault Refusal := whenSettled s pageOperationEnds

/-- POWER_LOSS: the supply fails outright (R206, R207). -/
def execPowerLoss (s : State) : Host.Outcome State Fault Refusal := whenSettled s State.losePower

end Sys2Proof.Machine
end

