-- ==== Sys2Proof/Machine/Dispatch.lean ====
section
/-! DEFINITION. One arm for each command: one call of its meaning. -/

namespace Sys2Proof.Machine

def exec (i : Instr) (s : State) : Host.Outcome State Fault Refusal :=
  match i with
  | .powerOnReset strap button0 button1 button2 => Sys2Proof.Machine.execPowerOnReset strap button0 button1 button2 s
  | .linkReset => Sys2Proof.Machine.execLinkReset s
  | .frameReceived frame sync => Sys2Proof.Machine.execFrameReceived frame sync s
  | .missingFrame => Sys2Proof.Machine.execMissingFrame s
  | .linkLossTimeout => Sys2Proof.Machine.execLinkLossTimeout s
  | .originatedFrame => Sys2Proof.Machine.execOriginatedFrame s
  | .showSafeRaised => Sys2Proof.Machine.execShowSafeRaised s
  | .retryWaitEnd => Sys2Proof.Machine.execRetryWaitEnd s
  | .stuckTone => Sys2Proof.Machine.execStuckTone s
  | .stuckEnd => Sys2Proof.Machine.execStuckEnd s
  | .wordComplete => Sys2Proof.Machine.execWordComplete s
  | .identify => Sys2Proof.Machine.execIdentify s
  | .setGroups => Sys2Proof.Machine.execSetGroups s
  | .status => Sys2Proof.Machine.execStatus s
  | .readEvents => Sys2Proof.Machine.execReadEvents s
  | .clearEvents => Sys2Proof.Machine.execClearEvents s
  | .setMasks => Sys2Proof.Machine.execSetMasks s
  | .reset => Sys2Proof.Machine.execReset s
  | .setParam => Sys2Proof.Machine.execSetParam s
  | .readParam => Sys2Proof.Machine.execReadParam s
  | .loadCue => Sys2Proof.Machine.execLoadCue s
  | .readCue => Sys2Proof.Machine.execReadCue s
  | .loadKey => Sys2Proof.Machine.execLoadKey s
  | .readKey => Sys2Proof.Machine.execReadKey s
  | .loadSlot => Sys2Proof.Machine.execLoadSlot s
  | .readSlot => Sys2Proof.Machine.execReadSlot s
  | .loadCurve => Sys2Proof.Machine.execLoadCurve s
  | .act => Sys2Proof.Machine.execAct s
  | .stop => Sys2Proof.Machine.execStop s
  | .clearJam => Sys2Proof.Machine.execClearJam s
  | .save => Sys2Proof.Machine.execSave s
  | .storeRead => Sys2Proof.Machine.execStoreRead s
  | .protect => Sys2Proof.Machine.execProtect s
  | .lampReplaced => Sys2Proof.Machine.execLampReplaced s
  | .calibrate => Sys2Proof.Machine.execCalibrate s
  | .enumerate => Sys2Proof.Machine.execEnumerate s
  | .unknownCommand => Sys2Proof.Machine.execUnknownCommand s
  | .remoteRelay => Sys2Proof.Machine.execRemoteRelay s
  | .pauseExpiry => Sys2Proof.Machine.execPauseExpiry s
  | .shutterClosedSwitch made => Sys2Proof.Machine.execShutterClosedSwitch made s
  | .gateDownSwitch made => Sys2Proof.Machine.execGateDownSwitch made s
  | .indexPulse homeMark => Sys2Proof.Machine.execIndexPulse homeMark s
  | .gateUpSwitch made slidePresent => Sys2Proof.Machine.execGateUpSwitch made slidePresent s
  | .settleEnd => Sys2Proof.Machine.execSettleEnd s
  | .shutterOpenSwitch made => Sys2Proof.Machine.execShutterOpenSwitch made s
  | .phaseLimitExpiry => Sys2Proof.Machine.execPhaseLimitExpiry s
  | .seekExhausted => Sys2Proof.Machine.execSeekExhausted s
  | .lampTick currentPresent => Sys2Proof.Machine.execLampTick currentPresent s
  | .dissolveEnd => Sys2Proof.Machine.execDissolveEnd s
  | .lampFailure => Sys2Proof.Machine.execLampFailure s
  | .swapSwitch made => Sys2Proof.Machine.execSwapSwitch made s
  | .swapTimeout => Sys2Proof.Machine.execSwapTimeout s
  | .litMinute => Sys2Proof.Machine.execLitMinute s
  | .tempConversion code => Sys2Proof.Machine.execTempConversion code s
  | .fanTachPulse => Sys2Proof.Machine.execFanTachPulse s
  | .fanStartTimeout => Sys2Proof.Machine.execFanStartTimeout s
  | .fanSupervisionTimeout => Sys2Proof.Machine.execFanSupervisionTimeout s
  | .fanRest => Sys2Proof.Machine.execFanRest s
  | .fanRestEnd => Sys2Proof.Machine.execFanRestEnd s
  | .cooldownEnd => Sys2Proof.Machine.execCooldownEnd s
  | .supplySample reading => Sys2Proof.Machine.execSupplySample reading s
  | .outputSample => Sys2Proof.Machine.execOutputSample s
  | .masterFrameBuild left right cue => Sys2Proof.Machine.execMasterFrameBuild left right cue s
  | .calibrationComplete => Sys2Proof.Machine.execCalibrationComplete s
  | .tapeEndSensor active => Sys2Proof.Machine.execTapeEndSensor active s
  | .ringOpenTimeout => Sys2Proof.Machine.execRingOpenTimeout s
  | .enumerationWaitExpiry => Sys2Proof.Machine.execEnumerationWaitExpiry s
  | .irCodeFrame elements => Sys2Proof.Machine.execIrCodeFrame elements s
  | .irRepeatFrame elements => Sys2Proof.Machine.execIrRepeatFrame elements s
  | .buttonPress button readBefore readNow => Sys2Proof.Machine.execButtonPress button readBefore readNow s
  | .buttonRelease button readBefore readNow => Sys2Proof.Machine.execButtonRelease button readBefore readNow s
  | .holdEnd => Sys2Proof.Machine.execHoldEnd s
  | .keyRepeat => Sys2Proof.Machine.execKeyRepeat s
  | .relayWaitExpiry => Sys2Proof.Machine.execRelayWaitExpiry s
  | .pageOperationDone => Sys2Proof.Machine.execPageOperationDone s
  | .powerLoss => Sys2Proof.Machine.execPowerLoss s
  | .dimmerPeriodStart => Sys2Proof.Machine.execDimmerPeriodStart s
  | .irFrameDiscarded elements => Sys2Proof.Machine.execIrFrameDiscarded elements s

end Sys2Proof.Machine
end

