-- ==== Sys2Proof/Safety.lean ====
section
/-! DEFINITION. What counts as a safe state of the part, in the terms the statements use, and the conditions under
which a command finds nothing in its way. -/

namespace Sys2Proof.Machine

/-! ## Safe states -/

/-- The applied level never exceeds the lower of the two caps and is 0 under every zero condition (R146). -/
def State.lampSafe (s : State) : Prop :=
  s.lamp.applied ≤ thermalCap s.mon.thermal ∧ s.lamp.applied ≤ supplyCap s.mon.supply ∧
    (s.mon.fan.isRunning = false ∨ s.lamp.changer.isSwapping = true ∨ s.lamp.changer = .jammed ∨
      (s.lamp.record s.lamp.active).status = .failed → s.lamp.applied = 0)

/-- The tray changer is not HOMING, CHANGING or SUSPENDED while the lamp changer is SWAPPING (R130). -/
def State.neverTogether (s : State) : Prop := ¬ (s.tray.state.busy = true ∧ s.lamp.changer.isSwapping = true)

/-- The fan is not OFF while the cooldown timer runs or the housing temperature is 45 °C or more (R154). -/
def State.fanKept (s : State) : Prop := (0 < s.mon.cooldown ∨ 180 ≤ s.mon.temperature) → s.mon.fan ≠ .off

/-- A changer state in which the mechanism needs the shutter closed (R128). -/
def TrayState.needsShutterClosed : TrayState → Bool
  | .changing .shutterOpen => false
  | .changing _ => true
  | .homing _ => true
  | .suspended _ => true
  | .jammed => true
  | .idle => false
  | .unhomed => false

/-- The shutter is closed under every hold (R128). -/
def State.shutterHeld (s : State) : Prop :=
  (s.tray.state.needsShutterClosed = true ∨ s.tray.holdDark = true ∨ s.mon.thermal = .overheat ∨
    s.lamp.changer.isSwapping = true) → s.tray.shutterOpen = false

/-- Entries accepted equal entries taken, purged and held, modulo 2^32 (R107). -/
def State.countsBalance (s : State) : Prop :=
  s.queue.accepted = s.queue.taken + s.queue.purged + BitVec.ofNat 32 s.queue.entries.length

/-- No collection holds more than its capacity (R27, R29, R97, R167). -/
def State.withinCapacity (s : State) : Prop :=
  s.msg.rx.length ≤ 3 ∧ s.placesUsed ≤ 4 ∧ s.queue.entries.length ≤ 16 ∧ s.sound.fifo.length ≤ 8192

/-- The show store's memory is in its canonical form (R201). -/
def State.storeCanonical (s : State) : Prop := s.store.mem.wf = true

/-- The position lies in 0 to 99; IDLE means a valid position, UNHOMED and JAMMED an invalid one (R109, R111, R123). -/
def State.positionMeaning (s : State) : Prop :=
  s.tray.position < 100 ∧ (s.tray.state = .idle → s.tray.valid = true) ∧ (s.tray.state = .unhomed → s.tray.valid = false) ∧
    (s.tray.state = .jammed → s.tray.valid = false)

/-- A follower writes no ENUMERATE of its own; only a master originates one (R187). -/
def State.enumeratesAsMaster (s : State) : Prop :=
  s.link.role = .follower → ∀ a, s.msg.attempt = some a → a.enumerate = false

/-! ## Commands that find nothing in their way -/

/-- The supply is up and no step of the part's own is due. -/
def State.Ready (s : State) : Prop := s.powered = true ∧ s.quiet = true

/-- Nothing waits to follow when the changer comes to rest: the queue is empty and no swap waits. -/
def State.NothingWaits (s : State) : Prop := s.queue.entries = [] ∧ s.lamp.changer ≠ .waitChanger

/-- A message is the oldest buffer and may be taken (R28, R47). -/
def State.Oldest (s : State) (m : Message) (rest : List Message) : Prop :=
  s.msg.rx = m :: rest ∧ s.msg.heldReset = none ∧ (m.needsReply = true → s.placesUsed < 4)

/-- The reply to a message, when it needs one: kind 0x80, to its source, echoing its kind, with a status and data
(R23, R37, R39). -/
def replies (m : Message) (status : Byte) (data : List Byte) : List OutMsg :=
  if m.needsReply then [{ kind := 0x80, dest := m.source, payload := m.kind :: status :: data }] else []

/-- The state after the oldest buffer has been taken and answered, nothing else changed. -/
def State.served (s : State) (rest : List Message) (out : List OutMsg) : State :=
  { s with msg := { s.msg with rx := rest, held := false, replies := s.msg.replies ++ out } }

/-- The state with its message unit as while a command that was the oldest buffer is carried out: the buffer freed, a place
held for a reply (R28). -/
def State.taking (s : State) (m : Message) (rest : List Message) : State :=
  { s with msg := { s.msg with rx := rest, held := m.needsReply } }

/-- The state with the held place given up for what is answered (R28). -/
def State.answered (s : State) (out : List OutMsg) : State :=
  { s with msg := { s.msg with held := false, replies := s.msg.replies ++ out } }

/-! ## Offers of the queue's head -/

/-- The state with a PAUSE that has just run out. Its PAUSE_EXPIRY offers the head (R100, R105), so a statement says by it
what the offer at another event brings. -/
def State.offering (s : State) : State :=
  { s with queue := { s.queue with pause := some { elapsed := 0, duration := 0 } } }

/-- What the tray changer's entry into IDLE, UNHOMED or JAMMED makes of the state it came to rest in: with no swap
waiting the queue offers its head unless a PAUSE runs (R100); a waiting swap starts, or is withdrawn where the active
record is no longer FAILED, before or after that offer as a free value says (R103, R159; log 8). -/
def State.RestsInto (rests : State) (o : Host.Outcome State Fault Refusal) : Prop :=
  let moved : State :=
    if (rests.lamp.record rests.lamp.active).status = .failed then
      { rests with
        lamp := { rests.lamp with changer := .swapping 0, failCount := 0 }
        tray := { rests.tray with shutterOpen := false } }
    else { rests with lamp := { rests.lamp with changer := .idle } }
  (rests.lamp.changer ≠ .waitChanger →
    (rests.queue.pause ≠ none → o = .next rests) ∧
      (rests.queue.pause = none → o = exec .pauseExpiry rests.offering)) ∧
    (rests.lamp.changer = .waitChanger → rests.lamp.applied = 0 →
      (rests.queue.entries = [] ∨ rests.queue.pause ≠ none → ∃ n, o = .next { moved with drawn := n }) ∧
        (rests.queue.pause = none →
          ∃ (u : State) (n : Nat), (u = rests ∨ u = moved) ∧
            o = exec .pauseExpiry (State.offering { u with drawn := n })))

/-- What a pair written makes of the sound path: it joins the FIFO's tail, or at 8192 pairs is dropped and counted as a
slip; joined, it ends FILLING when it brings the level to D (R168, R169). The holdoff is the model's choice at a drop
(log 40). -/
def Sound.wrote (a b : Sound) (p : Pair) : Prop :=
  let room := a.fifo.length < 8192
  let starts := room ∧ a.reader = .filling ∧ a.delay ≤ a.fifo.length + 1
  b.fifo = (if room then a.fifo ++ [p] else a.fifo) ∧ b.slips = (if room then a.slips else a.slips + 1) ∧
    b.reader = (if starts then .playing else a.reader) ∧
    b.reasons.fill = (if starts then false else a.reasons.fill) ∧
    b.reasons.underflow = (if starts then false else a.reasons.underflow) ∧
    b.delay = a.delay ∧ b.pendingDelay = a.pendingDelay ∧ b.lastRead = a.lastRead ∧ b.holdoff = a.holdoff ∧
    b.showLevel = a.showLevel ∧ b.step = a.step ∧ b.rampCount = a.rampCount ∧ b.output = a.output

/-- What a change of the applied level from a state to a later one makes of the store: a fall from above 0 to 0 requests a
lamp write of the active record, which behind a job in flight joins the pending set; otherwise the store stays; no byte
changes either way (R146, R163, R204). -/
def State.storeAfterFall (s t : State) : Prop :=
  let falls := t.lamp.applied = 0 ∧ 0 < s.lamp.applied
  t.store.mem = s.store.mem ∧ (¬ falls → t.store = s.store) ∧
    (falls → t.store = (State.requestLampWrite { t with store := s.store } s.lamp.active).store) ∧
    (falls → s.store.job ≠ none →
      t.store =
        { s.store with
          pendingLamp0 := if s.lamp.active = .lamp0 then true else s.store.pendingLamp0
          pendingLamp1 := if s.lamp.active = .lamp1 then true else s.store.pendingLamp1 })

/-- Some byte of a page's new contents has a one where the stored byte has a zero (R202). -/
def raisesBit (stored new : List Byte) : Prop := ∃ i, i < 32 ∧ new.getD i 0 &&& ~~~ stored.getD i 0 ≠ 0

/-! ## Runs of slots -/

/-- The slots of a message handed to the receive side one after another (R24). -/
def State.takeSlots (s : State) (slots : List (SlotTag × Byte)) : State :=
  slots.foldl (fun t x => t.takeSlot x.1 x.2) s

/-- The bytes a follower forwards for a run of slots, the tracking carried along (R17). -/
def forwardedBytes (track : Option EnumTrack) : List (SlotTag × Byte) → List Byte
  | [] => []
  | x :: rest => (trackSlot track x.1 x.2).2 :: forwardedBytes (trackSlot track x.1 x.2).1 rest

/-- The bytes of a message from its kind to its last payload byte (R21). -/
def Message.bytes (m : Message) : List Byte := [m.kind, m.dest, m.source, byteOf m.payload.length] ++ m.payload

/-! ## Operands in range -/

/-- An action whose operands are in range (R50, R96). -/
def Action.inRange : Action → Prop
  | .advance n _ => 1 ≤ n ∧ n ≤ 99
  | .reverse n _ => 1 ≤ n ∧ n ≤ 99
  | .goto p => p ≤ 99
  | .gotoMark m => 1 ≤ m ∧ m ≤ 63
  | .home => True
  | .shutter _ => True
  | .lamp level => level ≤ 255
  | .dissolve target duration _ => target ≤ 255 ∧ duration ≤ 2550
  | .audio step => step ≤ 96
  | .mute _ => True
  | .tape _ => True
  | .mark _ => True
  | .pause d => d ≤ 2550

/-- A cue table entry as R52 allows it. -/
def CueEntry.inRange (e : CueEntry) : Prop :=
  1 ≤ e.symbols.length ∧ e.symbols.length ≤ 3 ∧ (∀ g, e.group = some g → g ≤ 7) ∧
    (∀ r, e.range = some r → r.1 ≤ r.2 ∧ r.2 ≤ 99) ∧ 1 ≤ e.actions.length ∧ e.actions.length ≤ 4 ∧
    ∀ a ∈ e.actions, a.inRange

/-! ## The load of the store -/

/-- A region passes its check: none of its pages nor page 254 is left broken, and the check that page 254 holds for it is
that of its pages (R207; a broken page fails: log 9). -/
def State.Checks (s : State) (r : Region) : Prop :=
  let first := (regionPages r).1
  let count := (regionPages r).2
  254 ∉ s.store.broken ∧ (∀ p ∈ s.store.broken, p < first ∨ first + count ≤ p) ∧
    natOf (((s.store.mem.page 254).drop (2 * regionCode r)).take 2) = (crc16 (s.store.mem.pages first count)).toNat

/-- What the load of a state's store at a reset makes of the working tables: each is what its region's pages hold where
the region passes its check (R201), and its defaults otherwise, the region then in the store-error set (R48, R49, R88,
R115, R144, R197, R207); the active protection set is that of page 255, or empty (R205). -/
def State.LoadedInto (s t : State) : Prop :=
  let stored (r : Region) : List Byte := s.store.mem.pages (regionPages r).1 (regionPages r).2
  let set := (s.store.mem.page 255).getD 0 0
  (∀ r : Region, t.store.errors.getLsbD (regionCode r) = true ↔ ¬ s.Checks r) ∧
    (s.Checks .settings →
      (∀ p : Param, t.param p = BitVec.ofNat 32 (natOf (((stored .settings).drop (4 * p.id)).take 4))) ∧
        t.link.groups = (stored .settings).getD 84 0) ∧
    (¬ s.Checks .settings →
      Param.all.map t.paramNat = [1024, 6, 2, 8, 3, 0, 24, 12, 15, 1, 0, 0, 1, 1, 1, 0, 0, 0, 0, 0, 1] ∧
        t.link.groups = 0) ∧
    (∀ (i : Fin 64) (e : CueEntry), s.Checks .cues → e.inRange → s.store.mem.page (4 + i) = padPage (cueBytes e) →
      t.cue.table[i] = e) ∧
    (¬ s.Checks .cues → ∀ i : Fin 64, t.cue.table[i].enabled = false) ∧
    (∀ (i : Fin 16) (e : KeyEntry), s.Checks .keys → e.action.inRange →
      ((stored .keys).drop (6 * i)).take 6 = keyBytes e → t.remote.keys[i] = e) ∧
    (¬ s.Checks .keys → t.remote.keys = KeyEntry.defaults) ∧
    (∀ q, q < 100 →
      let b := (stored .slots).getD q 0
      (s.Checks .slots → (t.tray.slot q).skip = b.getLsbD 7 ∧ (t.tray.slot q).mark = b.toNat % 64) ∧
        (¬ s.Checks .slots → (t.tray.slot q).skip = false ∧ (t.tray.slot q).mark = 0)) ∧
    (s.Checks .curve →
      (∀ i : Fin 33, t.lamp.curve[i] = natOf (((stored .curve).drop (2 * i)).take 2)) ∧
        (t.lamp.complete = true ↔ (stored .curve).getD 66 0 = 1)) ∧
    (¬ s.Checks .curve → (∀ i : Fin 33, t.lamp.curve[i] = 32 * i.val) ∧ t.lamp.complete = true) ∧
    t.store.protection =
      (if 255 ∉ s.store.broken ∧ (s.store.mem.page 255).getD 1 0 = ~~~ set ∧ set.toNat < 32 then set else 0)

/-! ## Infrared frames -/

/-- The elements of a code frame at their nominal lengths: leader, 16 bits, stop burst and the space after it (R191). -/
def codeElements (bits : List Bool) (after : Nat) : List IrElement :=
  [.burst 4000, .space 2000] ++ bits.flatMap (fun b => [.burst 500, .space (if b then 1500 else 500)]) ++
    [.burst 500, .space after]

/-- The 16 bits of a code frame: channel, key and check, most significant bit first (R191). -/
def codeBits (channel key : Nat) : List Bool :=
  bitsOf 4 channel ++ bitsOf 8 key ++ bitsOf 4 (channel ^^^ key / 16 ^^^ key % 16)

end Sys2Proof.Machine
end

