-- ==== Sys2Proof/Certificates/Slice0/Obligations.lean ====
section
/-! DEFINITION. The statements for the provers. Each says what a command does from every state that meets its
hypotheses, what it leaves unchanged, or what every step keeps. -/

open Sys2Proof Sys2Proof.Machine

/-! ## Steps -/

/-- A step carries out the command at the front of the queue on the state with the queue's rest. -/
def Obligations.StepRunsFrontCommand : Prop :=
  ∀ (c : Instr) (rest : List Instr) (s : State), s.pending = c :: rest → step s = exec c { s with pending := rest }

/-- With no command waiting, nothing due and no message in a buffer, a step changes nothing; the same without supply
(the model's choice, logs 4 and 6). Without supply every command but POWER_ON_RESET completes and changes nothing
(the model's choice, log 6). The end of a stuck tone leaves the stuck count at 0, of which the spec says nothing
(the model's choice, log 39). -/
def Obligations.IdleAndUnpoweredSteps : Prop :=
  (∀ s : State, s.pending = [] → (s.Ready ∧ s.msg.rx = [] ∨ s.powered = false) → step s = .next s) ∧
  (∀ (c : Instr) (s : State), s.powered = false →
       (∀ strap b0 b1 b2, c ≠ .powerOnReset strap b0 b1 b2) → exec c s = .next s) ∧
  (∀ s : State, s.powered = true → s.cue.state = .stuck → s.cue.stuckCount = 2 →
       exec .stuckEnd s = .next { s with cue := { s.cue with state := .ready, stuckCount := 0 } })

/-! ## The show link (spec/01) -/

/-- A good frame without BROKEN, its sync in the window, at a follower in LINKED, or in ACQUIRING, which it ends (R11;
the model's reading, log 44): numbered, counted and handed on (R3 to R5, R7). A TAPE_END flag set in the first good
frame since power-on latches (the model's choice, log 45). Its pair goes to the FIFO, where it may end FILLING, or is
dropped as a slip at 8192 pairs, the holdoff as it stands (R168, R169; log 40). The detector and the engine become
what handing the frame gives, and the message unit what its slot gives. Blocks it cannot touch stay. -/
def Obligations.GoodFrameHandedOn : Prop :=
  ∀ (s : State) (f : LinkFrame) (sync : Nat), s.Ready → s.link.role = .follower →
    (s.link.state = .linked ∨ s.link.state = .acquiring) → s.enumeratesAsMaster → frameGood f = true → f.broken = false → s.syncLate sync = false →
    (s.link.jumps f.number.toNat = true → f.number.toNat % 160 ≠ 159) →
    let jump := s.link.jumps f.number.toNat
    let pair : Pair := if f.silent then (0, 0) else (f.left, f.right)
    let heard := s.handFrame f.number.toNat (if f.silent then 0 else f.cue) false jump
    let read := s.takeSlot f.tag f.byte
    ∃ t, exec (.frameReceived f sync) s = .next t ∧
      t.link.state = .linked ∧
      t.link.expected = some (if f.number.toNat = 63999 then 0 else f.number.toNat + 1) ∧
      t.link.runCount = 0 ∧ t.link.sinceGood = 0 ∧
      t.link.reckoning = some (sync % 128) ∧ t.link.windowClosed = false ∧
      t.link.seqJump = jump ∧ (jump = true → t.latchedFlag .seqJump = true) ∧
      t.link.lastPair = pair ∧ t.link.showRunning = f.showRunning ∧ t.link.tapeEnd = f.tapeEnd ∧
      (f.tapeEnd = true → s.link.tapeEnd = false → t.latchedFlag .tapeEnd = true) ∧
      t.sound.reasons.silent = f.silent ∧ t.sound.reasons.badRun = false ∧
      Sound.wrote s.sound t.sound pair ∧ (8192 ≤ s.sound.fifo.length → t.latchedFlag .audioSlip = true) ∧
      t.det = heard.det ∧ t.cue = heard.cue ∧
      t.msg.assembly = read.msg.assembly ∧ t.msg.assemblyErrors = read.msg.assemblyErrors ∧ t.msg.rx = read.msg.rx ∧
      t.link.address = read.link.address ∧ t.msg.slotFree = decide (f.tag = .idle ∨ f.tag = .done) ∧
      t = { s with
        link := t.link, msg := t.msg, det := t.det, cue := t.cue, sound := t.sound, events := t.events }

/-- A good frame with its sync in the window at a follower in LINKED or LOST_FORWARDING, or in ACQUIRING, which it
ends (the model's reading, log 44). Every bit is forwarded unchanged in a slot that came taken, unless an enumeration
is being rewritten, and in an IDLE slot in which the unit begins nothing: the slot before was not free, a wait runs,
or the queue is empty and no NOTICE joins it at this frame (R9, R10, R30). An attempt begins in an IDLE slot after a
free one: the kind of the head goes out under START, its other bytes, a NOTICE's with the latched set of that moment,
follow in later slots, with the source as it stands (R30, R31, R34). An attempt in progress puts its next byte into an
IDLE slot, and after its last byte the message has left the queue (R31). -/
def Obligations.GoodFrameForwarded : Prop :=
  ∀ (s : State) (f : LinkFrame) (sync : Nat), s.Ready → s.link.role = .follower →
    (s.link.state = .linked ∨ s.link.state = .lostForwarding ∨ s.link.state = .acquiring) → frameGood f = true →
    s.syncLate sync = false →
    ∃ t, exec (.frameReceived f sync) s = .next t ∧
      (f.tag ≠ .idle → s.link.tracking = none → (f.tag = .start → f.byte ≠ 0x01) → t.link.output = some f) ∧
      (f.tag = .idle → s.msg.attempt = none → s.msg.slotFree = false ∨ s.msg.wait ≠ none →
        t.link.output = some f ∧ t.msg.attempt = none) ∧
      (f.tag = .idle → s.msg.attempt = none → s.msg.replies = [] →
        (s.events.attention = 0 → t.msg.attempt = none) ∧ (t.msg.attempt = none → t.link.output = some f)) ∧
      (∀ (m : OutMsg) (rest : List OutMsg), f.tag = .idle → s.msg.slotFree = true → s.msg.attempt = none →
        s.msg.wait = none → s.msg.replies = m :: rest →
        let payload := if m.kind = 0x81 then bytesOf 4 t.events.latched.toNat else m.payload
        let bytes := [m.dest, s.sourceByte, byteOf payload.length] ++ payload
        t.link.output = some (sealFrame { f with tag := .start, byte := m.kind }) ∧
        t.msg.attempt =
          some
            { slots := bytes.map (fun b => (SlotTag.body, b)) ++ [(.done, messageCheck 0x00 (m.kind :: bytes))]
              enumerate := false }) ∧
      (∀ (x : SlotTag × Byte) (more : List (SlotTag × Byte)), f.tag = .idle →
        s.msg.attempt = some { slots := x :: more, enumerate := false } →
        t.link.output = some (sealFrame { f with tag := x.1, byte := x.2 }) ∧
        (more ≠ [] → t.msg.attempt = some { slots := more, enumerate := false }) ∧
        (more = [] → t.msg.attempt = none ∧ t.msg.attempts = 0 ∧ s.msg.replies.tail <+: t.msg.replies))

/-- A bad frame, or a window that closes without a sync, at a follower in LINKED: the last pair is repeated, the
numbers and counts go on, the partial message is abandoned, the detector is handed a bad frame under the number it
would have carried (the model's reading of R4, log 11), and a bad frame is forwarded as it came (R3, R4, R6, R7, R9,
R25, R168, R169; the holdoff at a pair dropped at 8192 is the model's choice, log 40). A sync 5 to 101 bit times after
its place comes after its window: the receiver judges that frame time missing first and then takes the frame, as it
does after MISSING_FRAME (R3; log 23). -/
def Obligations.BadFrameHandledInPlace : Prop :=
  (∀ (s : State) (bad : Option (LinkFrame × Nat)), s.Ready → s.link.role = .follower → s.link.state = .linked →
       (∀ x, bad = some x → frameGood x.1 = false ∧ s.syncLate x.2 = false) →
       ∃ t, exec (match bad with | some x => .frameReceived x.1 x.2 | none => .missingFrame) s = .next t ∧
         t.link =
           { s.link with
             expected := s.link.expected.map fun n => if n + 1 < 64000 then n + 1 else 0
             runCount := min 255 (s.link.runCount + 1), sinceGood := min 32 (s.link.sinceGood + 1)
             output := bad.map Prod.fst, tracking := none, windowClosed := bad.isNone
             reckoning := match bad with | some x => some (x.2 % 128) | none => s.link.reckoning } ∧
         Sound.wrote s.sound t.sound s.link.lastPair ∧
         (s.link.runCount = 15 → t.sound.reasons.badRun = true ∧ t.latchedFlag .badFrames = true) ∧
         (∀ n, s.link.expected = some n →
           t.det = (s.handFrame n 0 true false).det ∧ t.cue = (s.handFrame n 0 true false).cue) ∧
         (s.link.expected = none → t.det = s.det ∧ t.cue = s.cue) ∧
         t.msg.assembly = none ∧ t.msg.slotFree = false ∧
         t.msg.assemblyErrors =
           (if s.msg.assembly.isSome then min 255 (s.msg.assemblyErrors + 1) else s.msg.assemblyErrors) ∧
         t = { s with
           link := t.link, msg := t.msg, det := t.det, cue := t.cue, sound := t.sound, events := t.events }) ∧
  (∀ (s : State) (sync : Nat),
       s.syncLate sync = true ↔
         (s.link.role = .master ∨ s.link.state = .linked ∨ s.link.state = .lostForwarding) ∧
           s.link.windowClosed = false ∧
           ∃ r, s.link.reckoning = some r ∧ 5 ≤ (sync + 128 - r % 128) % 128 ∧ (sync + 128 - r % 128) % 128 ≤ 101) ∧
  (∀ (s : State) (f : LinkFrame) (sync : Nat), s.Ready → s.syncLate sync = true →
       ∃ u, exec .missingFrame s = .next u ∧ u.link.windowClosed = true ∧
         exec (.frameReceived f sync) s = exec (.frameReceived f sync) u)

/-- A good frame at the master's return input, its sync in the window: numbered and counted; without BROKEN it closes
the ring, and an ENUMERATE becomes due when the ring was not closed. Neither its samples nor its cue sample go
anywhere (R3, R16, R188). An enumeration wait that runs then goes on with its attempt count (the model's choice, log
36). A bad or missing frame is counted, BAD_FRAMES latches at the 16th in a row, its slot is lost, and nothing else
changes: the ring's count goes on with the frames the master builds (R3, R4, R7, R16, R25, R187; before the first sync
the model's choice, log 49). -/
def Obligations.MasterTakesReturningFrame : Prop :=
  (∀ (s : State) (f : LinkFrame) (sync : Nat), s.Ready → s.link.role = .master → frameGood f = true →
       s.syncLate sync = false →
       ∃ t, exec (.frameReceived f sync) s = .next t ∧
         t.link =
           { s.link with
             expected := some (if f.number.toNat = 63999 then 0 else f.number.toNat + 1), runCount := 0, sinceGood := 0
             seqJump := s.link.jumps f.number.toNat, reckoning := some (sync % 128), windowClosed := false } ∧
         t.tape =
           (if f.broken then s.tape
            else
             { s.tape with
               ring := .closed, sinceReturn := 0
               enumDue := if s.tape.ring = .closed then s.tape.enumDue else true }) ∧
         t = { s with link := t.link, msg := t.msg, tape := t.tape, events := t.events }) ∧
  (∀ (s : State) (bad : Option (LinkFrame × Nat)), s.Ready → s.link.role = .master →
       (∀ x, bad = some x → frameGood x.1 = false ∧ s.syncLate x.2 = false) →
       ∃ t, exec (match bad with | some x => .frameReceived x.1 x.2 | none => .missingFrame) s = .next t ∧
         (s.link.runCount = 15 → t.latchedFlag .badFrames = true) ∧ (s.link.runCount ≠ 15 → t.events = s.events) ∧
         t = { s with
           link := { s.link with
             expected := s.link.expected.map fun n => if n + 1 < 64000 then n + 1 else 0
             runCount := min 255 (s.link.runCount + 1), sinceGood := min 32 (s.link.sinceGood + 1)
             windowClosed := bad.isNone
             reckoning := match bad with | some x => some (x.2 % 128) | none => s.link.reckoning }
           msg := { s.msg with
             assembly := none
             assemblyErrors :=
               if s.msg.assembly.isSome then min 255 (s.msg.assemblyErrors + 1) else s.msg.assemblyErrors }
           events := t.events })

/-- 32 frame times without a good frame: LOST_ORIGINATING, and from ACQUIRING or LINKED a link loss begins with its
mute reason, LINK_LOST, a detector waiting for a boundary and an engine in READY with an empty word (R11 to R13, R63,
R87); what stands due in the engine comes first (R84, R85). A BROKEN frame in LINKED or ACQUIRING begins the loss in
LOST_FORWARDING; its TAPE_END flag becomes the raw condition (R11, R12, R198; log 24). A good unbroken frame ends the
loss, is handed on, its pair to the FIFO as any pair (R168, R169; the holdoff at a drop is the model's choice, log
40), and is forwarded, but for one after LOST_ORIGINATING whose output start falls within the frame being originated
(R5, R12 to R14; log 12). Show-safe raised: under HOLD nothing but the condition changes; under DARK, with the changer
not in motion, the queue is purged, hold-dark is set with the shutter closed, and a dissolve to 0 over 100 ticks
begins from the computed level (R13, R106, R147). -/
def Obligations.LinkLossAndShowSafe : Prop :=
  (∀ s u : State, s.powered = true → s.link.role = .follower → 32 ≤ s.link.sinceGood →
       (let lost :=
          .next (State.latch
            { u with
              link := { u.link with state := .lostOriginating, showSafeCount := 0, showSafe := false }
              sound := { u.sound with reasons := { u.sound.reasons with link := true } }
              det := Detector.restart
              cue := { u.cue with
                state := .ready, word := [], discarding := false, gap := 0, stuckCount := 0, completion := .none } }
            .linkLost)
        s.link.state = .acquiring ∨ s.link.state = .linked →
         (u = s → s.cue.completion = .none → (∀ x n, s.cue.state = .run x n → n < 16) →
           (s.cue.state = .stuck → s.cue.stuckCount < 2) → exec .linkLossTimeout s = lost) ∧
         ((∃ x n, s.cue.state = .run x n ∧ 16 ≤ n) → exec .stuckTone s = .next u → exec .linkLossTimeout s = lost) ∧
         ((∀ x n, s.cue.state = .run x n → n < 16) → (s.cue.state = .stuck → s.cue.stuckCount < 2) →
           exec .wordComplete s = .next u → exec .linkLossTimeout s = lost)) ∧
       (s.link.state = .lostForwarding →
         exec .linkLossTimeout s = .next { s with link := { s.link with state := .lostOriginating } })) ∧
  (∀ (s : State) (f : LinkFrame) (sync : Nat), s.Ready → s.link.role = .follower → frameGood f = true →
       s.syncLate sync = false →
       (f.broken = true → s.link.state = .linked ∨ s.link.state = .acquiring →
         ∃ t, exec (.frameReceived f sync) s = .next t ∧ t.link.state = .lostForwarding ∧
           t.sound.reasons.link = true ∧ t.latchedFlag .linkLost = true ∧ t.det = Detector.restart ∧
           t.cue = { s.cue with
             state := .ready, word := [], discarding := false, gap := 0, stuckCount := 0, completion := .none } ∧
           t.link.tapeEnd = f.tapeEnd ∧ t.link.lastPair = s.link.lastPair ∧
           t.link.showRunning = s.link.showRunning ∧ t.sound.fifo = s.sound.fifo) ∧
       (f.broken = false → s.link.state = .lostForwarding ∨ s.link.state = .lostOriginating →
         (s.link.jumps f.number.toNat = true → f.number.toNat % 160 ≠ 159) →
         let pair : Pair := if f.silent then (0, 0) else (f.left, f.right)
         ∃ t, exec (.frameReceived f sync) s = .next t ∧ t.link.state = .linked ∧ t.sound.reasons.link = false ∧
           t.link.showSafe = false ∧ t.link.showSafeCount = 0 ∧ t.link.lastPair = pair ∧
           t.link.showRunning = f.showRunning ∧ Sound.wrote s.sound t.sound pair ∧
           (∀ r, s.link.state = .lostOriginating → s.link.reckoning = some r →
             let start := (sync + 230 - r % 128) % 128
             (start < 76 → t.link.output = s.link.output) ∧
             (76 ≤ start → f.tag ≠ .idle → s.link.tracking = none → (f.tag = .start → f.byte ≠ 0x01) →
               t.link.output = some f)))) ∧
  (∀ s : State, s.powered = true → s.inLoss = true → s.link.showSafe = false → 200 ≤ s.link.showSafeCount →
       (s.paramNat .safeAction = 0 →
         exec .showSafeRaised s = .next { s with link := { s.link with showSafe := true } }) ∧
       (s.paramNat .safeAction ≠ 0 → s.tray.state.busy = false →
         exec .showSafeRaised s =
           .next { s with
             link := { s.link with showSafe := true }
             queue := { s.queue with
               entries := [], pause := none, purged := s.queue.purged + BitVec.ofNat 32 s.queue.entries.length }
             tray := { s.tray with holdDark := true, shutterOpen := false }
             lamp := { s.lamp with
               target := 0
               dissolve := some
                 { start := s.lamp.computed, target := 0, duration := 100, loaded := false, elapsed := 0,
                   restart := false } } }))

/-- A frame of the unit's own in LOST_ORIGINATING: the expected number, zero samples, BROKEN and SILENT and a right
check; the expected number advances (R4, R14). The unit's message may stand in any of its slots, whatever came before:
an attempt going on puts its next byte there, and after its last byte the message has left the queue; with no attempt
and no wait the head of the reply queue begins with its kind under START, its other bytes to follow, the source and a
NOTICE's payload fixed now. With nothing to send, or in a wait, the slot is IDLE (R14, R30, R31, R34). -/
def Obligations.OriginatedFrameSent : Prop :=
  ∀ s : State, s.Ready → s.link.role = .follower → s.link.state = .lostOriginating → s.enumeratesAsMaster →
    (∀ n, s.link.expected = some n → n < 64000) →
    ∃ (f : LinkFrame) (t : State), exec .originatedFrame s = .next t ∧
      frameGood f = true ∧ f.number.toNat = s.link.expected.getD 0 ∧ f.left = 0 ∧ f.right = 0 ∧ f.cue = 0 ∧
      f.showRunning = false ∧ f.silent = true ∧ f.broken = true ∧ f.tapeEnd = false ∧
      t = { s with
        link := { s.link with
          expected := some (if s.link.expected.getD 0 = 63999 then 0 else s.link.expected.getD 0 + 1)
          output := some f }
        msg := t.msg } ∧
      (s.msg.attempt = none → s.msg.replies = [] ∨ s.msg.wait ≠ none →
        f.tag = .idle ∧ f.byte = 0x00 ∧ t.msg = s.msg) ∧
      (∀ (m : OutMsg) (rest : List OutMsg), s.msg.attempt = none → s.msg.wait = none → s.msg.replies = m :: rest →
        let payload := if m.kind = 0x81 then bytesOf 4 s.events.latched.toNat else m.payload
        let bytes := [m.dest, s.sourceByte, byteOf payload.length] ++ payload
        f.tag = .start ∧ f.byte = m.kind ∧
          t.msg =
            { s.msg with
              attempt := some
                { slots := bytes.map (fun b => (SlotTag.body, b)) ++ [(.done, messageCheck 0x00 (m.kind :: bytes))]
                  enumerate := false } }) ∧
      (∀ (x : SlotTag × Byte) (more : List (SlotTag × Byte)),
        s.msg.attempt = some { slots := x :: more, enumerate := false } →
        f.tag = x.1 ∧ f.byte = x.2 ∧
          (more ≠ [] → t.msg = { s.msg with attempt := some { slots := more, enumerate := false } }) ∧
          (more = [] →
            t.msg = { s.msg with attempt := none, replies := s.msg.replies.tail, attempts := 0, lastTry := false }))

/-- A good frame whose slot came taken leaves a follower in LINKED or LOST_FORWARDING with the byte its tracking of an
ENUMERATE gives and a right frame check, and the tracking goes on; an IDLE slot ends the tracking. An intact
ENUMERATE to all so forwarded leaves with the next count, the bytes after it unchanged, and a right check; where the
check came wrong it leaves wrong by the same amount (R9, R17). -/
def Obligations.EnumerateRewritten : Prop :=
  (∀ (s : State) (f : LinkFrame) (sync : Nat), s.Ready → s.link.role = .follower →
       (s.link.state = .linked ∨ s.link.state = .lostForwarding) → frameGood f = true → s.syncLate sync = false →
       let sent := trackSlot s.link.tracking f.tag f.byte
       ∃ t, exec (.frameReceived f sync) s = .next t ∧
         (f.tag ≠ .idle → t.link.output = some (sealFrame { f with byte := sent.2 }) ∧ t.link.tracking = sent.1) ∧
         (f.tag = .idle → t.link.tracking = none)) ∧
  (∀ (source c check : Byte) (rest : List Byte), rest.length ≤ 23 →
       forwardedBytes none
           ([(.start, 0x01), (.body, 0xFF), (.body, source), (.body, byteOf (rest.length + 1)), (.body, c)] ++
             rest.map (fun b => (.body, b)) ++ [(.done, check)]) =
         (let count : Byte := if 1 ≤ c.toNat ∧ c.toNat ≤ 32 then c + 1 else 33
          let sent := [0x01, 0xFF, source, byteOf (rest.length + 1), count] ++ rest
          let came := [0x01, 0xFF, source, byteOf (rest.length + 1), c] ++ rest
          sent ++ [messageCheck 0x00 sent ^^^ (check ^^^ messageCheck 0x00 came)]))

/-! ## Control messages (spec/02) -/

/-- A message of at most 24 payload bytes, taken slot by slot while nothing is in assembly, is delivered exactly when
the unit takes its destination; with another check byte it is abandoned and counted (R21 to R25). The unit takes what
is sent to all, to one of its groups or to its address (R26). A delivered command is placed behind the buffers held,
or with three held is dropped with RX_OVERFLOW (R26, R27). An ENUMERATE to all gives a follower the count 1 to 32 as
its address, any other count none; one without a count is dropped (R18). A first-pass REMOTE_RELAY is placed again,
marked and to all, by a master with a free place and dropped otherwise; a relayed one is placed; a REPLY, a NOTICE
and an ill-formed REMOTE_RELAY are dropped (R26, R33). -/
def Obligations.MessageAssembled : Prop :=
  (∀ (s : State) (m : Message), m.payload.length ≤ 24 → s.msg.assembly = none →
       s.takeSlots (slotsOf m.bytes) = (if s.takesDest m.dest then s.deliver m else s) ∧
       ∀ check : Byte, check ≠ messageCheck 0x00 m.bytes →
         (s.takeSlots ((slotsOf m.bytes).dropLast)).takeSlot .done check =
           { s with msg := { s.msg with assemblyErrors := min 255 (s.msg.assemblyErrors + 1) } }) ∧
  (∀ (s : State) (d : Byte),
       s.takesDest d = true ↔
         d = 0xFF ∨ (∃ g, g < 8 ∧ d.toNat = 0x40 + g ∧ s.link.groups.getLsbD g = true) ∨
           s.link.address = some d.toNat) ∧
  (∀ (s : State) (m : Message),
       let placed (t : State) :=
         if t.msg.rx.length < 3 then { t with msg := { t.msg with rx := t.msg.rx ++ [m] } } else t.latch .rxOverflow
       (m.kind ≠ 0x01 → m.kind ≠ 0x80 → m.kind ≠ 0x81 → m.kind ≠ 0x82 → s.deliver m = placed s) ∧
       (m.kind = 0x80 ∨ m.kind = 0x81 → s.deliver m = s) ∧
       (m.kind = 0x01 → m.payload = [] → s.deliver m = s) ∧
       (∀ c rest, m.kind = 0x01 → m.payload = c :: rest →
         s.deliver m =
           placed
             (if s.link.role = .follower ∧ m.dest = 0xFF then
               { s with link := { s.link with
                   address := if 1 ≤ c.toNat ∧ c.toNat ≤ 32 then some c.toNat else none } }
              else s)) ∧
       (∀ record : List Byte, m.kind = 0x82 → record.length = 5 →
         (m.payload = 0x00 :: record →
           s.deliver m =
             (if s.link.role = .master ∧ s.placesUsed < 4 then
               { s with msg := { s.msg with
                   replies := s.msg.replies ++ [{ kind := 0x82, dest := 0xFF, payload := 0x01 :: record }] } }
              else s)) ∧
         (m.payload = 0x01 :: record → s.deliver m = placed s)) ∧
       (m.kind = 0x82 → (m.payload.length ≠ 6 ∨ 1 < (m.payload.headD 0).toNat) → s.deliver m = s))

/-- An attempt that meets a missing frame in LOST_FORWARDING is interrupted: below RETRY_LIMIT a wait of 8 frame
times for each place of the address begins, this frame time counted; at the limit the message is given up with
TX_GIVEUP (R31, R32; log 13). An attempt that meets a foreign byte in a good frame is lost in the same way, and the
foreign slot is forwarded (R31, R32). A running wait counts good and missing frame times alike, and ends when its
frame times have passed (R32). An attempt that outlived a link reset counts like any other, and below RETRY_LIMIT it
is discarded with its message, without a wait or a flag (R35; the model's reading, log 46). -/
def Obligations.LostAttemptWaits : Prop :=
  (∀ (s : State) (a : Attempt), s.Ready → s.link.role = .follower → s.link.state = .lostForwarding →
       s.link.runCount ≠ 15 → s.msg.attempt = some a → s.msg.wait = none →
       let link :=
         { s.link with
           expected := s.link.expected.map fun n => if n + 1 < 64000 then n + 1 else 0
           runCount := min 255 (s.link.runCount + 1), sinceGood := min 32 (s.link.sinceGood + 1)
           output := none, tracking := none, windowClosed := true }
       let msg :=
         { s.msg with
           assembly := none
           assemblyErrors :=
             if s.msg.assembly.isSome then min 255 (s.msg.assemblyErrors + 1) else s.msg.assemblyErrors
           attempt := none, slotFree := false }
       let places := 8 * s.link.address.getD 33
       let dropped := { msg with replies := s.msg.replies.tail, attempts := 0, lastTry := false }
       exec .missingFrame s =
         .next
           (if s.paramNat .retryLimit ≤ s.msg.attempts + 1 then
             State.latch { s with link := link, msg := dropped } .txGiveup
            else if s.msg.lastTry then { s with link := link, msg := dropped }
            else
             { s with
               link := link
               msg := { msg with
                 attempts := s.msg.attempts + 1, wait := some { elapsed := min places 1, total := places } } })) ∧
  (∀ (s : State) (f : LinkFrame) (sync : Nat), s.Ready → s.link.role = .follower →
       (s.link.state = .linked ∨ s.link.state = .lostForwarding) → frameGood f = true → s.syncLate sync = false →
       ∃ t, exec (.frameReceived f sync) s = .next t ∧
         (∀ a, f.tag ≠ .idle → s.msg.attempt = some a → s.msg.wait = none →
           let places := 8 * t.link.address.getD 33
           t.msg.attempt = none ∧ (t.link.output.map fun g => g.tag) = some f.tag ∧
           (s.paramNat .retryLimit ≤ s.msg.attempts + 1 →
             t.msg.attempts = 0 ∧ t.msg.wait = none ∧ t.latchedFlag .txGiveup = true ∧
               ∀ m rest, s.msg.replies = m :: rest → rest <+: t.msg.replies) ∧
           (s.msg.attempts + 1 < s.paramNat .retryLimit → s.msg.lastTry = true →
             t.msg.attempts = 0 ∧ t.msg.wait = none ∧ t.latchedFlag .txGiveup = s.latchedFlag .txGiveup ∧
               ∀ m rest, s.msg.replies = m :: rest → rest <+: t.msg.replies) ∧
           (s.msg.attempts + 1 < s.paramNat .retryLimit → s.msg.lastTry = false →
             t.msg.attempts = s.msg.attempts + 1 ∧ s.msg.replies <+: t.msg.replies ∧
               t.msg.wait = some { elapsed := min places 1, total := places })) ∧
         (∀ w, s.msg.attempt = none → s.msg.wait = some w →
           t.msg.wait = some { w with elapsed := min w.total (w.elapsed + 1) })) ∧
  (∀ (s : State) (w : RetryWait),
       (s.Ready → s.link.role = .follower → s.msg.attempt = none → s.msg.wait = some w →
         ∃ t, exec .missingFrame s = .next t ∧
           t.msg.wait = some { w with elapsed := min w.total (w.elapsed + 1) }) ∧
       (s.powered = true → s.msg.wait = some w → w.total ≤ w.elapsed →
         exec .retryWaitEnd s = .next { s with msg := { s.msg with wait := none } }))

/-! ## Link commands (spec/03) -/

/-- IDENTIFY, READ_PARAM, READ_CUE and READ_KEY answer OK with their data, a kind the unit does not know is answered
UNKNOWN and an ENUMERATE to the unit alone RANGE, each without data; none changes anything else, save that an
ENUMERATE back at a master ends the enumeration that waits for it, one that is due staying due (R36, R37, R42, R48, R52,
R53, R189; the model's choice, log 36). STATUS
answers with the summary record and READ_EVENTS with the sixteen bytes of the event unit and the counts; neither
changes anything else (R44, R45). -/
def Obligations.ReadingCommandsAnswer : Prop :=
  (∀ (s : State) (m : Message) (rest : List Message), s.Ready → s.Oldest m rest →
       (m.kind = 0x02 → m.payload = [] →
         exec .identify s = .next (s.served rest (replies m 0x00
           [0x04, 0x70, 1, (match s.link.address with | some a => byteOf a | none => 0xFE), s.link.groups,
             if s.link.role = .master then 1 else 0]))) ∧
       (∀ p : Param, m.kind = 0x11 → m.payload = [byteOf p.id] →
         exec .readParam s = .next (s.served rest (replies m 0x00 (byteOf p.id :: bytesOf 4 (s.param p).toNat)))) ∧
       (∀ i : Fin 64, m.kind = 0x21 → m.payload = [byteOf i] →
         exec .readCue s = .next (s.served rest (replies m 0x00 (cueBytes s.cue.table[i])))) ∧
       (∀ i : Fin 16, m.kind = 0x23 → m.payload = [byteOf i] →
         exec .readKey s = .next (s.served rest (replies m 0x00 (keyBytes s.remote.keys[i])))) ∧
       (unknownKind m = true → exec .unknownCommand s = .next (s.served rest (replies m 0x05 []))) ∧
       (m.kind = 0x01 → m.needsReply = true → exec .enumerate s = .next (s.served rest (replies m 0x03 []))) ∧
       (m.kind = 0x01 → m.dest = 0xFF →
         exec .enumerate s =
           .next (State.served
             (if s.link.role = .master ∧ s.tape.enumWait ≠ none then
               { s with tape := { s.tape with enumWait := none, enumAttempts := 0 } }
              else s) rest []))) ∧
  (∀ (s : State) (m : Message) (rest : List Message), s.Ready → s.Oldest m rest → m.payload = [] →
       (m.kind = 0x04 →
         exec .status s = .next (s.served rest (replies m 0x00
           ([trayCode s.tray.state, if s.tray.valid then byteOf s.tray.position else 0xFF, byteOf s.lamp.applied,
             thermalCode s.mon.thermal, fanCode s.mon.fan, supplyCode s.mon.supply, byteOf s.queue.entries.length,
             if s.link.role = .master then transportCode s.tape.transport else 0,
             if s.events.latched &&& s.events.attention ≠ 0 then 1 else 0] ++
             symbolCodes s.cue.lastWord ++ bytesOf 2 s.cue.wordCounter.toNat)))) ∧
       (m.kind = 0x05 →
         exec .readEvents s = .next (s.served rest (replies m 0x00
           (bytesOf 4 s.events.latched.toNat ++ bytesOf 4 (s.served rest []).rawSet.toNat ++
             [byteOf s.msg.assemblyErrors] ++ bytesOf 2 s.cue.glitches ++ bytesOf 2 s.sound.slips.toNat ++
             bytesOf 2 s.remote.ignored ++ [s.events.lastMark])))))

/-- SET_GROUPS replaces the group set, CLEAR_EVENTS clears the named latched flags, SET_MASKS replaces both masks;
each answers with what is now held and changes nothing else (R43, R45, R46). -/
def Obligations.ManagementCommandsTakeEffect : Prop :=
  ∀ (s : State) (m : Message) (rest : List Message), s.Ready → s.Oldest m rest →
    (∀ g : Byte, m.kind = 0x03 → m.payload = [g] → s.saving .settings = false →
      exec .setGroups s =
        .next (State.served { s with link := { s.link with groups := g } } rest (replies m 0x00 [g]))) ∧
    (∀ w : EventSet, m.kind = 0x06 → m.payload = bytesOf 4 w.toNat →
      exec .clearEvents s =
        .next (State.served
          { s with events := { s.events with latched := s.events.latched &&& ~~~(w &&& 0x03FFFFFF) } } rest
          (replies m 0x00 (bytesOf 4 (s.events.latched &&& ~~~(w &&& 0x03FFFFFF)).toNat)))) ∧
    (∀ a b : EventSet, m.kind = 0x07 → m.payload = bytesOf 4 a.toNat ++ bytesOf 4 b.toNat →
      exec .setMasks s =
        .next (State.served
          { s with events := { s.events with attention := a &&& 0x03FFFFFF, alarm := b &&& 0x03FFFFFF } } rest
          (replies m 0x00 (bytesOf 4 (a &&& 0x03FFFFFF).toNat ++ bytesOf 4 (b &&& 0x03FFFFFF).toNat))))

/-- RESET: the handler takes the message, holds it with the place for its reply, and takes no further buffer (R47).
The link reset of a held RESET once the store is free: the working tables come from the store, from pages that pass
their check or else as defaults (R207; logs 9 and 21), the queue, the detector, the engine and the remote decoder
restart, the lamp is dark, a busy changer becomes UNHOMED with its shutter closed, and role, address, link state,
masks and the store's memory stay (R20, R35, R47, R77, R95, R108, R135, R165, R179, R197, R199). -/
def Obligations.ResetHeldThenCarriedOut : Prop :=
  (∀ (s : State) (m : Message) (rest : List Message), s.Ready → s.Oldest m rest → m.kind = 0x08 → m.payload = [] →
       exec .reset s =
         .next { s with msg := { s.msg with rx := rest, held := m.needsReply, heldReset := some m } }) ∧
  (∀ (s : State) (m : Message), s.powered = true → s.msg.heldReset = some m → s.store.job = none →
       s.store.pendingLamp0 = false → s.store.pendingLamp1 = false →
       ∃ t, exec .linkReset s = .next t ∧
         t.link = { s.link with groups := s.loadedGroups, lastPair := (0, 0) } ∧
         t.msg.rx = [] ∧ t.msg.assembly = s.msg.assembly ∧ t.msg.assemblyErrors = s.msg.assemblyErrors ∧
         t.msg.held = false ∧ t.msg.heldReset = none ∧ t.msg.wait = none ∧ t.msg.attempts = 0 ∧
         (s.msg.attempt = none → m.needsReply = true →
           t.msg.replies.head? = some { kind := 0x80, dest := m.source, payload := [m.kind, 0x00] }) ∧
         t.det = Detector.restart ∧ t.cue = CueEngine.restart s.loadedCues ∧ t.queue = ActionQueue.empty ∧
         t.params = s.loadedParams ∧
         t.remote = Remote.restart s.loadedKeys s.remote.button0 s.remote.button1 s.remote.button2 ∧
         t.lamp.applied = 0 ∧ t.lamp.computed = 0 ∧ t.lamp.target = 0 ∧ t.lamp.dissolve = none ∧
         t.lamp.record0 = s.lamp.record0 ∧ t.lamp.record1 = s.lamp.record1 ∧ t.lamp.active = s.lamp.active ∧
         (s.tray.state.busy = true → t.tray.state = .unhomed ∧ t.tray.valid = false ∧ t.tray.shutterOpen = false) ∧
         t.tray.cursor = 0 ∧ t.sound.fifo = [] ∧ t.sound.reader = .filling ∧ t.sound.step = s.sound.step ∧
         t.events.attention = s.events.attention ∧ t.events.alarm = s.events.alarm ∧ t.events.lastMark = 0 ∧
         t.store.mem = s.store.mem ∧ t.tape.transport = s.tape.transport ∧ s.LoadedInto t ∧
         (t.latchedFlag .storeError = true ↔ ∃ r : Region, ¬ s.Checks r))

/-- SET_PARAM sets the working value to the sent one, clamped, and answers with it; AUDIO_LEVEL also becomes the show
level, and AUDIO_DELAY is pending while the gain is not at OFF (R48, R176, R177). A TRAY_SENSE that differs from the
sense in use makes a valid position invalid, and an IDLE changer becomes UNHOMED, at which the queue offers its head
and a waiting swap moves on (R100, R112, R159; log 8), a NOTICE placed meanwhile standing before the reply (the
model's choice, log 38). The clamped value lies in the parameter's range and is the sent one when that does; a value
below the range gives its low end, one above it its high end (R48). -/
def Obligations.SetParamClamps : Prop :=
  (∀ (s : State) (m : Message) (rest : List Message) (p : Param) (w : BitVec 32), s.Ready → s.Oldest m rest →
       m.kind = 0x10 → m.payload = byteOf p.id :: bytesOf 4 w.toNat → s.saving .settings = false →
       let v := p.clamp w
       let pending := { s.sound with
         pendingDelay := some v.toNat, reasons := { s.sound.reasons with delayChange := true } }
       let flushed := { s.sound with
         fifo := [], delay := v.toNat, pendingDelay := none, lastRead := (0, 0), holdoff := 0, reader := .filling
         reasons := { s.sound.reasons with delayChange := false, underflow := false, fill := true } }
       let sound :=
         if p = .audioLevel then { s.sound with showLevel := v.toNat }
         else if p = .audioDelay then (if s.sound.step = 97 then flushed else pending)
         else s.sound
       let disagrees := s.tray.valid = true ∧ s.tray.sense ≠ some (if v = 0 then .normal else .reversed)
       let tray :=
         if p = .traySense ∧ disagrees then
           (if s.tray.state = .idle then
             { s.tray with
               valid := false, state := .unhomed, timer := 0, motion := none, seekCount := 0, current := none
               carried := none, cut := false, motor := none }
            else { s.tray with valid := false })
         else s.tray
       (p = .traySense → s.tray.state = .idle → s.NothingWaits) →
       exec .setParam s =
         .next (State.served
           { s with params := s.params.setIfInBounds p.id v, sound := sound, tray := tray } rest
           (replies m 0x00 (byteOf p.id :: bytesOf 4 v.toNat)))) ∧
  (∀ (s : State) (m : Message) (rest : List Message) (w : BitVec 32), s.Ready → s.Oldest m rest → m.kind = 0x10 →
       m.payload = byteOf Param.traySense.id :: bytesOf 4 w.toNat → s.saving .settings = false →
       let v := Param.traySense.clamp w
       s.tray.state = .idle → s.tray.valid = true → s.tray.sense ≠ some (if v = 0 then .normal else .reversed) →
       ∃ u, State.RestsInto
           { s.taking m rest with
             params := s.params.setIfInBounds Param.traySense.id v
             tray := { s.tray with
               valid := false, state := .unhomed, timer := 0, motion := none, seekCount := 0, current := none
               carried := none, cut := false, motor := none } } (.next u) ∧
         exec .setParam s =
           .next (u.answered (replies m 0x00 (byteOf Param.traySense.id :: bytesOf 4 v.toNat)))) ∧
  (∀ (p : Param) (w : BitVec 32), p ≠ .muteMask →
       let sent : Int := if p.signed then w.toInt else w.toNat
       let set : Int := if p.signed then (p.clamp w).toInt else (p.clamp w).toNat
       p.range.1 ≤ set ∧ set ≤ p.range.2 ∧ (p.range.1 ≤ sent → sent ≤ p.range.2 → set = sent) ∧
         (sent < p.range.1 → set = p.range.1) ∧ (p.range.2 < sent → set = p.range.2))

/-- A refused command that needs a reply leaves every block as it was and its reply carries no data (R37). -/
def Obligations.RefusedCommandChangesNothing : Prop :=
  ∀ (k : Byte) (work : Message → State → Answer × State) (m : Message) (s : State),
    workOf k = some work → m.needsReply = true → (work m s).1.status ≠ .ok →
    (work m s).2 = s ∧ (work m s).1.data = []

/-- LOAD_CUE and LOAD_KEY with an entry in the form they carry: the entry replaces the named one whole, for every
entry in range, and nothing else changes (R52, R53). -/
def Obligations.TableLoadsReplaceEntry : Prop :=
  ∀ (s : State) (m : Message) (rest : List Message), s.Ready → s.Oldest m rest →
    (∀ (i : Fin 64) (e : CueEntry), e.inRange → m.kind = 0x20 → m.payload = byteOf i :: cueBytes e →
      s.saving .cues = false →
      exec .loadCue s =
        .next (State.served { s with cue := { s.cue with table := s.cue.table.set i e } } rest
          (replies m 0x00 [byteOf i]))) ∧
    (∀ (i : Fin 16) (e : KeyEntry), e.action.inRange → m.kind = 0x22 → m.payload = byteOf i :: keyBytes e →
      s.saving .keys = false →
      exec .loadKey s =
        .next (State.served { s with remote := { s.remote with keys := s.remote.keys.set i e } } rest
          (replies m 0x00 [byteOf i])))

/-- An action record sent in the four-byte form is read back as the action it came from, for every action in range
(R50). An entry written in the form READ_CUE and the CUES pages carry is read back as itself, for every entry in
range, and its bytes number 10, 14, 18 or 22 (R52, R201). -/
def Obligations.RecordsRoundTrip : Prop :=
  (∀ a : Action, a.inRange → (recordOf a).length = 4 ∧ actionOfBytes (recordOf a) = some a) ∧
  (∀ e : CueEntry, e.inRange →
       (cueBytes e).length = 6 + 4 * e.actions.length ∧ cueOfBytes (cueBytes e) = some e ∧
         cueOfBytes (cuePageBytes (padPage (cueBytes e))) = some e)

/-- LOAD_SLOT replaces the skip flags and marks of its positions and no occupancy; READ_SLOT answers from its cursor
on and moves it, and changes nothing else (R54). -/
def Obligations.SlotMapLoadedAndRead : Prop :=
  ∀ (s : State) (m : Message) (rest : List Message), s.Ready → s.Oldest m rest →
    (∀ (p : Nat) (entries : List Byte), m.kind = 0x24 → m.payload = byteOf p :: entries → 1 ≤ entries.length →
      entries.length ≤ 8 → p + entries.length ≤ 100 → (∀ b ∈ entries, b.getLsbD 6 = false) →
      s.saving .slots = false →
      ∃ t, exec .loadSlot s = .next t ∧
        t = State.served { s with tray := { s.tray with slots := t.tray.slots } } rest
          (replies m 0x00 [byteOf p, byteOf entries.length]) ∧
        ∀ q, q < 100 → t.tray.slot q =
          if p ≤ q ∧ q < p + entries.length then
            { s.tray.slot q with
              skip := (entries.getD (q - p) 0).getLsbD 7, mark := (entries.getD (q - p) 0).toNat % 64 }
          else s.tray.slot q) ∧
    (∀ q : Byte, m.kind = 0x25 → m.payload = [q] → (q.toNat ≤ 99 ∨ q = 0xFF) →
      let first := if q = 0xFF then s.tray.cursor else q.toNat
      let k := min 8 (100 - first)
      exec .readSlot s =
        .next (State.served { s with tray := { s.tray with cursor := min 99 (first + k) } } rest
          (replies m 0x00 ([byteOf first, byteOf k] ++
            (List.range k).flatMap fun i =>
              [occupancyCode (s.tray.slot (first + i)).occupancy, slotByte (s.tray.slot (first + i))]))))

/-- LOAD_CURVE writes the eight points of a segment, or point 32 alone, clamped to 1024 with the two end points
fixed, and no other point; nothing but the curve and its marks changes (R55, R144). -/
def Obligations.CurveSegmentLoaded : Prop :=
  ∀ (s : State) (m : Message) (rest : List Message) (seg : Nat) (points : List Nat), s.Ready → s.Oldest m rest →
    m.kind = 0x26 → seg ≤ 4 → points.length = 8 → (∀ x ∈ points, x < 65536) →
    m.payload = byteOf seg :: points.flatMap (fun x => bytesOf 2 x) → s.saving .curve = false →
    ∃ t, exec .loadCurve s = .next t ∧
      t = State.served
        { s with lamp := { s.lamp with
            curve := t.lamp.curve, complete := t.lamp.complete, segments := t.lamp.segments } } rest
        (replies m 0x00 (byteOf seg :: (List.range 8).flatMap fun i =>
          bytesOf 2 (if seg = 4 ∧ i ≠ 0 then 0 else t.lamp.curve.getD (8 * seg + i) 0))) ∧
      (∀ i (h : i < 33), t.lamp.curve[i] =
        if 8 * seg ≤ i ∧ i < 8 * seg + 8 then
          (if i = 0 then 0 else if i = 32 then 1024 else min 1024 (points.getD (i - 8 * seg) 0))
        else s.lamp.curve[i]) ∧
      (t.lamp.complete = true ↔ seg = 4 ∧ s.lamp.complete = false ∧ s.lamp.segments = 0xF) ∧
      t.lamp.segments =
        (if seg < 4 then (if s.lamp.complete then 0 else s.lamp.segments) ||| ((1 : BitVec 4) <<< seg)
         else if s.lamp.complete ∨ s.lamp.segments = 0xF then 0
         else s.lamp.segments)

/-- ACT places its clamped action at the tail behind the entries that wait, with source LINK; a full queue refuses it
with FULL (R51, R97). Placed into an empty queue it waits while a PAUSE runs, and otherwise is offered at once, with
what the expiry of a PAUSE before it would bring: an AUDIO sets the show level, an action with a motion begins its
change in a changer that is IDLE (R98, R100, R101, R104, R105). A NOTICE placed while a command is carried out stands
before its reply (the model's choice, log 38). STOP empties the queue, cancels a PAUSE and holds the changer dark; a
change not yet in INDEX loses its steps, one under way ends after its step, and a changer at rest only goes dark (R51,
R106, R107, R131, R132); a homing that goes on keeps its current action (the model's choice, log 54); where a busy
changer comes to rest by it a waiting swap moves on (R159). CLEAR_JAM turns a jammed changer into UNHOMED and a jammed
lamp changer into IDLE; the queue then offers its head, and a waiting swap moves on, and the answer holds both states
as they stand after that (R51, R100, R124, R159; log 8). -/
def Obligations.ActionCommands : Prop :=
  (∀ (s : State) (m : Message) (rest : List Message) (a : Action), s.Ready → s.Oldest m rest → m.kind = 0x30 →
       actionOfBytes m.payload = some a → s.queue.entries ≠ [] →
       (s.queue.entries.length < 16 →
         exec .act s =
           .next (State.served
             { s with queue := { s.queue with
                 entries := s.queue.entries ++ [{ action := a, source := .link }]
                 accepted := s.queue.accepted + 1 } } rest (replies m 0x00 (recordOf a)))) ∧
       (s.queue.entries.length = 16 → m.needsReply = true →
         exec .act s = .next (s.served rest (replies m 0x02 [])))) ∧
  (∀ (s : State) (m : Message) (rest : List Message) (a : Action), s.Ready → s.Oldest m rest → m.kind = 0x30 →
       actionOfBytes m.payload = some a → s.queue.entries = [] →
       let queue : ActionQueue :=
         { s.queue with entries := [{ action := a, source := .link }], accepted := s.queue.accepted + 1 }
       let taken : ActionQueue := { s.queue with accepted := s.queue.accepted + 1, taken := s.queue.taken + 1 }
       let reply := replies m 0x00 (recordOf a)
       (s.queue.pause ≠ none → s.lamp.changer ≠ .waitChanger →
         exec .act s = .next (State.served { s with queue := queue } rest reply)) ∧
       (s.queue.pause = none →
         (∃ u, exec .pauseExpiry (State.offering { s.taking m rest with queue := queue }) = .next u ∧
           exec .act s = .next (u.answered reply)) ∧
         (s.lamp.changer ≠ .waitChanger →
           (∀ n, a = .audio n →
             exec .act s =
               .next (State.served { s with queue := taken, sound := { s.sound with showLevel := n } } rest reply)) ∧
           (∀ x, s.tray.choose a = .motion x → s.tray.state = .idle → s.lamp.changer.isSwapping = false →
             s.mon.supply ≠ .critical → s.tray.closedSwitch = false →
             exec .act s =
               .next (State.served
                 { s with
                   queue := taken
                   tray := { s.tray with
                     motion := some x, current := some a, cut := false, trayEmpty := false
                     state := .changing .shutterClose, shutterOpen := false, timer := 0 } } rest reply))))) ∧
  (∀ (s : State) (m : Message) (rest : List Message), s.Ready → s.Oldest m rest → m.kind = 0x31 → m.payload = [] →
       let held := { s.tray with holdDark := true, shutterOpen := false }
       let cutSteps := { held with motion := s.tray.motion.map fun x => { x with remaining := 0 }, cut := true }
       let rests := { held with
         state := if s.tray.valid then .idle else .unhomed, timer := 0, motion := none, seekCount := 0
         current := none, carried := none, cut := false, motor := none }
       let tray : Tray :=
         match s.tray.state with
         | .changing .shutterClose | .changing .lower | .suspended (.change .shutterClose)
         | .suspended (.change .lower) | .suspended (.change .index) => cutSteps
         | .changing .index | .changing .raise | .changing .settle | .suspended (.change .raise)
         | .suspended (.change .settle) => { held with cut := true }
         | .changing .shutterOpen | .suspended (.change .shutterOpen) => rests
         | .homing .raise | .suspended (.home .raise) => { held with carried := none }
         | .homing .shutterClose | .homing .lower | .homing .seek => { held with carried := none, cut := true }
         | .suspended (.home .shutterClose) | .suspended (.home .lower) | .suspended (.home .seek) =>
           { rests with state := .unhomed, valid := false }
         | .idle | .unhomed | .jammed => held
       let stopped (s : State) : State :=
         { s with
           queue := { s.queue with
             entries := [], pause := none, purged := s.queue.purged + BitVec.ofNat 32 s.queue.entries.length }
           tray := tray }
       (s.lamp.changer ≠ .waitChanger ∨ tray.state.busy = true →
         exec .stop s = .next (State.served (stopped s) rest (replies m 0x00 []))) ∧
       (s.tray.state.busy = true → tray.state.busy = false →
         ∃ u, (stopped (s.taking m rest)).RestsInto (.next u) ∧
           exec .stop s = .next (u.answered (replies m 0x00 [])))) ∧
  (∀ (s : State) (m : Message) (rest : List Message), s.Ready → s.Oldest m rest → m.kind = 0x32 → m.payload = [] →
       let lampChanger := if s.lamp.changer = .jammed then .idle else s.lamp.changer
       (s.tray.state ≠ .jammed →
         exec .clearJam s =
           .next (State.served { s with lamp := { s.lamp with changer := lampChanger } } rest
             (replies m 0x00 [trayCode s.tray.state, lampChangerCode lampChanger]))) ∧
       (s.tray.state = .jammed → s.tray.motion = none → s.tray.current = none → s.tray.carried = none →
         let cleared (s : State) : State :=
           { s with
             tray := { s.tray with
               state := .unhomed, valid := false, timer := 0, seekCount := 0, cut := false, motor := none }
             lamp := { s.lamp with changer := lampChanger } }
         (s.NothingWaits →
           exec .clearJam s = .next (State.served (cleared s) rest (replies m 0x00 [0, lampChangerCode lampChanger]))) ∧
         (∃ u, (cleared (s.taking m rest)).RestsInto (.next u) ∧
           exec .clearJam s =
             .next (u.answered (replies m 0x00 [trayCode u.tray.state, lampChangerCode u.lamp.changer])))))

/-- SAVE and PROTECT of an idle store: the reply is OK, and the job begins with its first page, whose new contents
differ, with an erase exactly when some bit is to rise from zero to one; while the supply is CRITICAL the job is
suspended before it; the stored bytes have not changed yet (R56, R202, R203, R205, R206). A SAVE whose pages all
compare equal ends as soon as it is accepted, with STORE_DONE (R203), under a CRITICAL supply too (the model's
choice, log 42). With a job in flight SAVE and PROTECT are refused with BUSY; a SAVE of a protected region is refused
with PROTECTED first; a load of the region under SAVE, and under a SAVE of SETTINGS a SET_PARAM or SET_GROUPS, is
refused with BUSY and changes nothing (R38, R41, R56). -/
def Obligations.SaveAndProtect : Prop :=
  (∀ (s : State) (m : Message) (rest : List Message), s.Ready → s.Oldest m rest → s.store.job = none →
       (∀ r : Region, m.kind = 0x40 → m.payload = [byteOf (regionCode r)] →
         s.store.protection.getLsbD (regionCode r) = false →
         let p := (regionPages r).1
         (regionPage s r 0 ≠ s.store.mem.page p →
           ∃ phase, (phase = PagePhase.erase ↔ raisesBit (s.store.mem.page p) (regionPage s r 0)) ∧
             let op : PageOp := { page := p, contents := regionPage s r 0, phase := phase, stopped := false }
             let job : Job :=
               if s.mon.supply = .critical then { kind := .save r, pages := jobPages (.save r), op := none }
               else { kind := .save r, pages := (jobPages (.save r)).tail, op := some op }
             exec .save s =
               .next (State.served { s with store := { s.store with job := some job } } rest
                 (replies m 0x00 [byteOf (regionCode r)]))) ∧
         ((∀ q ∈ jobPages (.save r), jobContents s (.save r) q = s.store.mem.page q) →
           s.store.pendingLamp0 = false → s.store.pendingLamp1 = false →
           ∃ t, exec .save s = .next t ∧ t.store.job = none ∧ t.store.mem = s.store.mem ∧
             t.latchedFlag .storeDone = true ∧ t.store.errors.getLsbD (regionCode r) = false)) ∧
       (∀ set : Byte, m.kind = 0x42 → m.payload = [set] → set.toNat < 32 →
         protectionPage set ≠ s.store.mem.page 255 →
         ∃ phase, (phase = PagePhase.erase ↔ raisesBit (s.store.mem.page 255) (protectionPage set)) ∧
           let op : PageOp := { page := 255, contents := protectionPage set, phase := phase, stopped := false }
           let job : Job :=
             if s.mon.supply = .critical then { kind := .protect set, pages := [255], op := none }
             else { kind := .protect set, pages := [], op := some op }
           exec .protect s =
             .next (State.served { s with store := { s.store with job := some job } } rest (replies m 0x00 [set])))) ∧
  (∀ (s : State) (m : Message) (rest : List Message), s.Ready → s.Oldest m rest →
       (∀ r : Region, m.kind = 0x40 → m.payload = [byteOf (regionCode r)] →
         s.store.protection.getLsbD (regionCode r) = true →
         exec .save s = .next (s.served rest (replies m 0x04 []))) ∧
       (∀ r : Region, m.kind = 0x40 → m.payload = [byteOf (regionCode r)] →
         s.store.protection.getLsbD (regionCode r) = false → s.store.job ≠ none →
         exec .save s = .next (s.served rest (replies m 0x01 []))) ∧
       (∀ set : Byte, m.kind = 0x42 → m.payload = [set] → set.toNat < 32 → s.store.job ≠ none →
         exec .protect s = .next (s.served rest (replies m 0x01 []))) ∧
       (∀ (i : Fin 64) (e : CueEntry), e.inRange → m.kind = 0x20 → m.payload = byteOf i :: cueBytes e →
         s.saving .cues = true → exec .loadCue s = .next (s.served rest (replies m 0x01 []))) ∧
       (∀ (i : Fin 16) (e : KeyEntry), e.action.inRange → m.kind = 0x22 → m.payload = byteOf i :: keyBytes e →
         s.saving .keys = true → exec .loadKey s = .next (s.served rest (replies m 0x01 []))) ∧
       (∀ (p : Nat) (b : Byte), m.kind = 0x24 → m.payload = [byteOf p, b] → p ≤ 99 → b.getLsbD 6 = false →
         s.saving .slots = true → exec .loadSlot s = .next (s.served rest (replies m 0x01 []))) ∧
       (∀ (seg : Nat) (bytes : List Byte), m.kind = 0x26 → m.payload = byteOf seg :: bytes → seg ≤ 4 →
         bytes.length = 16 → s.saving .curve = true →
         exec .loadCurve s = .next (s.served rest (replies m 0x01 []))) ∧
       (∀ (p : Param) (w : BitVec 32), m.kind = 0x10 → m.payload = byteOf p.id :: bytesOf 4 w.toNat →
         s.saving .settings = true → exec .setParam s = .next (s.served rest (replies m 0x01 []))) ∧
       (∀ g : Byte, m.kind = 0x03 → m.payload = [g] → s.saving .settings = true →
         exec .setGroups s = .next (s.served rest (replies m 0x01 []))))

/-- STORE_READ answers with half a page: the new contents of a page being written, its operation stopped by the supply
or not, and the stored ones of any other; of page 255 it also makes the set held there the active protection set,
empty where that page was left broken and is not being written (R57, R202, R205, R206; what a broken page holds is
open, log 9). LAMP_REPLACED: the lamp's record becomes OK with 0 lit minutes; for the active lamp the failure count
restarts; for the other, while the active record is FAILED, AUTO_SWAP on and the lamp changer IDLE, a swap is
requested, which waits for a tray changer in motion and starts otherwise; the lamp's write is requested, behind a job
in flight, or with an idle store as a job that starts at once with its page (R57, R158, R159, R161, R202, R204). -/
def Obligations.StoreReadAndLampReplaced : Prop :=
  (∀ (s : State) (m : Message) (rest : List Message) (page half : Byte), s.Ready → s.Oldest m rest → m.kind = 0x41 →
       m.payload = [page, half] → half.toNat ≤ 1 →
       let written : Option (List Byte) :=
         match s.store.job with
         | some ⟨_, _, some op⟩ => if op.page = page.toNat then some op.contents else none
         | _ => none
       let bytes := written.getD (s.store.mem.page page.toNat)
       let set := if written = none ∧ 255 ∈ s.store.broken then 0 else protectionOf bytes
       exec .storeRead s =
         .next (State.served (if page = 0xFF then { s with store := { s.store with protection := set } } else s) rest
           (replies m 0x00 ([page, half] ++ (bytes.drop (16 * half.toNat)).take 16)))) ∧
  (∀ (s : State) (m : Message) (rest : List Message) (n : LampNo), s.Ready → s.Oldest m rest → m.kind = 0x43 →
       m.payload = [lampCode n] →
       let fresh : LampRecord := { status := .ok, minutes := 0 }
       let swaps := n ≠ s.lamp.active ∧ (s.lamp.record s.lamp.active).status = .failed ∧ s.paramNat .autoSwap ≠ 0 ∧
         s.lamp.changer = .idle
       let starts := swaps ∧ s.tray.state.busy = false
       (swaps → s.lamp.applied = 0) →
       let replaced : State :=
         { s with
           lamp := { s.lamp with
             record0 := if n = .lamp0 then fresh else s.lamp.record0
             record1 := if n = .lamp1 then fresh else s.lamp.record1
             failCount := if n = s.lamp.active ∨ starts then 0 else s.lamp.failCount
             changer := if starts then .swapping 0 else if swaps then .waitChanger else s.lamp.changer }
           tray := { s.tray with shutterOpen := if starts then false else s.tray.shutterOpen } }
       (s.store.job ≠ none →
         exec .lampReplaced s =
           .next (State.served
             { replaced with store := { s.store with
                 pendingLamp0 := if n = .lamp0 then true else s.store.pendingLamp0
                 pendingLamp1 := if n = .lamp1 then true else s.store.pendingLamp1 } } rest
             (replies m 0x00 [lampCode n]))) ∧
       (s.store.job = none → s.mon.supply ≠ .critical →
         let p := if n = .lamp0 then 82 else 83
         lampPage fresh ≠ s.store.mem.page p →
         ∃ phase, (phase = PagePhase.erase ↔ raisesBit (s.store.mem.page p) (lampPage fresh)) ∧
           let op : PageOp := { page := p, contents := lampPage fresh, phase := phase, stopped := false }
           let job : Job := { kind := .lampWrite (decide (n = .lamp0)) (decide (n = .lamp1)), pages := [], op := some op }
           exec .lampReplaced s =
             .next (State.served { replaced with store := { s.store with job := some job } } rest
               (replies m 0x00 [lampCode n]))))

/-- CALIBRATE begins a calibration in a master whose transport is STOPPED, is refused with BUSY otherwise, and by a
follower with ROLE whatever its length (R38, R58). The 256th reading ends a calibration: each trim is 2048 less the
mean, in eighths, rounded to the nearest with halves away from zero and limited to 7; the trims are set at once, or
wait for a SAVE of SETTINGS (R184, R185). -/
def Obligations.CalibrationBeginsAndEnds : Prop :=
  (∀ (s : State) (m : Message) (rest : List Message), s.Ready → s.Oldest m rest → m.kind = 0x50 →
       (s.link.role = .follower → exec .calibrate s = .next (s.served rest (replies m 0x06 []))) ∧
       (s.link.role = .master → m.payload = [] →
         exec .calibrate s =
           .next
             (if s.tape.transport ≠ .stopped ∨ s.tape.calibration ≠ none ∨ s.saving .settings = true then
               s.served rest (replies m 0x01 [])
              else
               State.served
                 { s with tape := { s.tape with
                     calibration := some { count := 0, sumLeft := 0, sumRight := 0, sumCue := 0 } } } rest
                 (replies m 0x00 [])))) ∧
  (∀ (s : State) (c : Calibration), s.powered = true → s.tape.calibration = some c → 256 ≤ c.count →
       ∃ l r q : Int,
         (∀ x ∈ [(l, c.sumLeft), (r, c.sumRight), (q, c.sumCue)],
           -7 ≤ x.1 ∧ x.1 ≤ 7 ∧
           (-7 < x.1 → 2 * (2048 * x.1) ≤ 2 * (524288 - (x.2 : Int)) + 2048 ∧
             (x.1 ≤ 0 → 2 * (2048 * x.1) < 2 * (524288 - (x.2 : Int)) + 2048)) ∧
           (x.1 < 7 → 2 * (524288 - (x.2 : Int)) ≤ 2 * (2048 * x.1) + 2048 ∧
             (0 ≤ x.1 → 2 * (524288 - (x.2 : Int)) < 2 * (2048 * x.1) + 2048))) ∧
         exec .calibrationComplete s =
           .next
             (if s.saving .settings then
               { s with tape := { s.tape with
                   calibration := none, pendingTrims := some { left := l, right := r, cue := q } } }
              else
               { s with
                 tape := { s.tape with calibration := none }
                 params := ((s.params.set 16 (BitVec.ofInt 32 l)).set 17 (BitVec.ofInt 32 r)).set 18
                   (BitVec.ofInt 32 q) }))

/-! ## Cue tones and cue words (spec/04, spec/05) -/

/-- A clean block's verdict is a tone exactly when the block is not marked overload, that tone meets the test
against the energy and the other three, and no other tone does (R69, R70). -/
def Obligations.VerdictNeedsExactlyOneTone : Prop :=
  ∀ (levelT purity dominance energy : Nat) (power : Tone → Nat) (overload : Bool) (x : Tone),
    let meets (y : Tone) : Prop :=
      levelT ≤ power y ∧ purity * energy ≤ 8 * power y ∧ ∀ z, z ≠ y → power z * 2 ^ dominance ≤ power y
    verdictOf levelT purity dominance energy (power .l) (power .m) (power .h) (power .t) overload = some x ↔
      overload = false ∧ meets x ∧ ∀ y, y ≠ x → ¬ meets y

/-- A missing frame at the last place of a block ends it damaged, under the number it would have carried (the model's
reading of R4, log 11): the first damaged block holds the verdict before it, a further one gives ABSENT (R6, R61, R72,
R73). A frame handed to the detector begins a block at a boundary number from WAITING, or at any number from BOUNDARY,
with its filters and sums at 0; it joins the block in progress, damaging it by a bad or break mark; a break into
another block ends the one in progress damaged and begins a damaged one; the frame at remainder 159 ends a block,
judged on its powers when clean (R60 to R62, R70 to R73). A sample divided by 16 and rounded down enters four filters,
whose products are divided and rounded down (R65's words, not its figure; log 53) and whose states saturate with the
overload mark, and the energy sum; a power comes from the two latest states (R64 to R68). -/
def Obligations.DamagedBlockHoldsVerdict : Prop :=
  (∀ (s : State) (b n : Nat), s.Ready → s.link.role = .follower → s.link.state = .linked → s.det.state = .inBlock b →
       s.link.expected = some n → n % 160 = 159 →
       ∃ t, exec .missingFrame s = .next t ∧ t.det.state = .boundary ∧ t.det.prevDamaged = true ∧
         t.det.prevVerdict = (if s.det.prevDamaged then none else s.det.prevVerdict) ∧
         t.cue = s.cue.verdict (s.paramNat .wordGap) (if s.det.prevDamaged then none else s.det.prevVerdict)) ∧
  (∀ (s : State) (n : Nat) (x : Sample) (bad broke : Bool), s.Ready →
       let begun (d : Bool) : Detector :=
         { s.det with
           state := .inBlock (n / 160), filterL := { latest := 0, before := 0 }
           filterM := { latest := 0, before := 0 }, filterH := { latest := 0, before := 0 }
           filterT := { latest := 0, before := 0 }, energy := 0, count := 0, overload := false, damaged := d }
       let held := if s.det.prevDamaged then none else s.det.prevVerdict
       let gap := s.paramNat .wordGap
       let after (d : Detector) : State :=
         let v :=
           if d.damaged then held
           else
             verdictOf (s.paramNat .levelT) (s.paramNat .purity) (s.paramNat .dominance) (d.energy / 1024)
               (tonePower .l d.filterL) (tonePower .m d.filterM) (tonePower .h d.filterH) (tonePower .t d.filterT)
               d.overload
         if n % 160 = 159 then
           { s with
             det := { d with state := .boundary, prevVerdict := v, prevDamaged := d.damaged }
             cue := s.cue.verdict gap v }
         else { s with det := d }
       (s.det.state = .waiting → n % 160 ≠ 0 → s.handFrame n x bad broke = s) ∧
       (s.det.state = .waiting → n % 160 = 0 → s.handFrame n x bad broke = after ((begun bad).takeSample x)) ∧
       (s.det.state = .boundary → s.handFrame n x bad broke = after ((begun (bad || broke)).takeSample x)) ∧
       (∀ b, s.det.state = .inBlock b → (broke = false ∨ n / 160 = b) →
         s.handFrame n x bad broke =
           after ({ s.det with damaged := s.det.damaged || bad || broke }.takeSample x)) ∧
       (∀ b, s.det.state = .inBlock b → broke = true → n / 160 ≠ b → n % 160 ≠ 159 →
         s.handFrame n x bad broke =
           { s with
             det := { begun true with prevVerdict := held, prevDamaged := true }.takeSample x
             cue := s.cue.verdict gap held })) ∧
  (∀ (d : Detector) (x : Sample),
       let u : Int := x.toInt / 16
       let formed (c : Int) (f : Filter) : Int := c * f.latest / 16384 + u - f.before
       let kept (c : Int) (f : Filter) : Filter :=
         { latest := max (-2147483647) (min 2147483647 (formed c f)), before := f.latest }
       let exceeds (c : Int) (f : Filter) : Bool := decide (2147483647 < (formed c f).natAbs)
       d.takeSample x =
         { d with
           filterL := kept 30274 d.filterL, filterM := kept 27939 d.filterM, filterH := kept 21281 d.filterH
           filterT := kept 12540 d.filterT, energy := d.energy + (u * u).toNat, count := d.count + 1
           overload := d.overload || exceeds 30274 d.filterL || exceeds 27939 d.filterM || exceeds 21281 d.filterH ||
             exceeds 12540 d.filterT }) ∧
  (∀ (x : Tone) (f : Filter),
       let c : Int := match x with | .l => 30274 | .m => 27939 | .h => 21281 | .t => 12540
       (tonePower x f : Int) =
         max 0 (min 4294967295
           ((f.latest * f.latest + f.before * f.before - c * f.latest / 16384 * f.before) / 65536)))

/-- From READY, or in the gap of a word of one or two symbols, a run of 2 to 15 verdicts of a tone and then silence
appends one symbol, short below 6 and long from 6 on; silence short of WORD_GAP goes on as a gap, and the word is due
when the gap reaches it (R79 to R81, R83, R84). A tone begins a run, one verdict more lengthens it, and a differing
verdict ends it: a run of 2 to 15 joins the word, makes it overlength as a fourth symbol, with the glitch count one
higher and the discarding mark set, or is discarded under that mark; then silence begins a gap and another tone a run
(R79 to R81, R83). A run of 1 is a glitch, counted: in READY no gap counts, otherwise its block counts in the gap,
which may complete the word before the verdict that ended it is taken (R82). In GAP silence counts one, and a tone
completes a word whose gap has reached WORD_GAP before its run begins, or sets the gap aside (R84). The completion is a
step of its own, with the verdict kept that is to be taken after it (the model's choice, log 25). -/
def Obligations.RunBecomesSymbol : Prop :=
  (∀ (c : CueEngine) (wordGap n k : Nat) (x : Tone),
       (c.state = .ready ∧ c.word = [] ∧ c.gap = 0 ∨ c.state = .gap ∧ c.word.length ≤ 2 ∧ c.gap < wordGap) →
       c.discarding = false → c.completion = .none → 3 ≤ wordGap → wordGap ≤ 20 → 2 ≤ n → n ≤ 15 → 1 ≤ k →
       k ≤ wordGap →
       (List.replicate n (some x) ++ List.replicate k none).foldl (fun (d : CueEngine) v => d.verdict wordGap v) c =
         { c with
           state := .gap, word := c.word ++ [{ tone := x, long := decide (6 ≤ n) }], gap := k
           completion := if k = wordGap then .due else .none }) ∧
  (∀ (c : CueEngine) (wordGap n : Nat) (x : Tone) (v : Verdict), c.state = .run x n → c.completion = .none →
       3 ≤ wordGap → wordGap ≤ 20 → c.word.length ≤ 3 →
       let more := min 65535 (c.glitches + 1)
       (v = some x → c.verdict wordGap v = { c with state := .run x (n + 1) }) ∧
       (v ≠ some x → 2 ≤ n → n ≤ 15 →
         c.verdict wordGap v =
           { c with
             word :=
               if c.discarding then c.word
               else if c.word.length = 3 then [] else c.word ++ [{ tone := x, long := decide (6 ≤ n) }]
             discarding := c.discarding || decide (c.word.length = 3)
             glitches := if c.discarding = false ∧ c.word.length = 3 then more else c.glitches
             state := match v with | none => .gap | some y => .run y 1
             gap := if v = none then 1 else 0 }) ∧
       (v ≠ some x → n = 1 → c.word = [] ∧ c.discarding = false →
         c.verdict wordGap v =
           { c with glitches := more, state := match v with | none => .ready | some y => .run y 1 }) ∧
       (v ≠ some x → n = 1 → c.word ≠ [] ∨ c.discarding = true →
         let gap := min 20 (c.gap + 1)
         (wordGap ≤ gap →
           c.verdict wordGap v = { c with glitches := more, gap := gap, state := .gap, completion := .dueThen v }) ∧
         (gap < wordGap →
           (∀ y, v = some y →
             c.verdict wordGap v = { c with glitches := more, gap := gap, state := .run y 1 }) ∧
           (v = none →
             c.verdict wordGap v =
               { c with
                 glitches := more, gap := gap + 1, state := .gap
                 completion := if gap + 1 = wordGap then .due else .none })))) ∧
  (∀ (c : CueEngine) (wordGap : Nat), c.completion = .none → wordGap ≤ 20 →
       (c.state = .ready →
         c.verdict wordGap none = c ∧ ∀ y, c.verdict wordGap (some y) = { c with state := .run y 1 }) ∧
       (c.state = .gap →
         (∀ y, wordGap ≤ c.gap → c.verdict wordGap (some y) = { c with completion := .dueThen (some y) }) ∧
         (∀ y, c.gap < wordGap → c.verdict wordGap (some y) = { c with state := .run y 1 }) ∧
         c.verdict wordGap none =
           { c with
             gap := min 20 (c.gap + 1)
             completion := if wordGap ≤ min 20 (c.gap + 1) then .due else .none }))

/-- A run of 16 is a stuck tone: the run and the word with its gap and mark go, CUE_STUCK latches and the engine is
in STUCK. There a tone sets the stuck count to 0 and forms nothing, an ABSENT adds one, and at 2 the engine is in
READY. The glitch count is not touched (R85). -/
def Obligations.StuckToneBeginsAndEnds : Prop :=
  ∀ s : State, s.powered = true →
    (∀ (x : Tone) (n : Nat), s.cue.state = .run x n → 16 ≤ n →
      exec .stuckTone s =
        .next (State.latch
          { s with cue := { s.cue with
              state := .stuck, word := [], discarding := false, gap := 0, stuckCount := 0, completion := .none } }
          .cueStuck)) ∧
    (∀ (wordGap : Nat) (v : Verdict), s.cue.state = .stuck → s.cue.stuckCount ≤ 1 →
      s.cue.verdict wordGap v = { s.cue with stuckCount := if v = none then s.cue.stuckCount + 1 else 0 }) ∧
    (s.cue.state = .stuck → s.cue.stuckCount = 2 →
      ∃ n, exec .stuckEnd s = .next { s with cue := { s.cue with state := .ready, stuckCount := n } })

/-- A word that completes is recorded, counted and looked up: with no entry for it CUE_UNMATCHED latches; the first
enabled entry that matches places all its actions behind those that wait, or with too few places none of them and
CUE_DROPPED latches; a ONCE entry is disabled either way. Placed into an empty queue with no PAUSE running, its head
is offered at once, as at the expiry of a PAUSE (R100). Under the discarding mark nothing is handed on (R84, R86, R89,
R91, R92, R94). -/
def Obligations.WordLookedUp : Prop :=
  ∀ s : State, s.powered = true → s.cue.completion = .due → s.saving .cues = false →
    s.queue.entries.length ≤ 16 →
    let c := { s.cue with state := .ready, word := [], discarding := false, gap := 0, completion := .none }
    let recorded := { c with lastWord := s.cue.word, wordCounter := s.cue.wordCounter + 1 }
    let meets (i : Fin 64) : Prop :=
      s.cue.table[i].enabled = true ∧ i.val ∉ s.cue.pendingClears ∧ s.cue.table[i].symbols = s.cue.word ∧
        (∀ g, s.cue.table[i].group = some g → s.link.groups.getLsbD g = true) ∧
        (∀ r, s.cue.table[i].range = some r → s.tray.valid = true ∧ r.1 ≤ s.tray.position ∧ s.tray.position ≤ r.2)
    (s.cue.discarding = true → exec .wordComplete s = .next { s with cue := c }) ∧
    (s.cue.discarding = false → (∀ i, ¬ meets i) →
      exec .wordComplete s =
        .next (State.latch { s with cue := { recorded with unmatched := true, dropped := false } } .cueUnmatched)) ∧
    (∀ i, s.cue.discarding = false → meets i → (∀ j, j < i → ¬ meets j) →
      let e := s.cue.table[i]
      let table := if e.once then s.cue.table.set i { e with enabled := false } else s.cue.table
      let placed : State :=
        { s with
          cue := { recorded with table := table, unmatched := false, dropped := false }
          queue := { s.queue with
            entries := s.queue.entries ++ e.actions.map fun a => { action := a, source := .cue }
            accepted := s.queue.accepted + BitVec.ofNat 32 e.actions.length } }
      (s.queue.entries.length + e.actions.length ≤ 16 →
        (s.queue.entries ≠ [] → exec .wordComplete s = .next placed) ∧
        (s.queue.entries = [] → s.queue.pause = none → exec .wordComplete s = exec .pauseExpiry placed.offering)) ∧
      (16 < s.queue.entries.length + e.actions.length →
        exec .wordComplete s =
          .next (State.latch { s with cue := { recorded with table := table, unmatched := false, dropped := true } }
            .cueDropped)))

/-! ## The action queue (spec/06) -/

/-- A PAUSE that has run its ticks expires; with nothing behind it, or a changer-kind head that has to wait for a
changer in motion, nothing else changes; otherwise the head is taken (R100, R101, R105). AUDIO, MUTE and MARK set
their values, LAMP and DISSOLVE the lamp's, the held flag formed where the allowed level falls (R146; log 18), TAPE
moves a master's transport by its table, into END at an active end sensor, and abandons a calibration on leaving
STOPPED, one with its 256th reading having completed; the drive follows the transport (R104, R139, R140, R176, R182,
R183, R185). A PAUSE runs (R105). SHUTTER drives the shutter of an IDLE changer, another changer action begins its
change, or homes an UNHOMED changer and is carried, HOME too (R101, R119, R125, R126, R129; log 19), a homing's action
being the current action from its start (the model's choice, log 54). With the changer JAMMED every changer-kind entry
is discarded and counts as taken, and ACTION_DISCARDED latches; such a head waits while the changer is in motion, the
lamp changer SWAPPING or the supply CRITICAL (R101, R102, R107). -/
def Obligations.QueueOffersHead : Prop :=
  (∀ (s : State) (p : PauseTimer), s.powered = true → s.queue.pause = some p → p.duration ≤ p.elapsed →
       s.lamp.changer ≠ .waitChanger →
       (s.queue.entries = [] ∨
           (∃ e rest, s.queue.entries = e :: rest ∧ e.action.forChanger = true ∧ s.tray.state.busy = true) →
         exec .pauseExpiry s = .next { s with queue := { s.queue with pause := none } }) ∧
       (∀ d source rest, s.queue.entries = { action := .pause d, source := source } :: rest → d ≠ 0 →
         exec .pauseExpiry s =
           .next { s with queue := { s.queue with
             entries := rest, taken := s.queue.taken + 1, pause := some { elapsed := 0, duration := d } } })) ∧
  (∀ (s : State) (p : PauseTimer) (a : Action) (source : ActionSource), s.powered = true →
       s.queue.pause = some p → p.duration ≤ p.elapsed → s.lamp.changer ≠ .waitChanger →
       s.queue.entries = [{ action := a, source := source }] →
       let base : State :=
         { s with queue := { s.queue with pause := none, entries := [], taken := s.queue.taken + 1 } }
       (∀ n, a = .audio n →
         exec .pauseExpiry s = .next { base with sound := { s.sound with showLevel := n } }) ∧
       (∀ on, a = .mute on →
         exec .pauseExpiry s =
           .next { base with sound := { s.sound with reasons := { s.sound.reasons with command := on } } }) ∧
       (∀ n, a = .mark n →
         exec .pauseExpiry s =
           .next (State.latch { base with events := { s.events with lastMark := n } } .mark)) ∧
       (∀ level, (a = .lamp level ∨ ∃ loaded, a = .dissolve level 0 loaded) →
         ∃ t, exec .pauseExpiry s = .next t ∧ t.lamp.target = level ∧ t.lamp.computed = level ∧
           t.lamp.dissolve = none ∧ t.lamp.applied = min s.lamp.applied t.allowed ∧
           t.lamp.held =
             (if t.allowed < s.allowed ∨ t.allowed < s.lamp.applied then decide (t.lamp.applied < level)
              else s.lamp.held) ∧
           t = { base with lamp := t.lamp, mon := t.mon, store := t.store }) ∧
       (∀ target duration loaded, a = .dissolve target duration loaded → duration ≠ 0 →
         exec .pauseExpiry s =
           .next { base with lamp := { s.lamp with
             target := target
             dissolve := some
               { start := s.lamp.computed, target := target, duration := duration, loaded := loaded, elapsed := 0,
                 restart := false } } }) ∧
       (∀ c, a = .tape c →
         let old := s.tape.transport
         let new : Transport :=
           match c with
           | .play => if old = .atEnd then .atEnd else .playing
           | .stop => .stopped
           | .windForward => if old = .atEnd then .atEnd else .windForward
           | .windBack => .windBack
         let ends := new ≠ old ∧ (new = .playing ∨ new = .windForward) ∧ s.tape.endSensor = true
         let moved : State := { base with tape := { s.tape with
           transport := if ends then .atEnd else new
           calibration := if old = .stopped ∧ new ≠ .stopped then none else s.tape.calibration } }
         (s.link.role = .follower → exec .pauseExpiry s = .next base) ∧
         (s.link.role = .master → (∀ k, s.tape.calibration = some k → k.count < 256) →
           exec .pauseExpiry s = .next (if ends then moved.latch .tapeEnd else moved)) ∧
         (∀ k u, s.link.role = .master → s.tape.calibration = some k → 256 ≤ k.count → old = .stopped →
           new ≠ .stopped → exec .calibrationComplete s = .next u → exec .pauseExpiry s = exec .pauseExpiry u)) ∧
       (∀ close, a = .shutter close → s.tray.state = .idle → s.lamp.changer.isSwapping = false →
         s.mon.supply ≠ .critical →
         exec .pauseExpiry s =
           .next { base with tray := { s.tray with
             holdDark := if close then s.tray.holdDark else false
             shutterOpen :=
               if close then false else if s.mon.thermal = .overheat then s.tray.shutterOpen else true } }) ∧
       (∀ m, s.tray.choose a = .motion m → s.tray.state = .idle → s.lamp.changer.isSwapping = false →
         s.mon.supply ≠ .critical → s.tray.closedSwitch = false →
         exec .pauseExpiry s =
           .next { base with tray := { s.tray with
             motion := some m, current := some a, cut := false, trayEmpty := false, state := .changing .shutterClose
             shutterOpen := false, timer := 0 } }) ∧
       (a.forChanger = true → (s.tray.state = .unhomed ∨ s.tray.state = .idle ∧ a = .home) →
         s.lamp.changer.isSwapping = false → s.mon.supply ≠ .critical → s.tray.closedSwitch = false →
         exec .pauseExpiry s =
           .next { base with tray := { s.tray with
             valid := false, sense := some (if s.paramNat .traySense = 0 then .normal else .reversed), seekCount := 0
             current := some a, carried := if s.tray.state = .unhomed then some a else none, motion := none
             cut := false, state := .homing .shutterClose, shutterOpen := false, timer := 0 } })) ∧
  (∀ s : State, s.powered = true →
       s.transportDrive =
         match s.tape.transport with
         | .playing => .play
         | .windForward => .fastForward
         | .windBack => .rewind
         | .stopped | .atEnd => .stopped) ∧
  (∀ s : State, s.queue.pause = none → s.lamp.changer ≠ .waitChanger →
       (s.tray.state = .jammed → s.queue.entries ≠ [] → (∀ e ∈ s.queue.entries, e.action.forChanger = true) →
         s.offer =
           State.latch
             { s with queue := { s.queue with
                 entries := [], taken := s.queue.taken + BitVec.ofNat 32 s.queue.entries.length } } .actionDiscarded) ∧
       (∀ e rest, s.queue.entries = e :: rest → e.action.forChanger = true → s.tray.state ≠ .jammed →
         (s.tray.state.busy = true ∨ s.lamp.changer.isSwapping = true ∨ s.mon.supply = .critical) → s.offer = s))

/-- In the model's accounting, from every state where entries accepted equal those taken, purged and held modulo
2^32, every step gives such a state (R107). -/
def Obligations.EveryStepKeepsCountsBalanced : Prop :=
  ∀ s t : State, s.countsBalance → step s = .next t → t.countsBalance

/-! ## The changer (spec/07) -/

/-- The target of an ADVANCE or REVERSE is the nth eligible position met going round the tray step by step from the
place next to the current one; there is none exactly when no position is eligible. Position 0, a position whose skip
flag is set, and under the action's skip flag one that is EMPTY are not eligible; an UNKNOWN one is. The tray goes to
the target in the action's direction, 0 to 99 steps, or with none eligible TRAY_EMPTY latches and the tray stays
(R116). The target of a GOTO_MARK is the first position that carries the mark going forward from the one next to the
current one, which is not searched itself; the tray goes FORWARD, and without one ACTION_DISCARDED latches and the
tray stays (R118). -/
def Obligations.TargetIsNthEligible : Prop :=
  (∀ (t : Tray) (d : Direction) (n : Nat) (skip : Bool), t.position < 100 → 1 ≤ n →
       (t.nthEligible d n skip = none ↔ ∀ q, q < 100 → t.eligible skip q = false) ∧
       ∀ q, t.nthEligible d n skip = some q →
         ∃ m, 1 ≤ m ∧ (stepFrom d)^[m] t.position = q ∧ t.eligible skip q = true ∧
           ((List.range m).filter fun j => t.eligible skip ((stepFrom d)^[j + 1] t.position)).length = n) ∧
  (∀ (t : Tray) (skip : Bool) (q : Nat),
       let e := t.slots.getD q SlotEntry.blank
       t.eligible skip q = true ↔ q ≠ 0 ∧ e.skip = false ∧ ¬ (e.occupancy = .empty ∧ skip = true)) ∧
  (∀ (t : Tray) (d : Direction) (n : Nat) (skip : Bool), t.position < 100 → 1 ≤ n →
       let a : Action := match d with | .forward => .advance n skip | .backward => .reverse n skip
       ((∀ q, q < 100 → t.eligible skip q = false) → t.choose a = .trayEmpty) ∧
       ((∃ q, q < 100 ∧ t.eligible skip q = true) →
         ∃ m, t.choose a = .motion m ∧ m.direction = d ∧ m.extra = 0 ∧ m.dark = false ∧ m.remaining < 100 ∧
           (stepFrom d)^[m.remaining] t.position = m.target ∧ t.eligible skip m.target = true ∧
           ∃ k, 1 ≤ k ∧ (stepFrom d)^[k] t.position = m.target ∧
             ((List.range k).filter fun j => t.eligible skip ((stepFrom d)^[j + 1] t.position)).length = n)) ∧
  (∀ (t : Tray) (mark : Nat), t.position < 100 →
       let carries (k : Nat) : Prop := (t.slots.getD ((t.position + k) % 100) SlotEntry.blank).mark = mark
       ((∀ k, 1 ≤ k → k ≤ 99 → ¬ carries k) → t.choose (.gotoMark mark) = .noMark) ∧
       (∀ k, 1 ≤ k → k ≤ 99 → carries k → (∀ j, 1 ≤ j → j < k → ¬ carries j) →
         t.choose (.gotoMark mark) =
           .motion
             { direction := .forward, target := (t.position + k) % 100, remaining := k, extra := 0, dark := false })) ∧
  (∀ (s : State) (p : PauseTimer) (a : Action) (source : ActionSource), s.powered = true →
       s.queue.pause = some p → p.duration ≤ p.elapsed → s.queue.entries = [{ action := a, source := source }] →
       s.lamp.changer ≠ .waitChanger → s.lamp.changer.isSwapping = false → s.tray.state = .idle →
       s.mon.supply ≠ .critical →
       let base : State :=
         { s with queue := { s.queue with pause := none, entries := [], taken := s.queue.taken + 1 } }
       (s.tray.choose a = .trayEmpty →
         exec .pauseExpiry s =
           .next (State.latch { base with tray := { s.tray with trayEmpty := true } } .trayEmpty)) ∧
       (s.tray.choose a = .noMark → exec .pauseExpiry s = .next (base.latch .actionDiscarded)))

/-- A GOTO takes its steps forward up to 50 and backward beyond, whatever the slot map holds, ends at its target,
and makes no extra steps. A GOTO to the position in the gate makes no motion: taken in IDLE it is complete, and the
changer stays as it was (R117). -/
def Obligations.GotoTakesShorterWay : Prop :=
  (∀ (t : Tray) (p : Nat), t.position < 100 → p < 100 →
       let d := (p + 100 - t.position) % 100
       (d = 0 → t.choose (.goto p) = .none) ∧
       (1 ≤ d → ∃ m, t.choose (.goto p) = .motion m ∧ m.target = p ∧ m.extra = 0 ∧
         wantsSlide (some (.goto p)) = false ∧
         (d ≤ 50 → m.direction = .forward ∧ m.remaining = d) ∧
         (51 ≤ d → m.direction = .backward ∧ m.remaining = 100 - d) ∧
         (stepFrom m.direction)^[m.remaining] t.position = p)) ∧
  (∀ (s : State) (p : PauseTimer) (source : ActionSource), s.powered = true → s.queue.pause = some p →
       p.duration ≤ p.elapsed → s.tray.position < 100 →
       s.queue.entries = [{ action := .goto s.tray.position, source := source }] →
       s.lamp.changer ≠ .waitChanger → s.lamp.changer.isSwapping = false → s.tray.state = .idle →
       s.mon.supply ≠ .critical →
       exec .pauseExpiry s =
         .next { s with queue := { s.queue with pause := none, entries := [], taken := s.queue.taken + 1 } })

/-- The phases of a change up to its RAISE, with the supply not CRITICAL: the closed shutter begins LOWER, the lowered
gate begins INDEX, or RAISE with no steps to make, each pulse counts one step, the last one, or the first after a
STOP, stops the motor and begins RAISE (R111, R112, R119, R120, R131); the made end switch of a pair opens the other
(presumed, log 14). The home mark at a counted pulse: a count of 0 with a valid position ends raw POSITION_ERROR;
another count makes the position 0 with the steps counted from there and POSITION_ERROR latched; an invalid position
becomes 0, and valid when the senses agree (R113; log 30). At the end of a phase or of a step of INDEX with the supply
CRITICAL the changer is SUSPENDED with the next phase recorded, its motor stopped, its gate drive as it stands and its
timer stopped: after SHUTTER_CLOSE, LOWER, each step, RAISE with its occupancy recorded and its extra step due or not,
and SETTLE with no hold (R115, R120, R121, R133; under a cut, log 51). -/
def Obligations.ChangeMovesTrayOrSuspends : Prop :=
  (∀ (s : State) (m : Motion), s.Ready → s.mon.supply ≠ .critical → s.tray.motion = some m →
       (s.tray.state = .changing .shutterClose → s.tray.downSwitch = false →
         exec (.shutterClosedSwitch true) s =
           .next { s with tray := { s.tray with
             closedSwitch := true, openSwitch := false, state := .changing .lower, gate := .down, timer := 0 } }) ∧
       (s.tray.state = .changing .lower → m.remaining ≠ 0 →
         exec (.gateDownSwitch true) s =
           .next { s with tray := { s.tray with
             downSwitch := true, upSwitch := false, state := .changing .index, timer := 0
             motor := some (motorFor s.tray.sense m.direction) } }) ∧
       (s.tray.state = .changing .lower → m.remaining = 0 →
         exec (.gateDownSwitch true) s =
           .next { s with tray := { s.tray with
             downSwitch := true, upSwitch := false, state := .changing .raise, gate := .up, timer := 0 } }) ∧
       (s.tray.state = .changing .index → s.tray.motor ≠ none → s.tray.cut = false → 2 ≤ m.remaining →
         exec (.indexPulse false) s =
           .next { s with tray := { s.tray with
             position := stepFrom m.direction s.tray.position, motion := some { m with remaining := m.remaining - 1 }
             timer := 0, motor := some (motorFor s.tray.sense m.direction) } }) ∧
       (s.tray.state = .changing .index → s.tray.motor ≠ none → s.tray.cut = true ∨ m.remaining = 1 →
         s.tray.upSwitch = false →
         exec (.indexPulse false) s =
           .next { s with tray := { s.tray with
             position := stepFrom m.direction s.tray.position, motion := some { m with remaining := 0 }
             motor := none, state := .changing .raise, gate := .up, timer := 0 } })) ∧
  (∀ (s : State) (m : Motion), s.Ready → s.tray.motion = some m → s.tray.state = .changing .index →
       s.tray.motor ≠ none → s.tray.cut = false → 2 ≤ m.remaining →
       let critical := s.mon.supply = .critical
       let count := stepFrom m.direction s.tray.position
       let anew := { m with remaining := distanceIn m.direction 0 m.target }
       let running := { s.tray with
         position := 0, motion := some { m with remaining := m.remaining - 1 }, timer := 0
         state := if critical then .suspended (.change .index) else .changing .index
         motor := if critical then none else some (motorFor s.tray.sense m.direction) }
       let agree := s.tray.sense = some (if s.paramNat .traySense = 0 then .normal else .reversed)
       (s.tray.valid = true → count = 0 →
         exec (.indexPulse true) s = .next { s with tray := { running with positionError := false } }) ∧
       (s.tray.valid = true → count ≠ 0 → anew.remaining ≠ 0 →
         exec (.indexPulse true) s =
           .next (State.latch
             { s with tray := { running with motion := some anew, positionError := true } } .positionError)) ∧
       (s.tray.valid = false → agree → anew.remaining ≠ 0 →
         exec (.indexPulse true) s =
           .next { s with tray := { running with
             motion := some anew, valid := true, positionError := s.tray.positionError && decide (count ≠ 0) } }) ∧
       (s.tray.valid = false → ¬ agree →
         exec (.indexPulse true) s =
           .next { s with tray := { running with
             positionError := s.tray.positionError && decide (count ≠ 0) } }) ∧
       (s.tray.valid = true → count ≠ 0 → anew.remaining = 0 → critical ∨ s.tray.upSwitch = false →
         exec (.indexPulse true) s =
           .next (State.latch
             { s with tray := { running with
                 motion := some anew, positionError := true, motor := none
                 state := if critical then .suspended (.change .raise) else .changing .raise
                 gate := if critical then s.tray.gate else .up } }
             .positionError))) ∧
  (∀ s : State, s.Ready → s.mon.supply = .critical →
       (s.tray.state = .changing .shutterClose →
         exec (.shutterClosedSwitch true) s =
           .next { s with tray := { s.tray with
             closedSwitch := true, openSwitch := false, state := .suspended (.change .lower), motor := none
             timer := 0 } }) ∧
       (∀ m, s.tray.state = .changing .lower → s.tray.motion = some m →
         exec (.gateDownSwitch true) s =
           .next { s with tray := { s.tray with
             downSwitch := true, upSwitch := false, motor := none, timer := 0
             state := .suspended (.change (if m.remaining = 0 then .raise else .index)) } }) ∧
       (∀ m, s.tray.state = .changing .index → s.tray.motor ≠ none → s.tray.motion = some m →
         let left := if s.tray.cut then 0 else m.remaining - 1
         exec (.indexPulse false) s =
           .next { s with tray := { s.tray with
             position := stepFrom m.direction s.tray.position, motion := some { m with remaining := left }
             motor := none, timer := 0, state := .suspended (.change (if left = 0 then .raise else .index)) } }) ∧
       (∀ (present : Bool) (m : Motion), s.tray.state = .changing .raise → s.tray.motion = some m →
         s.tray.position < 100 →
         let raised := { s.tray with
           upSwitch := true, downSwitch := false, slidePresent := present, motor := none, timer := 0
           slots :=
             if s.tray.valid then
               s.tray.slots.setIfInBounds s.tray.position
                 { s.tray.slot s.tray.position with occupancy := if present then .present else .empty }
             else s.tray.slots }
         let steps := wantsSlide s.tray.current = true ∧ s.tray.valid = true ∧ s.tray.cut = false ∧
           ¬ (present = true ∧ s.tray.position ≠ 0 ∧ (s.tray.slot s.tray.position).skip = false)
         (¬ steps →
           exec (.gateUpSwitch true present) s =
             .next { s with tray := { raised with state := .suspended (.change .settle) } }) ∧
         (steps → m.extra < 99 →
           exec (.gateUpSwitch true present) s =
             .next { s with tray := { raised with
               motion := some { m with
                 extra := m.extra + 1, target := stepFrom m.direction s.tray.position, remaining := 1 }
               state := .suspended (.change .lower) } }) ∧
         (steps → 99 ≤ m.extra →
           exec (.gateUpSwitch true present) s =
             .next (State.latch
               { s with tray := { raised with
                   motion := some { m with dark := true }, trayEmpty := true
                   state := .suspended (.change .settle) } } .trayEmpty)))) ∧
  (∀ s : State, s.powered = true → s.mon.supply = .critical → s.tray.state = .changing .settle →
       15 ≤ s.tray.timer → s.tray.holdDark = false → s.mon.thermal ≠ .overheat →
       (∀ m, s.tray.motion = some m → m.dark = false) →
       exec .settleEnd s =
         .next { s with tray := { s.tray with
           state := .suspended (.change .shutterOpen), motor := none, timer := 0 } })

/-- The end of a change, its phases with the supply not CRITICAL: the raised gate records what stands in it while the
position is valid, the level of the sensor kept as seen (the model's choice, log 15), and SETTLE follows where no
extra step is called for, nor under a STOP's cut or an invalid position (R115, R119, R120, R121, R131; log 51). An
ADVANCE or REVERSE with its skip flag goes to SETTLE at an eligible position, with a slide, no skip flag and not the
gap; at any other it takes an extra step: LOWER begins with one step to go, or after 99 of them TRAY_EMPTY latches and
SETTLE follows (R116, R121). After 15 ticks, with no hold, the shutter opens; with hold-dark or OVERHEAT the change
ends with the shutter as it is (R119, R120, R128). The open shutter ends the change in IDLE with a valid position and
in UNHOMED without; either end comes under a CRITICAL supply too (R122, R133). The queue then offers its head, as at
the expiry of a PAUSE, and a swap in WAIT_CHANGER starts or is withdrawn; where both wait either comes first (R100,
R103, R159; log 8). The made end switch of a pair opens the other (presumed, log 14). -/
def Obligations.ChangeEndsShowingSlide : Prop :=
  (∀ (s : State) (m : Motion), s.Ready → s.tray.motion = some m →
       (∀ present : Bool, s.mon.supply ≠ .critical → s.tray.state = .changing .raise →
         wantsSlide s.tray.current = false ∨ s.tray.cut = true ∨ s.tray.valid = false →
         exec (.gateUpSwitch true present) s =
           .next { s with tray := { s.tray with
             upSwitch := true, downSwitch := false, slidePresent := present, state := .changing .settle, timer := 0
             slots :=
               if s.tray.valid then
                 s.tray.slots.setIfInBounds s.tray.position
                   { s.tray.slot s.tray.position with occupancy := if present then .present else .empty }
               else s.tray.slots } }) ∧
       (∀ present : Bool, s.mon.supply ≠ .critical → s.tray.state = .changing .raise →
         (∃ n, s.tray.current = some (.advance n true) ∨ s.tray.current = some (.reverse n true)) →
         s.tray.valid = true → s.tray.cut = false → s.tray.position < 100 →
         let raised := { s.tray with
           upSwitch := true, downSwitch := false, slidePresent := present
           slots := s.tray.slots.setIfInBounds s.tray.position
             { s.tray.slot s.tray.position with occupancy := if present then .present else .empty } }
         let shows := present = true ∧ s.tray.position ≠ 0 ∧ (s.tray.slot s.tray.position).skip = false
         (shows →
           exec (.gateUpSwitch true present) s =
             .next { s with tray := { raised with state := .changing .settle, timer := 0 } }) ∧
         (¬ shows → m.extra < 99 →
           exec (.gateUpSwitch true present) s =
             .next { s with tray := { raised with
               motion := some { m with
                 extra := m.extra + 1, target := stepFrom m.direction s.tray.position, remaining := 1 }
               state := .changing .lower, gate := .down, timer := 0 } }) ∧
         (¬ shows → 99 ≤ m.extra →
           exec (.gateUpSwitch true present) s =
             .next (State.latch
               { s with tray := { raised with
                   motion := some { m with dark := true }, trayEmpty := true, state := .changing .settle
                   timer := 0 } } .trayEmpty))) ∧
       (s.tray.state = .changing .shutterOpen →
         let rests := { s with tray := { s.tray with
           openSwitch := true, closedSwitch := false, state := if s.tray.valid then .idle else .unhomed, timer := 0
           motion := none, seekCount := 0, current := none, carried := none, cut := false, motor := none } }
         (s.NothingWaits → exec (.shutterOpenSwitch true) s = .next rests) ∧
         rests.RestsInto (exec (.shutterOpenSwitch true) s))) ∧
  (∀ (s : State) (m : Motion), s.powered = true → s.tray.motion = some m → s.tray.state = .changing .settle →
       15 ≤ s.tray.timer →
       (s.mon.supply ≠ .critical → s.tray.holdDark = false → s.mon.thermal ≠ .overheat → m.dark = false →
         s.tray.openSwitch = false →
         exec .settleEnd s =
           .next { s with tray := { s.tray with state := .changing .shutterOpen, shutterOpen := true, timer := 0 } }) ∧
       (s.tray.holdDark = true ∨ s.mon.thermal = .overheat ∨ m.dark = true →
         let rests := { s with tray := { s.tray with
           state := if s.tray.valid then .idle else .unhomed, timer := 0, motion := none, seekCount := 0
           current := none, carried := none, cut := false, motor := none } }
         (s.NothingWaits → exec .settleEnd s = .next rests) ∧ rests.RestsInto (exec .settleEnd s)))

/-- The phases of a homing: the closed shutter begins LOWER, or SEEK with the gate already down; the lowered gate
begins SEEK with the motor logical FORWARD; each pulse without the home mark counts one step of it, at most 101 (R111,
R112, R125; the jam is a step of its own, log 2). A homing that a STOP has cut ends there in UNHOMED (R132; logs 47 and
52). The home mark with the senses agreeing: the position is 0 and valid and raw POSITION_ERROR ends. With no carried
action, or HOME or SHUTTER carried, RAISE follows, and the homing ends in IDLE at position 0, a SHUTTER then carried
out; a carried action with a step or more to make goes on as a change in INDEX, and one without latches its flags and
RAISE follows (R126, R129); until then the current action stays as it is (the model's choice, log 54). With the senses
differing the homing ends in UNHOMED, raw POSITION_ERROR kept (the model's choice, log 52), and a carried action is
discarded with ACTION_DISCARDED (R112; log 19). With the supply CRITICAL the changer is SUSPENDED before the next phase
or step (R133). At an end the queue offers its head and a waiting swap moves on (R100, R103, R159; log 8). The made
switch of a pair opens the other (presumed, log 14), the sensor's level is kept as seen (the model's choice, log 15). -/
def Obligations.HomingFindsMark : Prop :=
  (∀ s : State, s.Ready →
       let critical := s.mon.supply = .critical
       let seeks (t : Tray) : Tray :=
         if critical then { t with state := .suspended (.home .seek), motor := none, timer := 0 }
         else { t with state := .homing .seek, motor := some (motorFor s.tray.sense .forward), timer := 0 }
       let rests (t : Tray) : State :=
         { s with tray := { t with
           valid := false, state := .unhomed, timer := 0, motion := none, seekCount := 0, current := none
           carried := none, cut := false, motor := none } }
       (s.tray.state = .homing .shutterClose →
         let closed := { s.tray with closedSwitch := true, openSwitch := false }
         (s.tray.cut = false → critical →
           exec (.shutterClosedSwitch true) s =
             .next { s with tray := { closed with state := .suspended (.home .lower), motor := none, timer := 0 } }) ∧
         (s.tray.cut = false → ¬ critical →
           exec (.shutterClosedSwitch true) s =
             .next { s with tray :=
               if s.tray.downSwitch then seeks { closed with gate := .down }
               else { closed with state := .homing .lower, gate := .down, timer := 0 } }) ∧
         (s.tray.cut = true → (rests closed).RestsInto (exec (.shutterClosedSwitch true) s))) ∧
       (s.tray.state = .homing .lower →
         let lowered := { s.tray with downSwitch := true, upSwitch := false }
         (s.tray.cut = false → exec (.gateDownSwitch true) s = .next { s with tray := seeks lowered }) ∧
         (s.tray.cut = true → (rests lowered).RestsInto (exec (.gateDownSwitch true) s))) ∧
       (s.tray.state = .homing .seek → s.tray.motor ≠ none →
         let counted := { s.tray with
           position := stepFrom .forward s.tray.position, seekCount := min 101 (s.tray.seekCount + 1) }
         (s.tray.cut = false →
           exec (.indexPulse false) s =
             .next { s with tray := if s.tray.seekCount < 100 then seeks counted else counted }) ∧
         (s.tray.cut = true → ∀ mark, (rests counted).RestsInto (exec (.indexPulse mark) s)))) ∧
  (∀ s : State, s.Ready → s.tray.state = .homing .seek → s.tray.motor ≠ none → s.tray.cut = false →
       let critical := s.mon.supply = .critical
       let agree := s.tray.sense = some (if s.paramNat .traySense = 0 then .normal else .reversed)
       let found := { s.tray with
         position := 0, valid := true, positionError := false, seekCount := min 101 (s.tray.seekCount + 1) }
       let raises : Tray := { found with
         motor := none, timer := 0, state := if critical then .suspended (.home .raise) else .homing .raise
         gate := if critical then s.tray.gate else .up }
       (agree → critical ∨ s.tray.upSwitch = false →
         (s.tray.carried = none ∨ s.tray.carried = some .home ∨ (∃ close, s.tray.carried = some (.shutter close)) →
           exec (.indexPulse true) s = .next { s with tray := raises }) ∧
         (∀ a, s.tray.carried = some a → a.forChanger = true → a ≠ .home → (∀ close, a ≠ .shutter close) →
           ((found.choose a = .none ∨ ∃ m, found.choose a = .motion m ∧ m.remaining = 0) →
             exec (.indexPulse true) s = .next { s with tray := { raises with carried := none } }) ∧
           (found.choose a = .trayEmpty →
             exec (.indexPulse true) s =
               .next (State.latch { s with tray := { raises with carried := none, trayEmpty := true } } .trayEmpty)) ∧
           (found.choose a = .noMark →
             exec (.indexPulse true) s =
               .next (State.latch { s with tray := { raises with carried := none } } .actionDiscarded)))) ∧
       (∀ a m, agree → s.tray.carried = some a → found.choose a = .motion m → m.remaining ≠ 0 →
         exec (.indexPulse true) s =
           .next { s with tray := { found with
             motion := some m, current := some a, carried := none, seekCount := 0, cut := false, trayEmpty := false
             state := if critical then .suspended (.change .index) else .changing .index, timer := 0
             motor := if critical then none else some (motorFor s.tray.sense m.direction) } }) ∧
       (¬ agree →
         let t := { s with tray := { s.tray with
           position := stepFrom .forward s.tray.position, valid := false, state := .unhomed, timer := 0
           motion := none, seekCount := 0, current := none, carried := none, cut := false, motor := none } }
         let rests := if s.tray.carried = none then t else t.latch .actionDiscarded
         (s.NothingWaits → exec (.indexPulse true) s = .next rests) ∧
         rests.RestsInto (exec (.indexPulse true) s))) ∧
  (∀ (s : State) (present : Bool), s.Ready → s.tray.state = .homing .raise → s.tray.valid = true →
       let rests := { s.tray with
         upSwitch := true, downSwitch := false, slidePresent := present, state := .idle, timer := 0
         motion := none, seekCount := 0, current := none, carried := none, cut := false, motor := none
         slots := s.tray.slots.setIfInBounds s.tray.position
           { s.tray.slot s.tray.position with occupancy := if present then .present else .empty } }
       (s.tray.carried = none ∨ s.tray.carried = some .home →
         (s.NothingWaits → exec (.gateUpSwitch true present) s = .next { s with tray := rests }) ∧
         State.RestsInto { s with tray := rests } (exec (.gateUpSwitch true present) s)) ∧
       (∀ close, s.tray.carried = some (.shutter close) →
         let t : State :=
           { s with tray := { rests with
             holdDark := if close then s.tray.holdDark else false
             shutterOpen :=
               if close then false else if s.mon.thermal = .overheat then s.tray.shutterOpen else true } }
         (s.NothingWaits → exec (.gateUpSwitch true present) s = .next t) ∧
         t.RestsInto (exec (.gateUpSwitch true present) s)))

/-- A phase at its limit, or 101 pulses of a homing without the home mark, jams the changer: every drive stops, the
shutter closes, the position is invalid, JAM latches, and for an action carried on ACTION_DISCARDED too (R123, R127).
A pulse that the changer does not count makes a valid position invalid and latches POSITION_ERROR, and an IDLE changer
becomes UNHOMED, while a change or a homing in a phase without counting, or SUSPENDED, goes on; with the position
already invalid it has no effect (R114). At the entry into JAMMED or UNHOMED the queue offers its head and a waiting
swap moves on (R100, R102, R159; log 8). -/
def Obligations.JamsAndUnexpectedPulses : Prop :=
  (∀ s : State, s.powered = true →
       let tray := { s.tray with
         state := .jammed, timer := 0, valid := false, motion := none, seekCount := 0, current := none
         carried := none, cut := false, shutterOpen := false, gate := .off, motor := none }
       let t := State.latch { s with tray := tray } .jam
       let jammed := if s.tray.carried = none then t else t.latch .actionDiscarded
       ((∃ n, s.tray.state.limit = some n ∧ n ≤ s.tray.timer) →
         (s.NothingWaits → exec .phaseLimitExpiry s = .next jammed) ∧ jammed.RestsInto (exec .phaseLimitExpiry s)) ∧
       (s.tray.state = .homing .seek → 101 ≤ s.tray.seekCount →
         (s.NothingWaits → exec .seekExhausted s = .next jammed) ∧ jammed.RestsInto (exec .seekExhausted s))) ∧
  (∀ (s : State) (mark : Bool), s.Ready →
       (s.tray.state = .idle → s.tray.valid = true →
         let rests := State.latch
           { s with tray := { s.tray with
               valid := false, positionError := true, state := .unhomed, timer := 0, motion := none, seekCount := 0
               current := none, carried := none, cut := false, motor := none } } .positionError
         (s.NothingWaits → exec (.indexPulse mark) s = .next rests) ∧ rests.RestsInto (exec (.indexPulse mark) s)) ∧
       (s.tray.state ≠ .changing .index → s.tray.state ≠ .homing .seek →
         (s.tray.state ≠ .idle → s.tray.valid = true →
           exec (.indexPulse mark) s =
             .next (State.latch { s with tray := { s.tray with valid := false, positionError := true } }
               .positionError)) ∧
         (s.tray.valid = false → exec (.indexPulse mark) s = .next s)))

/-- The tray changer and the lamp changer are never in motion at the same time: every step keeps it so (R130). With
the two changers apart, every step keeps the shutter closed under every hold: hold-dark, OVERHEAT, a swap, a jam,
and every phase of a change or homing but SHUTTER_OPEN (R128). -/
def Obligations.EveryStepKeepsShutterAndChangers : Prop :=
  (∀ s t : State, s.neverTogether → step s = .next t → t.neverTogether) ∧
  (∀ s t : State, s.neverTogether → s.shutterHeld → step s = .next t → t.shutterHeld)

/-- The position stays in 0 to 99, valid in IDLE and invalid in UNHOMED and JAMMED (R109, R111, R123). -/
def Obligations.EveryStepKeepsPositionMeaning : Prop :=
  ∀ s t : State, s.positionMeaning → step s = .next t → t.positionMeaning

/-! ## Lamp, dissolve and cooling (spec/08) -/

/-- The computed level of a dissolve lies between its start and its target for every curve in range, and equals the
target at the end (R141). -/
def Obligations.DissolveStaysBetween : Prop :=
  ∀ (l : Lamp) (d : Dissolve), (∀ p ∈ l.curve.toList, p ≤ 1024) → l.curve[32] = 1024 → 1 ≤ d.duration →
    d.elapsed ≤ d.duration →
    min d.start d.target ≤ l.dissolveLevel d ∧ l.dissolveLevel d ≤ max d.start d.target ∧
      (d.elapsed = d.duration → l.dissolveLevel d = d.target)

/-- A tick at the lamp controller: the dissolve step, then the applied level follows the allowed level, falling at
once and rising by 8 from a hold; the held flag, the failure count and the lit-time count follow the new level; a
fall to 0 restarts the cooldown timer and requests a lamp write, and with demand an OFF fan starts (R141, R146, R151,
R154, R157, R162, R163). That LAMP_TICK is the tick of every timer of the part is the model's choice (log 3): under it
the pause, phase, show-safe, hold, relay, swap, conversion, fan and cooldown timers advance, a STALLED fan has seen its
tick, a key held repeats at tick 50 and every 20th after it, to the count's end (log 41), and the blocks without a timer
and the store's bytes stay (R13, R105, R119, R160, R194). -/
def Obligations.TickMovesLampAndTimers : Prop :=
  ∀ (s : State) (present : Bool), s.Ready →
    let computed :=
      match s.lamp.dissolve with
      | some d => if d.elapsed < d.duration then s.lamp.dissolveLevel { d with elapsed := d.elapsed + 1 }
          else s.lamp.computed
      | none => s.lamp.computed
    let allowed :=
      if s.mon.fan.isRunning = false ∨ s.lamp.changer.isSwapping = true ∨ s.lamp.changer = .jammed ∨
          (s.lamp.record s.lamp.active).status = .failed then 0
      else min computed (min (thermalCap s.mon.thermal) (supplyCap s.mon.supply))
    let applied :=
      if allowed < s.lamp.applied then allowed
      else if s.lamp.held = true then min allowed (s.lamp.applied + 8)
      else allowed
    let fan : FanState :=
      match s.mon.fan with
      | .off => if applied = s.lamp.applied then .off else .starting 0
      | .starting n => .starting (min 100 (n + 1))
      | .running n => .running (min 50 (n + 1))
      | .stalled _ => .stalled true
      | .resting n => .resting (min 100 (n + 1))
    ∃ t, exec (.lampTick present) s = .next t ∧
      t.lamp =
        { s.lamp with
          computed := computed, applied := applied, held := decide (applied < computed)
          dissolve := s.lamp.dissolve.map fun d => { d with elapsed := d.elapsed + 1 }
          failCount := if 32 ≤ applied ∧ present = false then s.lamp.failCount + 1 else 0
          litCount := if 0 < applied then s.lamp.litCount + 1 else s.lamp.litCount
          changer := match s.lamp.changer with | .swapping n => .swapping (min 300 (n + 1)) | c => c } ∧
      t.mon =
        { s.mon with
          sinceConversion := min 10 (s.mon.sinceConversion + 1), fan := fan
          cooldown := if applied = 0 ∧ 0 < s.lamp.applied then 12000 else s.mon.cooldown - 1 } ∧
      s.storeAfterFall t ∧
      t.queue.pause = s.queue.pause.map (fun p => { p with elapsed := min p.duration (p.elapsed + 1) }) ∧
      t.tray = (if s.tray.state.inMotion then { s.tray with timer := min 40 (s.tray.timer + 1) } else s.tray) ∧
      t.link.showSafeCount =
        (if s.inLoss = true ∧ s.link.showSafe = false then min 200 (s.link.showSafeCount + 1)
         else s.link.showSafeCount) ∧
      t.remote.relayWait = s.remote.relayWait.map (fun w => { w with ticks := min 100 (w.ticks + 1) }) ∧
      t.remote.hold = s.remote.hold.map (fun h =>
        let n := min 65535 (h.ticks + 1)
        let f := if h.source = .ir then min 15 (h.frameTicks + 1) else h.frameTicks
        { h with
          ticks := n, frameTicks := f
          repeatDue :=
            decide (h.ticks < 65535 ∧ 50 ≤ n ∧ (n - 50) % 20 = 0 ∧ ¬ (h.source = .ir ∧ 15 ≤ f)) }) ∧
      t = { s with
        link := { s.link with showSafeCount := t.link.showSafeCount }
        queue := { s.queue with pause := t.queue.pause }
        tray := t.tray, lamp := t.lamp, mon := t.mon, store := t.store
        remote := { s.remote with hold := t.remote.hold, relayWait := t.remote.relayWait } }

/-- A dissolve that has run its ticks ends; the dimmer takes the applied level at the start of a period; nothing
else changes (R138, R141). A lit minute is added to the active lamp's record, saturating, and the count begins again;
each 30th requests that lamp's write: behind a job in flight it waits, with an idle store its job starts at once with
its page, is suspended before it while the supply is CRITICAL, or ends at once where the page holds the record already
(R162, R163, R202, R204, R206). -/
def Obligations.DissolveDimmerAndLitMinute : Prop :=
  (∀ s : State,
       (∀ d, s.powered = true → s.lamp.dissolve = some d → d.duration ≤ d.elapsed →
         exec .dissolveEnd s = .next { s with lamp := { s.lamp with dissolve := none } }) ∧
       (s.Ready → exec .dimmerPeriodStart s = .next { s with lamp := { s.lamp with dimmer := s.lamp.applied } })) ∧
  (∀ s : State, s.powered = true → 6000 ≤ s.lamp.litCount →
       let n := s.lamp.active
       let grown := { s.lamp.record n with minutes := min 16777215 ((s.lamp.record n).minutes + 1) }
       let counted : State :=
         { s with lamp := { s.lamp with
             record0 := if n = .lamp0 then grown else s.lamp.record0
             record1 := if n = .lamp1 then grown else s.lamp.record1
             litCount := 0 } }
       let p := if n = .lamp0 then 82 else 83
       let kind : JobKind := .lampWrite (decide (n = .lamp0)) (decide (n = .lamp1))
       (grown.minutes % 30 ≠ 0 → exec .litMinute s = .next counted) ∧
       (grown.minutes % 30 = 0 →
         (s.store.job ≠ none →
           exec .litMinute s =
             .next { counted with store := { s.store with
               pendingLamp0 := if n = .lamp0 then true else s.store.pendingLamp0
               pendingLamp1 := if n = .lamp1 then true else s.store.pendingLamp1 } }) ∧
         (s.store.job = none → lampPage grown ≠ s.store.mem.page p → s.mon.supply = .critical →
           exec .litMinute s =
             .next { counted with store := { s.store with job := some ⟨kind, [p], none⟩ } }) ∧
         (s.store.job = none → lampPage grown ≠ s.store.mem.page p → s.mon.supply ≠ .critical →
           ∃ phase, (phase = PagePhase.erase ↔ raisesBit (s.store.mem.page p) (lampPage grown)) ∧
             exec .litMinute s =
               .next { counted with store := { s.store with
                 job := some
                   ⟨kind, [], some { page := p, contents := lampPage grown, phase := phase, stopped := false }⟩ } }) ∧
         (s.store.job = none → lampPage grown = s.store.mem.page p → s.store.pendingLamp0 = false →
           s.store.pendingLamp1 = false →
           exec .litMinute s =
             .next { counted with store := { s.store with
               broken := s.store.broken.filter fun q => q != p
               errors := s.store.errors &&& (if n = .lamp0 then 0x5F else 0x3F) } })))

/-- Twenty ticks without current: the active lamp's record is FAILED with LAMP_FAILED latched, the lamp is dark, and a
swap is requested exactly when AUTO_SWAP is on, the other record OK and the lamp changer IDLE; it waits for a tray
changer in motion and starts otherwise, its motor driven and the shutter closed; a fall to 0 restarts the cooldown
timer and requests a lamp write, and the store's bytes stay (R154, R157 to R159, R163). The held flag is formed where
the allowed level falls, and stays where it was 0 before (R146; the model's reading, log 18). The swap switch ends a
swap: its motor stops, the other lamp is active, LAMP_SWAPPED latches and a dissolve from 0 to the target over 50
ticks begins; the swap timer's limit stops the motor and jams the swap with SWAP_JAM (R160, R164). At either ending
the queue offers its head, as at the expiry of a PAUSE (R100). -/
def Obligations.LampFailureAndSwap : Prop :=
  (∀ s : State, s.powered = true → 20 ≤ s.lamp.failCount →
       ∃ t, exec .lampFailure s = .next t ∧ t.lamp.applied = 0 ∧ t.lamp.failCount = 0 ∧
         (t.lamp.record s.lamp.active).status = .failed ∧
         (t.lamp.record s.lamp.active).minutes = (s.lamp.record s.lamp.active).minutes ∧
         t.lamp.record s.lamp.active.other = s.lamp.record s.lamp.active.other ∧
         t.latchedFlag .lampFailed = true ∧
         t.lamp =
           { s.lamp with
             record0 := t.lamp.record0, record1 := t.lamp.record1, applied := 0, failCount := 0
             held :=
               if 0 < s.allowed ∨ 0 < s.lamp.applied then decide (0 < s.lamp.computed) else s.lamp.held
             changer := t.lamp.changer } ∧
         t.mon =
           (if 0 < s.lamp.applied then
             { s.mon with cooldown := 12000, fan := if s.mon.fan = .off then .starting 0 else s.mon.fan }
            else s.mon) ∧
         s.storeAfterFall t ∧
         t.lamp.changer =
           (if s.paramNat .autoSwap ≠ 0 ∧ (s.lamp.record s.lamp.active.other).status = .ok ∧ s.lamp.changer = .idle then
             (if s.tray.state.busy then .waitChanger else .swapping 0)
            else s.lamp.changer) ∧
         t.tray.shutterOpen =
           (if s.lamp.changer = .idle ∧ t.lamp.changer = .swapping 0 then false else s.tray.shutterOpen) ∧
         t.lampMotor = t.lamp.changer.isSwapping ∧
         t = { s with
           tray := { s.tray with shutterOpen := t.tray.shutterOpen }, lamp := t.lamp, mon := t.mon, store := t.store
           events := t.events, msg := t.msg }) ∧
  (∀ (s : State) (n : Nat), s.powered = true → s.lamp.changer = .swapping n →
       let offers (t : State) (o : Host.Outcome State Fault Refusal) : Prop :=
         t.lampMotor = false ∧ (s.queue.entries = [] ∨ s.queue.pause ≠ none → o = .next t) ∧
           (s.queue.pause = none → o = exec .pauseExpiry t.offering)
       s.lampMotor = true ∧
       (s.Ready → s.lamp.swapSwitch = false →
         let waits := s.saving .settings
         offers
           (State.latch
             { s with lamp := { s.lamp with
                 swapSwitch := true, changer := .idle, active := s.lamp.active.other
                 savedActive := if waits then s.lamp.savedActive else s.lamp.active.other, activeWaits := waits
                 held := false, computed := 0
                 dissolve := some
                   { start := 0, target := s.lamp.target, duration := 50, loaded := false, elapsed := 0,
                     restart := true } } } .lampSwapped)
           (exec (.swapSwitch true) s)) ∧
       (300 ≤ n →
         offers (State.latch { s with lamp := { s.lamp with changer := .jammed } } .swapJam) (exec .swapTimeout s)))

/-- A conversion: the temperature is the trimmed code; the thermal state is the highest whose entry threshold it
reaches, or whose stay threshold it reaches while not above the present one; entry into OVERHEAT latches and closes
the shutter (R128, R148 to R150). The applied level keeps to what is allowed, and the held flag is formed where the
allowed level falls and stays otherwise (R145, R146; the model's reading, log 18); the fan follows its demand, a fall to
0 restarts the cooldown timer and requests a lamp write, and the store's bytes stay (R151, R152, R154, R163). -/
def Obligations.ConversionFormsThermalState : Prop :=
  ∀ (s : State) (code : BitVec 10), s.Ready → 10 ≤ s.mon.sinceConversion →
    let q : Int := max 0 (min 1023 ((code.toNat : Int) + s.paramInt .tempTrim))
    let reaches (rank : Nat) (entry stay : Int) : Prop :=
      entry ≤ q ∨ rank ≤ thermalRank s.mon.thermal ∧ stay ≤ q
    ∃ t, exec (.tempConversion code) s = .next t ∧
      (t.mon.temperature : Int) = q ∧ t.mon.sinceConversion = 0 ∧
      (t.mon.thermal = .overheat ↔ reaches 3 400 380) ∧
      (t.mon.thermal = .hot ↔ reaches 2 340 320 ∧ ¬ reaches 3 400 380) ∧
      (t.mon.thermal = .warm ↔ reaches 1 240 220 ∧ ¬ reaches 2 340 320 ∧ ¬ reaches 3 400 380) ∧
      t.lamp.applied ≤ thermalCap t.mon.thermal ∧
      (t.mon.thermal = .overheat → s.mon.thermal ≠ .overheat →
        t.latchedFlag .overheat = true ∧ t.tray.shutterOpen = false) ∧
      t.store.mem = s.store.mem ∧
      (t.mon.thermal ≠ .overheat ∨ s.mon.thermal = .overheat →
        let demand := t.mon.thermal ≠ .cold ∨ 0 < s.lamp.applied ∨ 0 < s.mon.cooldown ∨ 180 ≤ t.mon.temperature
        t.lamp =
          { s.lamp with
            applied := min s.lamp.applied t.allowed
            held :=
              if t.allowed < s.allowed ∨ t.allowed < s.lamp.applied then decide (t.lamp.applied < s.lamp.computed)
              else s.lamp.held } ∧
        t.mon =
          { s.mon with
            temperature := t.mon.temperature, sinceConversion := 0, thermal := t.mon.thermal
            fan := if demand then (if s.mon.fan = .off then .starting 0 else s.mon.fan) else .off
            fanAttempts := if demand then s.mon.fanAttempts else 0
            cooldown := if t.lamp.applied = 0 ∧ 0 < s.lamp.applied then 12000 else s.mon.cooldown } ∧
        s.storeAfterFall t ∧
        t = { s with lamp := t.lamp, mon := t.mon, store := t.store })

/-- The fan: a pulse makes it RUNNING with its supervision timer at 0; a start without a pulse and a silence of 50
ticks stall it, latch FAN_STALL and darken the lamp, whose fall to 0 restarts the cooldown timer and requests a lamp
write; a stall rests, and a rest starts again with one attempt more; without demand it is OFF (R146, R151 to R154,
R163). The held flag is formed where the allowed level falls, and stays where it was 0 before (R146; the model's
reading, log 18). The fan output is at 100 % in STARTING, at the demand's 40, 70 or 100 % in RUNNING, and off otherwise
(R151, R152). -/
def Obligations.FanSupervised : Prop :=
  ∀ s : State,
    (s.powered = true →
      s.fanDuty =
        match s.mon.fan with
        | .starting _ => 100
        | .running _ =>
          if s.mon.thermal = .hot ∨ s.mon.thermal = .overheat then 100
          else if s.mon.thermal = .warm then 70
          else if 0 < s.lamp.applied ∨ 0 < s.mon.cooldown ∨ 180 ≤ s.mon.temperature then 40
          else 0
        | .off | .stalled _ | .resting _ => 0) ∧
    (∀ n, s.Ready → s.mon.fan = .starting n →
      exec .fanTachPulse s = .next { s with mon := { s.mon with fan := .running 0, fanAttempts := 0 } }) ∧
    (∀ n, s.Ready → s.mon.fan = .running n →
      exec .fanTachPulse s = .next { s with mon := { s.mon with fan := .running 0 } }) ∧
    (∀ (c : Instr) (n : Nat), s.powered = true →
      (c = .fanStartTimeout ∧ s.mon.fan = .starting n ∧ 100 ≤ n ∨
        c = .fanSupervisionTimeout ∧ s.mon.fan = .running n ∧ 50 ≤ n) →
      ∃ t, exec c s = .next t ∧ t.latchedFlag .fanStall = true ∧
        t.lamp =
          { s.lamp with
            applied := 0
            held := if 0 < s.allowed ∨ 0 < s.lamp.applied then decide (0 < s.lamp.computed) else s.lamp.held } ∧
        t.mon =
          { s.mon with
            fan := .stalled false, cooldown := if 0 < s.lamp.applied then 12000 else s.mon.cooldown } ∧
        s.storeAfterFall t ∧
        t = { s with lamp := t.lamp, mon := t.mon, store := t.store, events := t.events, msg := t.msg }) ∧
    (s.powered = true → s.mon.fan = .stalled true →
      exec .fanRest s = .next { s with mon := { s.mon with fan := .resting 0 } }) ∧
    (∀ n, s.powered = true → s.mon.fan = .resting n → 100 ≤ n →
      exec .fanRestEnd s =
        .next { s with mon := { s.mon with fan := .starting 0, fanAttempts := min 255 (s.mon.fanAttempts + 1) } }) ∧
    (s.powered = true → s.mon.cooldown = 0 → s.mon.thermal = .cold → s.lamp.applied = 0 → s.mon.temperature < 180 →
      s.mon.fan ≠ .off →
      exec .cooldownEnd s =
        .next { s with
          mon := { s.mon with fan := .off, fanAttempts := 0 }
          lamp := { s.lamp with held := if 0 < s.allowed then true else s.lamp.held } })

/-- A supply sample forms the supply state from the thresholds of SUPPLY_PRESET; entry into LOW or CRITICAL latches
its flags and caps the lamp at once, and the held flag is formed where the allowed level falls (R145, R146, R155,
R156; log 18). While CRITICAL is not left, nothing but the supply state, the applied level and its held flag, the
flags and the store change, save that a changed level forms the fan's demand, and a fall to 0 restarts the cooldown
timer (R151, R152, R154). The entry into CRITICAL stops a page operation in progress and leaves its page with unknown
contents: no byte outside that page changes, and what the page holds is open (R206; log 9). In every other case the
stored bytes stay, and the store changes only by the lamp write a fall to 0 requests (R163). As CRITICAL is left, here
with a dark lamp, a SUSPENDED changer begins its phase, the queue offers its head, a stopped page starts again at its
erase, and a page not begun is begun (R100, R133, R206). -/
def Obligations.SupplySampled : Prop :=
  ∀ (s : State) (r : BitVec 10), s.Ready →
    let base : Nat := if s.paramNat .supplyPreset = 0 then 420 else if s.paramNat .supplyPreset = 1 then 440
      else if s.paramNat .supplyPreset = 2 then 450 else 460
    let n := r.toNat
    let new : SupplyState :=
      if n < base - 40 then .critical
      else if s.mon.supply = .critical ∧ n < base - 30 then .critical
      else if n < base then .low
      else if s.mon.supply ≠ .normal ∧ n < base + 10 then .low
      else .normal
    (∃ t, exec (.supplySample r) s = .next t ∧ t.mon.supply = new ∧
      (s.mon.supply = .normal → new ≠ .normal → t.latchedFlag .supplyLow = true) ∧
      (s.mon.supply ≠ .critical → new = .critical → t.latchedFlag .supplyCritical = true) ∧
      (s.mon.supply ≠ .critical ∨ new = .critical →
        let stops (op : PageOp) : Prop :=
          s.mon.supply ≠ .critical ∧ new = .critical ∧ ∃ k pages, s.store.job = some ⟨k, pages, some op⟩
        t.lamp.applied = min s.lamp.applied t.allowed ∧
        t.lamp.held =
          (if t.allowed < s.allowed ∨ t.allowed < s.lamp.applied then decide (t.lamp.applied < s.lamp.computed)
           else s.lamp.held) ∧
        (s.store.mem.wf = true →
          ∀ a, (∀ op, stops op → a / 32 ≠ op.page) → t.store.mem.read a = s.store.mem.read a) ∧
        ((∀ op, ¬ stops op) → s.storeAfterFall t ∧ t.drawn = s.drawn) ∧
        (∀ k pages op, s.store.job = some ⟨k, pages, some op⟩ → stops op →
          let requests (n : LampNo) : Prop := t.lamp.applied = 0 ∧ 0 < s.lamp.applied ∧ s.lamp.active = n
          (∀ p, p ∈ t.store.broken ↔ p = op.page ∨ p ∈ s.store.broken) ∧
            t.store =
              { s.store with
                mem := t.store.mem, broken := t.store.broken
                job := some ⟨k, pages, some { op with stopped := true }⟩
                pendingLamp0 := if requests .lamp0 then true else s.store.pendingLamp0
                pendingLamp1 := if requests .lamp1 then true else s.store.pendingLamp1 }) ∧
        t.mon =
          { s.mon with
            supply := new
            fan := if t.lamp.applied ≠ s.lamp.applied ∧ s.mon.fan = .off then .starting 0 else s.mon.fan
            cooldown := if t.lamp.applied = 0 ∧ 0 < s.lamp.applied then 12000 else s.mon.cooldown } ∧
        t = { s with
          lamp := { s.lamp with applied := t.lamp.applied, held := t.lamp.held }
          mon := t.mon, store := t.store, events := t.events, msg := t.msg, drawn := t.drawn })) ∧
    (s.mon.supply = .critical → new ≠ .critical → s.lamp.applied = 0 →
      let left := { s with mon := { s.mon with supply := new } }
      (s.NothingWaits → s.store.job = none →
        (∀ q : Resume, s.tray.state = .suspended q →
          (match q with
            | .change .shutterClose | .home .shutterClose => s.tray.closedSwitch = false
            | .change .lower | .home .lower => s.tray.downSwitch = false
            | .change .raise | .home .raise => s.tray.upSwitch = false
            | .change .index => ∃ m, s.tray.motion = some m ∧ m.remaining ≠ 0
            | .change .shutterOpen => s.tray.openSwitch = false ∧ s.endsDark = false
            | .change .settle | .home .seek => True) →
          let tray : Tray :=
            match q with
            | .change .shutterClose => { s.tray with state := .changing .shutterClose, shutterOpen := false }
            | .change .lower => { s.tray with state := .changing .lower, gate := .down }
            | .change .index =>
              { s.tray with
                state := .changing .index
                motor := s.tray.motion.map fun m => motorFor s.tray.sense m.direction }
            | .change .raise => { s.tray with state := .changing .raise, gate := .up }
            | .change .settle => { s.tray with state := .changing .settle }
            | .change .shutterOpen => { s.tray with state := .changing .shutterOpen, shutterOpen := true }
            | .home .shutterClose => { s.tray with state := .homing .shutterClose, shutterOpen := false }
            | .home .lower => { s.tray with state := .homing .lower, gate := .down }
            | .home .seek =>
              { s.tray with state := .homing .seek, motor := some (motorFor s.tray.sense .forward) }
            | .home .raise => { s.tray with state := .homing .raise, gate := .up }
          exec (.supplySample r) s = .next { left with tray := { tray with timer := 0 } }) ∧
        ((∀ q, s.tray.state ≠ .suspended q) → exec (.supplySample r) s = .next left)) ∧
      ((∀ q, s.tray.state ≠ .suspended q) → s.store.job = none → s.queue.pause = none →
        exec (.supplySample r) s = exec .pauseExpiry left.offering) ∧
      (∀ source, s.queue.entries = [{ action := .shutter true, source := source }] → s.queue.pause = none →
        s.tray.state = .idle → s.lamp.changer = .idle → s.store.job = none →
        exec (.supplySample r) s =
          .next { left with
            queue := { s.queue with entries := [], taken := s.queue.taken + 1 }
            tray := { s.tray with shutterOpen := false } }) ∧
      ((∀ q, s.tray.state ≠ .suspended q) → s.NothingWaits →
        (∀ k pages op, s.store.job = some ⟨k, pages, some op⟩ → op.stopped = true →
          let contents :=
            match k with
            | .lampWrite _ _ => lampPage (if op.page = 82 then s.lamp.record0 else s.lamp.record1)
            | .save _ | .protect _ => op.contents
          exec (.supplySample r) s =
            .next { left with store := { s.store with
              job := some ⟨k, pages, some { op with contents := contents, phase := .erase, stopped := false }⟩ } }) ∧
        (∀ set, s.store.job = some ⟨.protect set, [255], none⟩ → protectionPage set ≠ s.store.mem.page 255 →
          ∃ phase, (phase = PagePhase.erase ↔ raisesBit (s.store.mem.page 255) (protectionPage set)) ∧
            exec (.supplySample r) s =
              .next { left with store := { s.store with
                job := some ⟨.protect set, [],
                  some { page := 255, contents := protectionPage set, phase := phase, stopped := false }⟩ } })))

/-- The applied lamp level never exceeds the lower of the two caps and is 0 under every zero condition: every step
keeps it so (R146). -/
def Obligations.EveryStepKeepsLampSafe : Prop :=
  ∀ s t : State, s.lampSafe → step s = .next t → t.lampSafe

/-- The fan state is not OFF while the cooldown timer runs or the housing is at 45 °C or more: every step keeps it
so (R154). -/
def Obligations.EveryStepKeepsFanOn : Prop :=
  ∀ s t : State, s.fanKept → step s = .next t → t.fanKept

/-! ## The sound path (spec/09) -/

/-- One output sample. FILLING outputs silence and takes nothing; an empty FIFO underflows into FILLING; inside the
window, or under the holdoff, the oldest pair is read and scaled; above it one pair is dropped, below it the last pair
is repeated, each a slip (R169, R170, R175). The gain target is OFF while a reason that is raised mutes, a maskable one
by its bit of MUTE_MASK, and otherwise the show level; the gain moves one step toward it when its count is due (R172 to
R174). With a delay pending and the gain at OFF after that, the delay change is flushed: FIFO empty, FILLING, the new
delay; until then it waits (R177, R178). -/
def Obligations.OutputSampleReads : Prop :=
  ∀ s : State, s.Ready →
    let reasons :=
      if s.sound.reader = .playing ∧ s.sound.fifo = [] then { s.sound.reasons with underflow := true }
      else s.sound.reasons
    let mask := s.param .muteMask
    let muted :=
      reasons.command || reasons.fill || reasons.delayChange || (reasons.link && mask.getLsbD 0) ||
        (reasons.badRun && mask.getLsbD 1) || (reasons.silent && mask.getLsbD 2) ||
        (reasons.underflow && mask.getLsbD 3)
    let target := if muted then 97 else s.sound.showLevel
    let due := s.sound.step ≠ target ∧ s.paramNat .rampInterval ≤ min 255 (s.sound.rampCount + 1)
    let flushed := s.sound.pendingDelay ≠ none ∧ (if due then stepToward s.sound.step target else s.sound.step) = 97
    ∃ t, exec .outputSample s = .next t ∧
      t.sound.step = (if due then stepToward s.sound.step target else s.sound.step) ∧
      t.sound.rampCount = (if due then 0 else min 255 (s.sound.rampCount + 1)) ∧
      (s.sound.reader = .filling →
        t.sound.output = (0, 0) ∧ t.sound.slips = s.sound.slips ∧
        (¬ flushed → t.sound.fifo = s.sound.fifo ∧ t.sound.reader = .filling ∧ t.sound.holdoff = s.sound.holdoff)) ∧
      (s.sound.reader = .playing → s.sound.fifo = [] →
        t.sound.output = (0, 0) ∧ t.sound.slips = s.sound.slips ∧
        (¬ flushed → t.sound.fifo = [] ∧ t.sound.reader = .filling ∧ t.sound.holdoff = s.sound.holdoff - 1)) ∧
      (∀ p rest, s.sound.reader = .playing → s.sound.fifo = p :: rest →
        (s.sound.holdoff ≠ 0 ∨
          s.sound.delay ≤ s.sound.fifo.length + 64 ∧ s.sound.fifo.length ≤ s.sound.delay + 64) →
        t.sound.slips = s.sound.slips ∧
        t.sound.output =
          (if s.paramNat .soundOut ≠ 0 then (scaleSample t.sound.step p.1, scaleSample t.sound.step p.2)
           else (0, 0)) ∧
        (¬ flushed →
          t.sound.fifo = rest ∧ t.sound.reader = .playing ∧ t.sound.lastRead = p ∧
            t.sound.holdoff = s.sound.holdoff - 1)) ∧
      (∀ p q rest, s.sound.reader = .playing → s.sound.fifo = p :: q :: rest → s.sound.holdoff = 0 →
        s.sound.delay + 64 < s.sound.fifo.length →
        t.sound.slips = s.sound.slips + 1 ∧ t.latchedFlag .audioSlip = true ∧
        t.sound.output =
          (if s.paramNat .soundOut ≠ 0 then (scaleSample t.sound.step q.1, scaleSample t.sound.step q.2)
           else (0, 0)) ∧
        (¬ flushed →
          t.sound.fifo = rest ∧ t.sound.reader = .playing ∧ t.sound.lastRead = q ∧ t.sound.holdoff = 160)) ∧
      (s.sound.reader = .playing → s.sound.fifo ≠ [] → s.sound.holdoff = 0 →
        s.sound.fifo.length + 64 < s.sound.delay →
        t.sound.slips = s.sound.slips + 1 ∧ t.latchedFlag .audioSlip = true ∧
        t.sound.output =
          (if s.paramNat .soundOut ≠ 0 then
            (scaleSample t.sound.step s.sound.lastRead.1, scaleSample t.sound.step s.sound.lastRead.2)
           else (0, 0)) ∧
        (¬ flushed →
          t.sound.fifo = s.sound.fifo ∧ t.sound.reader = .playing ∧ t.sound.lastRead = s.sound.lastRead ∧
            t.sound.holdoff = 160)) ∧
      (¬ flushed →
        t.sound.delay = s.sound.delay ∧ t.sound.pendingDelay = s.sound.pendingDelay ∧ t.sound.reasons = reasons) ∧
      (∀ d, s.sound.pendingDelay = some d → flushed →
        t.sound.fifo = [] ∧ t.sound.delay = d ∧ t.sound.pendingDelay = none ∧ t.sound.lastRead = (0, 0) ∧
          t.sound.holdoff = 0 ∧ t.sound.reader = .filling ∧
          t.sound.reasons = { reasons with delayChange := false, underflow := false, fill := true }) ∧
      t.sound.showLevel = s.sound.showLevel ∧
      t = { s with sound := t.sound, events := t.events, msg := t.msg }

/-! ## Tape input and the master role (spec/10) -/

/-- A frame the master builds: the next number, its samples in PLAYING and SILENT zeros otherwise, a right check; the
reading joins a calibration, and the ring's and the enumeration's frame times advance (R180, R181, R184, R186 to R189).
Its slot carries the next byte of a message being written; otherwise the START of an ENUMERATE that is due; otherwise
the START of the reply queue's head, its source and other bytes fixed now; otherwise it is IDLE. After its last byte a
message has left the queue, and an ENUMERATE starts its wait of 64 frame times (R21, R33, R187, R189). The pair joins
the FIFO, ending FILLING at D, or at 8192 pairs is dropped as a slip; SILENT is a mute reason as the frame carries it
(R168, R169, R172; the holdoff, log 40). The cue sample goes to the detector as a good frame under its number (R75). -/
def Obligations.MasterBuildsFrame : Prop :=
  ∀ (s : State) (l r c : BitVec 12), s.Ready → s.link.role = .master → s.tape.nextNumber < 64000 →
    let begun (kind : Byte) (bytes : List Byte) (enumerate : Bool) : Attempt :=
      { slots := bytes.map (fun b => (SlotTag.body, b)) ++ [(.done, messageCheck 0x00 (kind :: bytes))]
        enumerate := enumerate }
    ∃ t f, exec (.masterFrameBuild l r c) s = .next t ∧ t.link = { s.link with output := some f } ∧
      frameGood f = true ∧ f.number.toNat = s.tape.nextNumber ∧ f.broken = false ∧
      (s.tape.transport = .playing →
        f.showRunning = true ∧ f.silent = false ∧
        f.left.toInt = max (-32768) (min 32767 (((l.toNat : Int) - 2048 + 8 * s.paramInt .trimL) * 16)) ∧
        f.right.toInt = max (-32768) (min 32767 (((r.toNat : Int) - 2048 + 8 * s.paramInt .trimR) * 16)) ∧
        f.cue.toInt = max (-32768) (min 32767
          (max (-32768) (min 32767 (((c.toNat : Int) - 2048 + 8 * s.paramInt .trimC) * 16)) *
            2 ^ s.paramNat .cueGain))) ∧
      (s.tape.transport ≠ .playing →
        f.showRunning = false ∧ f.silent = true ∧ f.left = 0 ∧ f.right = 0 ∧ f.cue = 0) ∧
      f.tapeEnd = decide (s.tape.transport = .atEnd) ∧
      (∀ x more enumerate, s.msg.attempt = some { slots := x :: more, enumerate := enumerate } →
        f.tag = x.1 ∧ f.byte = x.2 ∧
        (more ≠ [] → t.msg = { s.msg with attempt := some { slots := more, enumerate := enumerate } }) ∧
        (more = [] →
          t.msg =
            if enumerate then { s.msg with attempt := none }
            else { s.msg with attempt := none, replies := s.msg.replies.tail, attempts := 0, lastTry := false })) ∧
      (s.msg.attempt = none → s.tape.enumDue = true →
        f.tag = .start ∧ f.byte = 0x01 ∧
        t.msg = { s.msg with attempt := some (begun 0x01 [0xFF, 0x00, 0x01, 0x01] true) }) ∧
      (∀ m rest, s.msg.attempt = none → s.tape.enumDue = false → s.msg.replies = m :: rest →
        let payload := if m.kind = 0x81 then bytesOf 4 s.events.latched.toNat else m.payload
        f.tag = .start ∧ f.byte = m.kind ∧
        t.msg =
          { s.msg with
            attempt := some (begun m.kind ([m.dest, s.sourceByte, byteOf payload.length] ++ payload) false) }) ∧
      (s.msg.attempt = none → s.tape.enumDue = false → s.msg.replies = [] →
        f.tag = .idle ∧ f.byte = 0x00 ∧ t.msg = s.msg) ∧
      t.tape =
        { s.tape with
          latest := some { left := l, right := r, cue := c }
          calibration := s.tape.calibration.map fun k =>
            { count := min 256 (k.count + 1), sumLeft := k.sumLeft + l.toNat, sumRight := k.sumRight + r.toNat
              sumCue := k.sumCue + c.toNat }
          nextNumber := if s.tape.nextNumber = 63999 then 0 else s.tape.nextNumber + 1
          sinceReturn := min 32 (s.tape.sinceReturn + 1)
          enumDue := if s.msg.attempt = none then false else s.tape.enumDue
          enumWait :=
            match s.msg.attempt with
            | some ⟨[_], true⟩ => some 0
            | _ => s.tape.enumWait.map fun n => min 64 (n + 1) } ∧
      Sound.wrote s.sound t.sound (f.left, f.right) ∧ t.sound.reasons.silent = f.silent ∧
      (8192 ≤ s.sound.fifo.length → t.latchedFlag .audioSlip = true) ∧
      t.det = (s.handFrame s.tape.nextNumber f.cue false false).det ∧
      t.cue = (s.handFrame s.tape.nextNumber f.cue false false).cue ∧
      (s.sound.fifo.length < 8192 → t.events = s.events) ∧
      t = { s with
        link := t.link, msg := t.msg, det := t.det, cue := t.cue, sound := t.sound, tape := t.tape
        events := t.events }

/-- 32 frame times without a return open the ring and end an enumeration, an ENUMERATE being written going on (the
model's choice, log 48); an enumeration wait that runs out makes the ENUMERATE due again, or at RETRY_LIMIT gives up
with TX_GIVEUP, an ENUMERATE that is due staying due (the model's choice, log 36) (R188, R189). The end sensor
becoming active while a master's tape runs toward its end enters END with TAPE_END; in any other state only the
sensor's level is kept (R183). -/
def Obligations.RingAndEndSensor : Prop :=
  (∀ s : State, s.powered = true →
       (s.link.role = .master → s.tape.ring ≠ .opened → 32 ≤ s.tape.sinceReturn →
         exec .ringOpenTimeout s =
           .next (State.latch
             { s with tape := { s.tape with
                 ring := .opened, enumDue := false, enumWait := none, enumAttempts := 0 } } .ringOpen)) ∧
       (∀ n, s.tape.enumWait = some n → 64 ≤ n →
         exec .enumerationWaitExpiry s =
           .next
             (if s.paramNat .retryLimit ≤ s.tape.enumAttempts + 1 then
               State.latch { s with tape := { s.tape with enumWait := none, enumAttempts := 0 } } .txGiveup
              else
               { s with tape := { s.tape with
                   enumWait := none, enumAttempts := s.tape.enumAttempts + 1, enumDue := true } }))) ∧
  (∀ s : State, s.Ready →
       (s.link.role = .master → s.tape.endSensor = false →
         (s.tape.transport = .playing ∨ s.tape.transport = .windForward) →
         exec (.tapeEndSensor true) s =
           .next (State.latch
             { s with tape := { s.tape with endSensor := true, transport := .atEnd } } .tapeEnd)) ∧
       (s.tape.transport = .stopped ∨ s.tape.transport = .windBack ∨ s.tape.transport = .atEnd →
         exec (.tapeEndSensor true) s = .next { s with tape := { s.tape with endSensor := true } }))

/-! ## Remote keys (spec/11) -/

/-- A code frame at nominal lengths for the unit's channel is a press. With no entry for its key only a hold begins;
with an enabled LOCAL entry its action is placed with source KEY, an ADVANCE or REVERSE with the skip flag that
SKIP_EMPTY sets, offered at once in an empty queue with no PAUSE running, or discarded at a full one with
ACTION_DISCARDED (R100); while a show runs an entry not marked for it is ignored and counted (R98, R191, R193, R195).
The stop key, code 0x00, empties the queue, cancels a PAUSE, goes dark at a changer at rest, and begins a hold (R106,
R193). A frame for another channel changes nothing (R191). A repeat frame sets the frame count of an infrared hold to
0 and is ignored without one; a frame with a bit space outside both tolerances is discarded and changes nothing (R191,
R194). -/
def Obligations.InfraredFrames : Prop :=
  (∀ (s : State) (channel key after : Nat), s.Ready → s.remote.ir = .waitLeader → channel < 16 → key < 256 →
       2500 < after →
       let command : Instr := .irCodeFrame (codeElements (codeBits channel key) after)
       let hold : Hold := { code := byteOf key, source := .ir, ticks := 0, frameTicks := 0, repeatDue := false }
       (channel ≠ s.paramNat .remoteChannel → exec command s = .next s) ∧
       (channel = s.paramNat .remoteChannel → key = 0 → s.tray.state.busy = false →
         exec command s =
           .next { s with
             remote := { s.remote with hold := some hold }
             queue := { s.queue with
               entries := [], pause := none
               purged := s.queue.purged + BitVec.ofNat 32 s.queue.entries.length }
             tray := { s.tray with holdDark := true, shutterOpen := false } }) ∧
       (channel = s.paramNat .remoteChannel → key ≠ 0 →
         (∀ e ∈ s.remote.keys.toList, e.enabled = true → e.code ≠ byteOf key) →
         exec command s = .next { s with remote := { s.remote with hold := some hold } }) ∧
       (∀ i : Fin 16, channel = s.paramNat .remoteChannel → key ≠ 0 →
         s.remote.keys[i].enabled = true → s.remote.keys[i].code = byteOf key →
         (∀ j : Fin 16, j < i → s.remote.keys[j].enabled = true → s.remote.keys[j].code ≠ byteOf key) →
         let held := { s with remote := { s.remote with hold := some hold } }
         let action :=
           match s.remote.keys[i].action with
           | .advance n skip => Action.advance n (skip || decide (s.paramNat .skipEmpty ≠ 0))
           | .reverse n skip => .reverse n (skip || decide (s.paramNat .skipEmpty ≠ 0))
           | a => a
         (s.showRunning = true → s.remote.keys[i].duringShow = false →
           exec command s =
             .next { s with remote := { s.remote with
               hold := some hold, ignored := min 65535 (s.remote.ignored + 1) } }) ∧
         ((s.showRunning = false ∨ s.remote.keys[i].duringShow = true) → s.remote.keys[i].scope = .here →
           (s.queue.entries ≠ [] → s.queue.entries.length < 16 →
             exec command s =
               .next { held with
                 queue := { s.queue with
                   entries := s.queue.entries ++ [{ action := action, source := .key }]
                   accepted := s.queue.accepted + 1 } }) ∧
           (s.queue.entries = [] → s.queue.pause = none →
             exec command s =
               exec .pauseExpiry (State.offering
                 { held with
                   queue := { s.queue with
                     entries := [{ action := action, source := .key }], accepted := s.queue.accepted + 1 } })) ∧
           (s.queue.entries.length = 16 → exec command s = .next (held.latch .actionDiscarded))))) ∧
  (∀ s : State, s.Ready → s.remote.ir = .waitLeader →
       (∀ (after : Nat) (h : Hold), 2500 < after → s.remote.hold = some h → h.source = .ir →
         exec (.irRepeatFrame [.burst 4000, .space 2000, .burst 500, .space after]) s =
           .next { s with remote := { s.remote with hold := some { h with frameTicks := 0 } } }) ∧
       (∀ after : Nat, 2500 < after → s.remote.hold = none →
         exec (.irRepeatFrame [.burst 4000, .space 2000, .burst 500, .space after]) s = .next s) ∧
       (∀ n : Nat, (625 < n ∧ n < 1125 ∨ 1875 < n ∧ n ≤ 2500 ∨ n < 375) →
         exec (.irFrameDiscarded [.burst 4000, .space 2000, .burst 500, .space n]) s = .next s))

/-- A button read pressed at two ticks in a row while released is pressed and starts a hold of its code; read open at
two ticks in a row while pressed it is released and ends that hold; one differing read does nothing (R192, R193). Its
entry of scope RELAY asks for a first-pass REMOTE_RELAY to the master with a relay wait, BOTH first places the action
too, offered at once in an empty queue with no PAUSE running (R100); a running relay wait ignores and counts the key;
without a place in the reply queue RELAY_LOST latches (R195). An infrared hold ends after 15 ticks without a repeat
frame; a repeat that is due uses the key's entry only when it allows repeats, here LOCAL, its action offered in the
same way; a relay wait that runs out leaves a lapsed relay and RELAY_LOST (R194, R195). -/
def Obligations.ButtonsHoldsAndRelayWaits : Prop :=
  (∀ (s : State) (b : Fin 3) (before now : Bool), s.Ready →
       let held := { s with remote := { s.remote.setButton b true with
         hold := some
           { code := byteOf (0xF0 + b.val), source := .button, ticks := 0, frameTicks := 0, repeatDue := false } } }
       (s.remote.button b = false → before = true → now = true →
         (∀ e ∈ s.remote.keys.toList, e.enabled = true → e.code ≠ byteOf (0xF0 + b.val)) →
         exec (.buttonPress b before now) s = .next held) ∧
       (∀ (i : Fin 16) (n : Byte), s.remote.button b = false → before = true → now = true →
         s.remote.keys[i].enabled = true → s.remote.keys[i].code = byteOf (0xF0 + b.val) →
         (∀ j : Fin 16, j < i → s.remote.keys[j].enabled = true → s.remote.keys[j].code ≠ byteOf (0xF0 + b.val)) →
         s.remote.keys[i].action = .mark n → (s.showRunning = false ∨ s.remote.keys[i].duringShow = true) →
         s.remote.keys[i].scope ≠ .here →
         let scope := s.remote.keys[i].scope
         let sends (u : State) : Prop :=
           (u.placesUsed < 4 →
             exec (.buttonPress b before now) s =
               .next { u with
                 msg := { u.msg with
                   replies := u.msg.replies ++
                     [{ kind := 0x82, dest := 0x00, payload := [0x00, s.sourceByte] ++ recordOf (.mark n) }] }
                 remote := { held.remote with
                   relayWait := some { action := .mark n, scope := scope, ticks := 0 }, lapsed := none } }) ∧
           (4 ≤ u.placesUsed → exec (.buttonPress b before now) s = .next (u.latch .relayLost))
         (s.remote.relayWait ≠ none →
           exec (.buttonPress b before now) s =
             .next { held with remote := { held.remote with ignored := min 65535 (s.remote.ignored + 1) } }) ∧
         (s.remote.relayWait = none →
           let placed : State :=
             { held with queue := { s.queue with
                 entries := s.queue.entries ++ [{ action := .mark n, source := .key }]
                 accepted := s.queue.accepted + 1 } }
           (scope = .relay → sends held) ∧
           (scope = .both → s.queue.entries ≠ [] → s.queue.entries.length < 16 → sends placed) ∧
           (scope = .both → s.queue.entries = [] → s.queue.pause = none →
             ∃ u, exec .pauseExpiry placed.offering = .next u ∧ sends u))) ∧
       (∀ h, s.remote.button b = true → before = false → now = false → s.remote.hold = some h →
         exec (.buttonRelease b before now) s =
           .next { s with remote := { s.remote.setButton b false with
             hold := if h.code = byteOf (0xF0 + b.val) then none else some h } }) ∧
       (before ≠ now → exec (.buttonPress b before now) s = .next s ∧ exec (.buttonRelease b before now) s = .next s)) ∧
  (∀ s : State, s.powered = true →
       (∀ h, s.remote.hold = some h → h.source = .ir → 15 ≤ h.frameTicks →
         exec .holdEnd s = .next { s with remote := { s.remote with hold := none } }) ∧
       (∀ (h : Hold) (i : Fin 16) (n : Byte), s.remote.hold = some h → h.repeatDue = true → h.code ≠ 0 →
         s.remote.keys[i].enabled = true → s.remote.keys[i].code = h.code → s.remote.keys[i].scope = .here →
         s.remote.keys[i].action = .mark n → s.remote.keys[i].duringShow = true →
         (∀ j : Fin 16, j < i → s.remote.keys[j].enabled = true → s.remote.keys[j].code ≠ h.code) →
         s.queue.entries.length < 16 →
         let went : State :=
           { s with
             remote := { s.remote with hold := some { h with repeatDue := false } }
             queue :=
               if s.remote.keys[i].repeats then
                 { s.queue with
                   entries := s.queue.entries ++ [{ action := .mark n, source := .key }]
                   accepted := s.queue.accepted + 1 }
               else s.queue }
         (s.queue.entries ≠ [] ∨ s.remote.keys[i].repeats = false → exec .keyRepeat s = .next went) ∧
         (s.queue.entries = [] → s.queue.pause = none → s.remote.keys[i].repeats = true →
           exec .keyRepeat s = exec .pauseExpiry went.offering)) ∧
       (∀ w, s.remote.relayWait = some w → 100 ≤ w.ticks →
         exec .relayWaitExpiry s =
           .next (State.latch
             { s with remote := { s.remote with relayWait := none, lapsed := some w.action } } .relayLost)))

/-- A relayed REMOTE_RELAY at the handler: the awaited copy ends the wait and, for scope RELAY, is placed; for BOTH
nothing is placed; a lapsed copy is discarded; any other copy is placed with source RELAY. Placed into an empty queue
with no PAUSE running it is offered at once, as at the expiry of a PAUSE (R100, R196). -/
def Obligations.RelayedCopyTaken : Prop :=
  ∀ (s : State) (m : Message) (rest : List Message) (origin : Byte) (a : Action), s.Ready → s.Oldest m rest →
    m.kind = 0x82 → m.payload = [0x01, origin] ++ recordOf a → a.inRange → s.queue.entries.length < 16 →
    let mine := decide (origin = s.sourceByte)
    let places (remote : Remote) : Prop :=
      let placed : State :=
        { s.taking m rest with
          remote := remote
          queue := { s.queue with
            entries := s.queue.entries ++ [{ action := a, source := .relay }], accepted := s.queue.accepted + 1 } }
      (s.queue.entries ≠ [] → exec .remoteRelay s = .next (placed.answered [])) ∧
        (s.queue.entries = [] → s.queue.pause = none →
          ∃ u, exec .pauseExpiry placed.offering = .next u ∧ exec .remoteRelay s = .next (u.answered []))
    (∀ w, s.remote.relayWait = some w → w.action = a → mine = true →
      let ended := { s.remote with relayWait := none }
      (w.scope = .both → exec .remoteRelay s = .next (State.served { s with remote := ended } rest [])) ∧
        (w.scope ≠ .both → places ended)) ∧
    (s.remote.relayWait = none → s.remote.lapsed = some a → mine = true →
      exec .remoteRelay s = .next (State.served { s with remote := { s.remote with lapsed := none } } rest [])) ∧
    (s.remote.relayWait = none →
      (∀ x, s.remote.lapsed = some x → recordOf x ≠ recordOf a ∨ mine = false) → places s.remote) ∧
    (∀ w, s.remote.relayWait = some w → (recordOf w.action ≠ recordOf a ∨ mine = false) → places s.remote)

/-! ## Event flags and the show store (spec/11) -/

/-- A flag's event latches it and no other flag; a new latch in the attention mask places one NOTICE in a follower's
reply queue where none stands and a place is free, and nothing else ever changes (R34, R199, R200). The raw set holds
at each flag's place its raw condition as its owner gives it, a momentary one as 0, and no bit above place 25 (R45, R94,
R198). The attention bit and, with a supply, the alarm output stand while a latched flag is in their masks (R200; the
supply, logs 6 and 26). -/
def Obligations.FlagLatches : Prop :=
  ∀ (s : State) (f : Flag),
    (s.latchedFlag f = true → s.latch f = s) ∧
    (s.latchedFlag f = false →
      s.latch f =
        let t := { s with events := { s.events with latched := s.events.latched ||| f.weight } }
        if s.events.attention.getLsbD f.place = true ∧ s.link.role = .follower ∧
            (∀ m ∈ s.msg.replies, m.kind ≠ 0x81) ∧ s.placesUsed < 4 then
          { t with msg := { s.msg with
              replies := s.msg.replies ++ [{ kind := 0x81, dest := 0x00, payload := [] }] } }
        else t) ∧
    (∀ g : Flag, (s.latch f).latchedFlag g = (s.latchedFlag g || decide (g = f))) ∧
    (s.rawSet.getLsbD f.place = true ↔
      match f with
      | .linkLost =>
        s.link.role = .follower ∧ (s.link.state = .lostOriginating ∨ s.link.state = .lostForwarding)
      | .ringOpen => s.tape.ring = .opened
      | .badFrames => 16 ≤ s.link.runCount
      | .seqJump => s.link.seqJump = true
      | .rxOverflow => s.msg.rx.length = 3
      | .cueUnmatched => s.cue.unmatched = true
      | .cueStuck => s.cue.state = .stuck
      | .cueDropped => s.cue.dropped = true
      | .jam => s.tray.state = .jammed
      | .trayEmpty => s.tray.trayEmpty = true
      | .positionError => s.tray.positionError = true
      | .lampFailed => (s.lamp.record s.lamp.active).status = .failed
      | .lampSwapped => ∃ d, s.lamp.dissolve = some d ∧ d.restart = true
      | .swapJam => s.lamp.changer = .jammed
      | .fanStall =>
        (∃ rested, s.mon.fan = .stalled rested) ∨ (∃ n, s.mon.fan = .resting n) ∨
          (∃ n, s.mon.fan = .starting n) ∧ 0 < s.mon.fanAttempts
      | .overheat => s.mon.thermal = .overheat
      | .supplyLow => s.mon.supply ≠ .normal
      | .supplyCritical => s.mon.supply = .critical
      | .audioSlip =>
        s.sound.reader = .playing ∧
          (s.sound.delay + 64 < s.sound.fifo.length ∨ s.sound.fifo.length + 64 < s.sound.delay)
      | .storeDone => s.store.job = none ∧ s.store.pendingLamp0 = false ∧ s.store.pendingLamp1 = false
      | .storeError => s.store.errors ≠ 0
      | .relayLost => s.remote.lapsed ≠ none
      | .tapeEnd =>
        s.link.role = .master ∧ s.tape.transport = .atEnd ∨ s.link.role = .follower ∧ s.link.tapeEnd = true
      | .txGiveup | .actionDiscarded | .mark => False) ∧
    (∀ i, 26 ≤ i → s.rawSet.getLsbD i = false) ∧
    (s.attentionBit = true ↔ ∃ i, s.events.latched.getLsbD i = true ∧ s.events.attention.getLsbD i = true) ∧
    (s.alarmOutput = true ↔
      s.powered = true ∧ ∃ i, s.events.latched.getLsbD i = true ∧ s.events.alarm.getLsbD i = true)

/-- A page erase leaves 0xFF in every byte of its page and its program follows; a program leaves the new contents; no
byte of another page changes (R202). After a program the job goes on: a page whose contents differ from the stored ones
is begun, with an erase exactly when a bit must rise, or waits while the supply is CRITICAL (R202, R206). Page 254 of a
SAVE holds the region's new check, the others as stored, and 0xFF after them (R201, R203). With no page left a PROTECT
latches STORE_DONE; a SAVE too, its region leaves the store errors, and what waited for it takes effect: active lamp and
trims, or cleared cues (R93, R164, R185, R203); a lamp write takes its lamps from the store errors without a flag, and
a pending one follows (R204; the moment for two lamps, log 43). -/
def Obligations.PageOperationsWritePages : Prop :=
  (∀ (s : State) (job : Job) (op : PageOp), s.Ready → s.store.job = some job → job.op = some op →
    op.stopped = false → op.contents.length = 32 → s.store.mem.wf = true →
    ∃ t, exec .pageOperationDone s = .next t ∧
      (∀ a, a < 32 * op.page ∨ 32 * op.page + 32 ≤ a → t.store.mem.read a = s.store.mem.read a) ∧
      (∀ i, i < 32 → t.store.mem.read (32 * op.page + i) =
        if op.phase = .erase then 0xFF else op.contents.getD i 0xFF) ∧
      (op.phase = .erase → t = { s with store := { s.store with
        mem := t.store.mem, job := some { job with op := some { op with phase := .program } } } }) ∧
      (op.phase = .program →
        let written :=
          { s.store with mem := t.store.mem, broken := s.store.broken.filter fun q => q != op.page }
        (∀ p rest, job.pages = p :: rest →
          let new := jobContents { s with store := written } job.kind p
          new ≠ t.store.mem.page p →
          (s.mon.supply = .critical →
            t = { s with store := { written with job := some { job with op := none } } }) ∧
          (s.mon.supply ≠ .critical →
            ∃ phase, (phase = PagePhase.erase ↔ raisesBit (t.store.mem.page p) new) ∧
              t = { s with store := { written with
                job := some
                  { kind := job.kind, pages := rest
                    op := some { page := p, contents := new, phase := phase, stopped := false } } } })) ∧
        (job.pages = [] → s.store.pendingLamp0 = false → s.store.pendingLamp1 = false →
          let ended := { s with store := { written with job := none } }
          (∀ set, job.kind = .protect set → t = ended.latch .storeDone) ∧
          (∀ a b, job.kind = .lampWrite a b →
            t = { ended with store := { ended.store with
              errors := s.store.errors &&& ~~~ ((if a then 0x20 else 0) ||| (if b then 0x40 else 0)) } }) ∧
          (∀ r, job.kind = .save r →
            let u := State.latch
              { ended with store := { ended.store with
                  errors := s.store.errors &&& ~~~ ((1 : BitVec 7) <<< regionCode r) } } .storeDone
            (r = .keys ∨ r = .slots ∨ r = .curve → t = u) ∧
            (r = .settings →
              t = { u with
                lamp :=
                  if s.lamp.activeWaits then { s.lamp with savedActive := s.lamp.active, activeWaits := false }
                  else s.lamp
                tape := { s.tape with pendingTrims := none }
                params :=
                  match s.tape.pendingTrims with
                  | some x =>
                    ((s.params.set 16 (BitVec.ofInt 32 x.left)).set 17 (BitVec.ofInt 32 x.right)).set 18
                      (BitVec.ofInt 32 x.cue)
                  | none => s.params }) ∧
            (r = .cues →
              t = { u with cue := { s.cue with table := t.cue.table, pendingClears := [] } } ∧
              ∀ i : Fin 64, t.cue.table[i] =
                if i.val ∈ s.cue.pendingClears then { s.cue.table[i] with enabled := false }
                else s.cue.table[i]))) ∧
        (job.pages = [] → s.store.pendingLamp0 = true → s.store.pendingLamp1 = false → s.mon.supply ≠ .critical →
          (∃ a b, job.kind = .lampWrite a b) → lampPage s.lamp.record0 ≠ t.store.mem.page 82 →
          t.store.pendingLamp0 = false ∧
            ∃ phase, (phase = PagePhase.erase ↔ raisesBit (t.store.mem.page 82) (lampPage s.lamp.record0)) ∧
              t.store.job = some
                { kind := .lampWrite true false, pages := []
                  op := some
                    { page := 82, contents := lampPage s.lamp.record0, phase := phase, stopped := false } }))) ∧
  (∀ (s : State) (r : Region),
    let page := jobContents s (.save r) 254
    page.length = 32 ∧
      natOf ((page.drop (2 * regionCode r)).take 2) = (crc16 (regionContents s r)).toNat ∧
      ∀ i, i < 32 → i / 2 ≠ regionCode r →
        page.getD i 0 = if i < 10 then s.store.mem.read (32 * 254 + i) else 0xFF)

/-- The supply's failure: the job and the pending lamp writes are gone, every drive is off, and of the stored bytes
only those of a page being written may change, which then counts as broken (R206, R207; what the page holds is open,
log 9; the drives, the fan and the alarm output among them, are the model's reading, logs 6 and 26). -/
def Obligations.PowerLossKeepsPages : Prop :=
  ∀ s : State, s.Ready → s.store.mem.wf = true →
    ∃ t, exec .powerLoss s = .next t ∧ t.powered = false ∧ t.store.job = none ∧ t.store.pendingLamp0 = false ∧
      t.store.pendingLamp1 = false ∧ t.tray.shutterOpen = false ∧ t.tray.motor = none ∧ t.tray.gate = .off ∧
      t.lamp.dimmer = 0 ∧ t.link.output = none ∧ t.fanDuty = 0 ∧ t.lampMotor = false ∧
      t.transportDrive = .stopped ∧ t.alarmOutput = false ∧ t.store.mem.wf = true ∧
      (∀ a, (∀ job op, s.store.job = some job → job.op = some op → a / 32 ≠ op.page) →
        t.store.mem.read a = s.store.mem.read a) ∧
      (∀ job op, s.store.job = some job → job.op = some op → op.page ∈ t.store.broken) ∧
      t.params = s.params ∧ t.queue = s.queue ∧ t.msg = s.msg ∧ t.cue = s.cue ∧ t.events = s.events

/-- POWER_ON_RESET from every state without supply, or with no job in flight: each block's values after power-on,
whatever they were, with the role from the strap. Each working table is what its region's pages hold where none of
them is broken and their check agrees, and its defaults otherwise, the region then in the store-error set; so each
lamp record, ABSENT with 0 minutes where its page fails; the protection set is that of page 255 (a broken page counts
as failing: the model's choice, log 9; the end of a stored cue, log 21) (R48, R49, R88, R115, R144, R205, R15, R20,
R35, R77, R95, R108, R136, R165, R166, R179, R190, R192, R197, R199, R200, R207). -/
def Obligations.PowerOnResetValues : Prop :=
  ∀ (s : State) (strap b0 b1 b2 : Bool), (s.powered = false ∨ s.store.job = none) →
    ∃ t, exec (.powerOnReset strap b0 b1 b2) s = .next t ∧ t.powered = true ∧
      t.link.role = (if strap then .master else .follower) ∧ t.link.address = (if strap then some 0 else none) ∧
      t.link.state = .acquiring ∧ t.link.windowClosed = false ∧ t.link.expected = none ∧ t.link.runCount = 0 ∧
      t.link.sinceGood = 0 ∧
      t.link.lastPair = (0, 0) ∧ t.link.showRunning = false ∧ t.link.groups = s.loadedGroups ∧
      t.msg = MsgUnit.powerOn ∧ t.det = Detector.restart ∧ t.cue = CueEngine.restart s.loadedCues ∧
      t.queue = ActionQueue.empty ∧ t.tray.state = .unhomed ∧ t.tray.valid = false ∧ t.tray.sense = none ∧
      t.tray.holdDark = false ∧ t.tray.shutterOpen = false ∧ t.tray.gate = .off ∧ t.tray.motor = none ∧
      (∀ q, q < 100 → (t.tray.slot q).occupancy = .unknown) ∧
      t.lamp.target = 0 ∧ t.lamp.computed = 0 ∧ t.lamp.applied = 0 ∧ t.lamp.dissolve = none ∧
      t.lamp.changer = .idle ∧ t.lampMotor = false ∧ t.lamp.active = s.loadedActive ∧
      t.lamp.record0 = (s.loadLamp .lamp0).getD { status := .absent, minutes := 0 } ∧
      t.lamp.record1 = (s.loadLamp .lamp1).getD { status := .absent, minutes := 0 } ∧ s.LoadedInto t ∧
      (s.Checks .settings → (t.lamp.active = .lamp1 ↔ (s.store.mem.pages 0 4).getD 85 0 = 1)) ∧
      (¬ s.Checks .settings → t.lamp.active = .lamp0) ∧
      (∀ n : LampNo,
        let p := if n = .lamp0 then 82 else 83
        let page := s.store.mem.page p
        let bit := if n = .lamp0 then 5 else 6
        (∀ r : LampRecord, r.minutes < 0x1000000 → p ∉ s.store.broken → page = lampPage r →
          t.lamp.record n = r ∧ t.store.errors.getLsbD bit = false) ∧
        (p ∈ s.store.broken ∨ natOf ((page.drop 4).take 2) ≠ (crc16 (page.take 4)).toNat →
          t.lamp.record n = { status := .absent, minutes := 0 } ∧ t.store.errors.getLsbD bit = true)) ∧
      t.mon.temperature = 0 ∧ t.mon.thermal = .cold ∧ t.mon.fan = .starting 0 ∧ t.fanDuty = 100 ∧
      t.mon.cooldown = 12000 ∧
      t.mon.supply = .normal ∧ t.sound.fifo = [] ∧ t.sound.reader = .filling ∧ t.sound.step = 97 ∧
      t.tape.transport = .stopped ∧ t.transportDrive = .stopped ∧ t.tape.ring = .waiting ∧ t.tape.nextNumber = 0 ∧
      t.remote = Remote.restart s.loadedKeys b0 b1 b2 ∧ t.params = s.loadedParams ∧
      t.events =
        { latched := if t.store.errors = 0 then 0 else 0x00800000, attention := 0, alarm := 0, lastMark := 0 } ∧
      t.store.mem = s.store.mem ∧ t.store.job = none ∧ t.store.errors = s.regionErrors ||| s.lampErrors

/-- Every step keeps the show store's memory in its canonical form. Every step keeps the receive buffers, the reply
queue, the action queue and the audio FIFO within what they can hold (R27, R29, R97, R168). In every step a follower
goes on writing no ENUMERATE of its own (R187). -/
def Obligations.EveryStepKeepsMemoryAndCapacities : Prop :=
  (∀ s t : State, s.storeCanonical → step s = .next t → t.storeCanonical) ∧
  (∀ s t : State, s.withinCapacity → step s = .next t → t.withinCapacity) ∧
  (∀ s t : State, s.enumeratesAsMaster → step s = .next t → t.enumeratesAsMaster)

/-- The state after reset meets every invariant stated here, and nothing is due in it. -/
def Obligations.ResetMeetsInvariants : Prop :=
  State.reset.storeCanonical ∧ State.reset.withinCapacity ∧ State.reset.enumeratesAsMaster ∧
    State.reset.countsBalance ∧ State.reset.lampSafe ∧ State.reset.fanKept ∧ State.reset.neverTogether ∧ State.reset.shutterHeld ∧ State.reset.positionMeaning ∧
    State.reset.Ready
end

