-- ==== Sys2Proof/Laws/State.lean ====
section
/-! SUPPORT. One lemma per field per update of the state, each true by rfl, and frames of the small shared updates. -/

namespace Sys2Proof.Machine

variable (s : State)

/-! ### setTray -/

@[simp] theorem State.setTray_link (x : Tray) : (s.setTray x).link = s.link := rfl
@[simp] theorem State.setTray_msg (x : Tray) : (s.setTray x).msg = s.msg := rfl
@[simp] theorem State.setTray_det (x : Tray) : (s.setTray x).det = s.det := rfl
@[simp] theorem State.setTray_cue (x : Tray) : (s.setTray x).cue = s.cue := rfl
@[simp] theorem State.setTray_queue (x : Tray) : (s.setTray x).queue = s.queue := rfl
@[simp] theorem State.setTray_tray (x : Tray) : (s.setTray x).tray = x := rfl
@[simp] theorem State.setTray_lamp (x : Tray) : (s.setTray x).lamp = s.lamp := rfl
@[simp] theorem State.setTray_mon (x : Tray) : (s.setTray x).mon = s.mon := rfl
@[simp] theorem State.setTray_sound (x : Tray) : (s.setTray x).sound = s.sound := rfl
@[simp] theorem State.setTray_tape (x : Tray) : (s.setTray x).tape = s.tape := rfl
@[simp] theorem State.setTray_remote (x : Tray) : (s.setTray x).remote = s.remote := rfl
@[simp] theorem State.setTray_events (x : Tray) : (s.setTray x).events = s.events := rfl
@[simp] theorem State.setTray_store (x : Tray) : (s.setTray x).store = s.store := rfl
@[simp] theorem State.setTray_params (x : Tray) : (s.setTray x).params = s.params := rfl
@[simp] theorem State.setTray_powered (x : Tray) : (s.setTray x).powered = s.powered := rfl
@[simp] theorem State.setTray_drawn (x : Tray) : (s.setTray x).drawn = s.drawn := rfl
@[simp] theorem State.setTray_pending (x : Tray) : (s.setTray x).pending = s.pending := rfl

/-! ### setSound -/

@[simp] theorem State.setSound_link (x : Sound) : (s.setSound x).link = s.link := rfl
@[simp] theorem State.setSound_msg (x : Sound) : (s.setSound x).msg = s.msg := rfl
@[simp] theorem State.setSound_det (x : Sound) : (s.setSound x).det = s.det := rfl
@[simp] theorem State.setSound_cue (x : Sound) : (s.setSound x).cue = s.cue := rfl
@[simp] theorem State.setSound_queue (x : Sound) : (s.setSound x).queue = s.queue := rfl
@[simp] theorem State.setSound_tray (x : Sound) : (s.setSound x).tray = s.tray := rfl
@[simp] theorem State.setSound_lamp (x : Sound) : (s.setSound x).lamp = s.lamp := rfl
@[simp] theorem State.setSound_mon (x : Sound) : (s.setSound x).mon = s.mon := rfl
@[simp] theorem State.setSound_sound (x : Sound) : (s.setSound x).sound = x := rfl
@[simp] theorem State.setSound_tape (x : Sound) : (s.setSound x).tape = s.tape := rfl
@[simp] theorem State.setSound_remote (x : Sound) : (s.setSound x).remote = s.remote := rfl
@[simp] theorem State.setSound_events (x : Sound) : (s.setSound x).events = s.events := rfl
@[simp] theorem State.setSound_store (x : Sound) : (s.setSound x).store = s.store := rfl
@[simp] theorem State.setSound_params (x : Sound) : (s.setSound x).params = s.params := rfl
@[simp] theorem State.setSound_powered (x : Sound) : (s.setSound x).powered = s.powered := rfl
@[simp] theorem State.setSound_drawn (x : Sound) : (s.setSound x).drawn = s.drawn := rfl
@[simp] theorem State.setSound_pending (x : Sound) : (s.setSound x).pending = s.pending := rfl

/-! ### setCue -/

@[simp] theorem State.setCue_link (x : CueEngine) : (s.setCue x).link = s.link := rfl
@[simp] theorem State.setCue_msg (x : CueEngine) : (s.setCue x).msg = s.msg := rfl
@[simp] theorem State.setCue_det (x : CueEngine) : (s.setCue x).det = s.det := rfl
@[simp] theorem State.setCue_cue (x : CueEngine) : (s.setCue x).cue = x := rfl
@[simp] theorem State.setCue_queue (x : CueEngine) : (s.setCue x).queue = s.queue := rfl
@[simp] theorem State.setCue_tray (x : CueEngine) : (s.setCue x).tray = s.tray := rfl
@[simp] theorem State.setCue_lamp (x : CueEngine) : (s.setCue x).lamp = s.lamp := rfl
@[simp] theorem State.setCue_mon (x : CueEngine) : (s.setCue x).mon = s.mon := rfl
@[simp] theorem State.setCue_sound (x : CueEngine) : (s.setCue x).sound = s.sound := rfl
@[simp] theorem State.setCue_tape (x : CueEngine) : (s.setCue x).tape = s.tape := rfl
@[simp] theorem State.setCue_remote (x : CueEngine) : (s.setCue x).remote = s.remote := rfl
@[simp] theorem State.setCue_events (x : CueEngine) : (s.setCue x).events = s.events := rfl
@[simp] theorem State.setCue_store (x : CueEngine) : (s.setCue x).store = s.store := rfl
@[simp] theorem State.setCue_params (x : CueEngine) : (s.setCue x).params = s.params := rfl
@[simp] theorem State.setCue_powered (x : CueEngine) : (s.setCue x).powered = s.powered := rfl
@[simp] theorem State.setCue_drawn (x : CueEngine) : (s.setCue x).drawn = s.drawn := rfl
@[simp] theorem State.setCue_pending (x : CueEngine) : (s.setCue x).pending = s.pending := rfl

/-! ### setDet -/

@[simp] theorem State.setDet_link (x : Detector) : (s.setDet x).link = s.link := rfl
@[simp] theorem State.setDet_msg (x : Detector) : (s.setDet x).msg = s.msg := rfl
@[simp] theorem State.setDet_det (x : Detector) : (s.setDet x).det = x := rfl
@[simp] theorem State.setDet_cue (x : Detector) : (s.setDet x).cue = s.cue := rfl
@[simp] theorem State.setDet_queue (x : Detector) : (s.setDet x).queue = s.queue := rfl
@[simp] theorem State.setDet_tray (x : Detector) : (s.setDet x).tray = s.tray := rfl
@[simp] theorem State.setDet_lamp (x : Detector) : (s.setDet x).lamp = s.lamp := rfl
@[simp] theorem State.setDet_mon (x : Detector) : (s.setDet x).mon = s.mon := rfl
@[simp] theorem State.setDet_sound (x : Detector) : (s.setDet x).sound = s.sound := rfl
@[simp] theorem State.setDet_tape (x : Detector) : (s.setDet x).tape = s.tape := rfl
@[simp] theorem State.setDet_remote (x : Detector) : (s.setDet x).remote = s.remote := rfl
@[simp] theorem State.setDet_events (x : Detector) : (s.setDet x).events = s.events := rfl
@[simp] theorem State.setDet_store (x : Detector) : (s.setDet x).store = s.store := rfl
@[simp] theorem State.setDet_params (x : Detector) : (s.setDet x).params = s.params := rfl
@[simp] theorem State.setDet_powered (x : Detector) : (s.setDet x).powered = s.powered := rfl
@[simp] theorem State.setDet_drawn (x : Detector) : (s.setDet x).drawn = s.drawn := rfl
@[simp] theorem State.setDet_pending (x : Detector) : (s.setDet x).pending = s.pending := rfl

/-! ### setMsg -/

@[simp] theorem State.setMsg_link (x : MsgUnit) : (s.setMsg x).link = s.link := rfl
@[simp] theorem State.setMsg_msg (x : MsgUnit) : (s.setMsg x).msg = x := rfl
@[simp] theorem State.setMsg_det (x : MsgUnit) : (s.setMsg x).det = s.det := rfl
@[simp] theorem State.setMsg_cue (x : MsgUnit) : (s.setMsg x).cue = s.cue := rfl
@[simp] theorem State.setMsg_queue (x : MsgUnit) : (s.setMsg x).queue = s.queue := rfl
@[simp] theorem State.setMsg_tray (x : MsgUnit) : (s.setMsg x).tray = s.tray := rfl
@[simp] theorem State.setMsg_lamp (x : MsgUnit) : (s.setMsg x).lamp = s.lamp := rfl
@[simp] theorem State.setMsg_mon (x : MsgUnit) : (s.setMsg x).mon = s.mon := rfl
@[simp] theorem State.setMsg_sound (x : MsgUnit) : (s.setMsg x).sound = s.sound := rfl
@[simp] theorem State.setMsg_tape (x : MsgUnit) : (s.setMsg x).tape = s.tape := rfl
@[simp] theorem State.setMsg_remote (x : MsgUnit) : (s.setMsg x).remote = s.remote := rfl
@[simp] theorem State.setMsg_events (x : MsgUnit) : (s.setMsg x).events = s.events := rfl
@[simp] theorem State.setMsg_store (x : MsgUnit) : (s.setMsg x).store = s.store := rfl
@[simp] theorem State.setMsg_params (x : MsgUnit) : (s.setMsg x).params = s.params := rfl
@[simp] theorem State.setMsg_powered (x : MsgUnit) : (s.setMsg x).powered = s.powered := rfl
@[simp] theorem State.setMsg_drawn (x : MsgUnit) : (s.setMsg x).drawn = s.drawn := rfl
@[simp] theorem State.setMsg_pending (x : MsgUnit) : (s.setMsg x).pending = s.pending := rfl

/-! ### setLink -/

@[simp] theorem State.setLink_link (x : LinkRx) : (s.setLink x).link = x := rfl
@[simp] theorem State.setLink_msg (x : LinkRx) : (s.setLink x).msg = s.msg := rfl
@[simp] theorem State.setLink_det (x : LinkRx) : (s.setLink x).det = s.det := rfl
@[simp] theorem State.setLink_cue (x : LinkRx) : (s.setLink x).cue = s.cue := rfl
@[simp] theorem State.setLink_queue (x : LinkRx) : (s.setLink x).queue = s.queue := rfl
@[simp] theorem State.setLink_tray (x : LinkRx) : (s.setLink x).tray = s.tray := rfl
@[simp] theorem State.setLink_lamp (x : LinkRx) : (s.setLink x).lamp = s.lamp := rfl
@[simp] theorem State.setLink_mon (x : LinkRx) : (s.setLink x).mon = s.mon := rfl
@[simp] theorem State.setLink_sound (x : LinkRx) : (s.setLink x).sound = s.sound := rfl
@[simp] theorem State.setLink_tape (x : LinkRx) : (s.setLink x).tape = s.tape := rfl
@[simp] theorem State.setLink_remote (x : LinkRx) : (s.setLink x).remote = s.remote := rfl
@[simp] theorem State.setLink_events (x : LinkRx) : (s.setLink x).events = s.events := rfl
@[simp] theorem State.setLink_store (x : LinkRx) : (s.setLink x).store = s.store := rfl
@[simp] theorem State.setLink_params (x : LinkRx) : (s.setLink x).params = s.params := rfl
@[simp] theorem State.setLink_powered (x : LinkRx) : (s.setLink x).powered = s.powered := rfl
@[simp] theorem State.setLink_drawn (x : LinkRx) : (s.setLink x).drawn = s.drawn := rfl
@[simp] theorem State.setLink_pending (x : LinkRx) : (s.setLink x).pending = s.pending := rfl

/-! ### setTape -/

@[simp] theorem State.setTape_link (x : Tape) : (s.setTape x).link = s.link := rfl
@[simp] theorem State.setTape_msg (x : Tape) : (s.setTape x).msg = s.msg := rfl
@[simp] theorem State.setTape_det (x : Tape) : (s.setTape x).det = s.det := rfl
@[simp] theorem State.setTape_cue (x : Tape) : (s.setTape x).cue = s.cue := rfl
@[simp] theorem State.setTape_queue (x : Tape) : (s.setTape x).queue = s.queue := rfl
@[simp] theorem State.setTape_tray (x : Tape) : (s.setTape x).tray = s.tray := rfl
@[simp] theorem State.setTape_lamp (x : Tape) : (s.setTape x).lamp = s.lamp := rfl
@[simp] theorem State.setTape_mon (x : Tape) : (s.setTape x).mon = s.mon := rfl
@[simp] theorem State.setTape_sound (x : Tape) : (s.setTape x).sound = s.sound := rfl
@[simp] theorem State.setTape_tape (x : Tape) : (s.setTape x).tape = x := rfl
@[simp] theorem State.setTape_remote (x : Tape) : (s.setTape x).remote = s.remote := rfl
@[simp] theorem State.setTape_events (x : Tape) : (s.setTape x).events = s.events := rfl
@[simp] theorem State.setTape_store (x : Tape) : (s.setTape x).store = s.store := rfl
@[simp] theorem State.setTape_params (x : Tape) : (s.setTape x).params = s.params := rfl
@[simp] theorem State.setTape_powered (x : Tape) : (s.setTape x).powered = s.powered := rfl
@[simp] theorem State.setTape_drawn (x : Tape) : (s.setTape x).drawn = s.drawn := rfl
@[simp] theorem State.setTape_pending (x : Tape) : (s.setTape x).pending = s.pending := rfl

/-! ### setRemote -/

@[simp] theorem State.setRemote_link (x : Remote) : (s.setRemote x).link = s.link := rfl
@[simp] theorem State.setRemote_msg (x : Remote) : (s.setRemote x).msg = s.msg := rfl
@[simp] theorem State.setRemote_det (x : Remote) : (s.setRemote x).det = s.det := rfl
@[simp] theorem State.setRemote_cue (x : Remote) : (s.setRemote x).cue = s.cue := rfl
@[simp] theorem State.setRemote_queue (x : Remote) : (s.setRemote x).queue = s.queue := rfl
@[simp] theorem State.setRemote_tray (x : Remote) : (s.setRemote x).tray = s.tray := rfl
@[simp] theorem State.setRemote_lamp (x : Remote) : (s.setRemote x).lamp = s.lamp := rfl
@[simp] theorem State.setRemote_mon (x : Remote) : (s.setRemote x).mon = s.mon := rfl
@[simp] theorem State.setRemote_sound (x : Remote) : (s.setRemote x).sound = s.sound := rfl
@[simp] theorem State.setRemote_tape (x : Remote) : (s.setRemote x).tape = s.tape := rfl
@[simp] theorem State.setRemote_remote (x : Remote) : (s.setRemote x).remote = x := rfl
@[simp] theorem State.setRemote_events (x : Remote) : (s.setRemote x).events = s.events := rfl
@[simp] theorem State.setRemote_store (x : Remote) : (s.setRemote x).store = s.store := rfl
@[simp] theorem State.setRemote_params (x : Remote) : (s.setRemote x).params = s.params := rfl
@[simp] theorem State.setRemote_powered (x : Remote) : (s.setRemote x).powered = s.powered := rfl
@[simp] theorem State.setRemote_drawn (x : Remote) : (s.setRemote x).drawn = s.drawn := rfl
@[simp] theorem State.setRemote_pending (x : Remote) : (s.setRemote x).pending = s.pending := rfl

/-! ### setReasons -/

@[simp] theorem State.setReasons_link (x : MuteReasons) : (s.setReasons x).link = s.link := rfl
@[simp] theorem State.setReasons_msg (x : MuteReasons) : (s.setReasons x).msg = s.msg := rfl
@[simp] theorem State.setReasons_det (x : MuteReasons) : (s.setReasons x).det = s.det := rfl
@[simp] theorem State.setReasons_cue (x : MuteReasons) : (s.setReasons x).cue = s.cue := rfl
@[simp] theorem State.setReasons_queue (x : MuteReasons) : (s.setReasons x).queue = s.queue := rfl
@[simp] theorem State.setReasons_tray (x : MuteReasons) : (s.setReasons x).tray = s.tray := rfl
@[simp] theorem State.setReasons_lamp (x : MuteReasons) : (s.setReasons x).lamp = s.lamp := rfl
@[simp] theorem State.setReasons_mon (x : MuteReasons) : (s.setReasons x).mon = s.mon := rfl
@[simp] theorem State.setReasons_tape (x : MuteReasons) : (s.setReasons x).tape = s.tape := rfl
@[simp] theorem State.setReasons_remote (x : MuteReasons) : (s.setReasons x).remote = s.remote := rfl
@[simp] theorem State.setReasons_events (x : MuteReasons) : (s.setReasons x).events = s.events := rfl
@[simp] theorem State.setReasons_store (x : MuteReasons) : (s.setReasons x).store = s.store := rfl
@[simp] theorem State.setReasons_params (x : MuteReasons) : (s.setReasons x).params = s.params := rfl
@[simp] theorem State.setReasons_powered (x : MuteReasons) : (s.setReasons x).powered = s.powered := rfl
@[simp] theorem State.setReasons_drawn (x : MuteReasons) : (s.setReasons x).drawn = s.drawn := rfl
@[simp] theorem State.setReasons_pending (x : MuteReasons) : (s.setReasons x).pending = s.pending := rfl
@[simp] theorem State.setReasons_sound (x : MuteReasons) :
    (s.setReasons x).sound = { s.sound with reasons := x } := rfl

/-! ### setJob -/

@[simp] theorem State.setJob_link (x : Option Job) : (s.setJob x).link = s.link := rfl
@[simp] theorem State.setJob_msg (x : Option Job) : (s.setJob x).msg = s.msg := rfl
@[simp] theorem State.setJob_det (x : Option Job) : (s.setJob x).det = s.det := rfl
@[simp] theorem State.setJob_cue (x : Option Job) : (s.setJob x).cue = s.cue := rfl
@[simp] theorem State.setJob_queue (x : Option Job) : (s.setJob x).queue = s.queue := rfl
@[simp] theorem State.setJob_tray (x : Option Job) : (s.setJob x).tray = s.tray := rfl
@[simp] theorem State.setJob_lamp (x : Option Job) : (s.setJob x).lamp = s.lamp := rfl
@[simp] theorem State.setJob_mon (x : Option Job) : (s.setJob x).mon = s.mon := rfl
@[simp] theorem State.setJob_sound (x : Option Job) : (s.setJob x).sound = s.sound := rfl
@[simp] theorem State.setJob_tape (x : Option Job) : (s.setJob x).tape = s.tape := rfl
@[simp] theorem State.setJob_remote (x : Option Job) : (s.setJob x).remote = s.remote := rfl
@[simp] theorem State.setJob_events (x : Option Job) : (s.setJob x).events = s.events := rfl
@[simp] theorem State.setJob_params (x : Option Job) : (s.setJob x).params = s.params := rfl
@[simp] theorem State.setJob_powered (x : Option Job) : (s.setJob x).powered = s.powered := rfl
@[simp] theorem State.setJob_drawn (x : Option Job) : (s.setJob x).drawn = s.drawn := rfl
@[simp] theorem State.setJob_pending (x : Option Job) : (s.setJob x).pending = s.pending := rfl
@[simp] theorem State.setJob_store (x : Option Job) : (s.setJob x).store = { s.store with job := x } := rfl

/-! ### setParam -/

@[simp] theorem State.setParam_link (p : Param) (w : BitVec 32) : (s.setParam p w).link = s.link := rfl
@[simp] theorem State.setParam_msg (p : Param) (w : BitVec 32) : (s.setParam p w).msg = s.msg := rfl
@[simp] theorem State.setParam_det (p : Param) (w : BitVec 32) : (s.setParam p w).det = s.det := rfl
@[simp] theorem State.setParam_cue (p : Param) (w : BitVec 32) : (s.setParam p w).cue = s.cue := rfl
@[simp] theorem State.setParam_queue (p : Param) (w : BitVec 32) : (s.setParam p w).queue = s.queue := rfl
@[simp] theorem State.setParam_tray (p : Param) (w : BitVec 32) : (s.setParam p w).tray = s.tray := rfl
@[simp] theorem State.setParam_lamp (p : Param) (w : BitVec 32) : (s.setParam p w).lamp = s.lamp := rfl
@[simp] theorem State.setParam_mon (p : Param) (w : BitVec 32) : (s.setParam p w).mon = s.mon := rfl
@[simp] theorem State.setParam_sound (p : Param) (w : BitVec 32) : (s.setParam p w).sound = s.sound := rfl
@[simp] theorem State.setParam_tape (p : Param) (w : BitVec 32) : (s.setParam p w).tape = s.tape := rfl
@[simp] theorem State.setParam_remote (p : Param) (w : BitVec 32) : (s.setParam p w).remote = s.remote := rfl
@[simp] theorem State.setParam_events (p : Param) (w : BitVec 32) : (s.setParam p w).events = s.events := rfl
@[simp] theorem State.setParam_store (p : Param) (w : BitVec 32) : (s.setParam p w).store = s.store := rfl
@[simp] theorem State.setParam_powered (p : Param) (w : BitVec 32) : (s.setParam p w).powered = s.powered := rfl
@[simp] theorem State.setParam_drawn (p : Param) (w : BitVec 32) : (s.setParam p w).drawn = s.drawn := rfl
@[simp] theorem State.setParam_pending (p : Param) (w : BitVec 32) : (s.setParam p w).pending = s.pending := rfl
@[simp] theorem State.setParam_params (p : Param) (w : BitVec 32) :
    (s.setParam p w).params = s.params.setIfInBounds p.id w := rfl

/-! ### draw -/

@[simp] theorem State.draw_link : (s.draw).link = s.link := rfl
@[simp] theorem State.draw_msg : (s.draw).msg = s.msg := rfl
@[simp] theorem State.draw_det : (s.draw).det = s.det := rfl
@[simp] theorem State.draw_cue : (s.draw).cue = s.cue := rfl
@[simp] theorem State.draw_queue : (s.draw).queue = s.queue := rfl
@[simp] theorem State.draw_tray : (s.draw).tray = s.tray := rfl
@[simp] theorem State.draw_lamp : (s.draw).lamp = s.lamp := rfl
@[simp] theorem State.draw_mon : (s.draw).mon = s.mon := rfl
@[simp] theorem State.draw_sound : (s.draw).sound = s.sound := rfl
@[simp] theorem State.draw_tape : (s.draw).tape = s.tape := rfl
@[simp] theorem State.draw_remote : (s.draw).remote = s.remote := rfl
@[simp] theorem State.draw_events : (s.draw).events = s.events := rfl
@[simp] theorem State.draw_store : (s.draw).store = s.store := rfl
@[simp] theorem State.draw_params : (s.draw).params = s.params := rfl
@[simp] theorem State.draw_powered : (s.draw).powered = s.powered := rfl
@[simp] theorem State.draw_pending : (s.draw).pending = s.pending := rfl
@[simp] theorem State.draw_drawn : s.draw.drawn = s.drawn + 1 := rfl

/-! ### enqueueReply -/

@[simp] theorem State.enqueueReply_link (m : OutMsg) : (s.enqueueReply m).link = s.link := rfl
@[simp] theorem State.enqueueReply_det (m : OutMsg) : (s.enqueueReply m).det = s.det := rfl
@[simp] theorem State.enqueueReply_cue (m : OutMsg) : (s.enqueueReply m).cue = s.cue := rfl
@[simp] theorem State.enqueueReply_queue (m : OutMsg) : (s.enqueueReply m).queue = s.queue := rfl
@[simp] theorem State.enqueueReply_tray (m : OutMsg) : (s.enqueueReply m).tray = s.tray := rfl
@[simp] theorem State.enqueueReply_lamp (m : OutMsg) : (s.enqueueReply m).lamp = s.lamp := rfl
@[simp] theorem State.enqueueReply_mon (m : OutMsg) : (s.enqueueReply m).mon = s.mon := rfl
@[simp] theorem State.enqueueReply_sound (m : OutMsg) : (s.enqueueReply m).sound = s.sound := rfl
@[simp] theorem State.enqueueReply_tape (m : OutMsg) : (s.enqueueReply m).tape = s.tape := rfl
@[simp] theorem State.enqueueReply_remote (m : OutMsg) : (s.enqueueReply m).remote = s.remote := rfl
@[simp] theorem State.enqueueReply_events (m : OutMsg) : (s.enqueueReply m).events = s.events := rfl
@[simp] theorem State.enqueueReply_store (m : OutMsg) : (s.enqueueReply m).store = s.store := rfl
@[simp] theorem State.enqueueReply_params (m : OutMsg) : (s.enqueueReply m).params = s.params := rfl
@[simp] theorem State.enqueueReply_powered (m : OutMsg) : (s.enqueueReply m).powered = s.powered := rfl
@[simp] theorem State.enqueueReply_drawn (m : OutMsg) : (s.enqueueReply m).drawn = s.drawn := rfl
@[simp] theorem State.enqueueReply_pending (m : OutMsg) : (s.enqueueReply m).pending = s.pending := rfl
@[simp] theorem State.enqueueReply_msg (m : OutMsg) :
    (s.enqueueReply m).msg = { s.msg with replies := s.msg.replies ++ [m] } := rfl

/-! ### driveShutter -/

@[simp] theorem State.driveShutter_link (b : Bool) : (s.driveShutter b).link = s.link := rfl
@[simp] theorem State.driveShutter_msg (b : Bool) : (s.driveShutter b).msg = s.msg := rfl
@[simp] theorem State.driveShutter_det (b : Bool) : (s.driveShutter b).det = s.det := rfl
@[simp] theorem State.driveShutter_cue (b : Bool) : (s.driveShutter b).cue = s.cue := rfl
@[simp] theorem State.driveShutter_queue (b : Bool) : (s.driveShutter b).queue = s.queue := rfl
@[simp] theorem State.driveShutter_lamp (b : Bool) : (s.driveShutter b).lamp = s.lamp := rfl
@[simp] theorem State.driveShutter_mon (b : Bool) : (s.driveShutter b).mon = s.mon := rfl
@[simp] theorem State.driveShutter_sound (b : Bool) : (s.driveShutter b).sound = s.sound := rfl
@[simp] theorem State.driveShutter_tape (b : Bool) : (s.driveShutter b).tape = s.tape := rfl
@[simp] theorem State.driveShutter_remote (b : Bool) : (s.driveShutter b).remote = s.remote := rfl
@[simp] theorem State.driveShutter_events (b : Bool) : (s.driveShutter b).events = s.events := rfl
@[simp] theorem State.driveShutter_store (b : Bool) : (s.driveShutter b).store = s.store := rfl
@[simp] theorem State.driveShutter_params (b : Bool) : (s.driveShutter b).params = s.params := rfl
@[simp] theorem State.driveShutter_powered (b : Bool) : (s.driveShutter b).powered = s.powered := rfl
@[simp] theorem State.driveShutter_drawn (b : Bool) : (s.driveShutter b).drawn = s.drawn := rfl
@[simp] theorem State.driveShutter_pending (b : Bool) : (s.driveShutter b).pending = s.pending := rfl
@[simp] theorem State.driveShutter_tray (b : Bool) :
    (s.driveShutter b).tray = { s.tray with shutterOpen := b } := rfl

/-! ### storePage -/

@[simp] theorem State.storePage_link (p : Nat) (c : List Byte) : (s.storePage p c).link = s.link := rfl
@[simp] theorem State.storePage_msg (p : Nat) (c : List Byte) : (s.storePage p c).msg = s.msg := rfl
@[simp] theorem State.storePage_det (p : Nat) (c : List Byte) : (s.storePage p c).det = s.det := rfl
@[simp] theorem State.storePage_cue (p : Nat) (c : List Byte) : (s.storePage p c).cue = s.cue := rfl
@[simp] theorem State.storePage_queue (p : Nat) (c : List Byte) : (s.storePage p c).queue = s.queue := rfl
@[simp] theorem State.storePage_tray (p : Nat) (c : List Byte) : (s.storePage p c).tray = s.tray := rfl
@[simp] theorem State.storePage_lamp (p : Nat) (c : List Byte) : (s.storePage p c).lamp = s.lamp := rfl
@[simp] theorem State.storePage_mon (p : Nat) (c : List Byte) : (s.storePage p c).mon = s.mon := rfl
@[simp] theorem State.storePage_sound (p : Nat) (c : List Byte) : (s.storePage p c).sound = s.sound := rfl
@[simp] theorem State.storePage_tape (p : Nat) (c : List Byte) : (s.storePage p c).tape = s.tape := rfl
@[simp] theorem State.storePage_remote (p : Nat) (c : List Byte) : (s.storePage p c).remote = s.remote := rfl
@[simp] theorem State.storePage_events (p : Nat) (c : List Byte) : (s.storePage p c).events = s.events := rfl
@[simp] theorem State.storePage_params (p : Nat) (c : List Byte) : (s.storePage p c).params = s.params := rfl
@[simp] theorem State.storePage_powered (p : Nat) (c : List Byte) : (s.storePage p c).powered = s.powered := rfl
@[simp] theorem State.storePage_drawn (p : Nat) (c : List Byte) : (s.storePage p c).drawn = s.drawn := rfl
@[simp] theorem State.storePage_pending (p : Nat) (c : List Byte) : (s.storePage p c).pending = s.pending := rfl
@[simp] theorem State.storePage_store (p : Nat) (c : List Byte) :
    (s.storePage p c).store = { s.store with mem := s.store.mem.writePage p c } := rfl

/-! ### spoilPage -/

@[simp] theorem State.spoilPage_link (p : Nat) : (s.spoilPage p).link = s.link := rfl
@[simp] theorem State.spoilPage_msg (p : Nat) : (s.spoilPage p).msg = s.msg := rfl
@[simp] theorem State.spoilPage_det (p : Nat) : (s.spoilPage p).det = s.det := rfl
@[simp] theorem State.spoilPage_cue (p : Nat) : (s.spoilPage p).cue = s.cue := rfl
@[simp] theorem State.spoilPage_queue (p : Nat) : (s.spoilPage p).queue = s.queue := rfl
@[simp] theorem State.spoilPage_tray (p : Nat) : (s.spoilPage p).tray = s.tray := rfl
@[simp] theorem State.spoilPage_lamp (p : Nat) : (s.spoilPage p).lamp = s.lamp := rfl
@[simp] theorem State.spoilPage_mon (p : Nat) : (s.spoilPage p).mon = s.mon := rfl
@[simp] theorem State.spoilPage_sound (p : Nat) : (s.spoilPage p).sound = s.sound := rfl
@[simp] theorem State.spoilPage_tape (p : Nat) : (s.spoilPage p).tape = s.tape := rfl
@[simp] theorem State.spoilPage_remote (p : Nat) : (s.spoilPage p).remote = s.remote := rfl
@[simp] theorem State.spoilPage_events (p : Nat) : (s.spoilPage p).events = s.events := rfl
@[simp] theorem State.spoilPage_params (p : Nat) : (s.spoilPage p).params = s.params := rfl
@[simp] theorem State.spoilPage_powered (p : Nat) : (s.spoilPage p).powered = s.powered := rfl
@[simp] theorem State.spoilPage_pending (p : Nat) : (s.spoilPage p).pending = s.pending := rfl
@[simp] theorem State.spoilPage_drawn (p : Nat) : (s.spoilPage p).drawn = s.drawn + 1 := rfl
@[simp] theorem State.spoilPage_store (p : Nat) :
    (s.spoilPage p).store =
      { s.store with
        mem := s.store.mem.writePage p (unknownPage s.drawn)
        broken := p :: s.store.broken.filter fun q => q != p } := rfl

/-! ### takeHead -/

@[simp] theorem State.takeHead_link (q : List QueueEntry) : (s.takeHead q).link = s.link := rfl
@[simp] theorem State.takeHead_msg (q : List QueueEntry) : (s.takeHead q).msg = s.msg := rfl
@[simp] theorem State.takeHead_det (q : List QueueEntry) : (s.takeHead q).det = s.det := rfl
@[simp] theorem State.takeHead_cue (q : List QueueEntry) : (s.takeHead q).cue = s.cue := rfl
@[simp] theorem State.takeHead_tray (q : List QueueEntry) : (s.takeHead q).tray = s.tray := rfl
@[simp] theorem State.takeHead_lamp (q : List QueueEntry) : (s.takeHead q).lamp = s.lamp := rfl
@[simp] theorem State.takeHead_mon (q : List QueueEntry) : (s.takeHead q).mon = s.mon := rfl
@[simp] theorem State.takeHead_sound (q : List QueueEntry) : (s.takeHead q).sound = s.sound := rfl
@[simp] theorem State.takeHead_tape (q : List QueueEntry) : (s.takeHead q).tape = s.tape := rfl
@[simp] theorem State.takeHead_remote (q : List QueueEntry) : (s.takeHead q).remote = s.remote := rfl
@[simp] theorem State.takeHead_events (q : List QueueEntry) : (s.takeHead q).events = s.events := rfl
@[simp] theorem State.takeHead_store (q : List QueueEntry) : (s.takeHead q).store = s.store := rfl
@[simp] theorem State.takeHead_params (q : List QueueEntry) : (s.takeHead q).params = s.params := rfl
@[simp] theorem State.takeHead_powered (q : List QueueEntry) : (s.takeHead q).powered = s.powered := rfl
@[simp] theorem State.takeHead_drawn (q : List QueueEntry) : (s.takeHead q).drawn = s.drawn := rfl
@[simp] theorem State.takeHead_pending (q : List QueueEntry) : (s.takeHead q).pending = s.pending := rfl
@[simp] theorem State.takeHead_queue (q : List QueueEntry) :
    (s.takeHead q).queue = { s.queue with entries := q, taken := s.queue.taken + 1 } := rfl

/-! ### clearEvents -/

@[simp] theorem State.clearEvents_link (w : EventSet) : (s.clearEvents w).link = s.link := rfl
@[simp] theorem State.clearEvents_msg (w : EventSet) : (s.clearEvents w).msg = s.msg := rfl
@[simp] theorem State.clearEvents_det (w : EventSet) : (s.clearEvents w).det = s.det := rfl
@[simp] theorem State.clearEvents_cue (w : EventSet) : (s.clearEvents w).cue = s.cue := rfl
@[simp] theorem State.clearEvents_queue (w : EventSet) : (s.clearEvents w).queue = s.queue := rfl
@[simp] theorem State.clearEvents_tray (w : EventSet) : (s.clearEvents w).tray = s.tray := rfl
@[simp] theorem State.clearEvents_lamp (w : EventSet) : (s.clearEvents w).lamp = s.lamp := rfl
@[simp] theorem State.clearEvents_mon (w : EventSet) : (s.clearEvents w).mon = s.mon := rfl
@[simp] theorem State.clearEvents_sound (w : EventSet) : (s.clearEvents w).sound = s.sound := rfl
@[simp] theorem State.clearEvents_tape (w : EventSet) : (s.clearEvents w).tape = s.tape := rfl
@[simp] theorem State.clearEvents_remote (w : EventSet) : (s.clearEvents w).remote = s.remote := rfl
@[simp] theorem State.clearEvents_store (w : EventSet) : (s.clearEvents w).store = s.store := rfl
@[simp] theorem State.clearEvents_params (w : EventSet) : (s.clearEvents w).params = s.params := rfl
@[simp] theorem State.clearEvents_powered (w : EventSet) : (s.clearEvents w).powered = s.powered := rfl
@[simp] theorem State.clearEvents_drawn (w : EventSet) : (s.clearEvents w).drawn = s.drawn := rfl
@[simp] theorem State.clearEvents_pending (w : EventSet) : (s.clearEvents w).pending = s.pending := rfl

/-! ### setMasks -/

@[simp] theorem State.setMasks_link (a b : EventSet) : (s.setMasks a b).link = s.link := rfl
@[simp] theorem State.setMasks_msg (a b : EventSet) : (s.setMasks a b).msg = s.msg := rfl
@[simp] theorem State.setMasks_det (a b : EventSet) : (s.setMasks a b).det = s.det := rfl
@[simp] theorem State.setMasks_cue (a b : EventSet) : (s.setMasks a b).cue = s.cue := rfl
@[simp] theorem State.setMasks_queue (a b : EventSet) : (s.setMasks a b).queue = s.queue := rfl
@[simp] theorem State.setMasks_tray (a b : EventSet) : (s.setMasks a b).tray = s.tray := rfl
@[simp] theorem State.setMasks_lamp (a b : EventSet) : (s.setMasks a b).lamp = s.lamp := rfl
@[simp] theorem State.setMasks_mon (a b : EventSet) : (s.setMasks a b).mon = s.mon := rfl
@[simp] theorem State.setMasks_sound (a b : EventSet) : (s.setMasks a b).sound = s.sound := rfl
@[simp] theorem State.setMasks_tape (a b : EventSet) : (s.setMasks a b).tape = s.tape := rfl
@[simp] theorem State.setMasks_remote (a b : EventSet) : (s.setMasks a b).remote = s.remote := rfl
@[simp] theorem State.setMasks_store (a b : EventSet) : (s.setMasks a b).store = s.store := rfl
@[simp] theorem State.setMasks_params (a b : EventSet) : (s.setMasks a b).params = s.params := rfl
@[simp] theorem State.setMasks_powered (a b : EventSet) : (s.setMasks a b).powered = s.powered := rfl
@[simp] theorem State.setMasks_drawn (a b : EventSet) : (s.setMasks a b).drawn = s.drawn := rfl
@[simp] theorem State.setMasks_pending (a b : EventSet) : (s.setMasks a b).pending = s.pending := rfl

/-! ### setLookup -/

@[simp] theorem State.setLookup_link (a b : Bool) : (s.setLookup a b).link = s.link := rfl
@[simp] theorem State.setLookup_msg (a b : Bool) : (s.setLookup a b).msg = s.msg := rfl
@[simp] theorem State.setLookup_det (a b : Bool) : (s.setLookup a b).det = s.det := rfl
@[simp] theorem State.setLookup_queue (a b : Bool) : (s.setLookup a b).queue = s.queue := rfl
@[simp] theorem State.setLookup_tray (a b : Bool) : (s.setLookup a b).tray = s.tray := rfl
@[simp] theorem State.setLookup_lamp (a b : Bool) : (s.setLookup a b).lamp = s.lamp := rfl
@[simp] theorem State.setLookup_mon (a b : Bool) : (s.setLookup a b).mon = s.mon := rfl
@[simp] theorem State.setLookup_sound (a b : Bool) : (s.setLookup a b).sound = s.sound := rfl
@[simp] theorem State.setLookup_tape (a b : Bool) : (s.setLookup a b).tape = s.tape := rfl
@[simp] theorem State.setLookup_remote (a b : Bool) : (s.setLookup a b).remote = s.remote := rfl
@[simp] theorem State.setLookup_events (a b : Bool) : (s.setLookup a b).events = s.events := rfl
@[simp] theorem State.setLookup_store (a b : Bool) : (s.setLookup a b).store = s.store := rfl
@[simp] theorem State.setLookup_params (a b : Bool) : (s.setLookup a b).params = s.params := rfl
@[simp] theorem State.setLookup_powered (a b : Bool) : (s.setLookup a b).powered = s.powered := rfl
@[simp] theorem State.setLookup_drawn (a b : Bool) : (s.setLookup a b).drawn = s.drawn := rfl
@[simp] theorem State.setLookup_pending (a b : Bool) : (s.setLookup a b).pending = s.pending := rfl

/-! ### purge -/

@[simp] theorem State.purge_link : (s.purge).link = s.link := rfl
@[simp] theorem State.purge_msg : (s.purge).msg = s.msg := rfl
@[simp] theorem State.purge_det : (s.purge).det = s.det := rfl
@[simp] theorem State.purge_cue : (s.purge).cue = s.cue := rfl
@[simp] theorem State.purge_tray : (s.purge).tray = s.tray := rfl
@[simp] theorem State.purge_lamp : (s.purge).lamp = s.lamp := rfl
@[simp] theorem State.purge_mon : (s.purge).mon = s.mon := rfl
@[simp] theorem State.purge_sound : (s.purge).sound = s.sound := rfl
@[simp] theorem State.purge_tape : (s.purge).tape = s.tape := rfl
@[simp] theorem State.purge_remote : (s.purge).remote = s.remote := rfl
@[simp] theorem State.purge_events : (s.purge).events = s.events := rfl
@[simp] theorem State.purge_store : (s.purge).store = s.store := rfl
@[simp] theorem State.purge_params : (s.purge).params = s.params := rfl
@[simp] theorem State.purge_powered : (s.purge).powered = s.powered := rfl
@[simp] theorem State.purge_drawn : (s.purge).drawn = s.drawn := rfl
@[simp] theorem State.purge_pending : (s.purge).pending = s.pending := rfl

/-! ### setShowLevel -/

@[simp] theorem State.setShowLevel_link (n : Nat) : (s.setShowLevel n).link = s.link := rfl
@[simp] theorem State.setShowLevel_msg (n : Nat) : (s.setShowLevel n).msg = s.msg := rfl
@[simp] theorem State.setShowLevel_det (n : Nat) : (s.setShowLevel n).det = s.det := rfl
@[simp] theorem State.setShowLevel_cue (n : Nat) : (s.setShowLevel n).cue = s.cue := rfl
@[simp] theorem State.setShowLevel_queue (n : Nat) : (s.setShowLevel n).queue = s.queue := rfl
@[simp] theorem State.setShowLevel_tray (n : Nat) : (s.setShowLevel n).tray = s.tray := rfl
@[simp] theorem State.setShowLevel_lamp (n : Nat) : (s.setShowLevel n).lamp = s.lamp := rfl
@[simp] theorem State.setShowLevel_mon (n : Nat) : (s.setShowLevel n).mon = s.mon := rfl
@[simp] theorem State.setShowLevel_tape (n : Nat) : (s.setShowLevel n).tape = s.tape := rfl
@[simp] theorem State.setShowLevel_remote (n : Nat) : (s.setShowLevel n).remote = s.remote := rfl
@[simp] theorem State.setShowLevel_events (n : Nat) : (s.setShowLevel n).events = s.events := rfl
@[simp] theorem State.setShowLevel_store (n : Nat) : (s.setShowLevel n).store = s.store := rfl
@[simp] theorem State.setShowLevel_params (n : Nat) : (s.setShowLevel n).params = s.params := rfl
@[simp] theorem State.setShowLevel_powered (n : Nat) : (s.setShowLevel n).powered = s.powered := rfl
@[simp] theorem State.setShowLevel_drawn (n : Nat) : (s.setShowLevel n).drawn = s.drawn := rfl
@[simp] theorem State.setShowLevel_pending (n : Nat) : (s.setShowLevel n).pending = s.pending := rfl

/-! ### setCommandMute -/

@[simp] theorem State.setCommandMute_link (b : Bool) : (s.setCommandMute b).link = s.link := rfl
@[simp] theorem State.setCommandMute_msg (b : Bool) : (s.setCommandMute b).msg = s.msg := rfl
@[simp] theorem State.setCommandMute_det (b : Bool) : (s.setCommandMute b).det = s.det := rfl
@[simp] theorem State.setCommandMute_cue (b : Bool) : (s.setCommandMute b).cue = s.cue := rfl
@[simp] theorem State.setCommandMute_queue (b : Bool) : (s.setCommandMute b).queue = s.queue := rfl
@[simp] theorem State.setCommandMute_tray (b : Bool) : (s.setCommandMute b).tray = s.tray := rfl
@[simp] theorem State.setCommandMute_lamp (b : Bool) : (s.setCommandMute b).lamp = s.lamp := rfl
@[simp] theorem State.setCommandMute_mon (b : Bool) : (s.setCommandMute b).mon = s.mon := rfl
@[simp] theorem State.setCommandMute_tape (b : Bool) : (s.setCommandMute b).tape = s.tape := rfl
@[simp] theorem State.setCommandMute_remote (b : Bool) : (s.setCommandMute b).remote = s.remote := rfl
@[simp] theorem State.setCommandMute_events (b : Bool) : (s.setCommandMute b).events = s.events := rfl
@[simp] theorem State.setCommandMute_store (b : Bool) : (s.setCommandMute b).store = s.store := rfl
@[simp] theorem State.setCommandMute_params (b : Bool) : (s.setCommandMute b).params = s.params := rfl
@[simp] theorem State.setCommandMute_powered (b : Bool) : (s.setCommandMute b).powered = s.powered := rfl
@[simp] theorem State.setCommandMute_drawn (b : Bool) : (s.setCommandMute b).drawn = s.drawn := rfl
@[simp] theorem State.setCommandMute_pending (b : Bool) : (s.setCommandMute b).pending = s.pending := rfl

end Sys2Proof.Machine
end

