-- ==== Sys2Proof/Laws/Memory.lean ====
section
/-! SUPPORT. The show store's memory: what a write reads back as, and that every memory operation keeps the canonical
form (R201). -/

namespace Sys2Proof.Machine

theorem ShowMem.wfAbove_mono {low high : Nat} {m : ShowMem} (h : low ≤ high) (hm : m.wfAbove high = true) :
    m.wfAbove low = true := by
  cases m with
  | nil => rfl
  | cons e m =>
    obtain ⟨x, b⟩ := e
    simp only [ShowMem.wfAbove, Bool.and_eq_true, decide_eq_true_eq] at hm ⊢
    exact ⟨⟨by omega, hm.1.2⟩, hm.2⟩

theorem ShowMem.read_below {low : Nat} {m : ShowMem} (hm : m.wfAbove low = true) {c : Nat} (hc : c < low) :
    m.read c = erasedByte := by
  induction m generalizing low with
  | nil => rfl
  | cons e m ih =>
    obtain ⟨x, b⟩ := e
    simp only [ShowMem.wfAbove, Bool.and_eq_true, decide_eq_true_eq] at hm
    have : c ≠ x := by omega
    simp only [ShowMem.read, this, if_false]
    exact ih hm.2 (by omega)

theorem ShowMem.write_wfAbove {low : Nat} {m : ShowMem} (hm : m.wfAbove low = true) {a : Nat} (ha : low ≤ a)
    (b : Byte) : (m.write a b).wfAbove low = true := by
  induction m generalizing low with
  | nil =>
    by_cases hb : b = erasedByte <;> simp [ShowMem.write, ShowMem.wfAbove, hb, ha]
  | cons e m ih =>
    obtain ⟨x, c⟩ := e
    have hm' := hm
    simp only [ShowMem.wfAbove, Bool.and_eq_true, decide_eq_true_eq] at hm
    unfold ShowMem.write
    split
    · split
      · exact hm'
      · rename_i hlt hb
        simp only [ShowMem.wfAbove, Bool.and_eq_true, decide_eq_true_eq]
        exact ⟨⟨ha, hb⟩, ⟨by omega, hm.1.2⟩, hm.2⟩
    · split
      · split
        · exact ShowMem.wfAbove_mono (by omega) hm.2
        · rename_i h1 h2 hb
          simp only [ShowMem.wfAbove, Bool.and_eq_true, decide_eq_true_eq]
          exact ⟨⟨ha, hb⟩, ShowMem.wfAbove_mono (by omega) hm.2⟩
      · simp only [ShowMem.wfAbove, Bool.and_eq_true, decide_eq_true_eq]
        exact ⟨hm.1, ih hm.2 (by omega)⟩

/-- A write keeps the canonical form. -/
theorem ShowMem.write_wf {m : ShowMem} (hm : m.wf = true) (a : Nat) (b : Byte) : (m.write a b).wf = true :=
  ShowMem.write_wfAbove hm (Nat.zero_le a) b

/-- A write of consecutive bytes keeps the canonical form. -/
theorem ShowMem.writeList_wf {m : ShowMem} (hm : m.wf = true) (a : Nat) (bs : List Byte) :
    (m.writeList a bs).wf = true := by
  induction bs generalizing m a with
  | nil => exact hm
  | cons b bs ih => exact ih (ShowMem.write_wf hm a b) (a + 1)

/-- A page write keeps the canonical form. -/
theorem ShowMem.writePage_wf {m : ShowMem} (hm : m.wf = true) (p : Nat) (contents : List Byte) :
    (m.writePage p contents).wf = true := ShowMem.writeList_wf hm _ _

/-- The memory after reset has the canonical form. -/
theorem reset_mem_wf : State.reset.store.mem.wf = true := rfl

theorem ShowMem.read_write_above {low : Nat} {m : ShowMem} (hm : m.wfAbove low = true) {a : Nat} (ha : low ≤ a)
    (b : Byte) (c : Nat) : (m.write a b).read c = if c = a then b else m.read c := by
  induction m generalizing low with
  | nil =>
    by_cases hb : b = erasedByte <;> by_cases hc : c = a <;> simp [ShowMem.write, ShowMem.read, hb, hc]
  | cons e m ih =>
    obtain ⟨x, d⟩ := e
    have hm' := hm
    simp only [ShowMem.wfAbove, Bool.and_eq_true, decide_eq_true_eq] at hm
    unfold ShowMem.write
    split
    · rename_i hlt
      split
      · rename_i hb
        by_cases hc : c = a
        · subst hc
          have hx : c ≠ x := by omega
          simp only [if_true, ShowMem.read, hx, if_false]
          rw [ShowMem.read_below hm.2 (by omega), hb]
        · simp [hc]
      · by_cases hc : c = a <;> simp [ShowMem.read, hc]
    · split
      · rename_i h1 h2
        subst h2
        split
        · rename_i hb
          by_cases hc : c = a
          · subst hc
            simp only [if_true]
            rw [ShowMem.read_below hm.2 (by omega), hb]
          · simp [ShowMem.read, hc]
        · by_cases hc : c = a <;> simp [ShowMem.read, hc]
      · rename_i h1 h2
        by_cases hx : c = x
        · subst hx
          have : c ≠ a := by omega
          simp [ShowMem.read, this]
        · simp only [ShowMem.read, hx, if_false]
          exact ih hm.2 (by omega)

/-- A read after a write gives the byte written at its place and leaves every other place alone. -/
theorem ShowMem.read_write {m : ShowMem} (hm : m.wf = true) (a : Nat) (b : Byte) (c : Nat) :
    (m.write a b).read c = if c = a then b else m.read c := ShowMem.read_write_above hm (Nat.zero_le a) b c

/-- A read after a write of consecutive bytes. -/
theorem ShowMem.read_writeList {m : ShowMem} (hm : m.wf = true) (a : Nat) (bs : List Byte) (c : Nat) :
    (m.writeList a bs).read c = if a ≤ c ∧ c < a + bs.length then bs.getD (c - a) erasedByte else m.read c := by
  induction bs generalizing m a with
  | nil => simp [ShowMem.writeList]
  | cons b bs ih =>
    rw [ShowMem.writeList, ih (ShowMem.write_wf hm a b), ShowMem.read_write hm]
    by_cases h1 : c = a
    · subst h1
      simp
    · by_cases h2 : a + 1 ≤ c ∧ c < a + 1 + bs.length
      · have h3 : a ≤ c ∧ c < a + (b :: bs).length := by simp only [List.length_cons]; omega
        have h4 : c - a = (c - (a + 1)) + 1 := by omega
        rw [if_pos h2, if_pos h3, h4, List.getD_cons_succ]
      · have h3 : ¬ (a ≤ c ∧ c < a + (b :: bs).length) := by simp only [List.length_cons]; omega
        rw [if_neg h2, if_neg h3, if_neg h1]

/-- A page as written has 32 bytes. -/
theorem padPage_length (c : List Byte) : (padPage c).length = pageBytes := by
  simp only [padPage, List.length_take, List.length_append, List.length_replicate]; omega

/-- Two bytes sent most significant first give back the check they carry. -/
theorem natOf_bytesOf_two (c : BitVec 16) : natOf (bytesOf 2 c.toNat) = c.toNat := by
  have h := c.isLt
  show ((0 * 256 + (byteOf (c.toNat >>> 8)).toNat) * 256 + (byteOf (c.toNat >>> 0)).toNat) = c.toNat
  simp only [byteOf, BitVec.toNat_ofNat, Nat.shiftRight_eq_div_pow]
  omega

/-- A run of pages depends on those pages only. -/
theorem ShowMem.pages_congr (m n : ShowMem) (a k : Nat) (h : ∀ i, i < k → m.page (a + i) = n.page (a + i)) :
    m.pages a k = n.pages a k := by
  unfold ShowMem.pages
  induction k with
  | zero => rfl
  | succ k ih =>
    rw [List.range_succ, List.flatMap_append, List.flatMap_append, ih fun i hi => h i (by omega)]
    simp [h k (by omega)]

/-- A page after a page write: the new contents, or what it held. -/
theorem ShowMem.page_writePage {m : ShowMem} (hm : m.wf = true) (p q : Nat) (c : List Byte) :
    (m.writePage p c).page q = if q = p then padPage c else m.page q := by
  have hl : (padPage c).length = 32 := padPage_length c
  by_cases h : q = p
  · subst h
    rw [if_pos rfl]
    apply List.ext_getElem (by simp [ShowMem.page, hl, pageBytes])
    intro i h1 h2
    simp only [ShowMem.page, List.getElem_map, List.getElem_range, ShowMem.writePage, ShowMem.read_writeList hm, hl]
    rw [hl] at h2
    rw [if_pos (by omega), List.getD_eq_getElem _ _ (by rw [hl]; omega)]
    simp
  · rw [if_neg h]
    apply List.map_congr_left
    intro i hi
    have : i < 32 := by simpa [pageBytes] using hi
    simp only [ShowMem.writePage, ShowMem.read_writeList hm, hl, pageBytes]
    rw [if_neg (by omega)]

/-- A page write leaves every byte outside its page alone. -/
theorem ShowMem.read_writePage_outside {m : ShowMem} (hm : m.wf = true) {p a : Nat} (h : a / pageBytes ≠ p)
    (c : List Byte) : (m.writePage p c).read a = m.read a := by
  have hl : (padPage c).length = 32 := padPage_length c
  simp only [pageBytes] at h
  simp only [ShowMem.writePage, ShowMem.read_writeList hm, hl, pageBytes]
  rw [if_neg (by omega)]

/-! ## A page stopped by the supply (R206) -/

/-- Spoiling a page keeps the canonical form. -/
theorem State.spoilPage_wf {s : State} (hm : s.store.mem.wf = true) (p : Nat) :
    (s.spoilPage p).store.mem.wf = true := ShowMem.writePage_wf hm p _

/-- Spoiling a page leaves every other page alone. -/
theorem State.spoilPage_read {s : State} (hm : s.store.mem.wf = true) {p a : Nat} (h : a / pageBytes ≠ p) :
    (s.spoilPage p).store.mem.read a = s.store.mem.read a := ShowMem.read_writePage_outside hm h _

/-- The entry into CRITICAL stops the page operation in progress, its page spoiled; without one nothing changes. -/
theorem storeSuspend_cases (s : State) :
    (∃ k pages op, s.store.job = some ⟨k, pages, some op⟩ ∧
        storeSuspend s = (s.spoilPage op.page).setJob (some ⟨k, pages, some { op with stopped := true }⟩)) ∨
      ((∀ k pages op, s.store.job ≠ some ⟨k, pages, some op⟩) ∧ storeSuspend s = s) := by
  unfold storeSuspend
  split
  · rename_i k pages op h
    exact .inl ⟨k, pages, op, h, rfl⟩
  · rename_i h
    exact .inr ⟨fun k pages op hj => h k pages op hj, rfl⟩

end Sys2Proof.Machine
end

