-- ==== Sys2Proof/Laws/Ops.lean ====
section
/-! SUPPORT. What each shared operation can do, said once: the fields it may change and the value it gives. -/

namespace Sys2Proof.Machine

/-! ## Latching (R199, R200, R34) -/

theorem or_weight_of_latched {w : EventSet} {n : Nat} (hn : n < 32) (h : w.getLsbD n = true) :
    w ||| ((1 : EventSet) <<< n) = w := by
  apply BitVec.eq_of_getLsbD_eq
  intro i hi
  by_cases hin : i = n
  · subst hin; simp [h]
  · have : ¬ (i - n = 0 ∧ n ≤ i) := by omega
    by_cases hle : i < n
    · simp [BitVec.getLsbD_or, BitVec.getLsbD_shiftLeft, hle]
    · have h0 : i - n ≠ 0 := by omega
      simp [BitVec.getLsbD_or, BitVec.getLsbD_shiftLeft, BitVec.getLsbD_one, h0]

theorem Flag.place_lt (f : Flag) : f.place < 26 := by cases f <;> decide

/-- A latch changes the latched set, by its flag, and the reply queue, by a NOTICE; nothing else. -/
theorem State.latch_frame (s : State) (f : Flag) :
    s.latch f = { s with events := (s.latch f).events, msg := (s.latch f).msg } := by
  unfold State.latch State.askNotice
  split
  · rfl
  · dsimp only
    split
    · split <;> rfl
    · rfl

theorem State.latch_events (s : State) (f : Flag) :
    (s.latch f).events = { s.events with latched := s.events.latched ||| f.weight } := by
  unfold State.latch State.askNotice
  split
  · rename_i h
    have := or_weight_of_latched (Nat.lt_trans f.place_lt (by decide)) h
    simp only [Flag.weight, this]
  · dsimp only
    split
    · split <;> rfl
    · rfl

/-- A latch leaves the message unit as it is, or places one NOTICE where none was and a place was free. -/
theorem State.latch_msg (s : State) (f : Flag) :
    (s.latch f).msg = s.msg ∨
      (s.placesUsed < 4 ∧ s.noticePending = false ∧
        (s.latch f).msg =
          { s.msg with replies := s.msg.replies ++ [{ kind := 0x81, dest := 0x00, payload := [] }] }) := by
  unfold State.latch State.askNotice
  split
  · exact .inl rfl
  · dsimp only
    split
    · split
      · rename_i h
        simp only [Bool.and_eq_true, Bool.not_eq_true', State.placeFree, decide_eq_true_eq] at h
        exact .inr ⟨h.2, h.1.2, rfl⟩
      · exact .inl rfl
    · exact .inl rfl

theorem State.latchIf_frame (s : State) (c : Bool) (f : Flag) :
    s.latchIf c f = { s with events := (s.latchIf c f).events, msg := (s.latchIf c f).msg } := by
  cases c
  · rfl
  · exact s.latch_frame f

/-! ## Lamp writes (R204) -/

theorem runPages_lampWrite_frame (a b : Bool) (pages : List Nat) (s : State) :
    runPages (.lampWrite a b) pages s = { s with store := (runPages (.lampWrite a b) pages s).store } := by
  induction pages generalizing s with
  | nil => rfl
  | cons p rest ih =>
    unfold runPages
    dsimp only
    split
    · rw [ih (s.mendPage p)]; rfl
    · split <;> rfl

theorem State.startPending_frame (s : State) : s.startPending = { s with store := s.startPending.store } := by
  unfold State.startPending
  split
  · dsimp only
    rw [runPages_lampWrite_frame]
  · rfl

/-- A lamp write request changes the store alone. -/
theorem State.requestLampWrite_frame (s : State) (n : LampNo) :
    s.requestLampWrite n = { s with store := (s.requestLampWrite n).store } := by
  unfold State.requestLampWrite State.startJob
  split
  · rw [State.startPending_frame, runPages_lampWrite_frame]
  · cases n <;> rfl

theorem runPages_lampWrite_mem (a b : Bool) (pages : List Nat) (s : State) :
    (runPages (.lampWrite a b) pages s).store.mem = s.store.mem := by
  induction pages generalizing s with
  | nil => rfl
  | cons p rest ih =>
    unfold runPages
    dsimp only
    split
    · rw [ih (s.mendPage p)]; rfl
    · split <;> rfl

/-- A lamp write request changes no stored byte. -/
theorem State.requestLampWrite_mem (s : State) (n : LampNo) : (s.requestLampWrite n).store.mem = s.store.mem := by
  unfold State.requestLampWrite State.startJob State.startPending
  split
  · split
    · rw [runPages_lampWrite_mem]; exact runPages_lampWrite_mem _ _ _ s
    · exact runPages_lampWrite_mem _ _ _ s
  · cases n <;> rfl

/-- A lamp write request behind a job in flight joins the pending set. -/
theorem State.requestLampWrite_of_job {s : State} (h : s.store.job ≠ none) (n : LampNo) :
    s.requestLampWrite n =
      { s with store := { s.store with
          pendingLamp0 := if n = .lamp0 then true else s.store.pendingLamp0
          pendingLamp1 := if n = .lamp1 then true else s.store.pendingLamp1 } } := by
  have hi : s.storeIdle = false := by
    unfold State.storeIdle
    cases hj : s.store.job with
    | none => exact absurd hj h
    | some j => rfl
  unfold State.requestLampWrite
  rw [hi]
  cases n <;> rfl

/-! ## The fan's demand and the applied level (R146, R151, R152) -/

/-- Forming the demand changes the fan alone. -/
theorem State.reformDemand_frame (s : State) :
    s.reformDemand = { s with mon := { s.mon with fan := s.reformDemand.mon.fan, fanAttempts := s.reformDemand.mon.fanAttempts } } := by
  unfold State.reformDemand
  split
  · rfl
  · split <;> rfl

/-- Forming the demand leaves the fan OFF only when there is none. -/
theorem State.reformDemand_off (s : State) (h : s.reformDemand.mon.fan = .off) : s.fanDemand = none := by
  unfold State.reformDemand at h
  by_cases hd : s.fanDemand = none
  · exact hd
  · simp only [hd, if_false] at h
    split at h
    · cases h
    · contradiction

/-- Setting the applied level changes the lamp controller, the monitor and the store alone. -/
theorem State.setApplied_frame (s : State) (a : Nat) :
    s.setApplied a =
      { s with lamp := (s.setApplied a).lamp, mon := (s.setApplied a).mon, store := (s.setApplied a).store } := by
  unfold State.setApplied
  dsimp only
  split
  · rw [State.requestLampWrite_frame, State.reformDemand_frame]
  · split
    · rfl
    · rw [State.reformDemand_frame]

/-- The lamp controller after the applied level has been set. -/
theorem State.setApplied_lamp (s : State) (a : Nat) :
    (s.setApplied a).lamp = { s.lamp with applied := a, held := decide (a < s.lamp.computed) } := by
  unfold State.setApplied
  dsimp only
  split
  · rw [State.requestLampWrite_frame, State.reformDemand_frame]
  · split
    · rfl
    · rw [State.reformDemand_frame]

/-- An event at which the allowed level may fall changes the lamp controller, the monitor and the store alone. -/
theorem State.lampFall_frame (s : State) (before : Nat) :
    s.lampFall before =
      { s with
        lamp := (s.lampFall before).lamp, mon := (s.lampFall before).mon, store := (s.lampFall before).store } := by
  unfold State.lampFall
  split
  · exact s.setApplied_frame _
  · rfl

/-- The lamp controller after such an event: the applied level is the lesser of what it was and the allowed level, and
the held flag is formed exactly where the allowed level has fallen. -/
theorem State.lampFall_lamp (s : State) (before : Nat) :
    (s.lampFall before).lamp =
      { s.lamp with
        applied := min s.lamp.applied s.allowed
        held :=
          if s.allowed < before ∨ s.allowed < s.lamp.applied then
            decide (min s.lamp.applied s.allowed < s.lamp.computed)
          else s.lamp.held } := by
  unfold State.lampFall
  by_cases h : s.allowed < before ∨ s.allowed < s.lamp.applied
  · rw [if_pos h, if_pos h, State.setApplied_lamp]
  · rw [if_neg h, if_neg h, Nat.min_eq_left (by omega)]

/-- After such an event the applied level is the lesser of what it was and the allowed level. -/
theorem State.lampFall_applied (s : State) (before : Nat) :
    (s.lampFall before).lamp.applied = min s.lamp.applied s.allowed := by rw [State.lampFall_lamp]

/-- Setting the applied level requests a lamp write of the active record exactly at a fall from above 0 to 0. -/
theorem State.setApplied_store (s : State) (a : Nat) :
    (s.setApplied a).store =
      if a = 0 ∧ 0 < s.lamp.applied then
        (State.requestLampWrite { s.setApplied a with store := s.store } s.lamp.active).store
      else s.store := by
  by_cases h : a = 0 ∧ 0 < s.lamp.applied
  · rw [if_pos h]
    have e : { s.setApplied a with store := s.store } =
        (({ s with
            lamp := { s.lamp with applied := a, held := decide (a < s.lamp.computed) }
            mon := { s.mon with cooldown := Config.cooldownTicks } } : State).reformDemand) := by
      unfold State.setApplied
      rw [if_pos h, State.requestLampWrite_frame, State.reformDemand_frame]
    rw [e]
    unfold State.setApplied
    rw [if_pos h]
  · rw [if_neg h]
    unfold State.setApplied
    rw [if_neg h]
    dsimp only
    split
    · rfl
    · rw [State.reformDemand_frame]

/-- What setting the applied level makes of the store. -/
theorem State.setApplied_storeAfterFall (s : State) (a : Nat) : s.storeAfterFall (s.setApplied a) := by
  have hl : (s.setApplied a).lamp.applied = a := by rw [State.setApplied_lamp]
  have hs := s.setApplied_store a
  unfold State.storeAfterFall
  dsimp only
  rw [hl]
  refine ⟨?_, fun h => by rw [hs, if_neg h], fun h => by rw [hs, if_pos h], fun h hj => ?_⟩
  · rw [hs]
    split
    · exact State.requestLampWrite_mem _ _
    · rfl
  · rw [hs, if_pos h]
    exact congrArg State.store
      (State.requestLampWrite_of_job (s := { s.setApplied a with store := s.store }) hj s.lamp.active)

/-- What such an event makes of the store. -/
theorem State.lampFall_storeAfterFall (s : State) (before : Nat) : s.storeAfterFall (s.lampFall before) := by
  unfold State.lampFall
  split
  · exact s.setApplied_storeAfterFall _
  · refine ⟨rfl, fun _ => rfl, fun h => ?_, fun h => ?_⟩ <;> omega

/-! ## The due steps -/

/-- With nothing due, the due steps change nothing. -/
theorem settle_of_quiet {s : State} (h : s.quiet = true) : settle s = s := by
  simp only [State.quiet, Bool.and_eq_true, Bool.not_eq_true', decide_eq_true_eq] at h
  obtain ⟨⟨⟨⟨⟨⟨⟨⟨⟨⟨⟨⟨⟨⟨⟨⟨⟨⟨⟨⟨⟨⟨⟨⟨⟨h9, h1⟩, h2⟩, h3⟩, h4⟩, h5⟩, h6⟩, h7⟩, h8⟩, h10⟩, h11⟩, h12⟩, h13⟩, h14⟩, h15⟩,
    h16⟩, h17⟩, h18⟩, h19⟩, h20⟩, h21⟩, h22⟩, h23⟩, h24⟩, h25⟩, h26⟩ := h
  have e1 : s.stuckTone = s := by simp [State.stuckTone, h1]
  have e2 : s.stuckEnd = s := by simp [State.stuckEnd, h2]
  have e3 : s.wordCompletes = s := by simp [State.wordCompletes, h3]
  have e4 : s.lossTimeout = s := by simp [State.lossTimeout, h4]
  have e5 : s.ringOpens = s := by simp [State.ringOpens, h5]
  have e6 : s.raiseShowSafe = s := by simp [State.raiseShowSafe, h6]
  have e7 : s.endWait = s := by simp [State.endWait, h7]
  have e8 : s.enumExpires = s := by simp [State.enumExpires, h8]
  have e9 : s.calibrationEnds = s := by
    unfold State.calibrationEnds
    split
    · rename_i c hc
      rw [State.calibrationDue, hc] at h9
      simp only [Option.any_some, decide_eq_false_iff_not] at h9
      simp [h9]
    · rfl
  have e10 : s.dissolveEnds = s := by simp [State.dissolveEnds, h10]
  have e11 : s.lampFailure = s := by simp [State.lampFailure, h11]
  have e12 : s.litMinute = s := by simp [State.litMinute, h12]
  have e13 : s.swapTimeout = s := by simp [State.swapTimeout, h13]
  have e14 : s.fanStartTimeout = s := by simp [State.fanStartTimeout, h14]
  have e15 : s.fanSupervisionTimeout = s := by simp [State.fanSupervisionTimeout, h15]
  have e16 : s.fanRests = s := by simp [State.fanRests, h16]
  have e17 : s.fanRestEnds = s := by simp [State.fanRestEnds, h17]
  have e18 : s.cooldownEnds = s := by simp [State.cooldownEnds, h18]
  have e19 : s.phaseLimit = s := by simp [State.phaseLimit, h19]
  have e20 : s.seekExhausted = s := by simp [State.seekExhausted, h20]
  have e21 : s.settleEnd = s := by simp [State.settleEnd, h21]
  have e22 : s.pauseExpires = s := by simp [State.pauseExpires, h22]
  have e23 : s.endHold = s := by simp [State.endHold, h23]
  have e24 : s.keyRepeats = s := by
    unfold State.keyRepeats
    split
    · rename_i k hk
      rw [State.repeatDue, hk] at h24
      simp only [Option.any_some] at h24
      simp [h24]
    · rfl
  have e25 : s.relayExpires = s := by
    unfold State.relayExpires
    split
    · rename_i w hw
      rw [State.relayOver, hw] at h25
      simp only [Option.any_some, decide_eq_false_iff_not] at h25
      simp [h25]
    · rfl
  have e26 : s.carryReset = s := by
    unfold State.carryReset
    split
    · rename_i m hm
      rw [State.resetDue, hm] at h26
      simp only [Option.isSome_some, Bool.true_and] at h26
      simp [h26]
    · rfl
  unfold settle
  rw [e9, e1, e2, e3, e4, e5, e6, e7, e8, e10, e11, e12, e13, e14, e15, e16, e17, e18, e19, e20, e21, e22, e23, e24, e25,
    e26]

/-- A command from outside on a part that has its supply and nothing due. -/
theorem whenSettled_of_ready {s : State} (h : s.Ready) (f : State → State) : whenSettled s f = .next (f s) := by
  rw [whenSettled, settle_of_quiet h.2, whenPowered, if_pos h.1]

/-- A step of the part's own on a part that has its supply. -/
theorem whenPowered_of_powered {s : State} (h : s.powered = true) (t : State) : whenPowered s t = .next t := by
  rw [whenPowered, if_pos h]

/-! ## The handler (R28) -/

/-- The oldest buffer served: the work's state answered. -/
theorem State.serve_of_oldest {s : State} {m : Message} {rest : List Message} (h : s.Oldest m rest)
    {test : Message → Bool} (ht : test m = true) (work : Message → State → Answer × State) :
    s.serve test work = (work m (s.takeOldest m)).2.answer m (work m (s.takeOldest m)).1 := by
  obtain ⟨h1, h2, h3⟩ := h
  have hm : s.mayTake m = true := by
    simp only [State.mayTake, h2, Option.isNone_none, Bool.true_and, Bool.or_eq_true, Bool.not_eq_true',
      State.placeFree, decide_eq_true_eq]
    by_cases hn : m.needsReply = true
    · exact .inr (h3 hn)
    · exact .inl (by simpa using hn)
  unfold State.serve
  rw [h1]
  simp only [ht, hm, Bool.and_self, if_true]

/-! ## The computed outputs (logs 6 and 26) -/

/-- The fan output's duty is one of four. -/
theorem State.fanDuty_cases (s : State) : s.fanDuty = 0 ∨ s.fanDuty = 40 ∨ s.fanDuty = 70 ∨ s.fanDuty = 100 := by
  unfold State.fanDuty
  split
  · split
    · rename_i speed _
      cases speed <;> simp [FanSpeed.duty]
    · exact .inl rfl
  · exact .inl rfl

/-- Without a supply every computed output is off. -/
theorem State.outputs_unpowered {s : State} (h : s.powered = false) :
    s.fanDuty = 0 ∧ s.lampMotor = false ∧ s.transportDrive = .stopped ∧ s.alarmOutput = false := by
  simp [State.fanDuty, State.lampMotor, State.transportDrive, State.alarmOutput, h]

end Sys2Proof.Machine
end

