-- ==== Sys2Proof/Laws/Link.lean ====
section
/-! SUPPORT. What the operations of the link and of the message unit can change, said once. -/

namespace Sys2Proof.Machine

variable (s : State)

/-! ## Frames -/

/-- Placing a message changes the message unit and the latched set alone. -/
theorem State.placeRx_frame (m : Message) :
    s.placeRx m = { s with msg := (s.placeRx m).msg, events := (s.placeRx m).events } := by
  unfold State.placeRx
  split
  · rfl
  · rw [State.latch_frame]

theorem State.deliverRelay_frame (m : Message) :
    s.deliverRelay m = { s with msg := (s.deliverRelay m).msg, events := (s.deliverRelay m).events } := by
  unfold State.deliverRelay
  split
  · split
    · split <;> rfl
    · split
      · rw [State.placeRx_frame]
      · rfl
  · rfl

theorem State.deliverEnumerate_frame (m : Message) :
    s.deliverEnumerate m =
      { s with
        msg := (s.deliverEnumerate m).msg, events := (s.deliverEnumerate m).events
        link := { s.link with address := (s.deliverEnumerate m).link.address } } := by
  unfold State.deliverEnumerate
  split
  · rfl
  · split
    · rw [State.placeRx_frame]; rfl
    · rw [State.placeRx_frame]

/-- Delivering a message changes the message unit, the latched set and the unit's address alone. -/
theorem State.deliver_frame (m : Message) :
    s.deliver m =
      { s with
        msg := (s.deliver m).msg, events := (s.deliver m).events
        link := { s.link with address := (s.deliver m).link.address } } := by
  unfold State.deliver
  split
  · rfl
  · split
    · rw [State.deliverRelay_frame]
    · split
      · rw [State.deliverEnumerate_frame]
      · rw [State.placeRx_frame]

theorem State.abandon_frame : s.abandon = { s with msg := s.abandon.msg } := by
  unfold State.abandon
  split <;> rfl

theorem State.judgeMessage_frame (bytes : List Byte) (check : Byte) :
    s.judgeMessage bytes check =
      { s with
        msg := (s.judgeMessage bytes check).msg, events := (s.judgeMessage bytes check).events
        link := { s.link with address := (s.judgeMessage bytes check).link.address } } := by
  unfold State.judgeMessage
  split
  · split
    · dsimp only
      split
      · rw [State.deliver_frame]; rfl
      · rfl
    · rw [State.abandon_frame]
  · rw [State.abandon_frame]

/-- A slot at the receive side changes the message unit, the latched set and the unit's address alone. -/
theorem State.takeSlot_frame (tag : SlotTag) (b : Byte) :
    s.takeSlot tag b =
      { s with
        msg := (s.takeSlot tag b).msg, events := (s.takeSlot tag b).events
        link := { s.link with address := (s.takeSlot tag b).link.address } } := by
  unfold State.takeSlot
  split
  · rw [State.abandon_frame]
  · rw [State.abandon_frame]; rfl
  · split
    · split
      · rfl
      · rw [State.abandon_frame]
    · rfl
  · split
    · rw [State.judgeMessage_frame]
    · rfl

theorem State.writeSlot_frame (a : Attempt) :
    (s.writeSlot a).2 = { s with msg := (s.writeSlot a).2.msg, tape := (s.writeSlot a).2.tape } := by
  unfold State.writeSlot
  split
  · rfl
  · unfold State.attemptDone; split <;> rfl
  · rfl

theorem State.loseAttempt_frame :
    s.loseAttempt = { s with msg := s.loseAttempt.msg, events := s.loseAttempt.events } := by
  unfold State.loseAttempt
  split
  · rfl
  · split
    · rw [State.latch_frame]; rfl
    · split <;> rfl

theorem State.countWait_frame : s.countWait = { s with msg := s.countWait.msg } := by
  unfold State.countWait
  split <;> rfl

theorem State.supplySlot_frame (mayBegin : Bool) :
    (s.supplySlot mayBegin).2 =
      { s with msg := (s.supplySlot mayBegin).2.msg, tape := (s.supplySlot mayBegin).2.tape } := by
  unfold State.supplySlot
  split
  · exact s.writeSlot_frame _
  · split
    · split
      · exact s.writeSlot_frame _
      · rfl
    · rfl

/-- A pair written changes the sound path, the latched set and the reply queue (a NOTICE) alone. -/
theorem State.writePair_frame (p : Pair) :
    s.writePair p =
      { s with
        sound := (s.writePair p).sound, events := (s.writePair p).events, msg := (s.writePair p).msg } := by
  unfold State.writePair
  split
  · unfold State.slip; rw [State.latch_frame]; rfl
  · unfold State.endFilling; split <;> rfl

/-- What a pair written does to the FIFO (R168). -/
theorem State.writePair_fifo (p : Pair) :
    (s.writePair p).sound.fifo = if s.sound.fifo.length < 8192 then s.sound.fifo ++ [p] else s.sound.fifo := by
  unfold State.writePair
  split
  · rename_i h
    have : ¬ s.sound.fifo.length < 8192 := by simpa [Config.fifoPairs] using h
    unfold State.slip; rw [State.latch_frame]; simp [this, State.setSound]
  · rename_i h
    have : s.sound.fifo.length < 8192 := by simpa [Config.fifoPairs] using h
    unfold State.endFilling
    split <;> simp [State.setSound]

/-! ## Verdicts with nothing due -/

/-- No step of the engine's own is due. -/
def CueEngine.calm (c : CueEngine) : Bool := !c.runStuck && !c.stuckOver && decide (c.completion = .none)

theorem State.calm_of_quiet {s : State} (h : s.quiet = true) : s.cue.calm = true := by
  simp only [State.quiet, Bool.and_eq_true] at h
  simp only [CueEngine.calm, Bool.and_eq_true]
  have h' := h.1.1.1.1.1.1.1.1.1.1.1.1.1.1.1.1.1.1.1.1.1.1
  exact ⟨⟨h'.1.1.2, h'.1.2⟩, h'.2⟩

theorem State.engineDue_of_calm {s : State} (h : s.cue.calm = true) : s.engineDue = s := by
  simp only [CueEngine.calm, Bool.and_eq_true, Bool.not_eq_true', decide_eq_true_eq] at h
  simp [State.engineDue, State.wordCompletes, h.1.1, h.1.2, h.2]

/-- A verdict taken by an engine with nothing due changes the engine alone. -/
theorem State.takeVerdict_of_calm {s : State} (h : s.cue.calm = true) (v : Verdict) :
    s.takeVerdict v = { s with cue := (s.takeVerdict v).cue } := by
  unfold State.takeVerdict
  rw [State.engineDue_of_calm h]
  rfl

theorem State.endBlock_of_calm {s : State} (h : s.cue.calm = true) :
    s.endBlock = { s with cue := s.endBlock.cue, det := s.endBlock.det } := by
  unfold State.endBlock
  dsimp only
  have e := State.takeVerdict_of_calm
    (s := s.setDet { s.det with state := .boundary, prevVerdict := s.blockVerdict, prevDamaged := s.det.damaged }) h
    s.blockVerdict
  rw [e]
  rfl

theorem State.takeFrame_of_calm {s : State} (h : s.cue.calm = true) (n : Nat) (c : Sample) :
    s.takeFrame n c = { s with cue := (s.takeFrame n c).cue, det := (s.takeFrame n c).det } := by
  unfold State.takeFrame
  dsimp only
  split
  · have e := State.endBlock_of_calm (s := s.setDet (s.det.takeSample c)) h
    rw [e]; rfl
  · rfl

theorem State.openBlock_of_calm {s : State} (h : s.cue.calm = true) (n : Nat) (c : Sample) (d : Bool) :
    s.openBlock n c d = { s with cue := (s.openBlock n c d).cue, det := (s.openBlock n c d).det } := by
  unfold State.openBlock
  have e := State.takeFrame_of_calm (s := s.setDet (s.det.beginBlock (n / Config.blockFrames) d)) h n c
  rw [e]
  rfl

/-- A frame handed to the detector of a unit whose engine has nothing due changes the detector and the engine alone,
save where a sequence break at a block's last frame ends two blocks at once. -/
theorem State.handFrame_of_calm {s : State} (h : s.cue.calm = true) (n : Nat) (c : Sample) (bad broke : Bool)
    (hn : broke = true → n % 160 ≠ 159) :
    s.handFrame n c bad broke =
      { s with cue := (s.handFrame n c bad broke).cue, det := (s.handFrame n c bad broke).det } := by
  unfold State.handFrame
  split
  · split
    · exact State.openBlock_of_calm h ..
    · rfl
  · exact State.openBlock_of_calm h ..
  · split
    · rename_i hb
      simp only [Bool.and_eq_true] at hb
      have hn' : ¬ n % Config.blockFrames = Config.blockFrames - 1 := by simpa [Config.blockFrames] using hn hb.1
      unfold State.openBlock State.takeFrame
      dsimp only
      have e := State.endBlock_of_calm (s := s.setDet { s.det with damaged := true }) h
      rw [if_neg hn', e]
      rfl
    · have e := State.takeFrame_of_calm (s := s.setDet { s.det with damaged := s.det.damaged || bad || broke }) h n c
      rw [e]; rfl

/-! ## The window of a sync -/

/-- A frame in its window, or with no window open, is taken as it stands. -/
@[simp] theorem State.frameArrives_of_in_window {s : State} {f : LinkFrame} {sync : Nat} (h : s.syncLate sync = false) :
    s.frameArrives f sync = s.receive f sync := by simp [State.frameArrives, h]

/-- A frame after a window that closed empty is taken once that window has been judged missing. -/
theorem State.frameArrives_of_late {s : State} {f : LinkFrame} {sync : Nat} (h : s.syncLate sync = true) :
    s.frameArrives f sync = (settle s.miss).receive f sync := by simp [State.frameArrives, h]

/-- A window already judged missing makes no sync late. -/
theorem State.syncLate_of_windowClosed {s : State} (h : s.link.windowClosed = true) (sync : Nat) :
    s.syncLate sync = false := by simp [State.syncLate, h]

/-- A past window changes the reckoning and its own mark alone. -/
theorem LinkRx.windowPast_frame (l : LinkRx) (sync : Option Nat) :
    l.windowPast sync =
      { l with reckoning := (l.windowPast sync).reckoning, windowClosed := (l.windowPast sync).windowClosed } := by
  cases sync <;> rfl

@[simp] theorem LinkRx.windowPast_windowClosed (l : LinkRx) (sync : Option Nat) :
    (l.windowPast sync).windowClosed = sync.isNone := by cases sync <;> rfl

@[simp] theorem State.keepBroken_tapeEnd (s : State) (f : LinkFrame) : (s.keepBroken f).link.tapeEnd = f.tapeEnd := rfl

theorem State.keepBroken_frame (s : State) (f : LinkFrame) :
    s.keepBroken f = { s with link := { s.link with tapeEnd := f.tapeEnd } } := rfl

end Sys2Proof.Machine
end

