-- ==== Sys2Proof/Laws/PerInstr.lean ====
section
/-! SUPPORT. Per command: no word of any width spells it, for the command table gives no row any bits. -/

namespace Sys2Proof.Laws.NoWord

/-- No word spells the command, whatever its operands. -/
def Statement (i : Instr) : Prop := ∀ nbits w : Nat, decodeTableWord nbits w ≠ some i

theorem powerOnReset : ∀ (strap : Bool) (button0 button1 button2 : Bool), Statement (.powerOnReset strap button0 button1 button2) :=
  fun _ _ _ _ => fun _ _ h => nomatch h
theorem linkReset : Statement .linkReset := fun _ _ h => nomatch h
theorem frameReceived : ∀ (frame : LinkFrame) (sync : Nat), Statement (.frameReceived frame sync) :=
  fun _ _ => fun _ _ h => nomatch h
theorem missingFrame : Statement .missingFrame := fun _ _ h => nomatch h
theorem linkLossTimeout : Statement .linkLossTimeout := fun _ _ h => nomatch h
theorem originatedFrame : Statement .originatedFrame := fun _ _ h => nomatch h
theorem showSafeRaised : Statement .showSafeRaised := fun _ _ h => nomatch h
theorem retryWaitEnd : Statement .retryWaitEnd := fun _ _ h => nomatch h
theorem stuckTone : Statement .stuckTone := fun _ _ h => nomatch h
theorem stuckEnd : Statement .stuckEnd := fun _ _ h => nomatch h
theorem wordComplete : Statement .wordComplete := fun _ _ h => nomatch h
theorem identify : Statement .identify := fun _ _ h => nomatch h
theorem setGroups : Statement .setGroups := fun _ _ h => nomatch h
theorem status : Statement .status := fun _ _ h => nomatch h
theorem readEvents : Statement .readEvents := fun _ _ h => nomatch h
theorem clearEvents : Statement .clearEvents := fun _ _ h => nomatch h
theorem setMasks : Statement .setMasks := fun _ _ h => nomatch h
theorem reset : Statement .reset := fun _ _ h => nomatch h
theorem setParam : Statement .setParam := fun _ _ h => nomatch h
theorem readParam : Statement .readParam := fun _ _ h => nomatch h
theorem loadCue : Statement .loadCue := fun _ _ h => nomatch h
theorem readCue : Statement .readCue := fun _ _ h => nomatch h
theorem loadKey : Statement .loadKey := fun _ _ h => nomatch h
theorem readKey : Statement .readKey := fun _ _ h => nomatch h
theorem loadSlot : Statement .loadSlot := fun _ _ h => nomatch h
theorem readSlot : Statement .readSlot := fun _ _ h => nomatch h
theorem loadCurve : Statement .loadCurve := fun _ _ h => nomatch h
theorem act : Statement .act := fun _ _ h => nomatch h
theorem stop : Statement .stop := fun _ _ h => nomatch h
theorem clearJam : Statement .clearJam := fun _ _ h => nomatch h
theorem save : Statement .save := fun _ _ h => nomatch h
theorem storeRead : Statement .storeRead := fun _ _ h => nomatch h
theorem protect : Statement .protect := fun _ _ h => nomatch h
theorem lampReplaced : Statement .lampReplaced := fun _ _ h => nomatch h
theorem calibrate : Statement .calibrate := fun _ _ h => nomatch h
theorem enumerate : Statement .enumerate := fun _ _ h => nomatch h
theorem unknownCommand : Statement .unknownCommand := fun _ _ h => nomatch h
theorem remoteRelay : Statement .remoteRelay := fun _ _ h => nomatch h
theorem pauseExpiry : Statement .pauseExpiry := fun _ _ h => nomatch h
theorem shutterClosedSwitch : ∀ (made : Bool), Statement (.shutterClosedSwitch made) :=
  fun _ => fun _ _ h => nomatch h
theorem gateDownSwitch : ∀ (made : Bool), Statement (.gateDownSwitch made) :=
  fun _ => fun _ _ h => nomatch h
theorem indexPulse : ∀ (homeMark : Bool), Statement (.indexPulse homeMark) :=
  fun _ => fun _ _ h => nomatch h
theorem gateUpSwitch : ∀ (made : Bool) (slidePresent : Bool), Statement (.gateUpSwitch made slidePresent) :=
  fun _ _ => fun _ _ h => nomatch h
theorem settleEnd : Statement .settleEnd := fun _ _ h => nomatch h
theorem shutterOpenSwitch : ∀ (made : Bool), Statement (.shutterOpenSwitch made) :=
  fun _ => fun _ _ h => nomatch h
theorem phaseLimitExpiry : Statement .phaseLimitExpiry := fun _ _ h => nomatch h
theorem seekExhausted : Statement .seekExhausted := fun _ _ h => nomatch h
theorem lampTick : ∀ (currentPresent : Bool), Statement (.lampTick currentPresent) :=
  fun _ => fun _ _ h => nomatch h
theorem dissolveEnd : Statement .dissolveEnd := fun _ _ h => nomatch h
theorem lampFailure : Statement .lampFailure := fun _ _ h => nomatch h
theorem swapSwitch : ∀ (made : Bool), Statement (.swapSwitch made) :=
  fun _ => fun _ _ h => nomatch h
theorem swapTimeout : Statement .swapTimeout := fun _ _ h => nomatch h
theorem litMinute : Statement .litMinute := fun _ _ h => nomatch h
theorem tempConversion : ∀ (code : BitVec 10), Statement (.tempConversion code) :=
  fun _ => fun _ _ h => nomatch h
theorem fanTachPulse : Statement .fanTachPulse := fun _ _ h => nomatch h
theorem fanStartTimeout : Statement .fanStartTimeout := fun _ _ h => nomatch h
theorem fanSupervisionTimeout : Statement .fanSupervisionTimeout := fun _ _ h => nomatch h
theorem fanRest : Statement .fanRest := fun _ _ h => nomatch h
theorem fanRestEnd : Statement .fanRestEnd := fun _ _ h => nomatch h
theorem cooldownEnd : Statement .cooldownEnd := fun _ _ h => nomatch h
theorem supplySample : ∀ (reading : BitVec 10), Statement (.supplySample reading) :=
  fun _ => fun _ _ h => nomatch h
theorem outputSample : Statement .outputSample := fun _ _ h => nomatch h
theorem masterFrameBuild : ∀ (left right cue : BitVec 12), Statement (.masterFrameBuild left right cue) :=
  fun _ _ _ => fun _ _ h => nomatch h
theorem calibrationComplete : Statement .calibrationComplete := fun _ _ h => nomatch h
theorem tapeEndSensor : ∀ (active : Bool), Statement (.tapeEndSensor active) :=
  fun _ => fun _ _ h => nomatch h
theorem ringOpenTimeout : Statement .ringOpenTimeout := fun _ _ h => nomatch h
theorem enumerationWaitExpiry : Statement .enumerationWaitExpiry := fun _ _ h => nomatch h
theorem irCodeFrame : ∀ (elements : List IrElement), Statement (.irCodeFrame elements) :=
  fun _ => fun _ _ h => nomatch h
theorem irRepeatFrame : ∀ (elements : List IrElement), Statement (.irRepeatFrame elements) :=
  fun _ => fun _ _ h => nomatch h
theorem buttonPress : ∀ (button : Fin 3) (readBefore readNow : Bool), Statement (.buttonPress button readBefore readNow) :=
  fun _ _ _ => fun _ _ h => nomatch h
theorem buttonRelease : ∀ (button : Fin 3) (readBefore readNow : Bool), Statement (.buttonRelease button readBefore readNow) :=
  fun _ _ _ => fun _ _ h => nomatch h
theorem holdEnd : Statement .holdEnd := fun _ _ h => nomatch h
theorem keyRepeat : Statement .keyRepeat := fun _ _ h => nomatch h
theorem relayWaitExpiry : Statement .relayWaitExpiry := fun _ _ h => nomatch h
theorem pageOperationDone : Statement .pageOperationDone := fun _ _ h => nomatch h
theorem powerLoss : Statement .powerLoss := fun _ _ h => nomatch h
theorem dimmerPeriodStart : Statement .dimmerPeriodStart := fun _ _ h => nomatch h
theorem irFrameDiscarded : ∀ (elements : List IrElement), Statement (.irFrameDiscarded elements) :=
  fun _ => fun _ _ h => nomatch h

end Sys2Proof.Laws.NoWord
end

