-- ==== Sys2Proof/WellFormed.lean ====
section
/-! DEFINITION. Which commands the outside can send: the checks on operands that their types do not make. -/

namespace Sys2Proof

/-- An element the receiver can measure has some length (R191). -/
def IrElement.wf : IrElement → Bool
  | .burst n => 0 < n
  | .space n => 0 < n

/-- A sync arrives at one of the 128 bit times of a frame time (section 1.1); an infrared element has a length.
Every other operand is in range by its type. -/
def Instr.wf : Instr → Bool
  | .frameReceived _ sync => sync < 128
  | .irCodeFrame es => es.all IrElement.wf
  | .irRepeatFrame es => es.all IrElement.wf
  | .irFrameDiscarded es => es.all IrElement.wf
  | _ => true

end Sys2Proof
end

