-- ==== Sys2Proof/Tests/Slice0.lean ====
section
/-! SUPPORT. Tests: the well-formedness checks refuse ill-formed commands, worked values of spec/ and a few single
steps, and for each statement with hypotheses a state and operands that meet them. -/

namespace Sys2Proof.Tests

open Sys2Proof Sys2Proof.Machine

/-! ## Helpers -/

/-- A follower in LINKED that expects a frame number. -/
def linkedAt (n : Nat) : State :=
  { State.reset with link := { State.reset.link with state := .linked, expected := some n } }

/-- A frame with its right check. -/
def frame (n : Nat) (tag : SlotTag) (byte : Byte) : LinkFrame :=
  sealFrame
    { number := BitVec.ofNat 16 n, left := 1, right := 2, cue := 3, tag := tag, byte := byte, showRunning := true
      silent := false, broken := false, tapeEnd := false, check := 0 }

/-- A frame whose check is wrong. -/
def badFrame (n : Nat) : LinkFrame := { frame n .idle 0 with check := (frame n .idle 0).check + 1 }

/-- A message to the unit alone. -/
def note (kind : Byte) (payload : List Byte) : Message := { kind := kind, dest := 0x05, source := 0, payload := payload }

/-- A state with one message in its receive buffers. -/
def withNote (s : State) (m : Message) : State := { s with msg := { s.msg with rx := [m] } }

/-- A state with its changer replaced by one that differs in its state. -/
def trayIn (s : State) (t : TrayState) : State := { s with tray := { s.tray with state := t } }

/-- A motion of some steps forward. -/
def steps (n : Nat) : Motion := { direction := .forward, target := n, remaining := n, extra := 0, dark := false }

/-- A state with entries waiting. -/
def waiting (s : State) (es : List Action) : State :=
  { s with queue := { s.queue with entries := es.map fun a => { action := a, source := .link } } }

/-- A swap that waits with the lamp dark, its record FAILED. -/
def swapWaits (s : State) : State :=
  { s with lamp := { s.lamp with changer := .waitChanger, record0 := { status := .failed, minutes := 0 } } }

/-- With a head waiting, with a swap waiting, and with both. -/
def waiters : List (State → State) := [fun s => waiting s [.home], swapWaits, fun s => swapWaits (waiting s [.home])]

/-- A PAUSE that runs. -/
def paused (s : State) : State := { s with queue := { s.queue with pause := some { elapsed := 0, duration := 2550 } } }

/-- A master. -/
def masterUnit : State := { State.reset with link := LinkRx.powerOn .master 0 }

/-- A job in flight with one page being programmed. -/
def busyJob (k : JobKind) (page : Nat) (phase : PagePhase) : Job :=
  { kind := k, pages := [], op := some { page := page, contents := List.replicate 32 0, phase := phase, stopped := false } }

/-- A state with a job in flight. -/
def withJob (s : State) (j : Job) : State := { s with store := { s.store with job := some j } }

/-- An outcome is a next state that passes a test. -/
def nextMeets (o : Host.Outcome State Fault Refusal) (test : State → Bool) : Bool :=
  match o with
  | .next t => test t
  | _ => false

theorem ready_of (s : State) (h : (s.powered && s.quiet) = true) : s.Ready := by simpa [State.Ready] using h

/-! ## Well-formed and ill-formed commands -/

theorem test_sync_at_128_refused : Instr.wf (.frameReceived (frame 0 .idle 0) 128) = false := by decide
theorem test_sync_at_127_accepted : Instr.wf (.frameReceived (frame 0 .idle 0) 127) = true := by decide
theorem test_empty_burst_refused : Instr.wf (.irCodeFrame [.burst 0]) = false := by decide
theorem test_empty_space_refused : Instr.wf (.irRepeatFrame [.burst 4000, .space 0]) = false := by decide
theorem test_empty_element_refused : Instr.wf (.irFrameDiscarded [.space 0]) = false := by decide
theorem test_code_frame_accepted : Instr.wf (.irCodeFrame (codeElements (codeBits 0 1) 3000)) = true := by decide

/-! ## No word spells a command -/

theorem test_no_word : decodeTableWord 16 0x1234 = none := rfl

/-! ## Worked values of the spec -/

/-- Spec/01, enumerating a ring of three: count 1 leaves the first follower as 2, the other bytes unchanged. -/
theorem test_enumerate_count_rewritten :
    (forwardedBytes none [(.start, 0x01), (.body, 0xFF), (.body, 0x00), (.body, 0x01), (.body, 0x01)]) =
      [0x01, 0xFF, 0x00, 0x01, 0x02] := by decide

/-- Spec/03, setting a parameter out of range: WORD_GAP 30 gives 20. -/
theorem test_word_gap_clamped : Param.wordGap.clamp 30 = 20 := by decide

/-- Spec/03, setting a parameter out of range: TRIM_L −12 gives −7. -/
theorem test_trim_clamped : Param.trimL.clamp (BitVec.ofInt 32 (-12)) = BitVec.ofInt 32 (-7) := by decide

/-- Spec/04, a block of tone L: s1 = 120,000 and s2 = −40,000 give a power of 379,475. -/
theorem test_tone_power : tonePower .l { latest := 120000, before := -40000 } = 379475 := by decide

/-- Spec/04, a block of tone L: the verdict is L, and with PURITY 10 it is ABSENT. -/
theorem test_verdict :
    verdictOf 1024 6 2 327680 379475 20000 3100 950 false = some .l ∧
      verdictOf 1024 10 2 327680 379475 20000 3100 950 false = none := by decide

/-- Spec/04, a tie: two equal tones give ABSENT under DOMINANCE 0 and 1. -/
theorem test_tie :
    verdictOf 1024 6 0 60000 50000 50000 200 0 false = none ∧
      verdictOf 1024 6 1 60000 50000 50000 200 0 false = none := by decide

/-- R64's table: −17 conditions to −2 and −16 to −1. -/
theorem test_conditioned : conditioned (BitVec.ofInt 16 (-17)) = -2 ∧ conditioned (BitVec.ofInt 16 (-16)) = -1 := by
  decide

/-- Spec/08, one dissolve: 40 to 200 over 200 ticks stands at 101 after 77 on LINEAR, and 200 to 40 at 139. -/
theorem test_dissolve_levels :
    State.reset.lamp.dissolveLevel { start := 40, target := 200, duration := 200, loaded := false, elapsed := 77, restart := false } =
        101 ∧
      State.reset.lamp.dissolveLevel
          { start := 200, target := 40, duration := 200, loaded := false, elapsed := 77, restart := false } = 139 := by
  decide

/-- Spec/09, one output sample: step 12 makes −20000 into −10024 and 7531 into 3774. -/
theorem test_gain_rounds_down :
    scaleSample 12 (BitVec.ofInt 16 (-20000)) = BitVec.ofInt 16 (-10024) ∧ scaleSample 12 7531 = 3774 := by decide

/-- R175: each factor below step 0 is 32768 × 10^(−s/40) to the nearest integer. -/
theorem test_gain_factors :
    ∀ s ∈ (List.range 97).drop 1,
      (2 * gainFactor s - 1) ^ 40 * 10 ^ s ≤ 65536 ^ 40 ∧ 65536 ^ 40 < (2 * gainFactor s + 1) ^ 40 * 10 ^ s := by
  decide +kernel

/-- Spec/10, calibrating a deck: the three sums give −3, 1 and 7. -/
theorem test_trims : trimOf 529920 = -3 ∧ trimOf 523264 = 1 ∧ trimOf 506880 = 7 := by decide

/-- Spec/10, calibrating a deck: code 2070 with trim −3 gives −32, code 2044 with trim 1 gives 64. -/
theorem test_track_samples :
    (trackSample 2070 (-3)).toInt = -32 ∧ (trackSample 2044 1).toInt = 64 := by decide

/-- Spec/02, two units want the same slots: a unit at address 5 waits 40 frame times. -/
theorem test_retry_wait :
    nextMeets
      (exec .missingFrame
        { linkedAt 903 with
          link := { (linkedAt 903).link with address := some 5 }
          msg := { State.reset.msg with
            attempt := some { slots := [(.body, 0x00)], enumerate := false }
            replies := [{ kind := 0x80, dest := 0, payload := [0x02, 0] }] } })
      (fun t => decide (t.msg.wait = some { elapsed := 1, total := 40 })) = true := by decide

/-- R151, R152: the fan output's duties in RUNNING are 40, 70 and 100 hundredths, and 100 in STARTING. -/
theorem test_fan_duty :
    State.reset.fanDuty = 100 ∧
      ∀ x ∈ [(ThermalState.cold, 40), (.warm, 70), (.hot, 100)],
        ({ State.reset with mon := { State.reset.mon with fan := .running 0, thermal := x.1 } } : State).fanDuty = x.2 := by
  decide

/-- R126, R127: a HOME taken while UNHOMED is a carried action, which a jam of its homing discards. -/
theorem test_home_jam_discards :
    nextMeets
      (exec .seekExhausted
        { State.reset with tray := { State.reset.tray with state := .homing .seek, seekCount := 101, carried := some .home } })
      (fun t => t.latchedFlag .jam && t.latchedFlag .actionDiscarded) = true := by decide

/-- R159, R160, R182: the drives of the lamp changer motor and of the transport. -/
theorem test_drives :
    ({ State.reset with lamp := { State.reset.lamp with changer := .swapping 7 } } : State).lampMotor = true ∧
      State.reset.lampMotor = false ∧ Transport.playing.drive = .play ∧ Transport.windForward.drive = .fastForward ∧
      Transport.windBack.drive = .rewind ∧ Transport.atEnd.drive = .stopped := by decide

/-- R201: in page 254 every byte after the five checks holds 0xFF, whatever was stored there. -/
theorem test_checks_page_padded :
    (checksPage { State.reset with store := { State.reset.store with mem := [(254 * 32 + 10, 0), (254 * 32 + 31, 0)] } }
      .keys).drop 10 = List.replicate 22 0xFF := by rfl

/-! ## Witnesses: each theorem meets the hypotheses of the statement it is named after, clause by clause -/

theorem meets_StepRunsFrontCommand :
    ({ State.reset with pending := [.identify, .status] } : State).pending = .identify :: [.status] := rfl

theorem meets_IdleAndUnpoweredSteps :
    State.reset.pending = [] ∧ State.reset.Ready ∧ State.reset.msg.rx = [] ∧
      (∀ strap b0 b1 b2, Instr.identify ≠ .powerOnReset strap b0 b1 b2) ∧
      ({ State.reset with powered := false } : State).powered = false ∧
      (let s : State := { State.reset with cue := { State.reset.cue with state := .stuck, stuckCount := 2 } }
       s.powered = true ∧ s.cue.state = .stuck ∧ s.cue.stuckCount = 2) :=
  ⟨rfl, ready_of _ (by decide), rfl, by simp, rfl, by decide⟩

/-- A follower in LINKED whose next sync is due at a bit time. -/
def reckoned (r : Nat) : State := { linkedAt 0 with link := { (linkedAt 0).link with reckoning := some r } }

/-- The first and last number, in step and after a jump; syncs at both ends of the window after a frame at 0. -/
theorem meets_GoodFrameHandedOn :
    (∀ n, (linkedAt n).enumeratesAsMaster) ∧
      (∀ x ∈ [(0, 0), (63999, 63999), (5, 0), (5, 158), (63999, 160)],
        let s := linkedAt x.1
        let f := frame x.2 .idle 0
        s.Ready ∧ s.link.role = .follower ∧ s.link.state = .linked ∧ frameGood f = true ∧ f.broken = false ∧
          s.syncLate 64 = false ∧ (s.link.jumps f.number.toNat = true → f.number.toNat % 160 ≠ 159)) ∧
      (∀ sync ∈ [0, 4, 102, 123, 124, 127], (reckoned 0).syncLate sync = false) ∧
      (State.reset.enumeratesAsMaster ∧ State.reset.Ready ∧ State.reset.link.role = .follower ∧
        State.reset.link.state = .acquiring ∧ State.reset.syncLate 127 = false ∧ State.reset.link.jumps 63999 = false) := by
  refine ⟨fun n _ a h => by simp [linkedAt, State.reset, MsgUnit.powerOn] at h, ?_, by decide,
    fun _ a h => by simp [State.reset, MsgUnit.powerOn] at h, ?_⟩
  · unfold State.Ready; decide +kernel
  · unfold State.Ready; decide

/-- A follower in LINKED, its slot free, with messages in its reply queue. -/
def sendingWith (out : List OutMsg) : State :=
  { linkedAt 7 with msg := { State.reset.msg with slotFree := true, replies := out } }

/-- The same with slots of an attempt still to be written. -/
def sendingAttempt (slots : List (SlotTag × Byte)) : State :=
  { sendingWith [{ kind := 0x80, dest := 0, payload := [0x02, 0] }] with
    msg := { (sendingWith [{ kind := 0x80, dest := 0, payload := [0x02, 0] }]).msg with
      attempt := some { slots := slots, enumerate := false } } }

/-- A follower in LOST_FORWARDING with an attempt in progress. -/
def attempting (attempts : Nat) : State :=
  { linkedAt 7 with
    link := { (linkedAt 7).link with state := .lostForwarding }
    msg := { State.reset.msg with
      attempt := some { slots := [(.body, 0)], enumerate := false }, attempts := attempts
      replies := [{ kind := 0x80, dest := 0, payload := [0x02, 0] }] } }

/-- An attempt that outlived a link reset, or did not. -/
def outliving (last : Bool) (s : State) : State := { s with msg := { s.msg with lastTry := last } }

/-- Spec/02, R32 and R35: at the limit, 3 by default, the loss of an attempt that outlived a link reset latches TX_GIVEUP;
below it the message is discarded alone. -/
theorem test_outlived_attempt_given_up :
    ∀ x ∈ [(0, false), (2, true)],
      let t := (outliving true (attempting x.1)).loseAttempt
      t.msg.replies = [] ∧ t.msg.wait = none ∧ t.latchedFlag .txGiveup = x.2 := by
  decide +kernel

/-- An IDLE slot that was not free, one in a wait, one with nothing to send, one that begins a REPLY or a NOTICE, and
one that goes on or ends an attempt; a taken slot in LOST_FORWARDING. -/
theorem meets_GoodFrameForwarded :
    (∀ m ∈ [({ kind := 0x80, dest := 0, payload := [0x02, 0] } : OutMsg), { kind := 0x81, dest := 0, payload := [] }],
        let s := sendingWith [m]
        s.Ready ∧ s.link.role = .follower ∧ s.link.state = .linked ∧ s.syncLate 0 = false ∧ s.msg.slotFree = true ∧
          s.msg.attempt = none ∧ s.msg.wait = none ∧ s.msg.replies = m :: []) ∧
      (let s := sendingWith []
       s.Ready ∧ s.msg.slotFree = true ∧ s.msg.attempt = none ∧ s.msg.replies = [] ∧ s.events.attention = 0) ∧
      ((linkedAt 7).Ready ∧ (linkedAt 7).msg.attempt = none ∧ (linkedAt 7).msg.slotFree = false) ∧
      (let s : State := { sendingWith [] with msg := { (sendingWith []).msg with wait := some { elapsed := 1, total := 8 } } }
       s.Ready ∧ s.msg.attempt = none ∧ s.msg.wait ≠ none) ∧
      (∀ more ∈ [[], [((.done, 0x55) : SlotTag × Byte)]],
        let s := sendingAttempt ((.body, 0x02) :: more)
        s.Ready ∧ s.msg.attempt = some { slots := (.body, 0x02) :: more, enumerate := false }) ∧
      (frameGood (frame 7 .idle 0) = true ∧ (frame 7 .idle 0).tag = .idle) ∧
      ((attempting 0).Ready ∧ (attempting 0).link.state = .lostForwarding ∧ (attempting 0).link.tracking = none ∧
        frameGood (frame 7 .start 0x80) = true ∧ (frame 7 .start 0x80).tag ≠ .idle ∧ (frame 7 .start 0x80).byte ≠ 0x01) := by
  unfold State.Ready; decide +kernel

/-- A bad frame and a window without a sync; syncs at both ends of what comes too late. -/
theorem meets_BadFrameHandledInPlace :
    ((linkedAt 159).Ready ∧ (linkedAt 159).link.role = .follower ∧ (linkedAt 159).link.state = .linked ∧
        (linkedAt 159).syncLate 0 = false) ∧
      frameGood (badFrame 159) = false ∧
      (∀ x : LinkFrame × Nat, (none : Option (LinkFrame × Nat)) = some x → frameGood x.1 = false) ∧
      ({ linkedAt 63999 with link := { (linkedAt 63999).link with runCount := 15 } } : State).link.runCount = 15 ∧
      (∀ r ∈ [0, 100], (reckoned r).Ready ∧ (reckoned r).syncLate (r + 5) = true ∧ (reckoned r).syncLate (r + 101) = true ∧
        (reckoned r).syncLate (r + 4) = false ∧ (reckoned r).syncLate (r + 102) = false) :=
  ⟨⟨ready_of _ (by decide), rfl, rfl, by decide⟩, by decide +kernel, by simp, rfl, by unfold State.Ready; decide⟩

theorem meets_MasterTakesReturningFrame :
    masterUnit.Ready ∧ masterUnit.link.role = .master ∧ frameGood (frame 0 .idle 0) = true ∧
      masterUnit.syncLate 0 = false ∧ frameGood (badFrame 0) = false ∧
      (∀ n ∈ [14, 15, 255],
        let s : State := { masterUnit with link := { masterUnit.link with runCount := n } }
        (s.powered && s.quiet) = true ∧ s.link.role = .master ∧ s.link.runCount = n) :=
  ⟨ready_of _ (by decide), rfl, by decide +kernel, by decide, by decide +kernel, by decide⟩

/-- A follower whose last good frame was 32 frame times ago. -/
def losing : State := { State.reset with link := { State.reset.link with sinceGood := 32 } }

/-- A follower 200 ticks into a link loss, under HOLD and with SAFE_ACTION at DARK. -/
def unsafeLink (action : BitVec 32) : State :=
  State.setParam
    { State.reset with link := { State.reset.link with state := .lostOriginating, sinceGood := 32, showSafeCount := 200 } }
    .safeAction action

/-- A good frame flagged BROKEN. -/
def brokenFrame : LinkFrame := sealFrame { frame 7 .idle 0 with broken := true, check := 0 }

/-- Losses from ACQUIRING with nothing due, with a run of 16 due, and with a word due; the loss that goes on; frames
that begin and end a loss; show-safe under HOLD and DARK. -/
theorem meets_LinkLossAndShowSafe :
    (losing.powered = true ∧ losing.link.role = .follower ∧ 32 ≤ losing.link.sinceGood ∧
        losing.link.state = .acquiring ∧ losing.cue.completion = .none ∧ losing.cue.state = .ready) ∧
      (let s : State := { losing with cue := { losing.cue with state := .run .h 16 } }
       s.powered = true ∧ s.cue.state = .run .h 16 ∧ 16 ≤ 16 ∧ nextMeets (exec .stuckTone s) (fun _ => true) = true) ∧
      (let s : State := { losing with cue := { losing.cue with word := [⟨.m, true⟩], completion := .due } }
       s.powered = true ∧ s.cue.state = .ready ∧ nextMeets (exec .wordComplete s) (fun _ => true) = true) ∧
      (let s : State := { losing with link := { losing.link with state := .lostForwarding } }
       s.powered = true ∧ s.link.role = .follower ∧ 32 ≤ s.link.sinceGood ∧ s.link.state = .lostForwarding) ∧
      ((linkedAt 7).Ready ∧ (linkedAt 7).syncLate 0 = false ∧ frameGood brokenFrame = true ∧ brokenFrame.broken = true) ∧
      (State.reset.Ready ∧ State.reset.link.role = .follower ∧ State.reset.link.state = .acquiring ∧
        State.reset.syncLate 0 = false) ∧
      (∀ l ∈ [LinkState.lostForwarding, .lostOriginating],
        let s : State := { reckoned 0 with link := { (reckoned 0).link with state := l } }
        s.Ready ∧ s.link.role = .follower ∧ s.link.state = l ∧ s.syncLate 0 = false ∧ s.link.reckoning = some 0 ∧
          s.link.jumps 0 = false) ∧
      ((0 + 230 - 0 % 128) % 128 = 102 ∧ (26 + 230 - 0 % 128) % 128 = 0) ∧
      (∀ n ∈ [0, 1],
        let s := unsafeLink (BitVec.ofNat 32 n)
        s.powered = true ∧ s.inLoss = true ∧ s.link.showSafe = false ∧ 200 ≤ s.link.showSafeCount) ∧
      (unsafeLink 0).paramNat .safeAction = 0 ∧ (unsafeLink 1).paramNat .safeAction ≠ 0 ∧
      (unsafeLink 1).tray.state.busy = false := by
  unfold State.Ready; decide +kernel

/-- A follower in LOST_ORIGINATING. -/
def originating (m : MsgUnit) : State :=
  { State.reset with link := { State.reset.link with state := .lostOriginating, expected := some 63999 }, msg := m }

/-- With nothing to send, in a wait, at the start of a REPLY and of a NOTICE, and with an attempt going on or ending. -/
theorem meets_OriginatedFrameSent :
    let reply : OutMsg := { kind := 0x80, dest := 0, payload := [0x02, 0] }
    let notice : OutMsg := { kind := 0x81, dest := 0, payload := [] }
    (∀ m ∈ [MsgUnit.powerOn, { MsgUnit.powerOn with replies := [reply], wait := some { elapsed := 0, total := 8 } },
          { MsgUnit.powerOn with replies := [reply] }, { MsgUnit.powerOn with replies := [notice] }],
        (originating m).Ready ∧ (originating m).link.role = .follower ∧ (originating m).link.state = .lostOriginating ∧
          (originating m).msg.attempt = none) ∧
      (∀ more ∈ [[], [((.done, 0x55) : SlotTag × Byte)]],
        let s := originating { MsgUnit.powerOn with
          replies := [reply], attempt := some { slots := (.body, 0x02) :: more, enumerate := false } }
        s.Ready ∧ s.link.role = .follower ∧ s.msg.attempt = some { slots := (.body, 0x02) :: more, enumerate := false } ∧
          s.enumeratesAsMaster) ∧
      (originating MsgUnit.powerOn).enumeratesAsMaster ∧
      (∀ n, (originating MsgUnit.powerOn).link.expected = some n → n < 64000) := by
  refine ⟨by unfold State.Ready; decide, ?_, fun _ a h => by simp [originating, MsgUnit.powerOn] at h, ?_⟩
  · intro more hm
    refine ⟨?_, rfl, rfl, fun _ a h => by cases h; rfl⟩
    revert more
    unfold State.Ready; decide
  · intro n h; cases h; decide

theorem meets_EnumerateRewritten :
    ([] : List Byte).length ≤ 23 ∧ (List.replicate 23 (0 : Byte)).length ≤ 23 ∧
      (∀ l ∈ [LinkState.linked, .lostForwarding],
        let s : State := { linkedAt 7 with link := { (linkedAt 7).link with
          state := l, tracking := some { offset := 4, length := 1, checkIn := 0, checkOut := 0 } } }
        s.Ready ∧ s.link.role = .follower ∧ s.link.state = l ∧ s.syncLate 0 = false) ∧
      frameGood (frame 7 .body 0x01) = true ∧ (frame 7 .body 0x01).tag ≠ .idle ∧
      frameGood (frame 7 .idle 0) = true := by
  unfold State.Ready; decide +kernel

/-- The shortest and the longest message; a message of each kind the message unit tells apart. -/
theorem meets_MessageAssembled :
    (∀ n ∈ [0, 24], (note 0x02 (List.replicate n 0)).payload.length ≤ 24) ∧ State.reset.msg.assembly = none ∧
      (0 : Byte) ≠ messageCheck 0x00 (note 0x02 []).bytes ∧
      (note 0x02 []).kind ≠ 0x82 ∧ (note 0x01 [32]).payload = 32 :: [] ∧
      (note 0x82 (0x00 :: 0xFE :: recordOf .home)).payload = 0x00 :: 0xFE :: recordOf .home ∧
      (0xFE :: recordOf .home).length = 5 ∧ (1 < ((note 0x82 [2]).payload.headD 0).toNat) := by decide +kernel

/-- Below RETRY_LIMIT and at it, by a missing frame and by a foreign byte, an attempt that outlived a link reset or not;
a wait that runs, and one that has run out. -/
theorem meets_LostAttemptWaits :
    (∀ n ∈ [0, 2], ∀ last : Bool,
        let s := outliving last (attempting n)
        s.Ready ∧ s.link.role = .follower ∧ s.link.state = .lostForwarding ∧ s.link.runCount ≠ 15 ∧
          s.msg.attempt = some { slots := [(.body, 0)], enumerate := false } ∧ s.msg.lastTry = last ∧
          s.msg.wait = none ∧ s.syncLate 0 = false) ∧
      (frameGood (frame 7 .body 0x33) = true ∧ (frame 7 .body 0x33).tag ≠ .idle) ∧
      ((attempting 0).paramNat .retryLimit ≤ 2 + 1 ∧ ¬ (attempting 0).paramNat .retryLimit ≤ 1 + 1 ∧
        0 + 1 < (attempting 0).paramNat .retryLimit) ∧
      (∀ w ∈ [({ elapsed := 0, total := 8 } : RetryWait), { elapsed := 39, total := 40 }],
        let s : State := { linkedAt 7 with msg := { State.reset.msg with wait := some w } }
        s.Ready ∧ s.link.role = .follower ∧ s.msg.attempt = none ∧ s.msg.wait = some w) ∧
      (let s : State := { State.reset with msg := { State.reset.msg with wait := some { elapsed := 40, total := 40 } } }
       s.powered = true ∧ s.msg.wait = some { elapsed := 40, total := 40 } ∧ 40 ≤ 40) := by
  unfold State.Ready; decide +kernel

theorem oldest_of (s : State) (m : Message) (h : s.msg.heldReset = none) (r : s.placesUsed < 4) :
    (withNote s m).Oldest m [] :=
  ⟨rfl, h, fun _ => r⟩

/-- A message of any kind as the oldest buffer of a state right after reset, which stays ready: every statement about a
link command takes its state so, with what it needs besides. -/
theorem meets_Oldest (m : Message) : (withNote State.reset m).Ready ∧ (withNote State.reset m).Oldest m [] :=
  ⟨ready_of _ (by show (State.reset.powered && State.reset.quiet) = true; decide), oldest_of _ _ rfl (by decide)⟩

theorem meets_ReadingCommandsAnswer :
    (note 0x02 []).payload = [] ∧ (note 0x11 [byteOf Param.soundOut.id]).payload = [byteOf Param.soundOut.id] ∧
      (note 0x21 [byteOf (63 : Fin 64)]).payload = [byteOf (63 : Fin 64)] ∧
      (note 0x23 [byteOf (15 : Fin 16)]).payload = [byteOf (15 : Fin 16)] ∧ unknownKind (note 0x7F []) = true ∧
      (note 0x01 []).needsReply = true ∧ ({ note 0x01 [] with dest := 0xFF } : Message).dest = 0xFF := by decide

theorem meets_ManagementCommandsTakeEffect :
    State.reset.saving .settings = false ∧ (note 0x06 (bytesOf 4 0xFFFFFFFF)).payload = bytesOf 4 (0xFFFFFFFF : EventSet).toNat ∧
      (note 0x07 (bytesOf 4 0 ++ bytesOf 4 0x400)).payload =
        bytesOf 4 (0 : EventSet).toNat ++ bytesOf 4 (0x400 : EventSet).toNat := by decide

/-- A RESET held with an idle store. -/
def resetting : State :=
  { State.reset with
    msg := { State.reset.msg with held := true, heldReset := some (note 0x08 []) }
    tray := { State.reset.tray with state := .homing .seek, motor := some .forward } }

theorem meets_ResetHeldThenCarriedOut :
    resetting.powered = true ∧ resetting.msg.heldReset = some (note 0x08 []) ∧ resetting.store.job = none ∧
      resetting.store.pendingLamp0 = false ∧ resetting.store.pendingLamp1 = false ∧ resetting.msg.attempt = none ∧
      (note 0x08 []).needsReply = true ∧ resetting.tray.state.busy = true := by decide

/-- A command for every parameter, at the bottom and the top of what can be sent; the sense changes in IDLE with nothing
waiting. -/
theorem meets_SetParamClamps :
    (∀ p ∈ Param.all, ∀ n ∈ [0, 4294967295],
        (note 0x10 (byteOf p.id :: bytesOf 4 n)).payload = byteOf p.id :: bytesOf 4 (BitVec.ofNat 32 n).toNat) ∧
      State.reset.saving .settings = false ∧ Param.soundOut ≠ .muteMask ∧
      (let s := trayIn State.reset .idle
       s.tray.state = .idle ∧ s.NothingWaits) := by
  unfold State.NothingWaits; decide

theorem meets_RefusedCommandChangesNothing :
    (workOf 0x02).isSome = true ∧ (note 0x02 [1]).needsReply = true ∧
      (identify (note 0x02 [1]) State.reset).1.status ≠ .ok := by decide

/-- The greatest entries the tables take. -/
def fullCue : CueEntry :=
  { enabled := true, once := true, symbols := [⟨.t, true⟩, ⟨.l, false⟩, ⟨.h, true⟩], group := some 7, range := some (0, 99)
    actions := [.advance 99 true, .dissolve 255 2550 true, .gotoMark 63, .pause 2550] }

theorem fullCue_inRange : fullCue.inRange := by
  refine ⟨by decide, by decide, ?_, ?_, by decide, by decide, ?_⟩
  · intro g h; cases h; decide
  · intro r h; cases h; decide
  · intro a h
    simp only [fullCue, List.mem_cons, List.not_mem_nil, or_false] at h
    rcases h with rfl | rfl | rfl | rfl <;> simp [Action.inRange]

theorem meets_TableLoadsReplaceEntry :
    fullCue.inRange ∧ (note 0x20 (byteOf (63 : Fin 64) :: cueBytes fullCue)).payload = byteOf (63 : Fin 64) :: cueBytes fullCue ∧
      State.reset.saving .cues = false ∧ KeyEntry.blank.action.inRange ∧ State.reset.saving .keys = false :=
  ⟨fullCue_inRange, rfl, by decide, trivial, by decide⟩

theorem meets_RecordsRoundTrip : Action.inRange (.reverse 99 true) ∧ Action.inRange (.dissolve 255 2550 true) ∧ fullCue.inRange :=
  ⟨⟨by decide, by decide⟩, ⟨by decide, by decide⟩, fullCue_inRange⟩

theorem meets_SlotMapLoadedAndRead :
    (∀ x ∈ [(0, 8), (99, 1), (92, 8)],
        let entries := List.replicate x.2 (0xBF : Byte)
        1 ≤ entries.length ∧ entries.length ≤ 8 ∧ x.1 + entries.length ≤ 100 ∧ (∀ b ∈ entries, b.getLsbD 6 = false)) ∧
      State.reset.saving .slots = false ∧ (∀ q ∈ [(99 : Byte), 0xFF], q.toNat ≤ 99 ∨ q = 0xFF) := by decide

theorem meets_CurveSegmentLoaded :
    (∀ seg ∈ [0, 4], seg ≤ 4) ∧ (List.replicate 8 65535).length = 8 ∧ (∀ x ∈ List.replicate 8 65535, x < 65536) ∧
      State.reset.saving .curve = false := by decide

/-- A state with an entry that waits. -/
def oneWaits : State := waiting State.reset [.home]

theorem meets_ActionCommands :
    (∀ n ∈ [1, 15], (waiting State.reset (List.replicate n .home)).queue.entries ≠ [] ∧
        (waiting State.reset (List.replicate n .home)).queue.entries.length < 16) ∧
      (waiting State.reset (List.replicate 16 .home)).queue.entries.length = 16 ∧
      actionOfBytes (note 0x30 [0x0D, 0, 0x0A, 0]).payload = some (.pause 2550) ∧ (note 0x30 []).needsReply = true ∧
      State.reset.lamp.changer ≠ .waitChanger ∧
      (State.reset.queue.entries = [] ∧ State.reset.queue.pause = none ∧ (paused State.reset).Ready ∧
        (paused State.reset).queue.entries = [] ∧ (paused State.reset).queue.pause ≠ none) ∧
      (let s := trayIn State.reset .idle
       s.Ready ∧ s.tray.choose (.goto 50) = .motion (motionTo .forward 0 50) ∧ s.tray.state = .idle ∧
         s.lamp.changer.isSwapping = false ∧ s.mon.supply ≠ .critical ∧ s.tray.closedSwitch = false) ∧
      (∀ x ∈ [TrayState.changing .lower, .changing .shutterOpen, .suspended (.home .seek)],
        let s := swapWaits (trayIn State.reset x)
        s.Ready ∧ s.lamp.changer = .waitChanger ∧ s.tray.state.busy = true ∧ s.lamp.applied = 0) ∧
      (let s : State := { State.reset with lamp := { State.reset.lamp with changer := .jammed } }
       s.Ready ∧ s.tray.state ≠ .jammed ∧ s.lamp.changer = .jammed) ∧
      (∀ f ∈ waiters,
        let s := f (trayIn State.reset .jammed)
        s.Ready ∧ s.tray.state = .jammed ∧ s.tray.motion = none ∧ s.tray.current = none ∧ s.tray.carried = none) ∧
      (let s := trayIn State.reset .jammed
       s.tray.state = .jammed ∧ s.tray.motion = none ∧ s.tray.current = none ∧ s.tray.carried = none ∧ s.NothingWaits) := by
  unfold State.NothingWaits State.Ready; decide +kernel

theorem meets_SaveAndProtect :
    State.reset.store.job = none ∧ State.reset.mon.supply ≠ .critical ∧
      ({ State.reset with mon := { State.reset.mon with supply := .critical } } : State).mon.supply = .critical ∧
      (∀ r ∈ [Region.settings, .cues, .keys, .slots, .curve],
        State.reset.store.protection.getLsbD (regionCode r) = false ∧
          regionPage State.reset r 0 ≠ State.reset.store.mem.page (regionPages r).1) ∧
      (∀ set ∈ [(0 : Byte), 31], set.toNat < 32 ∧ protectionPage set ≠ State.reset.store.mem.page 255) ∧
      (let s : State := { State.reset with store := { State.reset.store with protection := 0x10 } }
       s.store.protection.getLsbD (regionCode .curve) = true) ∧
      (∀ r ∈ [Region.settings, .cues, .keys, .slots, .curve],
        let s := withJob State.reset (busyJob (.save r) 4 .program)
        s.store.job ≠ none ∧ s.saving r = true) ∧
      fullCue.inRange ∧ (0x8F : Byte).getLsbD 6 = false := by
  refine ⟨by decide, by decide, by decide, by decide, by decide, by decide, by decide, fullCue_inRange, by decide⟩

/-- The SETTINGS pages right after reset, written out. -/
def settingsPages : ShowMem :=
  (List.range 4).foldl (fun (m : ShowMem) k => m.writePage k (regionPage State.reset .settings k)) []

/-- A store that holds the SETTINGS pages and their check as a SAVE would leave them. -/
def settingsSaved : State :=
  { State.reset with store := { State.reset.store with
      mem := settingsPages.writePage 254 (bytesOf 2 (crc16 (regionContents State.reset .settings)).toNat) } }

/-- A SAVE of SETTINGS that has nothing to write. -/
theorem meets_SaveAndProtect_equal :
    ∀ q ∈ jobPages (.save .settings), jobContents settingsSaved (.save .settings) q = settingsSaved.store.mem.page q := by
  have wf : settingsPages.wf = true := by decide +kernel
  have page (q : Nat) := ShowMem.page_writePage wf 254 q
    (bytesOf 2 (crc16 (regionContents State.reset .settings)).toNat)
  have first : ∀ q ∈ [0, 1, 2, 3], regionPage State.reset .settings q = settingsPages.page q := by decide +kernel
  have same (q : Nat) : regionPage settingsSaved .settings q = regionPage State.reset .settings q := by
    simp only [regionPage, regionBytes, settingsSaved]
  have check : regionContents settingsSaved .settings = regionContents State.reset .settings := by
    simp only [regionContents, same]
  have mem : settingsSaved.store.mem =
      settingsPages.writePage 254 (bytesOf 2 (crc16 (regionContents State.reset .settings)).toNat) := by
    simp only [settingsSaved]
  generalize hc : crc16 (regionContents State.reset .settings) = c at page mem check
  intro q hq
  rw [mem, page]
  by_cases h : q = 254
  · subst h
    simp only [jobContents, checksPage, mem, page, check, hc, if_true, regionCode]
    rfl
  · have hp : q ∈ [0, 1, 2, 3] := by
      have hq : q ∈ [0, 1, 2, 3, 254] := hq
      simp at hq ⊢
      omega
    simp only [jobContents, if_neg h, regionPages, Nat.sub_zero, same]
    exact first q hp

/-- A page stopped by the supply and one left broken; each lamp as the one replaced and as the active one, of a FAILED
record, with a changer at rest and in motion, a job in flight and an idle store. -/
theorem meets_StoreReadAndLampReplaced :
    (∀ half ∈ [(0 : Byte), 1], half.toNat ≤ 1) ∧
      (let op : PageOp := { page := 255, contents := protectionPage 0x1F, phase := .erase, stopped := true }
       let j : Job := { kind := .protect 0x1F, pages := [], op := some op }
       let s : State := { withJob State.reset j with mon := { State.reset.mon with supply := .critical } }
       s.Ready ∧ s.store.job = some j ∧ op.page = (255 : Byte).toNat) ∧
      (let s : State := { State.reset with store := { State.reset.store with broken := [255] } }
       s.Ready ∧ 255 ∈ s.store.broken ∧ s.store.job = none) ∧
      (∀ n : LampNo, ∀ x ∈ [TrayState.idle, .changing .lower],
        let s : State := { trayIn State.reset x with lamp :=
          { State.reset.lamp with
            active := n.other, record0 := { status := .failed, minutes := 7 }, record1 := { status := .failed, minutes := 7 } } }
        s.Ready ∧ n ≠ s.lamp.active ∧ (s.lamp.record s.lamp.active).status = .failed ∧ s.paramNat .autoSwap ≠ 0 ∧
          s.lamp.changer = .idle ∧ s.lamp.applied = 0 ∧ s.store.job = none ∧
          (withJob s (busyJob (.save .cues) 4 .program)).Ready ∧
          (withJob s (busyJob (.save .cues) 4 .program)).store.job ≠ none) ∧
      State.reset.lamp.active = .lamp0 ∧ State.reset.lamp.record0.status ≠ .failed ∧ State.reset.mon.supply ≠ .critical ∧
      (∀ p ∈ [82, 83], lampPage { status := .ok, minutes := 0 } ≠ State.reset.store.mem.page p) := by
  refine ⟨by decide, by unfold State.Ready; decide, by unfold State.Ready; decide, ?_, by decide, by decide, by decide,
    by decide +kernel⟩
  intro n
  cases n <;> (unfold State.Ready; decide)

/-- A master with a calibration of its last reading. -/
def calibrating (k : Calibration) : State := { masterUnit with tape := { masterUnit.tape with calibration := some k } }

theorem meets_CalibrationBeginsAndEnds :
    State.reset.link.role = .follower ∧ masterUnit.link.role = .master ∧
      (∀ sum ∈ [0, 523264, 1048320],
        let c : Calibration := { count := 256, sumLeft := sum, sumRight := sum, sumCue := sum }
        (calibrating c).powered = true ∧ (calibrating c).tape.calibration = some c ∧ 256 ≤ c.count) := by decide

/-- A missing frame at the last place of a block, and every state in which a frame may find the detector. -/
theorem meets_DamagedBlockHoldsVerdict :
    (let s : State := { linkedAt 159 with det := { Detector.restart with state := .inBlock 0 } }
     s.Ready ∧ s.link.role = .follower ∧ s.link.state = .linked ∧ s.det.state = .inBlock 0 ∧ s.link.expected = some 159 ∧
       159 % 160 = 159) ∧
      (∀ d ∈ [DetState.waiting, .boundary, .inBlock 0, .inBlock 399],
        let s : State := { linkedAt 0 with det := { Detector.restart with state := d } }
        s.Ready ∧ s.det.state = d) ∧
      (1 % 160 ≠ 0 ∧ 63840 % 160 = 0 ∧ 63999 / 160 = 399 ∧ 160 / 160 ≠ 0 ∧ 160 % 160 ≠ 159) := by
  unfold State.Ready; decide

/-- READY and the gap of a word; a run of each length with each kind of word behind it, and a gap about to fill. -/
theorem meets_RunBecomesSymbol :
    let ready := State.reset.cue
    let short : Symbol := { tone := .l, long := false }
    let gap (n : Nat) (w : List Symbol) : CueEngine := { ready with state := .gap, word := w, gap := n }
    let run (n g : Nat) (w : List Symbol) (marked : Bool) : CueEngine :=
      { ready with state := .run .m n, word := w, discarding := marked, gap := g }
    (ready.state = .ready ∧ ready.word = [] ∧ ready.discarding = false ∧ ready.gap = 0 ∧ ready.completion = .none) ∧
      (∀ n ∈ [0, 2], ∀ w ∈ [[short], [short, short]],
        (gap n w).state = .gap ∧ (gap n w).word.length ≤ 2 ∧ (gap n w).gap < 3 ∧ (gap n w).completion = .none) ∧
      (∀ x ∈ [(3, 2, 3), (20, 15, 1), (20, 6, 20)],
        3 ≤ x.1 ∧ x.1 ≤ 20 ∧ 2 ≤ x.2.1 ∧ x.2.1 ≤ 15 ∧ 1 ≤ x.2.2 ∧ x.2.2 ≤ x.1) ∧
      (∀ n ∈ [1, 2, 15], ∀ w ∈ [[], [short, short], [short, short, short]], ∀ marked : Bool,
        let c := run n 0 w marked
        c.state = .run .m n ∧ c.completion = .none ∧ c.word.length ≤ 3 ∧ c.discarding = marked ∧ c.word = w ∧
          (none : Verdict) ≠ some .m ∧ (some .h : Verdict) ≠ some .m) ∧
      (∀ x ∈ [(1, true), (2, false), (20, false)],
        (run 1 x.1 [short] false).gap = x.1 ∧ (min 20 (x.1 + 1) < 3 ↔ x.2 = true)) ∧
      ((gap 3 [short]).gap = 3 ∧ (gap 2 [short]).gap < 3) := by
  decide

theorem meets_StuckToneBeginsAndEnds :
    let run : State := { State.reset with cue := { State.reset.cue with state := .run .h 16 } }
    let stuck (n : Nat) : State := { State.reset with cue := { State.reset.cue with state := .stuck, stuckCount := n } }
    (run.powered = true ∧ run.cue.state = .run .h 16 ∧ 16 ≤ 16) ∧
      ((stuck 1).cue.state = .stuck ∧ (stuck 1).cue.stuckCount ≤ 1) ∧
      ((stuck 2).powered = true ∧ (stuck 2).cue.state = .stuck ∧ (stuck 2).cue.stuckCount = 2) := by decide

/-- A word of one symbol that has completed, entry 63 of the table its only entry, with entries waiting. -/
def wordDue (discarding : Bool) (entries : Nat) : State :=
  { waiting State.reset (List.replicate entries .home) with
    cue := { State.reset.cue with
      state := .ready, word := [⟨.m, true⟩], discarding := discarding, completion := .due
      table := State.reset.cue.table.set 63
        { CueEntry.default with enabled := true, symbols := [⟨.m, true⟩], once := true } } }

theorem meets_WordLookedUp :
    (∀ n ∈ [0, 1, 15, 16], ∀ d : Bool,
        let s := wordDue d n
        s.powered = true ∧ s.cue.completion = .due ∧ s.saving .cues = false ∧ s.queue.pause = none ∧
          s.queue.entries.length = n ∧ n ≤ 16 ∧ s.cue.discarding = d) ∧
      (let s := wordDue false 16
       (s.cue.table[63].enabled = true ∧ 63 ∉ s.cue.pendingClears ∧ s.cue.table[63].symbols = s.cue.word ∧
          s.cue.table[63].group = none ∧ s.cue.table[63].range = none) ∧
        ∀ j : Fin 64, j < 63 → s.cue.table[j].enabled = false) ∧
      (let s := wordDue false 1
       let unlisted : State := { s with cue := { s.cue with word := [⟨.t, false⟩] } }
       ∀ i : Fin 64, ¬ (unlisted.cue.table[i].enabled = true ∧ unlisted.cue.table[i].symbols = unlisted.cue.word)) := by
  decide

/-- Entries behind a PAUSE that has run out. -/
def pausing (s : State) (es : List Action) : State :=
  { waiting s es with queue := { (waiting s es).queue with pause := some { elapsed := 2550, duration := 2550 } } }

/-- A queue behind a PAUSE that has run out: empty, with each kind of head, and with a changer that takes or holds it. -/
theorem meets_QueueOffersHead :
    (let p : PauseTimer := { elapsed := 2550, duration := 2550 }
     ∀ es ∈ [[], [.audio 96], [.mute true], [.mark 255], [.lamp 255], [.dissolve 0 0 true], [.dissolve 255 2550 false],
         [.tape .play], [.pause 1, .home]],
       let s := pausing State.reset es
       s.powered = true ∧ s.queue.pause = some p ∧ p.duration ≤ p.elapsed ∧ s.lamp.changer ≠ .waitChanger ∧
         s.queue.entries = es.map fun a => { action := a, source := .link }) ∧
      (let s := pausing (trayIn State.reset (.homing .seek)) [.home]
       s.queue.entries = { action := .home, source := .link } :: [] ∧ Action.home.forChanger = true ∧
         s.tray.state.busy = true) ∧
      (let s : State := pausing (trayIn State.reset .idle) [.goto 3]
       s.tray.choose (.goto 3) = .motion (motionTo .forward 0 3) ∧ s.tray.state = .idle ∧
         s.lamp.changer.isSwapping = false ∧ s.mon.supply ≠ .critical ∧ s.tray.closedSwitch = false) ∧
      (State.reset.tray.state = .unhomed ∧ Action.home.forChanger = true) ∧
      (masterUnit.link.role = .master ∧ State.reset.link.role = .follower ∧
        (∀ n ∈ [255, 256],
          let k : Calibration := { count := n, sumLeft := 0, sumRight := 0, sumCue := 0 }
          (calibrating k).tape.calibration = some k ∧ (calibrating k).tape.transport = .stopped ∧
            nextMeets (exec .calibrationComplete (calibrating k)) (fun _ => true) = true)) ∧
      (let s := waiting (trayIn State.reset .jammed) (List.replicate 16 .home)
       s.queue.pause = none ∧ s.lamp.changer ≠ .waitChanger ∧ s.tray.state = .jammed ∧ s.queue.entries ≠ [] ∧
         ∀ e ∈ s.queue.entries, e.action.forChanger = true) ∧
      (let s := waiting (trayIn State.reset (.homing .seek)) [.home]
       s.queue.pause = none ∧ s.lamp.changer ≠ .waitChanger ∧
         s.queue.entries = { action := .home, source := .link } :: [] ∧ Action.home.forChanger = true ∧
         s.tray.state ≠ .jammed ∧ s.tray.state.busy = true) := by decide

/-- A step from the state after reset, with nothing waiting: the state meets every invariant and the step is one. -/
theorem meets_EveryStep :
    State.reset.countsBalance ∧ State.reset.neverTogether ∧ State.reset.shutterHeld ∧ State.reset.positionMeaning ∧
      State.reset.lampSafe ∧ State.reset.fanKept ∧ State.reset.storeCanonical ∧ State.reset.withinCapacity ∧
      State.reset.enumeratesAsMaster ∧
      nextMeets (step { State.reset with pending := [.fanTachPulse] }) (fun t => decide (t.mon.fan = .running 0)) = true := by
  refine ⟨?_, ?_, ?_, ?_, ?_, ?_, ?_, ?_, ?_, by decide⟩
  · unfold State.countsBalance; decide
  · unfold State.neverTogether; decide
  · unfold State.shutterHeld; decide
  · unfold State.positionMeaning; decide
  · unfold State.lampSafe; decide
  · unfold State.fanKept; decide
  · unfold State.storeCanonical; decide
  · unfold State.withinCapacity; decide
  · intro _ a h; simp [State.reset, MsgUnit.powerOn] at h

/-- A tray at a place, the places of a list carrying mark 7 and every place with its skip flag or none. -/
def markedTray (position : Nat) (marked : List Nat) (skip : Bool) : Tray :=
  { State.reset.tray with
    state := .idle, valid := true, position := position
    slots := Vector.ofFn fun i =>
      { SlotEntry.blank with skip := skip, mark := if i.val ∈ marked then 7 else 0 } }

/-- Eligible places and none; the mark at the nearest and at the farthest place searched, at the current place only and
nowhere; a PAUSE that has run before an action without a target. -/
theorem meets_TargetIsNthEligible :
    (State.reset.tray.position < 100 ∧ 1 ≤ 99 ∧ State.reset.tray.eligible true 99 = true ∧
        State.reset.tray.eligible false 0 = false) ∧
      ((List.range 100).all fun q => !(markedTray 5 [] true).eligible false q) = true ∧
      (∀ k ∈ [1, 99],
        ((markedTray 5 [(5 + k) % 100] false).slots.getD ((5 + k) % 100) SlotEntry.blank).mark = 7) ∧
      (∀ marked ∈ [[], [5]],
        ((List.range 99).all fun j =>
          decide (((markedTray 5 marked false).slots.getD ((5 + (j + 1)) % 100) SlotEntry.blank).mark ≠ 7)) = true) ∧
      (∀ a ∈ [Action.advance 1 false, .reverse 99 true, .gotoMark 7],
        let s : State := { waiting State.reset [a] with tray := markedTray 5 [5] true }
        let t : State := { s with queue := { s.queue with pause := some { elapsed := 3, duration := 3 } } }
        t.powered = true ∧ t.queue.entries = [{ action := a, source := .link }] ∧ t.lamp.changer = .idle ∧
          t.tray.state = .idle ∧ t.mon.supply ≠ .critical ∧
          (t.tray.choose a = .trayEmpty ∨ t.tray.choose a = .noMark)) := by decide +kernel

/-- Every distance, from the home position and from the last. -/
theorem meets_GotoTakesShorterWay :
    (∀ p ∈ [0, 1, 50, 51, 99], State.reset.tray.position < 100 ∧ p < 100) ∧
      ∀ p ∈ [0, 99],
        let i := trayIn State.reset .idle
        let s : State := { i with
          tray := { i.tray with position := p }
          queue := { i.queue with
            pause := some { elapsed := 1, duration := 1 }, entries := [{ action := .goto p, source := .key }] } }
        s.powered = true ∧ s.queue.pause = some { elapsed := 1, duration := 1 } ∧ s.tray.position = p ∧ p < 100 ∧
          s.queue.entries = [{ action := .goto p, source := .key }] ∧ s.lamp.changer ≠ .waitChanger ∧
          s.lamp.changer.isSwapping = false ∧ s.tray.state = .idle ∧ s.mon.supply ≠ .critical := by decide

/-- A changer in a state with a motion, and one of its own drives as it needs. -/
def moving (t : TrayState) (m : Motion) (motor : Option Direction) : State :=
  { State.reset with tray := { State.reset.tray with state := t, motion := some m, motor := motor } }

/-- An INDEX about to meet the home mark. -/
def resyncing (valid : Bool) (position : Nat) (sense : Option Sense) (m : Motion) : State :=
  { moving (.changing .index) m (some .forward) with
    tray := { (moving (.changing .index) m (some .forward)).tray with
      valid := valid, position := position, sense := sense } }

theorem meets_ChangeMovesTrayOrSuspends :
    (∀ t ∈ [TrayState.changing .shutterClose, .changing .lower], ∀ n ∈ [1, 99],
        let s := moving t (steps n) none
        s.Ready ∧ s.mon.supply ≠ .critical ∧ s.tray.motion = some (steps n) ∧ s.tray.downSwitch = false ∧
          (steps n).remaining ≠ 0) ∧
      (∀ n ∈ [1, 2, 99],
        let s := moving (.changing .index) (steps n) (some .forward)
        s.Ready ∧ s.mon.supply ≠ .critical ∧ s.tray.motion = some (steps n) ∧ s.tray.state = .changing .index ∧
          s.tray.motor ≠ none ∧ s.tray.cut = false ∧ s.tray.upSwitch = false) ∧
      (∀ valid : Bool, ∀ position ∈ [99, 5], ∀ sense ∈ [none, some Sense.normal],
        let s := resyncing valid position sense (steps 3)
        s.Ready ∧ s.mon.supply ≠ .critical ∧ s.tray.motion = some (steps 3) ∧ s.tray.state = .changing .index ∧
          s.tray.motor ≠ none ∧ s.tray.cut = false ∧ 2 ≤ (steps 3).remaining ∧ s.tray.upSwitch = false ∧
          s.tray.valid = valid ∧ (stepFrom .forward position = 0 ↔ position = 99) ∧
          distanceIn .forward 0 (steps 3).target ≠ 0 ∧ distanceIn .forward 0 0 = 0 ∧
          (s.tray.sense = some (if s.paramNat .traySense = 0 then .normal else .reversed) ↔ sense ≠ none)) ∧
      (∀ cut : Bool,
        let m := moving (.changing .index) (steps 9) (some .forward)
        let s : State := { m with tray := { m.tray with cut := cut } }
        s.Ready ∧ s.tray.cut = cut ∧ s.tray.motor ≠ none ∧ s.tray.motion = some (steps 9) ∧ s.tray.upSwitch = false) := by
  unfold State.Ready; decide

/-- A state under a CRITICAL supply. -/
def critical (s : State) : State := { s with mon := { s.mon with supply := .critical } }

/-- Each phase about to end under a CRITICAL supply; the raised position shown and not, before and at the last extra
step. -/
theorem meets_ChangeMovesTrayOrSuspends_critical :
    (∀ t ∈ [TrayState.changing .shutterClose, .changing .lower, .changing .index], ∀ n ∈ [1, 2],
        let s := critical (moving t (steps n) (some .forward))
        s.Ready ∧ s.mon.supply = .critical ∧ s.tray.state = t ∧ s.tray.motor ≠ none ∧ s.tray.motion = some (steps n)) ∧
      (∀ x ∈ [(98, true), (98, false), (99, false)],
        let m : Motion := { steps 0 with extra := x.1 }
        let r := critical (moving (.changing .raise) m none)
        let s : State := { r with tray := { r.tray with
          current := some (.advance 1 true), valid := true, position := if x.2 then 99 else 0 } }
        s.Ready ∧ s.mon.supply = .critical ∧ s.tray.state = .changing .raise ∧ s.tray.motion = some m ∧
          s.tray.position < 100 ∧ wantsSlide s.tray.current = true ∧ s.tray.valid = true ∧ s.tray.cut = false ∧
          (s.tray.position ≠ 0 ↔ x.2 = true) ∧ (s.tray.slot s.tray.position).skip = false) ∧
      (let r := critical (moving (.changing .settle) (steps 0) none)
       let s : State := { r with tray := { r.tray with timer := 15 } }
       s.powered = true ∧ s.mon.supply = .critical ∧ s.tray.state = .changing .settle ∧ 15 ≤ s.tray.timer ∧
         s.tray.holdDark = false ∧ s.mon.thermal ≠ .overheat ∧ s.tray.motion = some (steps 0) ∧
         (steps 0).dark = false) ∧
      (let s := critical (resyncing true 5 none (steps 3))
       s.Ready ∧ s.mon.supply = .critical ∧ s.tray.cut = false ∧ 2 ≤ (steps 3).remaining ∧
         s.tray.motion = some (steps 3)) := by
  unfold State.Ready; decide

/-- A RAISE under a STOP's cut, one without a valid position, and an end under a CRITICAL supply. -/
theorem meets_ChangeEndsShowingSlide_cut :
    (∀ x ∈ [(true, true), (false, false)],
        let m := moving (.changing .raise) (steps 0) none
        let s : State := { m with tray := { m.tray with current := some (.advance 1 true), cut := x.1, valid := x.2 } }
        s.Ready ∧ s.mon.supply ≠ .critical ∧ wantsSlide s.tray.current = true ∧
          (s.tray.cut = true ∨ s.tray.valid = false)) ∧
      (let s := critical (moving (.changing .shutterOpen) (steps 0) none)
       s.Ready ∧ s.tray.motion = some (steps 0) ∧ s.NothingWaits) := by
  unfold State.Ready State.NothingWaits; decide

theorem meets_ChangeEndsShowingSlide :
    (∀ t ∈ [TrayState.changing .raise, .changing .shutterOpen],
        let s := moving t (steps 0) none
        s.Ready ∧ s.mon.supply ≠ .critical ∧ s.tray.motion = some (steps 0) ∧ wantsSlide s.tray.current = false ∧
          s.NothingWaits) ∧
      (∀ n ∈ [0, 98, 99], ∀ q ∈ [0, 99],
        let m : Motion := { steps 0 with extra := n }
        let s : State := { moving (.changing .raise) m none with
          tray := { (moving (.changing .raise) m none).tray with
            current := some (.reverse 1 true), valid := true, position := q } }
        s.Ready ∧ s.mon.supply ≠ .critical ∧ s.tray.motion = some m ∧ s.tray.state = .changing .raise ∧
          s.tray.current = some (.reverse 1 true) ∧ s.tray.valid = true ∧ s.tray.cut = false ∧ s.tray.position < 100 ∧
          (s.tray.slot s.tray.position).skip = false) ∧
      (let s : State := { moving (.changing .settle) (steps 0) none with
        tray := { (moving (.changing .settle) (steps 0) none).tray with timer := 15 } }
       s.powered = true ∧ s.mon.supply ≠ .critical ∧ s.tray.motion = some (steps 0) ∧
         s.tray.state = .changing .settle ∧ 15 ≤ s.tray.timer ∧ (steps 0).dark = false ∧ s.tray.holdDark = false ∧
         s.mon.thermal ≠ .overheat ∧ s.tray.openSwitch = false ∧ s.NothingWaits ∧
         ({ s with mon := { s.mon with thermal := .overheat } } : State).mon.thermal = .overheat) := by
  unfold State.Ready State.NothingWaits; decide

/-- A homing in a phase. -/
def homing (p : HomePhase) (seek : Nat) : State :=
  { State.reset with tray := { State.reset.tray with
      state := .homing p, motor := some .forward, sense := some .normal, seekCount := seek } }

/-- A homing with an action carried. -/
def carrying (p : HomePhase) (seek : Nat) (a : Option Action) : State :=
  { homing p seek with tray := { (homing p seek).tray with carried := a } }

/-- SEEK with nothing, HOME, SHUTTER or another action carried, the senses agreeing or not; RAISE with them. -/
theorem meets_HomingFindsMark :
    (∀ n ∈ [0, 100], ∀ a ∈ [none, some Action.home, some (.shutter true), some (.goto 3)],
        let s := carrying .seek n a
        s.Ready ∧ s.mon.supply ≠ .critical ∧ s.tray.state = .homing .seek ∧ s.tray.motor ≠ none ∧ s.tray.cut = false ∧
          s.tray.carried = a ∧ s.tray.sense = some s.traySense ∧ s.tray.upSwitch = false ∧ s.NothingWaits ∧
          ({ s with tray := { s.tray with sense := some .reversed } } : State).tray.sense ≠ some s.traySense) ∧
      ({ (carrying .seek 0 none).tray with position := 0, valid := true } : Tray).choose (.goto 3) =
        .motion (motionTo .forward 0 3) ∧ (motionTo .forward 0 3).remaining ≠ 0 ∧
      (∀ a ∈ [none, some Action.home, some (.shutter false)],
        let s : State := { carrying .raise 0 a with tray := { (carrying .raise 0 a).tray with valid := true } }
        s.Ready ∧ s.tray.state = .homing .raise ∧ s.tray.carried = a ∧ s.tray.valid = true ∧ s.NothingWaits) := by
  unfold State.Ready State.NothingWaits; decide

/-- Each phase before the home mark, cut or not, with the supply CRITICAL or not and the gate down or not; a carried
action of each kind that has no motion. -/
theorem meets_HomingFindsMark_phases :
    (∀ p ∈ [HomePhase.shutterClose, .lower, .seek], ∀ cut : Bool, ∀ f ∈ [id, critical], ∀ n ∈ [99, 100],
        let h := f (homing p n)
        let s : State := { h with tray := { h.tray with cut := cut, downSwitch := decide (n = 99) } }
        s.Ready ∧ s.tray.state = .homing p ∧ s.tray.cut = cut ∧ s.tray.motor ≠ none ∧ s.tray.seekCount = n ∧
          s.tray.downSwitch = decide (n = 99) ∧ s.lamp.changer ≠ .waitChanger) ∧
      (∀ f ∈ [id, critical], ∀ a ∈ [Action.goto 0, .gotoMark 63, .advance 1 false],
        let s := f (carrying .seek 3 (some a))
        s.Ready ∧ s.tray.carried = some a ∧ a.forChanger = true ∧ a ≠ .home ∧ (∀ close, a ≠ .shutter close) ∧
          s.tray.sense = some s.traySense ∧ s.tray.upSwitch = false) ∧
      (let t : Tray := { (carrying .seek 3 none).tray with position := 0, valid := true }
       let skipped : Tray := { t with slots := Vector.replicate 100 { SlotEntry.blank with skip := true } }
       t.choose (.goto 0) = .none ∧ t.choose (.gotoMark 63) = .noMark ∧
         skipped.choose (.advance 1 false) = .trayEmpty) := by
  unfold State.Ready; decide +kernel

/-- The ends of a change, of a homing and of a phase, a pulse and a changed sense in IDLE, with a head or a swap waiting. -/
theorem meets_RestsInto :
    ∀ f ∈ waiters,
      (let s := f (moving (.changing .shutterOpen) (steps 0) none)
       s.Ready ∧ s.mon.supply ≠ .critical ∧ s.tray.motion = some (steps 0) ∧ s.tray.state = .changing .shutterOpen ∧
         s.queue.pause = none ∧ s.lamp.applied = 0) ∧
      (let m : Motion := { steps 0 with dark := true }
       let s := f { moving (.changing .settle) m none with
         tray := { (moving (.changing .settle) m none).tray with timer := 15 } }
       s.powered = true ∧ s.mon.supply ≠ .critical ∧ s.tray.motion = some m ∧ s.tray.state = .changing .settle ∧
         15 ≤ s.tray.timer ∧ m.dark = true) ∧
      (let s := f { homing .seek 3 with tray := { (homing .seek 3).tray with sense := some .reversed } }
       s.Ready ∧ s.mon.supply ≠ .critical ∧ s.tray.state = .homing .seek ∧ s.tray.motor ≠ none ∧ s.tray.cut = false ∧
         s.tray.sense ≠ some s.traySense) ∧
      (let s := f { homing .raise 0 with tray := { (homing .raise 0).tray with valid := true } }
       s.Ready ∧ s.tray.state = .homing .raise ∧ s.tray.valid = true ∧ s.tray.carried = none) ∧
      (let s := f { homing .lower 0 with tray := { (homing .lower 0).tray with timer := 40 } }
       s.powered = true ∧ s.tray.state.limit = some 40 ∧ 40 ≤ s.tray.timer) ∧
      (let s := waiting { State.reset with tray := { State.reset.tray with state := .idle, valid := true } } [.home]
       s.Ready ∧ s.tray.state = .idle ∧ s.tray.valid = true ∧ s.tray.sense ≠ some .reversed) := by
  unfold State.Ready; decide

theorem meets_JamsAndUnexpectedPulses :
    (let s : State := { homing .lower 0 with tray := { (homing .lower 0).tray with timer := 40 } }
     s.powered = true ∧ s.NothingWaits ∧ s.tray.state.limit = some 40 ∧ 40 ≤ s.tray.timer) ∧
      (let s := homing .seek 101
       s.powered = true ∧ s.NothingWaits ∧ s.tray.state = .homing .seek ∧ 101 ≤ s.tray.seekCount) ∧
      (let s : State := { State.reset with tray := { State.reset.tray with state := .idle, valid := true } }
       s.Ready ∧ s.tray.state = .idle ∧ s.tray.valid = true ∧ s.NothingWaits) ∧
      (∀ x ∈ [TrayState.changing .shutterClose, .changing .lower, .changing .raise, .changing .settle,
          .changing .shutterOpen, .homing .raise, .suspended (.change .index)], ∀ v : Bool,
        let s : State := { moving x (steps 2) none with tray := { (moving x (steps 2) none).tray with valid := v } }
        s.Ready ∧ s.tray.state ≠ .changing .index ∧ s.tray.state ≠ .homing .seek ∧ s.tray.state ≠ .idle ∧
          s.tray.valid = v) ∧
      (State.reset.Ready ∧ State.reset.tray.state = .unhomed ∧ State.reset.tray.valid = false) := by
  unfold State.Ready State.NothingWaits; decide

theorem meets_DissolveStaysBetween :
    (∀ p ∈ State.reset.lamp.curve.toList, p ≤ 1024) ∧ State.reset.lamp.curve[32] = 1024 ∧
      ∀ x ∈ [(1, 0), (1, 1), (2550, 2550)], 1 ≤ x.1 ∧ x.2 ≤ x.1 := by decide

/-- A lamp that burns at 200, the fan running, in a dissolve. -/
def burning (d : Dissolve) : State :=
  { State.reset with
    lamp := { State.reset.lamp with
      record0 := { status := .ok, minutes := 0 }, target := 255, computed := 200, applied := 200, dissolve := some d }
    mon := { State.reset.mon with fan := .running 0 } }

/-- Right after reset, in a dissolve at its last tick under a lamp that may burn, and at a fall to 0 of a lamp whose
changer is JAMMED, the store idle and with a job in flight. -/
theorem meets_TickMovesLampAndTimers :
    let d : Dissolve := { start := 0, target := 255, duration := 50, loaded := true, elapsed := 49, restart := false }
    let dark : State := { burning d with lamp := { (burning d).lamp with changer := .jammed } }
    State.reset.Ready ∧
      ((burning d).Ready ∧ (burning d).lamp.dissolve = some d ∧ d.elapsed < d.duration ∧
        nextMeets (exec (.lampTick true) (burning d)) (fun t => decide (t.lamp.computed = 255 ∧ t.lamp.applied = 255)) =
          true) ∧
      (∀ s ∈ [dark, withJob dark (busyJob (.save .cues) 4 .program)],
        s.Ready ∧ 0 < s.lamp.applied ∧
          nextMeets (exec (.lampTick true) s) (fun t => decide (t.lamp.applied = 0 ∧ t.mon.cooldown = 12000)) = true) := by
  unfold State.Ready; decide +kernel

/-- A lamp about to fail, to complete a minute, or to end a dissolve. -/
def lampOf (fails lit : Nat) (d : Option Dissolve) : State :=
  { State.reset with lamp := { State.reset.lamp with failCount := fails, litCount := lit, dissolve := d } }

/-- A minute about to be added to either lamp's record, the 30th or another one. -/
def minuteDue (n : LampNo) (minutes : Nat) : State :=
  { State.reset with lamp := { State.reset.lamp with
      active := n, litCount := 6000, record0 := { status := .ok, minutes := minutes }
      record1 := { status := .ok, minutes := minutes } } }

theorem meets_DissolveDimmerAndLitMinute :
    (let d : Dissolve := { start := 0, target := 255, duration := 50, loaded := false, elapsed := 50, restart := false }
     (lampOf 0 0 (some d)).powered = true ∧ (lampOf 0 0 (some d)).lamp.dissolve = some d ∧ d.duration ≤ d.elapsed) ∧
      State.reset.Ready ∧
      (∀ n ∈ [LampNo.lamp0, .lamp1], ∀ k ∈ [28, 29, 16777215],
        let s := minuteDue n k
        let busy := withJob s (busyJob (.save .cues) 4 .program)
        s.powered = true ∧ 6000 ≤ s.lamp.litCount ∧ s.lamp.active = n ∧ (s.lamp.record n).minutes = k ∧
          s.store.job = none ∧ s.mon.supply ≠ .critical ∧ busy.store.job ≠ none ∧
          (critical s).mon.supply = .critical ∧ (critical s).store.job = none ∧
          (min 16777215 (k + 1) % 30 = 0 ↔ k = 29) ∧
          lampPage { status := .ok, minutes := 30 } ≠ s.store.mem.page (if n = .lamp0 then 82 else 83)) ∧
      (let grown := lampPage { status := .ok, minutes := 30 }
       let m := State.reset.store.mem.writePage 83 grown
       let s : State := { minuteDue .lamp1 29 with store := { State.reset.store with mem := m } }
       s.store.job = none ∧ grown = s.store.mem.page 83 ∧ s.store.pendingLamp0 = false ∧
         s.store.pendingLamp1 = false) := by
  unfold State.Ready; decide +kernel

theorem meets_LampFailureAndSwap :
    ((lampOf 20 0 none).powered = true ∧ 20 ≤ (lampOf 20 0 none).lamp.failCount) ∧
      (let d : Dissolve := { start := 0, target := 255, duration := 50, loaded := true, elapsed := 9, restart := false }
       let s : State := { burning d with lamp := { (burning d).lamp with failCount := 20 } }
       s.powered = true ∧ 20 ≤ s.lamp.failCount ∧ 0 < s.lamp.applied) ∧
      (∀ n ∈ [0, 299], ∀ es ∈ [[], [Action.home]],
        let s : State := waiting { State.reset with lamp := { State.reset.lamp with changer := .swapping n } } es
        s.lamp.changer = .swapping n ∧ s.queue.pause = none ∧ s.queue.entries.length = es.length ∧ s.Ready ∧
          s.lamp.swapSwitch = false ∧ s.saving .settings = false ∧
          (withJob s (busyJob (.save .settings) 4 .program)).Ready ∧
          (withJob s (busyJob (.save .settings) 4 .program)).saving .settings = true) ∧
      (let s : State := { State.reset with lamp := { State.reset.lamp with changer := .swapping 300 } }
       s.lamp.changer = .swapping 300 ∧ s.queue.entries = [] ∧ s.powered = true ∧ 300 ≤ 300) := by
  unfold State.Ready; decide

/-- Spec/08, R146: an update is made at every event that lowers the allowed level. LAMP 200 from dark and LOW before the
tick form the held flag, and the next tick takes the lamp up by 8; the end of the cooldown takes the allowed level to 0. -/
theorem test_held_formed_from_dark :
    let d : Dissolve := { start := 0, target := 200, duration := 0, loaded := false, elapsed := 0, restart := false }
    let lit : State := { burning d with
      lamp := { (burning d).lamp with applied := 0, target := 200, computed := 200, dissolve := none, held := false } }
    nextMeets (exec (.supplySample 400) lit) (fun t => t.lamp.held && decide (t.lamp.applied = 0) &&
        nextMeets (exec (.lampTick true) t) (fun u => u.lamp.held && decide (u.lamp.applied = 8))) = true ∧
      nextMeets (exec .cooldownEnd { lit with mon := { lit.mon with cooldown := 0 } })
        (fun t => t.lamp.held && decide (t.allowed = 0)) = true := by decide +kernel

/-- Of a dark lamp, and of a burning one at the least codes of HOT and of OVERHEAT. -/
theorem meets_ConversionFormsThermalState :
    let d : Dissolve := { start := 0, target := 255, duration := 50, loaded := true, elapsed := 49, restart := false }
    let due (s : State) : State := { s with mon := { s.mon with sinceConversion := 10 } }
    ((due State.reset).Ready ∧ 10 ≤ (due State.reset).mon.sinceConversion) ∧
      (due (burning d)).Ready ∧
      (∀ x ∈ [((340 : BitVec 10), ThermalState.hot, 160), (400, .overheat, 0)],
        nextMeets (exec (.tempConversion x.1) (due (burning d)))
          (fun t => decide (t.mon.thermal = x.2.1 ∧ t.lamp.applied = x.2.2)) = true) := by
  unfold State.Ready; decide +kernel

/-- A fan in a state, the lamp dark and the cooldown over. -/
def fanIn (f : FanState) : State := { State.reset with mon := { State.reset.mon with fan := f, cooldown := 0 } }

theorem meets_FanSupervised :
    (State.reset.Ready ∧ State.reset.mon.fan = .starting 0) ∧
      (let s : State := { State.reset with mon := { State.reset.mon with fan := .running 49 } }
       s.Ready ∧ s.mon.fan = .running 49) ∧
      ((fanIn (.starting 100)).powered = true ∧ (fanIn (.starting 100)).mon.fan = .starting 100 ∧ 100 ≤ 100) ∧
      ((fanIn (.running 50)).powered = true ∧ (fanIn (.running 50)).mon.fan = .running 50 ∧ 50 ≤ 50) ∧
      (let d : Dissolve := { start := 0, target := 255, duration := 50, loaded := true, elapsed := 49, restart := false }
       let s : State := { burning d with mon := { (burning d).mon with fan := .running 50 } }
       s.powered = true ∧ s.mon.fan = .running 50 ∧ 0 < s.lamp.applied) ∧
      ((fanIn (.stalled true)).powered = true ∧ (fanIn (.stalled true)).mon.fan = .stalled true) ∧
      ((fanIn (.resting 100)).powered = true ∧ (fanIn (.resting 100)).mon.fan = .resting 100) ∧
      ((fanIn (.running 0)).powered = true ∧ (fanIn (.running 0)).mon.cooldown = 0 ∧
        (fanIn (.running 0)).mon.thermal = .cold ∧ (fanIn (.running 0)).lamp.applied = 0 ∧
        (fanIn (.running 0)).mon.temperature < 180 ∧ (fanIn (.running 0)).mon.fan ≠ .off) := by
  unfold State.Ready; decide

/-- Entry into LOW and into CRITICAL, with a page being written, from a burning lamp. -/
theorem meets_SupplySampled :
    State.reset.Ready ∧ State.reset.mon.supply ≠ .critical ∧
      (let s := withJob (burning { start := 0, target := 255, duration := 50, loaded := true, elapsed := 49, restart := false })
         (busyJob (.protect 0) 255 .erase)
       s.Ready ∧ s.mon.supply = .normal ∧
         (∀ x ∈ [((439 : BitVec 10), SupplyState.low, 128), (400, .low, 128), (399, .critical, 0)],
           nextMeets (exec (.supplySample x.1) s)
             (fun t => decide (t.mon.supply = x.2.1 ∧ t.lamp.applied = x.2.2 ∧ s.paramNat .supplyPreset = 1)) = true)) := by
  unfold State.Ready; decide +kernel

/-- Spec/11, R206: the entry into CRITICAL stops the page operation and leaves its page broken. -/
theorem test_critical_entry_stops_page :
    let s := withJob State.reset (busyJob (.protect 0) 255 .program)
    s.store.mem.wf = true ∧
      nextMeets (exec (.supplySample 399) s)
        (fun t => t.store.broken.contains 255 && decide (t.store.job.map Job.op =
          some (some { page := 255, contents := List.replicate 32 0, phase := .program, stopped := true }))) = true := by
  decide +kernel

/-- The least reading that leaves CRITICAL, with each thing that goes on. -/
theorem meets_SupplySampled_leaving :
    (∀ q ∈ [Resume.change .shutterClose, .change .lower, .change .index, .change .raise, .change .settle,
         .change .shutterOpen, .home .shutterClose, .home .lower, .home .seek, .home .raise],
        let s := critical (moving (.suspended q) (steps 2) none)
        s.Ready ∧ s.mon.supply = .critical ∧ s.lamp.applied = 0 ∧ s.NothingWaits ∧ s.store.job = none ∧
          s.tray.state = .suspended q ∧ s.tray.closedSwitch = false ∧ s.tray.downSwitch = false ∧
          s.tray.upSwitch = false ∧ s.tray.openSwitch = false ∧ s.endsDark = false ∧ s.tray.motion = some (steps 2) ∧
          (steps 2).remaining ≠ 0 ∧ s.paramNat .supplyPreset = 1 ∧ 410 = 440 - 30) ∧
      (∀ f ∈ waiters,
        let s := critical (f (trayIn State.reset .unhomed))
        s.Ready ∧ s.mon.supply = .critical ∧ s.lamp.applied = 0 ∧ s.store.job = none ∧ s.queue.pause = none) ∧
      (let s := critical (waiting (trayIn State.reset .idle) [.shutter true])
       s.Ready ∧ s.queue.entries = [{ action := .shutter true, source := .link }] ∧ s.queue.pause = none ∧
         s.tray.state = .idle ∧ s.lamp.changer = .idle ∧ s.store.job = none) ∧
      (let op : PageOp := { page := 83, contents := List.replicate 32 0, phase := .program, stopped := true }
       let s := critical (withJob State.reset { kind := .lampWrite false true, pages := [], op := some op })
       s.Ready ∧ s.NothingWaits ∧ s.store.job = some ⟨.lampWrite false true, [], some op⟩ ∧ op.stopped = true) ∧
      (let s := critical (withJob State.reset { kind := .protect 31, pages := [255], op := none })
       s.Ready ∧ s.store.job = some ⟨.protect 31, [255], none⟩ ∧ protectionPage 31 ≠ s.store.mem.page 255) := by
  unfold State.Ready State.NothingWaits; decide

/-- A reader in PLAYING with some pairs held and a delay. -/
def playing (pairs delay holdoff : Nat) : State :=
  { State.reset with sound := { State.reset.sound with
      reader := .playing, fifo := List.replicate pairs (1, 2), delay := delay, holdoff := holdoff } }

/-- Each kind of read at the bounds of its window, with no delay pending. -/
theorem meets_OutputSampleReads :
    (State.reset.Ready ∧ State.reset.sound.reader = .filling) ∧
      ((playing 0 0 0).Ready ∧ (playing 0 0 0).sound.reader = .playing ∧ (playing 0 0 0).sound.fifo = []) ∧
      (∀ x ∈ [(64, 0, 0), (1, 65, 0), (65, 0, 1)],
        let s := playing x.1 x.2.1 x.2.2
        s.Ready ∧ s.sound.reader = .playing ∧ s.sound.fifo ≠ [] ∧
          (s.sound.holdoff ≠ 0 ∨ s.sound.delay ≤ s.sound.fifo.length + 64 ∧ s.sound.fifo.length ≤ s.sound.delay + 64)) ∧
      (let s := playing 65 0 0
       s.sound.reader = .playing ∧ s.sound.fifo = (1, 2) :: (1, 2) :: List.replicate 63 (1, 2) ∧ s.sound.holdoff = 0 ∧
         s.sound.delay + 64 < s.sound.fifo.length) ∧
      (let s := playing 1 66 0
       s.sound.reader = .playing ∧ s.sound.fifo ≠ [] ∧ s.sound.holdoff = 0 ∧ s.sound.fifo.length + 64 < s.sound.delay) := by
  unfold State.Ready; decide

/-- A delay pending with the gain two steps from OFF, one step from it and at it. -/
theorem meets_OutputSampleReads_flush :
    ∀ step ∈ [95, 96, 97],
      let s : State := { playing 5 0 0 with sound := { (playing 5 0 0).sound with
        step := step, rampCount := 255, pendingDelay := some 4096
        reasons := { MuteReasons.fillOnly with delayChange := true } } }
      s.Ready ∧ s.sound.pendingDelay = some 4096 ∧
        nextMeets (exec .outputSample s) (fun t => decide (t.sound.pendingDelay = none ↔ 96 ≤ step)) = true := by
  unfold State.Ready; decide +kernel

/-- The last number, in PLAYING and in STOPPED, with nothing to send, with an ENUMERATE due, at the start of a REPLY,
and with a message or an ENUMERATE going on or ending, with room in the FIFO; a full FIFO has 8192 pairs. -/
theorem meets_MasterBuildsFrame :
    let reply : OutMsg := { kind := 0x80, dest := 5, payload := [0x02, 0] }
    (∀ x ∈ [Transport.playing, .stopped],
        let s : State := { masterUnit with tape := { masterUnit.tape with transport := x, nextNumber := 63999 } }
        s.Ready ∧ s.link.role = .master ∧ s.msg.attempt = none ∧ s.msg.replies = [] ∧ s.tape.enumDue = false ∧
          s.tape.nextNumber < 64000 ∧ s.tape.transport = x ∧ s.sound.fifo.length < 8192) ∧
      (let s : State := { masterUnit with
         msg := { masterUnit.msg with replies := [reply] }, tape := { masterUnit.tape with enumDue := true } }
       s.Ready ∧ s.msg.attempt = none ∧ s.tape.enumDue = true) ∧
      (let s : State := { masterUnit with msg := { masterUnit.msg with replies := [reply] } }
       s.Ready ∧ s.msg.attempt = none ∧ s.tape.enumDue = false ∧ s.msg.replies = [reply]) ∧
      (∀ enumerate ∈ [true, false], ∀ more ∈ [[], [((.done, 0x55) : SlotTag × Byte)]],
        let s : State := { masterUnit with msg := { masterUnit.msg with
          replies := [reply], attempt := some { slots := (.body, 0x02) :: more, enumerate := enumerate } } }
        s.Ready ∧ s.msg.attempt = some { slots := (.body, 0x02) :: more, enumerate := enumerate }) ∧
      8192 ≤ (List.replicate 8192 ((0, 0) : Pair)).length := by
  refine ⟨by unfold State.Ready; decide, by unfold State.Ready; decide, by unfold State.Ready; decide,
    by unfold State.Ready; decide, ?_⟩
  exact List.length_replicate ▸ Nat.le_refl 8192

theorem meets_RingAndEndSensor :
    (let s : State := { masterUnit with tape := { masterUnit.tape with sinceReturn := 32 } }
     s.powered = true ∧ s.link.role = .master ∧ s.tape.ring ≠ .opened ∧ 32 ≤ s.tape.sinceReturn) ∧
      (let s : State := { masterUnit with tape := { masterUnit.tape with enumWait := some 64, enumAttempts := 2 } }
       s.powered = true ∧ s.tape.enumWait = some 64 ∧ 64 ≤ 64 ∧ s.paramNat .retryLimit ≤ s.tape.enumAttempts + 1) ∧
      (let s : State := { masterUnit with tape := { masterUnit.tape with transport := .windForward } }
       s.Ready ∧ s.link.role = .master ∧ s.tape.endSensor = false ∧ s.tape.transport = .windForward) ∧
      (masterUnit.Ready ∧ masterUnit.tape.transport = .stopped) := by
  unfold State.Ready; decide

/-- A key map whose entry 3 is enabled for a code in a scope. -/
def keyed (s : State) (code : Byte) (repeats : Bool) : State :=
  let e : KeyEntry :=
    { KeyEntry.blank with code := code, enabled := true, repeats := repeats, duringShow := true, action := .mark 9 }
  { s with remote := { s.remote with keys := s.remote.keys.set 3 e } }

/-- A key with no entry, the stop key, and an entry used, refused by the show and met by a full queue. -/
theorem meets_InfraredFrames :
    (State.reset.Ready ∧ State.reset.remote.ir = .waitLeader ∧ 15 < 16 ∧ 255 < 256 ∧ 2500 < 2501) ∧
      15 ≠ State.reset.paramNat .remoteChannel ∧ 0 = State.reset.paramNat .remoteChannel ∧
      State.reset.tray.state.busy = false ∧
      (∀ e ∈ State.reset.remote.keys.toList, e.enabled = true → e.code ≠ byteOf 255) ∧
      (∀ n ∈ [0, 1, 15, 16],
       let s := keyed (waiting State.reset (List.replicate n .home)) 0x01 false
       s.Ready ∧ s.remote.keys[3].enabled = true ∧ s.remote.keys[3].code = byteOf 1 ∧ s.remote.keys[3].scope = .here ∧
         (∀ j : Fin 16, j < 3 → s.remote.keys[j].enabled = true → s.remote.keys[j].code ≠ byteOf 1) ∧
         s.showRunning = false ∧ s.queue.pause = none ∧ s.queue.entries.length = n) ∧
      (let s : State := { State.reset with link := { State.reset.link with state := .linked, showRunning := true } }
       s.Ready ∧ s.showRunning = true ∧ s.remote.keys[0].enabled = true ∧ s.remote.keys[0].duringShow = false ∧
         s.remote.keys[0].code = byteOf 0xF0) ∧
      (let h : Hold := { code := 1, source := .ir, ticks := 3, frameTicks := 3, repeatDue := false }
       let s : State := { State.reset with remote := { State.reset.remote with hold := some h } }
       s.Ready ∧ s.remote.ir = .waitLeader ∧ s.remote.hold = some h ∧ h.source = .ir) ∧
      (∀ n ∈ [374, 626, 1124, 1876, 2500], 625 < n ∧ n < 1125 ∨ 1875 < n ∧ n ≤ 2500 ∨ n < 375) := by
  unfold State.Ready; decide

theorem meets_ButtonsHoldsAndRelayWaits :
    (let s : State := { State.reset with remote := { State.reset.remote with keys := Vector.replicate 16 KeyEntry.blank } }
     s.Ready ∧ s.remote.button 2 = false ∧
       ∀ e ∈ s.remote.keys.toList, e.enabled = true → e.code ≠ byteOf (0xF0 + (2 : Fin 3).val)) ∧
      (let h : Hold := { code := 0xF0, source := .button, ticks := 60, frameTicks := 0, repeatDue := false }
       let s : State := { State.reset with remote := { State.reset.remote with button0 := true, hold := some h } }
       s.Ready ∧ s.remote.button 0 = true ∧ s.remote.hold = some h) ∧
      (let h : Hold := { code := 1, source := .ir, ticks := 60, frameTicks := 15, repeatDue := false }
       let s : State := { State.reset with remote := { State.reset.remote with hold := some h } }
       s.powered = true ∧ s.remote.hold = some h ∧ h.source = .ir ∧ 15 ≤ h.frameTicks) ∧
      (∀ again : Bool, ∀ n ∈ [0, 1, 15],
        let h : Hold := { code := 1, source := .button, ticks := 50, frameTicks := 0, repeatDue := true }
        let k := keyed (waiting State.reset (List.replicate n .home)) 0x01 again
        let s : State := { k with remote := { k.remote with hold := some h } }
        s.powered = true ∧ s.remote.hold = some h ∧ h.repeatDue = true ∧ h.code ≠ 0 ∧ s.remote.keys[3].enabled = true ∧
          s.remote.keys[3].code = h.code ∧ s.remote.keys[3].scope = .here ∧ s.remote.keys[3].action = .mark 9 ∧
          s.remote.keys[3].duringShow = true ∧
          (∀ j : Fin 16, j < 3 → s.remote.keys[j].enabled = true → s.remote.keys[j].code ≠ h.code) ∧
          s.remote.keys[3].repeats = again ∧ s.queue.pause = none ∧ s.queue.entries.length = n) ∧
      (let w : RelayWait := { action := .home, scope := .both, ticks := 100 }
       let s : State := { State.reset with remote := { State.reset.remote with relayWait := some w } }
       s.powered = true ∧ s.remote.relayWait = some w ∧ 100 ≤ w.ticks) := by
  unfold State.Ready; decide

/-- A button of scope RELAY or BOTH, at an empty queue and behind an entry, with and without a relay wait, and with 0, 3
and 4 places filled. -/
theorem meets_ButtonsHoldsAndRelayWaits_relay :
    ∀ q ∈ [State.reset, oneWaits], ∀ scope ∈ [KeyScope.relay, .both], ∀ n ∈ [0, 3, 4],
      let e : KeyEntry := { KeyEntry.blank with code := 0xF2, enabled := true, scope := scope, action := .mark 9 }
      let s : State := { q with
        remote := { q.remote with keys := (Vector.replicate 16 KeyEntry.blank).set 3 e }
        msg := { q.msg with replies := List.replicate n { kind := 0x80, dest := 0, payload := [0x02, 0] } } }
      s.Ready ∧ s.remote.button 2 = false ∧ s.remote.keys[3].enabled = true ∧
        s.remote.keys[3].code = byteOf (0xF0 + (2 : Fin 3).val) ∧
        (∀ j : Fin 16, j < 3 → s.remote.keys[j].enabled = true → s.remote.keys[j].code ≠ byteOf (0xF0 + (2 : Fin 3).val)) ∧
        s.remote.keys[3].action = .mark 9 ∧ s.showRunning = false ∧ s.remote.keys[3].scope ≠ .here ∧
        s.remote.relayWait = none ∧ s.queue.pause = none ∧ s.queue.entries.length < 16 ∧ s.placesUsed = n ∧
        ({ s.remote with relayWait := some { action := .home, scope := scope, ticks := 0 } } : Remote).relayWait ≠ none := by
  unfold State.Ready; decide

theorem meets_RelayedCopyTaken :
    Action.inRange (.dissolve 255 2550 true) ∧
      (∀ s ∈ [State.reset, oneWaits],
        let t := withNote s (note 0x82 ([0x01, 0xFE] ++ recordOf .home))
        (t.powered && t.quiet) = true ∧ t.sourceByte = 0xFE ∧ t.queue.pause = none ∧ t.queue.entries.length < 16) ∧
      oneWaits.queue.entries ≠ [] ∧ State.reset.queue.entries = [] ∧
      (∀ scope ∈ [KeyScope.relay, .both],
        let w : RelayWait := { action := .home, scope := scope, ticks := 99 }
        let s : State := { oneWaits with remote := { oneWaits.remote with relayWait := some w } }
        s.remote.relayWait = some w ∧ w.action = .home) ∧
      (let s : State := { oneWaits with remote := { oneWaits.remote with lapsed := some .home } }
       s.remote.relayWait = none ∧ s.remote.lapsed = some .home) ∧
      recordOf .home ≠ recordOf (.mark 1) := by
  refine ⟨⟨by decide, by decide⟩, by decide, by decide, by decide, by decide, by decide, by decide⟩

theorem meets_FlagLatches :
    State.reset.latchedFlag .storeError = true ∧ State.reset.latchedFlag .tapeEnd = false := by decide

/-- A page operation at each part; a program that ends each kind of job, goes on with another page under either supply,
or leaves a lamp write waiting. -/
theorem meets_PageOperationsWritePages :
    (∀ phase ∈ [PagePhase.erase, .program],
      ∀ k ∈ [JobKind.protect 0, .lampWrite true true, .save .settings, .save .cues, .save .keys],
        let j := busyJob k 255 phase
        let s := withJob State.reset j
        s.Ready ∧ s.store.job = some j ∧
          j.op = some { page := 255, contents := List.replicate 32 0, phase := phase, stopped := false } ∧
          (List.replicate 32 (0 : Byte)).length = 32 ∧ s.store.mem.wf = true ∧ j.pages = [] ∧ j.kind = k ∧
          s.store.pendingLamp0 = false ∧ s.store.pendingLamp1 = false) ∧
      (∀ supply ∈ [SupplyState.normal, .critical],
        let j : Job := { busyJob (.save .settings) 1 .program with pages := [0, 254] }
        let s : State := { withJob State.reset j with mon := { State.reset.mon with supply := supply } }
        s.Ready ∧ s.store.job = some j ∧ j.pages = 0 :: [254] ∧ s.mon.supply = supply ∧
          jobContents s j.kind 0 ≠ s.store.mem.page 0) ∧
      (let j := busyJob (.lampWrite false true) 83 .program
       let s : State := { withJob State.reset j with
         store := { (withJob State.reset j).store with pendingLamp0 := true } }
       s.Ready ∧ s.store.job = some j ∧ j.pages = [] ∧ s.store.pendingLamp0 = true ∧ s.store.pendingLamp1 = false ∧
         s.mon.supply ≠ .critical ∧ j.kind = .lampWrite false true ∧
         lampPage s.lamp.record0 ≠ s.store.mem.page 82) := by
  unfold State.Ready; decide +kernel

theorem meets_PowerLossKeepsPages :
    (withJob State.reset (busyJob (.protect 0) 255 .erase)).Ready ∧
      (withJob State.reset (busyJob (.protect 0) 255 .erase)).store.mem.wf = true :=
  ⟨ready_of _ (by decide), by decide⟩

/-- The contents of page 254 that give the five regions their checks. -/
def checksOf (m : ShowMem) : List Byte :=
  [Region.settings, .cues, .keys, .slots, .curve].flatMap fun r =>
    bytesOf 2 (crc16 (m.pages (regionPages r).1 (regionPages r).2)).toNat

/-- A store with those contents in page 254, as a SAVE of each region leaves it, passes every check. -/
theorem checks_of_checksOf {m : ShowMem} (hm : m.wf = true) {s : State} (hb : s.store.broken = [])
    (hs : s.store.mem = m.writePage 254 (checksOf m)) (r : Region) : s.Checks r := by
  have page (q : Nat) : s.store.mem.page q = if q = 254 then padPage (checksOf m) else m.page q := by
    rw [hs]; exact ShowMem.page_writePage hm 254 q (checksOf m)
  have same (a k : Nat) (h : a + k ≤ 254) : s.store.mem.pages a k = m.pages a k :=
    ShowMem.pages_congr _ _ a k fun i hi => by rw [page, if_neg (by omega)]
  have held : (((padPage (checksOf m)).drop (2 * regionCode r)).take 2) =
      bytesOf 2 (crc16 (m.pages (regionPages r).1 (regionPages r).2)).toNat := by
    cases r <;> rfl
  unfold State.Checks
  refine ⟨by simp [hb], by simp [hb], ?_⟩
  rw [same _ _ (by cases r <;> decide), page, if_pos rfl, held, natOf_bytesOf_two]

/-- The pages of a cue, a key and a lamp record. -/
def tablePages : ShowMem :=
  ShowMem.writePage
    (ShowMem.writePage (ShowMem.writePage [] 4 (cueBytes fullCue)) 68 (keyBytes { KeyEntry.blank with action := .mark 9 }))
    82 (lampPage { status := .ok, minutes := 5 })

/-- A state whose store holds those pages and the checks of the five regions. -/
def stocked : State :=
  { State.reset with store := { State.reset.store with mem := tablePages.writePage 254 (checksOf tablePages) } }

/-- Regions that pass their check and that fail it, with a cue, a key and a lamp record to load, and one that fails. -/
theorem meets_PowerOnResetValues :
    ({ State.reset with powered := false } : State).powered = false ∧ State.reset.store.job = none ∧
      (∀ r : Region, stocked.Checks r ∧
        ¬ ({ stocked with store := { stocked.store with broken := [254] } } : State).Checks r) ∧
      stocked.store.mem.page 4 = padPage (cueBytes fullCue) ∧ fullCue.inRange ∧
      (tablePages.page 68).take 6 = keyBytes { KeyEntry.blank with action := .mark 9 } ∧
      stocked.store.mem.page 68 = tablePages.page 68 ∧
      stocked.store.mem.page 82 = lampPage { status := .ok, minutes := 5 } ∧
      natOf (((State.reset.store.mem.page 83).drop 4).take 2) ≠ (crc16 ((State.reset.store.mem.page 83).take 4)).toNat := by
  have wf : tablePages.wf = true := by decide +kernel
  have page (q : Nat) (h : q ≠ 254) : stocked.store.mem.page q = tablePages.page q := by
    rw [show stocked.store.mem = tablePages.writePage 254 (checksOf tablePages) from rfl,
      ShowMem.page_writePage wf, if_neg h]
  refine ⟨rfl, rfl, fun r => ⟨checks_of_checksOf wf rfl rfl r, fun h => h.1 (by simp)⟩, ?_, fullCue_inRange, ?_,
    page 68 (by decide), ?_, by decide +kernel⟩
  · rw [page 4 (by decide)]; decide +kernel
  · decide +kernel
  · rw [page 82 (by decide)]; decide +kernel

end Sys2Proof.Tests
end

