-- ==== Sys2Proof/Proofs/ToneVerdict.lean ====
section
/-!
The verdict of a clean block (spec/04, R69 and R70): the tone test as a property of a tone and the four powers, and the
verdict as the one tone that passes it.
-/

namespace Sys2Proof.Proofs.ToneVerdict

open Sys2Proof Sys2Proof.Machine

/-- The other three tones, in the order in which `verdictOf` lists their powers. -/
def otherTones : Tone → List Tone
  | .l => [.m, .h, .t]
  | .m => [.l, .h, .t]
  | .h => [.l, .m, .t]
  | .t => [.l, .m, .h]

@[simp] theorem mem_otherTones {x y : Tone} : y ∈ otherTones x ↔ y ≠ x := by
  cases x <;> cases y <;> decide

/-- The tone that passes a test when no other does (R70's table, with no overload row). -/
def soleTone (pass : Tone → Bool) : Verdict :=
  match pass .l, pass .m, pass .h, pass .t with
  | true, false, false, false => some .l
  | false, true, false, false => some .m
  | false, false, true, false => some .h
  | false, false, false, true => some .t
  | _, _, _, _ => none

theorem soleTone_eq_some_iff (pass : Tone → Bool) (x : Tone) :
    soleTone pass = some x ↔ pass x = true ∧ ∀ y, y ≠ x → ¬ pass y = true := by
  constructor
  · intro h
    unfold soleTone at h
    split at h
    case h_5 => contradiction
    all_goals
      cases h
      exact ⟨‹_›, fun y hy => by cases y <;> simp_all⟩
  · rintro ⟨hx, hrest⟩
    have fails (y : Tone) (hy : y ≠ x) : pass y = false := by simpa using hrest y hy
    cases x <;> simp [soleTone, hx, fails]

section

variable (levelT purity dominance energy : Nat) (power : Tone → Nat)

/-- The test of one tone against the powers of all four, as `verdictOf` makes it (`verdictOf_eq_soleTone`). -/
def passes (x : Tone) : Bool :=
  meetsTest levelT purity dominance energy (power x) ((otherTones x).map power)

/-- The three conditions of R69, the last one over the tones rather than over a list of powers. -/
theorem passes_iff (x : Tone) :
    passes levelT purity dominance energy power x = true ↔
      levelT ≤ power x ∧ purity * energy ≤ 8 * power x ∧ ∀ z, z ≠ x → power z * 2 ^ dominance ≤ power x := by
  simp [passes, meetsTest, and_assoc]

/-- The verdict of a block: ABSENT under the overload mark, else the sole tone that passes (R70). -/
theorem verdictOf_eq_soleTone (overload : Bool) :
    verdictOf levelT purity dominance energy (power .l) (power .m) (power .h) (power .t) overload =
      if overload then none else soleTone (passes levelT purity dominance energy power) := rfl

end

/-- Settles O25, by the overload mark: set, it leaves no tone; clear, the verdict is the one tone that passes. -/
theorem verdictNeedsExactlyOneTone : Obligations.VerdictNeedsExactlyOneTone := by
  intro levelT purity dominance energy power overload x
  rw [verdictOf_eq_soleTone]
  cases overload with
  | true => simp
  | false => simp only [Bool.false_eq_true, if_false, soleTone_eq_some_iff, passes_iff, true_and]

end Sys2Proof.Proofs.ToneVerdict
end

