-- ==== Sys2Proof/Proofs/StuckTone.lean ====
section
/-!
The stuck tone (spec/05, R85): when its two due steps stand in the engine, what each of them does to a unit with its
supply, and what a verdict does in STUCK between them.
-/

namespace Sys2Proof.Proofs.StuckTone

open Sys2Proof Sys2Proof.Machine

/-! ## The conditions of the two due steps -/

theorem runStuck_iff (c : CueEngine) : c.runStuck = true ↔ ∃ x n, c.state = .run x n ∧ 16 ≤ n := by
  unfold CueEngine.runStuck
  split
  case h_1 x n hrun => simp [hrun]
  case h_2 hnot => simpa using fun x n hrun => absurd hrun (hnot x n)

theorem stuckOver_iff (c : CueEngine) : c.stuckOver = true ↔ c.state = .stuck ∧ 2 ≤ c.stuckCount := by
  simp [CueEngine.stuckOver]

/-! ## The due steps carried out -/

theorem exec_stuckTone_of_runStuck {s : State} (hp : s.powered = true) (h : s.cue.runStuck = true) :
    exec .stuckTone s = .next s.enterStuck := by
  change whenPowered s s.stuckTone = _
  rw [whenPowered_of_powered hp, State.stuckTone, if_pos h]

theorem exec_stuckEnd_of_stuckOver {s : State} (hp : s.powered = true) (h : s.cue.stuckOver = true) :
    exec .stuckEnd s = .next s.leaveStuck := by
  change whenPowered s s.stuckEnd = _
  rw [whenPowered_of_powered hp, State.stuckEnd, if_pos h]

/-! ## A verdict in STUCK -/

/-- The table of R85, with the count held at 2 until the end of the stuck tone is carried out. -/
theorem verdict_of_stuck {c : CueEngine} (h : c.state = .stuck) (wordGap : Nat) (v : Verdict) :
    c.verdict wordGap v = { c with stuckCount := if v = none then min 2 (c.stuckCount + 1) else 0 } := by
  cases v <;> simp [CueEngine.verdict, h]

/-- Settles O28: a run of 16 makes STUCK_TONE due, a second ABSENT in a row makes STUCK_END due, and between the two a
verdict in STUCK changes the stuck count alone. -/
theorem stuckToneBeginsAndEnds : Obligations.StuckToneBeginsAndEnds := by
  intro s hp
  refine ⟨fun x n hrun hlong => ?begins, fun wordGap v hstuck hcount => ?verdict, fun hstuck hcount => ?ends⟩
  case begins => exact exec_stuckTone_of_runStuck hp ((runStuck_iff s.cue).mpr ⟨x, n, hrun, hlong⟩)
  case verdict => rw [verdict_of_stuck hstuck, min_eq_right (by omega : s.cue.stuckCount + 1 ≤ 2)]
  case ends => exact ⟨0, exec_stuckEnd_of_stuckOver hp ((stuckOver_iff s.cue).mpr ⟨hstuck, hcount.ge⟩)⟩

end Sys2Proof.Proofs.StuckTone
end

