-- ==== Sys2Proof/Proofs/GotoShorterWay.lean ====
section
/-!
GOTO (spec/07, R117): the positions met by steps in a direction, the choice of the shorter way from the forward
distance, and the offer of a lone GOTO to the position in the gate at the end of a PAUSE.
-/

namespace Sys2Proof.Proofs.GotoShorterWay

open Sys2Proof Sys2Proof.Machine

/-! ## Steps and distances (R111, R113) -/

/-- The places one step goes forward, modulo 100. -/
def stride : Direction → Nat
  | .forward => 1
  | .backward => 99

theorem stepFrom_eq_stride (d : Direction) (p : Nat) : stepFrom d p = (p + stride d) % 100 := by
  cases d <;> rfl

theorem iterate_stepFrom (d : Direction) {p : Nat} (hp : p < 100) (k : Nat) :
    (stepFrom d)^[k] p = (p + k * stride d) % 100 := by
  induction k with
  | zero => rw [Function.iterate_zero_apply, Nat.zero_mul, Nat.add_zero, Nat.mod_eq_of_lt hp]
  | succ k ih =>
    rw [Function.iterate_succ_apply', ih, stepFrom_eq_stride, Nat.mod_add_mod, Nat.succ_mul, Nat.add_assoc]

/-- As many steps as the distance in a direction lead to the place it was measured to. -/
theorem iterate_stepFrom_distanceIn (d : Direction) {p q : Nat} (hp : p < 100) (hq : q < 100) :
    (stepFrom d)^[distanceIn d p q] p = q := by
  rw [iterate_stepFrom d hp]
  cases d with
  | forward => simp only [distanceIn, stride]; omega
  | backward => simp only [distanceIn, stride]; omega

theorem distanceIn_forward {p : Nat} (hp : p < 100) (q : Nat) :
    distanceIn .forward p q = (q + 100 - p) % 100 := by
  rw [distanceIn, Nat.mod_eq_of_lt hp]

/-- The two ways round the tray to another place make 100 steps together. -/
theorem distanceIn_backward {p q : Nat} (hp : p < 100) (hq : q < 100) (h : distanceIn .forward p q ≠ 0) :
    distanceIn .backward p q = 100 - distanceIn .forward p q := by
  simp only [distanceIn] at h ⊢
  omega

theorem distanceIn_forward_self {p : Nat} (hp : p < 100) : distanceIn .forward p p = 0 := by
  rw [distanceIn_forward hp]; omega

/-! ## The choice of a way -/

/-- The direction a GOTO takes at a forward distance. -/
def shorterWay (forwardDistance : Nat) : Direction := if forwardDistance ≤ 50 then .forward else .backward

/-- A GOTO chooses from the forward distance alone: the slot map does not enter. -/
theorem choose_goto (t : Tray) (p : Nat) :
    t.choose (.goto p) =
      if distanceIn .forward t.position p = 0 then .none
      else .motion (motionTo (shorterWay (distanceIn .forward t.position p)) t.position p) := by
  simp only [Tray.choose, shorterWay]
  split_ifs <;> rfl

/-! ## The offer of a lone head -/

theorem exec_pauseExpiry_of_elapsed {s : State} {p : PauseTimer} (hp : s.powered = true)
    (hpause : s.queue.pause = some p) (hover : p.duration ≤ p.elapsed) :
    exec .pauseExpiry s = .next ({ s with queue := { s.queue with pause := none } } : State).offer := by
  have due : s.pauseDue = true := by simp [State.pauseDue, hpause, hover]
  change whenPowered s s.pauseExpires = _
  rw [whenPowered_of_powered hp, State.pauseExpires, if_pos due]

theorem raceSwap_of_not_swapCanMove {s : State} (h : s.swapCanMove = false) : s.raceSwap = s := by
  simp [State.raceSwap, h]

theorem moveSwap_of_not_swapCanMove {s : State} (h : s.swapCanMove = false) : s.moveSwap = s := by
  simp [State.moveSwap, h]

theorem swapCanMove_of_not_waiting {s : State} (h : s.lamp.changer ≠ .waitChanger) : s.swapCanMove = false := by
  simp [State.swapCanMove, h]

/-- In IDLE with no swap in progress and the supply not CRITICAL a changer-kind head may be taken (R101). -/
theorem changerFree_of_idle {s : State} (hidle : s.tray.state = .idle) (hswap : s.lamp.changer.isSwapping = false)
    (hsupply : s.mon.supply ≠ .critical) : s.changerFree = true := by
  simp [State.changerFree, hidle, hswap, hsupply]

/-- A lone changer-kind head offered in IDLE is taken, and a waiting swap meets the state it leaves. -/
theorem offer_of_lone_changer_head {s : State} {e : QueueEntry} (hpause : s.queue.pause = none)
    (hqueue : s.queue.entries = [e]) (hkind : e.action.forChanger = true) (hidle : s.tray.state = .idle)
    (hfree : s.changerFree = true) :
    s.offer = ((s.takeHead []).trayTake e.action).raceSwap.moveSwap := by
  simp [State.offer, hpause, hqueue, offerEntries, hkind, hidle, hfree]

/-- A GOTO to the position in the gate, taken in IDLE, is complete (R117). -/
theorem trayTake_goto_position {s : State} (hpos : s.tray.position < 100) (hidle : s.tray.state = .idle) :
    s.trayTake (.goto s.tray.position) = s := by
  have stays : s.tray.choose (.goto s.tray.position) = .none := by
    rw [choose_goto, if_pos (distanceIn_forward_self hpos)]
  simp [State.trayTake, hidle, stays, State.reportChoice]

/-- A lone GOTO to the position in the gate, offered in IDLE, leaves the queue and changes nothing else. -/
theorem offer_of_lone_goto_position {s : State} {source : ActionSource} (hpause : s.queue.pause = none)
    (hpos : s.tray.position < 100) (hqueue : s.queue.entries = [{ action := .goto s.tray.position, source := source }])
    (hwait : s.lamp.changer ≠ .waitChanger) (hswap : s.lamp.changer.isSwapping = false)
    (hidle : s.tray.state = .idle) (hsupply : s.mon.supply ≠ .critical) :
    s.offer = s.takeHead [] := by
  have completes : (s.takeHead []).trayTake (.goto s.tray.position) = s.takeHead [] :=
    trayTake_goto_position (s := s.takeHead []) hpos hidle
  have still : (s.takeHead []).swapCanMove = false := swapCanMove_of_not_waiting hwait
  rw [offer_of_lone_changer_head hpause hqueue rfl hidle (changerFree_of_idle hidle hswap hsupply), completes,
    raceSwap_of_not_swapCanMove still, moveSwap_of_not_swapCanMove still]

/-! ## The obligation -/

/-- What R117 asks of the choice, at every distance. -/
theorem goto_takes_shorter_way (t : Tray) {p : Nat} (ht : t.position < 100) (hp : p < 100)
    (h : distanceIn .forward t.position p ≠ 0) :
    ∃ m, t.choose (.goto p) = .motion m ∧ m.target = p ∧ m.extra = 0 ∧ wantsSlide (some (.goto p)) = false ∧
      (distanceIn .forward t.position p ≤ 50 →
        m.direction = .forward ∧ m.remaining = distanceIn .forward t.position p) ∧
      (51 ≤ distanceIn .forward t.position p →
        m.direction = .backward ∧ m.remaining = 100 - distanceIn .forward t.position p) ∧
      (stepFrom m.direction)^[m.remaining] t.position = p := by
  refine ⟨_, (choose_goto t p).trans (if_neg h), rfl, rfl, rfl, fun hshort => ?short, fun hlong => ?long,
    iterate_stepFrom_distanceIn _ ht hp⟩
  case short => simp [motionTo, shorterWay, hshort]
  case long =>
    have way : shorterWay (distanceIn .forward t.position p) = .backward := if_neg (by omega)
    rw [way]
    exact ⟨rfl, distanceIn_backward ht hp h⟩

/-- Settles O33, by the forward distance: 0 is no motion, up to 50 the way is forward, beyond it backward; the lone
GOTO to the gate's position leaves only the queue changed. -/
theorem gotoTakesShorterWay : Obligations.GotoTakesShorterWay := by
  refine ⟨fun t p ht hp => ?choice, fun s p source hpow hpause hover hpos hqueue hwait hswap hidle hsupply => ?gate⟩
  case choice =>
    simp only [← distanceIn_forward ht p]
    exact ⟨fun hd => (choose_goto t p).trans (if_pos hd),
      fun hd => goto_takes_shorter_way t ht hp (Nat.one_le_iff_ne_zero.mp hd)⟩
  case gate =>
    rw [exec_pauseExpiry_of_elapsed hpow hpause hover]
    exact congrArg Host.Outcome.next (offer_of_lone_goto_position rfl hpos hqueue hwait hswap hidle hsupply)

end Sys2Proof.Proofs.GotoShorterWay
end

