-- ==== Sys2Proof/Proofs/Commands.lean ====
section
/-!
What each command does, in one equation: the due steps first and then its work, or its own due step.
-/

namespace Sys2Proof.Proofs.Commands

open Sys2Proof Sys2Proof.Machine

-- One declaration after another, so that the checks of many short proofs do not wait for each other in threads.
set_option Elab.async false

theorem exec_powerOnReset (s : State) (strap : Bool) (button0 button1 button2 : Bool) :
    exec (.powerOnReset strap button0 button1 button2) s = .next (s.powerOn strap button0 button1 button2) := rfl

theorem exec_linkReset (s : State) : exec .linkReset s = whenPowered s s.carryReset := rfl

theorem exec_frameReceived (s : State) (frame : LinkFrame) (sync : Nat) :
    exec (.frameReceived frame sync) s = whenSettled s fun t => t.frameArrives frame sync := rfl

theorem exec_missingFrame (s : State) : exec .missingFrame s = whenSettled s State.miss := rfl

theorem exec_linkLossTimeout (s : State) : exec .linkLossTimeout s = whenPowered s s.lossTimeout := rfl

theorem exec_originatedFrame (s : State) : exec .originatedFrame s = whenSettled s State.originate := rfl

theorem exec_showSafeRaised (s : State) : exec .showSafeRaised s = whenPowered s s.raiseShowSafe := rfl

theorem exec_retryWaitEnd (s : State) : exec .retryWaitEnd s = whenPowered s s.endWait := rfl

theorem exec_stuckTone (s : State) : exec .stuckTone s = whenPowered s s.stuckTone := rfl

theorem exec_stuckEnd (s : State) : exec .stuckEnd s = whenPowered s s.stuckEnd := rfl

theorem exec_wordComplete (s : State) : exec .wordComplete s = whenPowered s s.wordCompletes := rfl

theorem exec_identify (s : State) : exec .identify s = whenSettled s fun t => t.serve (isKind 0x02) identify := rfl

theorem exec_setGroups (s : State) : exec .setGroups s = whenSettled s fun t => t.serve (isKind 0x03) setGroups := rfl

theorem exec_status (s : State) : exec .status s = whenSettled s fun t => t.serve (isKind 0x04) status := rfl

theorem exec_readEvents (s : State) :
    exec .readEvents s = whenSettled s fun t => t.serve (isKind 0x05) readEvents := rfl

theorem exec_clearEvents (s : State) :
    exec .clearEvents s = whenSettled s fun t => t.serve (isKind 0x06) clearEventsCommand := rfl

theorem exec_setMasks (s : State) :
    exec .setMasks s = whenSettled s fun t => t.serve (isKind 0x07) setMasksCommand := rfl

theorem exec_reset (s : State) : exec .reset s = whenSettled s State.serveReset := rfl

theorem exec_setParam (s : State) :
    exec .setParam s = whenSettled s fun t => t.serve (isKind 0x10) setParamCommand := rfl

theorem exec_readParam (s : State) : exec .readParam s = whenSettled s fun t => t.serve (isKind 0x11) readParam := rfl

theorem exec_loadCue (s : State) : exec .loadCue s = whenSettled s fun t => t.serve (isKind 0x20) loadCue := rfl

theorem exec_readCue (s : State) : exec .readCue s = whenSettled s fun t => t.serve (isKind 0x21) readCue := rfl

theorem exec_loadKey (s : State) : exec .loadKey s = whenSettled s fun t => t.serve (isKind 0x22) loadKey := rfl

theorem exec_readKey (s : State) : exec .readKey s = whenSettled s fun t => t.serve (isKind 0x23) readKey := rfl

theorem exec_loadSlot (s : State) : exec .loadSlot s = whenSettled s fun t => t.serve (isKind 0x24) loadSlot := rfl

theorem exec_readSlot (s : State) : exec .readSlot s = whenSettled s fun t => t.serve (isKind 0x25) readSlot := rfl

theorem exec_loadCurve (s : State) : exec .loadCurve s = whenSettled s fun t => t.serve (isKind 0x26) loadCurve := rfl

theorem exec_act (s : State) : exec .act s = whenSettled s fun t => t.serve (isKind 0x30) actCommand := rfl

theorem exec_stop (s : State) : exec .stop s = whenSettled s fun t => t.serve (isKind 0x31) stopCommand := rfl

theorem exec_clearJam (s : State) : exec .clearJam s = whenSettled s fun t => t.serve (isKind 0x32) clearJam := rfl

theorem exec_save (s : State) : exec .save s = whenSettled s fun t => t.serve (isKind 0x40) saveCommand := rfl

theorem exec_storeRead (s : State) : exec .storeRead s = whenSettled s fun t => t.serve (isKind 0x41) storeRead := rfl

theorem exec_protect (s : State) : exec .protect s = whenSettled s fun t => t.serve (isKind 0x42) protectCommand := rfl

theorem exec_lampReplaced (s : State) :
    exec .lampReplaced s = whenSettled s fun t => t.serve (isKind 0x43) lampReplaced := rfl

theorem exec_calibrate (s : State) :
    exec .calibrate s = whenSettled s fun t => t.serve (isKind 0x50) calibrateCommand := rfl

theorem exec_enumerate (s : State) :
    exec .enumerate s = whenSettled s fun t => t.serve (isKind 0x01) enumerateCommand := rfl

theorem exec_unknownCommand (s : State) :
    exec .unknownCommand s = whenSettled s fun t => t.serve unknownKind unknownCommand := rfl

theorem exec_remoteRelay (s : State) :
    exec .remoteRelay s = whenSettled s fun t => t.serve (isKind 0x82) relayCommand := rfl

theorem exec_pauseExpiry (s : State) : exec .pauseExpiry s = whenPowered s s.pauseExpires := rfl

theorem exec_shutterClosedSwitch (s : State) (made : Bool) :
    exec (.shutterClosedSwitch made) s = whenSettled s fun t => t.closedSwitch made := rfl

theorem exec_gateDownSwitch (s : State) (made : Bool) :
    exec (.gateDownSwitch made) s = whenSettled s fun t => t.downSwitch made := rfl

theorem exec_indexPulse (s : State) (homeMark : Bool) :
    exec (.indexPulse homeMark) s = whenSettled s fun t => t.pulse homeMark := rfl

theorem exec_gateUpSwitch (s : State) (made : Bool) (slidePresent : Bool) :
    exec (.gateUpSwitch made slidePresent) s = whenSettled s fun t => t.upSwitch made slidePresent := rfl

theorem exec_settleEnd (s : State) : exec .settleEnd s = whenPowered s s.settleEnd := rfl

theorem exec_shutterOpenSwitch (s : State) (made : Bool) :
    exec (.shutterOpenSwitch made) s = whenSettled s fun t => t.openSwitch made := rfl

theorem exec_phaseLimitExpiry (s : State) : exec .phaseLimitExpiry s = whenPowered s s.phaseLimit := rfl

theorem exec_seekExhausted (s : State) : exec .seekExhausted s = whenPowered s s.seekExhausted := rfl

theorem exec_lampTick (s : State) (currentPresent : Bool) :
    exec (.lampTick currentPresent) s = whenSettled s fun t => t.tick currentPresent := rfl

theorem exec_dissolveEnd (s : State) : exec .dissolveEnd s = whenPowered s s.dissolveEnds := rfl

theorem exec_lampFailure (s : State) : exec .lampFailure s = whenPowered s s.lampFailure := rfl

theorem exec_swapSwitch (s : State) (made : Bool) :
    exec (.swapSwitch made) s = whenSettled s fun t => t.swapSwitch made := rfl

theorem exec_swapTimeout (s : State) : exec .swapTimeout s = whenPowered s s.swapTimeout := rfl

theorem exec_litMinute (s : State) : exec .litMinute s = whenPowered s s.litMinute := rfl

theorem exec_tempConversion (s : State) (code : BitVec 10) :
    exec (.tempConversion code) s = whenSettled s fun t => t.convertTemperature code := rfl

theorem exec_fanTachPulse (s : State) : exec .fanTachPulse s = whenSettled s State.tachPulse := rfl

theorem exec_fanStartTimeout (s : State) : exec .fanStartTimeout s = whenPowered s s.fanStartTimeout := rfl

theorem exec_fanSupervisionTimeout (s : State) :
    exec .fanSupervisionTimeout s = whenPowered s s.fanSupervisionTimeout := rfl

theorem exec_fanRest (s : State) : exec .fanRest s = whenPowered s s.fanRests := rfl

theorem exec_fanRestEnd (s : State) : exec .fanRestEnd s = whenPowered s s.fanRestEnds := rfl

theorem exec_cooldownEnd (s : State) : exec .cooldownEnd s = whenPowered s s.cooldownEnds := rfl

theorem exec_supplySample (s : State) (reading : BitVec 10) :
    exec (.supplySample reading) s = whenSettled s fun t => t.sampleSupply reading := rfl

theorem exec_outputSample (s : State) : exec .outputSample s = whenSettled s State.outputSampleWork := rfl

theorem exec_masterFrameBuild (s : State) (left right cue : BitVec 12) :
    exec (.masterFrameBuild left right cue) s = whenSettled s fun t => t.buildFrame { left := left, right := right, cue := cue } := rfl

theorem exec_calibrationComplete (s : State) : exec .calibrationComplete s = whenPowered s s.calibrationEnds := rfl

theorem exec_tapeEndSensor (s : State) (active : Bool) :
    exec (.tapeEndSensor active) s = whenSettled s fun t => t.endSensorReads active := rfl

theorem exec_ringOpenTimeout (s : State) : exec .ringOpenTimeout s = whenPowered s s.ringOpens := rfl

theorem exec_enumerationWaitExpiry (s : State) : exec .enumerationWaitExpiry s = whenPowered s s.enumExpires := rfl

theorem exec_irCodeFrame (s : State) (elements : List IrElement) :
    exec (.irCodeFrame elements) s = whenSettled s fun t => t.irElements elements := rfl

theorem exec_irRepeatFrame (s : State) (elements : List IrElement) :
    exec (.irRepeatFrame elements) s = whenSettled s fun t => t.irElements elements := rfl

theorem exec_buttonPress (s : State) (button : Fin 3) (readBefore readNow : Bool) :
    exec (.buttonPress button readBefore readNow) s = whenSettled s fun t => t.buttonDown button readBefore readNow := rfl

theorem exec_buttonRelease (s : State) (button : Fin 3) (readBefore readNow : Bool) :
    exec (.buttonRelease button readBefore readNow) s = whenSettled s fun t => t.buttonUp button readBefore readNow := rfl

theorem exec_holdEnd (s : State) : exec .holdEnd s = whenPowered s s.endHold := rfl

theorem exec_keyRepeat (s : State) : exec .keyRepeat s = whenPowered s s.keyRepeats := rfl

theorem exec_relayWaitExpiry (s : State) : exec .relayWaitExpiry s = whenPowered s s.relayExpires := rfl

theorem exec_pageOperationDone (s : State) : exec .pageOperationDone s = whenSettled s pageOperationEnds := rfl

theorem exec_powerLoss (s : State) : exec .powerLoss s = whenSettled s State.losePower := rfl

theorem exec_dimmerPeriodStart (s : State) : exec .dimmerPeriodStart s = whenSettled s State.dimmerPeriod := rfl

theorem exec_irFrameDiscarded (s : State) (elements : List IrElement) :
    exec (.irFrameDiscarded elements) s = whenSettled s fun t => t.irElements elements := rfl

end Sys2Proof.Proofs.Commands
end

