-- ==== Sys2Proof/Proofs/Invariants.lean ====
section
/-!
What every operation of the part keeps. `Keeps s t` collects the invariants of the safe states as implications from a
state to a later one, with the held reply place left alone; it composes, so that an operation is treated once, from the
operations it is made of, and serves every invariant.
-/

namespace Sys2Proof.Proofs.Invariants

open Sys2Proof Sys2Proof.Machine

-- One declaration after another, so that the checks of many short proofs do not wait for each other in threads.
set_option Elab.async false

/-- Each invariant that holds of a state holds of a later one. A field that is left out holds because the update does not
touch what the invariant reads. -/
structure Kept (s t : State) : Prop where
  counts : s.countsBalance → t.countsBalance := by exact fun h => h
  apart : s.neverTogether → t.neverTogether := by exact fun h => h
  shut : s.neverTogether → s.shutterHeld → t.shutterHeld := by exact fun _ h => h
  position : s.positionMeaning → t.positionMeaning := by exact fun h => h
  lamp : s.lampSafe → t.lampSafe := by exact fun h => h
  fan : s.fanKept → t.fanKept := by exact fun h => h
  mem : s.storeCanonical → t.storeCanonical := by exact fun h => h
  room : s.withinCapacity → t.withinCapacity := by exact fun h => h
  enum : s.enumeratesAsMaster → t.enumeratesAsMaster := by exact fun h => h

/-- The invariants are kept, and the reply place held for a command in progress stays as it is (R28). -/
structure Keeps (s t : State) : Prop extends Kept s t where
  held : t.msg.held = s.msg.held := by rfl

theorem Kept.refl (s : State) : Kept s s := {}

theorem Kept.trans {s t u : State} (h : Kept s t) (k : Kept t u) : Kept s u where
  counts := k.counts ∘ h.counts
  apart := k.apart ∘ h.apart
  shut a b := k.shut (h.apart a) (h.shut a b)
  position := k.position ∘ h.position
  lamp := k.lamp ∘ h.lamp
  fan := k.fan ∘ h.fan
  mem := k.mem ∘ h.mem
  room := k.room ∘ h.room
  enum := k.enum ∘ h.enum

theorem Keeps.refl (s : State) : Keeps s s := {}

theorem Keeps.trans {s t u : State} (h : Keeps s t) (k : Keeps t u) : Keeps s u :=
  { toKept := h.toKept.trans k.toKept, held := k.held.trans h.held }

/-- A step that is made only under a condition. -/
theorem Keeps.ite {s t u : State} {c : Prop} [Decidable c] (h : c → Keeps s t) (k : ¬ c → Keeps s u) :
    Keeps s (if c then t else u) := by
  split
  · exact h ‹_›
  · exact k ‹_›

/-! ## Latching and the reply queue (R29, R34, R199) -/

theorem room_of_latch_msg {s t : State} {f : Flag} (hm : t.msg = (s.latch f).msg) (hq : t.queue = s.queue)
    (ha : t.sound.fifo = s.sound.fifo) (h : s.withinCapacity) : t.withinCapacity := by
  obtain ⟨hrx, hrep, hqu, hfifo⟩ := h
  unfold State.withinCapacity
  rw [hq, ha]
  refine ⟨?_, ?_, hqu, hfifo⟩
  · rw [hm]; rcases s.latch_msg f with e | ⟨-, -, e⟩ <;> rw [e] <;> exact hrx
  · unfold State.placesUsed at *
    rw [hm]
    rcases s.latch_msg f with e | ⟨hfree, -, e⟩ <;> rw [e]
    · exact hrep
    · simp only [State.placesUsed, List.length_append, List.length_singleton] at hfree ⊢; omega

theorem latch_attempt (s : State) (f : Flag) : (s.latch f).msg.attempt = s.msg.attempt := by
  rcases s.latch_msg f with e | ⟨-, -, e⟩ <;> rw [e]

theorem latch_held (s : State) (f : Flag) : (s.latch f).msg.held = s.msg.held := by
  rcases s.latch_msg f with e | ⟨-, -, e⟩ <;> rw [e]

theorem keeps_latch (s : State) (f : Flag) : Keeps s (s.latch f) := by
  have hr := room_of_latch_msg (t := s.latch f) rfl (by rw [State.latch_frame]) (by rw [State.latch_frame])
  have ha := latch_attempt s f
  have hh := latch_held s f
  rw [State.latch_frame] at hr ha hh ⊢
  exact { room := hr, enum := fun h hl a hs => h hl a (ha ▸ hs), held := hh }

theorem keeps_latchIf (s : State) (c : Bool) (f : Flag) : Keeps s (s.latchIf c f) := by
  cases c
  · exact .refl s
  · exact keeps_latch s f

/-! ## The show store (R201 to R207) -/

theorem keeps_setJob (s : State) (j : Option Job) : Keeps s (s.setJob j) := {}

theorem keeps_mendPage (s : State) (p : Nat) : Keeps s (s.mendPage p) := {}

theorem keeps_setTape (s : State) (t : Tape) : Keeps s (s.setTape t) := {}

theorem keeps_setTrims (s : State) (t : Trims) : Keeps s (s.setTrims t) := {}

theorem keeps_takePendingTrims (s : State) : Keeps s s.takePendingTrims := by
  unfold State.takePendingTrims
  split
  · exact (keeps_setTrims s _).trans (keeps_setTape _ _)
  · exact .refl s

theorem keeps_takeDeferredActive (s : State) : Keeps s s.takeDeferredActive := by
  unfold State.takeDeferredActive
  exact .ite (fun _ => {}) fun _ => .refl s

theorem keeps_finishJob (k : JobKind) (s : State) : Keeps s (finishJob k s) := by
  have hlatch (w : BitVec 7) : Keeps s (((s.setJob none).clearErrors w).latch .storeDone) :=
    Keeps.trans (t := (s.setJob none).clearErrors w) {} (keeps_latch _ _)
  cases k with
  | save r =>
    cases r with
    | settings => exact ((hlatch _).trans (keeps_takeDeferredActive _)).trans (keeps_takePendingTrims _)
    | cues => exact (hlatch _).trans {}
    | keys => exact hlatch _
    | slots => exact hlatch _
    | curve => exact hlatch _
  | lampWrite a b => exact {}
  | protect set => exact Keeps.trans (t := s.setJob none) {} (keeps_latch _ _)

theorem keeps_runPages (k : JobKind) (pages : List Nat) (s : State) : Keeps s (runPages k pages s) := by
  induction pages generalizing s with
  | nil => exact keeps_finishJob k s
  | cons p rest ih =>
    unfold runPages
    exact .ite (fun _ => (keeps_mendPage s p).trans (ih _)) fun _ => .ite (fun _ => {}) fun _ => {}

theorem keeps_setPendingLamps (s : State) (a b : Bool) :
    Keeps s { s with store := { s.store with pendingLamp0 := a, pendingLamp1 := b } } := {}

theorem keeps_startPending (s : State) : Keeps s s.startPending := by
  unfold State.startPending
  exact .ite (fun _ => (keeps_setPendingLamps s false false).trans (keeps_runPages _ _ _)) fun _ => .refl s

theorem keeps_startJob (s : State) (k : JobKind) : Keeps s (s.startJob k) :=
  (keeps_runPages _ _ _).trans (keeps_startPending _)

theorem keeps_requestLampWrite (s : State) (n : LampNo) : Keeps s (s.requestLampWrite n) := by
  unfold State.requestLampWrite
  exact .ite (fun _ => keeps_startJob _ _) fun _ => by cases n <;> exact {}

theorem keeps_storePage (s : State) (p : Nat) (c : List Byte) : Keeps s (s.storePage p c) :=
  { mem := fun h => ShowMem.writePage_wf h p c }

theorem keeps_spoilPage (s : State) (p : Nat) : Keeps s (s.spoilPage p) :=
  { mem := fun h => State.spoilPage_wf h p }

theorem keeps_pageOperationEnds (s : State) : Keeps s (pageOperationEnds s) := by
  unfold pageOperationEnds
  split
  · refine .ite (fun _ => .refl s) fun _ => ?_
    split
    · exact (keeps_storePage s _ _).trans (keeps_setJob _ _)
    · exact (((keeps_storePage s _ _).trans (keeps_mendPage _ _)).trans (keeps_runPages _ _ _)).trans (keeps_startPending _)
  · exact .refl s

theorem keeps_storeSuspend (s : State) : Keeps s (storeSuspend s) := by
  unfold storeSuspend
  split
  · exact (keeps_spoilPage s _).trans (keeps_setJob _ _)
  · exact .refl s

theorem keeps_storeResume (s : State) : Keeps s (storeResume s) := by
  unfold storeResume
  split
  · exact .ite (fun _ => keeps_setJob s _) fun _ => .refl s
  · exact ((keeps_setJob s none).trans (keeps_runPages _ _ _)).trans (keeps_startPending _)
  · exact .refl s

theorem keeps_storePowerLoss (s : State) : Keeps s (storePowerLoss s) := by
  unfold storePowerLoss
  split
  · exact (keeps_spoilPage s _).trans {}
  · exact {}

end Sys2Proof.Proofs.Invariants
end

