-- ==== Sys2Proof/Proofs/InvariantsLamp.lean ====
section
/-!
The lamp controller and the monitor keep the invariants: an event that forms the applied level anew leaves the lamp safe
whatever it was before, and a demand formed anew leaves the fan on while cooling is owed.
-/

namespace Sys2Proof.Proofs.Invariants

open Sys2Proof Sys2Proof.Machine

-- One declaration after another, so that the checks of many short proofs do not wait for each other in threads.
set_option Elab.async false

/-! ## What holds afresh (R146, R154) -/

/-- A level not above the allowed one meets the caps and the zero conditions (R145, R146). -/
theorem lampSafe_of_le_allowed {s : State} (h : s.lamp.applied ≤ s.allowed) : s.lampSafe := by
  unfold State.allowed at h
  unfold State.lampSafe
  by_cases hd : s.lampHeldDark = true
  · rw [if_pos hd] at h
    exact ⟨by omega, by omega, fun _ => by omega⟩
  · rw [if_neg hd] at h
    have hcap : s.lampCap ≤ thermalCap s.mon.thermal ∧ s.lampCap ≤ supplyCap s.mon.supply :=
      ⟨Nat.min_le_left _ _, Nat.min_le_right _ _⟩
    refine ⟨by omega, by omega, fun hz => absurd ?_ hd⟩
    unfold State.lampHeldDark
    rcases hz with h | h | h | h <;> simp [h]

/-- What forms the demand leaves the fan OFF only where no cooling is owed (R151, R154). -/
theorem fanKept_reformDemand (s : State) : s.reformDemand.fanKept := by
  intro howed hoff
  have hd := s.reformDemand_off hoff
  rw [State.reformDemand_frame] at howed
  unfold State.fanDemand at hd
  split_ifs at hd with h1 h2 h3
  exact h3 (howed.elim (fun h => .inr (.inl h)) fun h => .inr (.inr h))

/-- Only a dark lamp lets the demand go, so a fan that the demand turns OFF keeps the lamp safe. -/
theorem lampSafe_reformDemand {s : State} (h : s.lampSafe) : s.reformDemand.lampSafe := by
  obtain ⟨ht, hs, hz⟩ := h
  unfold State.reformDemand
  split
  · rename_i hd
    refine ⟨ht, hs, fun _ => ?_⟩
    unfold State.fanDemand at hd
    split_ifs at hd with h1 h2 h3
    exact Nat.eq_zero_of_not_pos fun hp => h3 (.inl hp)
  · split
    · rename_i hoff
      exact ⟨ht, hs, fun _ => hz (.inl (by rw [hoff]; rfl))⟩
    · exact ⟨ht, hs, hz⟩

theorem keeps_reformDemand (s : State) : Keeps s s.reformDemand := by
  have hf := fanKept_reformDemand s
  have hl := @lampSafe_reformDemand s
  rw [State.reformDemand_frame] at hf hl ⊢
  exact { fan := fun _ => hf, lamp := hl }

/-! ## The applied level (R146) -/

theorem lampSafe_requestLampWrite {s : State} (n : LampNo) (h : s.lampSafe) : (s.requestLampWrite n).lampSafe := by
  rw [State.requestLampWrite_frame]; exact h

theorem fanKept_requestLampWrite {s : State} (n : LampNo) (h : s.fanKept) : (s.requestLampWrite n).fanKept := by
  rw [State.requestLampWrite_frame]; exact h

theorem lampSafe_setApplied {s : State} {a : Nat} (h : a ≤ s.allowed) : (s.setApplied a).lampSafe := by
  have ht : ({ s with lamp := { s.lamp with applied := a, held := decide (a < s.lamp.computed) } } : State).lampSafe :=
    lampSafe_of_le_allowed h
  unfold State.setApplied
  dsimp only
  split
  · exact lampSafe_requestLampWrite _ (lampSafe_reformDemand ht)
  · split
    · exact ht
    · exact lampSafe_reformDemand ht

theorem keeps_setApplied_fan {s : State} {a : Nat} (h : s.fanKept) : (s.setApplied a).fanKept := by
  unfold State.setApplied
  dsimp only
  split
  · exact fanKept_requestLampWrite _ (fanKept_reformDemand _)
  · split
    · exact h
    · exact fanKept_reformDemand _

/-- Setting the applied level changes nothing of the monitor but the fan and the cooldown timer. -/
theorem setApplied_mon (s : State) (a : Nat) :
    (s.setApplied a).mon =
      { s.mon with
        fan := (s.setApplied a).mon.fan, fanAttempts := (s.setApplied a).mon.fanAttempts
        cooldown := (s.setApplied a).mon.cooldown } := by
  unfold State.setApplied
  dsimp only
  split
  · rw [State.requestLampWrite_frame, State.reformDemand_frame]
  · split
    · rfl
    · rw [State.reformDemand_frame]

theorem keeps_setApplied {s : State} {a : Nat} (h : a ≤ s.allowed) : Keeps s (s.setApplied a) := by
  have hl := lampSafe_setApplied h
  have hf := @keeps_setApplied_fan s a
  have hm := (s.setApplied_storeAfterFall a).1
  rw [State.setApplied_frame, State.setApplied_lamp, setApplied_mon] at hl hf hm ⊢
  exact
    { lamp := fun _ => hl, fan := hf
      mem := fun h => by unfold State.storeCanonical at *; rw [hm]; exact h }

/-- What an event does at which the allowed level may have fallen: the lamp is safe after it, whatever it was. -/
theorem lampSafe_lampFall (s : State) (before : Nat) : (s.lampFall before).lampSafe := by
  unfold State.lampFall
  split
  · exact lampSafe_setApplied (Nat.min_le_right _ _)
  · exact lampSafe_of_le_allowed (by omega)

theorem keeps_lampFall (s : State) (before : Nat) : Keeps s (s.lampFall before) := by
  unfold State.lampFall
  exact .ite (fun _ => keeps_setApplied (Nat.min_le_right _ _)) fun _ => .refl s

end Sys2Proof.Proofs.Invariants
end

