-- ==== Sys2Proof/Proofs/InvariantsTray.lean ====
section
/-!
The changer up to its rest keeps the invariants. A motion is under way with the shutter closed in every busy state but
SHUTTER_OPEN (`shutMotion`); what begins one needs the lamp changer out of the way, and what goes on with one needs
nothing more. `Beside` adds to `Keeps` that the queue is not touched, which the offer needs of what it hands out.
-/

namespace Sys2Proof.Proofs.Invariants

open Sys2Proof Sys2Proof.Machine

-- One declaration after another, so that the checks of many short proofs do not wait for each other in threads.
set_option Elab.async false

/-- The invariants are kept by an operation beside the queue. -/
structure Beside (s t : State) : Prop extends Keeps s t where
  queue : t.queue = s.queue := by rfl

theorem Beside.refl (s : State) : Beside s s := {}

theorem Beside.trans {s t u : State} (h : Beside s t) (k : Beside t u) : Beside s u :=
  { toKeeps := h.toKeeps.trans k.toKeeps, queue := k.queue.trans h.queue }

theorem Beside.ite {s t u : State} {c : Prop} [Decidable c] (h : c → Beside s t) (k : ¬ c → Beside s u) :
    Beside s (if c then t else u) := by
  split
  · exact h ‹_›
  · exact k ‹_›

theorem beside_latch (s : State) (f : Flag) : Beside s (s.latch f) :=
  { toKeeps := keeps_latch s f, queue := by rw [State.latch_frame] }

theorem beside_lampFall (s : State) (before : Nat) : Beside s (s.lampFall before) :=
  { toKeeps := keeps_lampFall s before, queue := by rw [State.lampFall_frame] }

/-! ## Swaps (R128, R130, R159) -/

/-- A swap starts with the tray changer at rest. -/
theorem beside_startSwap {s : State} (h : s.tray.state.busy = false) : Beside s s.startSwap := by
  have k := beside_lampFall { s with lamp := { s.lamp with changer := .swapping 0, failCount := 0 } } s.allowed
  have hl := lampSafe_lampFall { s with lamp := { s.lamp with changer := .swapping 0, failCount := 0 } } s.allowed
  have ht : (State.lampFall { s with lamp := { s.lamp with changer := .swapping 0, failCount := 0 } } s.allowed).tray =
      s.tray := by rw [State.lampFall_frame]
  exact
    { k with
      lamp := fun _ => hl
      apart := fun _ hb => by
        rw [State.startSwap, State.driveShutter_tray, ht] at hb
        exact absurd hb.1 (by simp [h])
      shut := fun _ _ _ => rfl }

theorem beside_requestSwap (s : State) : Beside s s.requestSwap := by
  unfold State.requestSwap
  refine .ite (fun hi => .ite (fun _ => ?_) fun hb => beside_startSwap (by simpa using hb)) fun _ => .refl s
  exact
    { apart := fun _ h => nomatch h.2
      shut := fun _ h hh => h (by simpa [hi, LampChanger.isSwapping] using hh)
      lamp := fun h => ⟨h.1, h.2.1, fun hz => h.2.2 (by simpa [hi, LampChanger.isSwapping, Lamp.record] using hz)⟩ }

/-- A swap that waited for a changer now at rest. -/
theorem beside_swapMovesOn {s : State} (h : s.swapCanMove = true) : Beside s s.swapMovesOn := by
  obtain ⟨hw, hr⟩ : s.lamp.changer = .waitChanger ∧ s.tray.state.atRest = true := by
    simpa [State.swapCanMove] using h
  have hb : s.tray.state.busy = false := by
    cases hs : s.tray.state <;> simp_all [TrayState.atRest, TrayState.busy]
  unfold State.swapMovesOn
  refine .ite (fun _ => beside_startSwap hb) fun hf => ?_
  exact
    { apart := fun _ h => nomatch h.2
      shut := fun _ h hh => h (by simpa [hw, LampChanger.isSwapping] using hh)
      lamp := fun h => ⟨h.1, h.2.1, fun hz => h.2.2 (by simpa [hw, LampChanger.isSwapping, Lamp.record] using hz)⟩ }

theorem beside_draw (s : State) : Beside s s.draw := {}

theorem beside_raceSwap (s : State) : Beside s s.raceSwap := by
  unfold State.raceSwap
  refine .ite (fun h => .ite (fun _ => ?_) fun _ => beside_draw s) fun _ => .refl s
  exact (beside_draw s).trans (beside_swapMovesOn (s := s.draw) h)

theorem beside_moveSwap (s : State) : Beside s s.moveSwap := by
  unfold State.moveSwap
  exact .ite beside_swapMovesOn fun _ => .refl s

/-! ## Motions (R119, R128, R130) -/

/-- A motion of the changer is under way that needs the shutter closed: every busy state but SHUTTER_OPEN. -/
def shutMotion (st : TrayState) : Prop := st.busy = true ∧ st.needsShutterClosed = true

@[simp] theorem shutMotion_changing (p : ChangePhase) : shutMotion (.changing p) ↔ p ≠ .shutterOpen := by
  cases p <;> simp [shutMotion, TrayState.busy, TrayState.needsShutterClosed]

@[simp] theorem shutMotion_homing (p : HomePhase) : shutMotion (.homing p) := ⟨rfl, rfl⟩

@[simp] theorem shutMotion_suspended (r : Resume) : shutMotion (.suspended r) := ⟨rfl, rfl⟩

theorem position_of_busy {s : State} (hb : s.tray.state.busy = true) (h : s.tray.position < 100) : s.positionMeaning := by
  refine ⟨h, ?_, ?_, ?_⟩ <;> intro e <;> rw [e] at hb <;> cases hb

/-- A motion begins with the shutter closed, the lamp changer out of the way. -/
theorem beside_begin {s : State} {t : Tray} (hfree : s.tray.state.busy = true ∨ s.lamp.changer.isSwapping = false)
    (hm : shutMotion t.state) (hopen : t.shutterOpen = false) (hpos : t.position = s.tray.position) :
    Beside s (s.setTray t) :=
  { apart := fun h hb => hfree.elim (fun hf => h ⟨hf, hb.2⟩) fun hf => by simp [hf] at hb
    shut := fun _ _ _ => hopen
    position := fun h => position_of_busy hm.1 (by simpa [hpos] using h.1) }

/-- A motion goes on, the shutter left as it stands. -/
theorem beside_goOn {s : State} {t : Tray} (hs : shutMotion s.tray.state) (hm : shutMotion t.state)
    (hopen : t.shutterOpen = s.tray.shutterOpen) (hpos : t.position = s.tray.position ∨ t.position < 100) :
    Beside s (s.setTray t) :=
  { apart := fun h hb => h ⟨hs.1, hb.2⟩
    shut := fun _ h _ => hopen.trans (h (.inl hs.2))
    position := fun h => position_of_busy hm.1 (hpos.elim (fun e => by simpa [e] using h.1) id) }

theorem beside_boundary {s : State} (hs : shutMotion s.tray.state) (r : Resume) {begin : State → State}
    (hb : Beside s (begin s)) : Beside s (s.boundary r begin) := by
  unfold State.boundary
  exact .ite (fun _ => beside_goOn hs (shutMotion_suspended r) rfl (.inl rfl)) fun _ => hb

theorem beside_boundaryAfter {s t : State} (h : Beside s t) (ht : shutMotion t.tray.state) {r : Resume}
    {begin : State → State} (hb : Beside t (begin t)) : Beside s (t.boundary r begin) :=
  h.trans (beside_boundary ht r hb)

theorem beside_setMotion (s : State) (m : Option Motion) : Beside s (s.setTray { s.tray with motion := m }) := {}

theorem beside_beginSettle {s : State} (hs : shutMotion s.tray.state) : Beside s s.beginSettle :=
  beside_goOn hs (by simp) rfl (.inl rfl)

theorem beside_beginIndex {s : State} (hs : shutMotion s.tray.state) : Beside s s.beginIndex := by
  unfold State.beginIndex
  split
  · exact beside_goOn hs (by simp) rfl (.inl rfl)
  · exact .refl s

theorem beside_beginSeek {s : State} (hs : shutMotion s.tray.state) : Beside s s.beginSeek :=
  beside_goOn hs (by simp) rfl (.inl rfl)

theorem beside_recordOccupancy (s : State) (present : Bool) : Beside s (s.recordOccupancy present) := by
  unfold State.recordOccupancy
  exact .ite (fun _ => {}) fun _ => .refl s

@[simp] theorem recordOccupancy_state (s : State) (present : Bool) :
    (s.recordOccupancy present).tray.state = s.tray.state := by
  unfold State.recordOccupancy
  split <;> rfl

/-- A begun phase whose switch is already made ends at once. -/
theorem Beside.switched {s t : State} {c : Bool} {next : State} (h : Beside s t) (k : Beside t next) :
    Beside s (if c then next else t) := .ite (fun _ => h.trans k) fun _ => h

theorem beside_beginExtraLower {s : State} (hs : shutMotion s.tray.state) : Beside s s.beginExtraLower := by
  have hm : shutMotion (.changing .lower) := by simp
  exact Beside.switched (beside_goOn hs hm rfl (.inl rfl)) (beside_boundary hm _ (beside_beginIndex hm))

@[simp] theorem reportTrayEmpty_state (s : State) : s.reportTrayEmpty.tray.state = s.tray.state := by
  rw [State.reportTrayEmpty, State.latch_frame]; rfl

theorem beside_reportTrayEmpty (s : State) : Beside s s.reportTrayEmpty :=
  Beside.trans (t := s.setTray { s.tray with trayEmpty := true }) {} (beside_latch _ _)

theorem beside_raiseEnds {s : State} (hs : shutMotion s.tray.state) (present : Bool) :
    Beside s (s.raiseEnds present) := by
  have ht : shutMotion (s.recordOccupancy present).tray.state := by simpa using hs
  refine (beside_recordOccupancy s present).trans ?_
  unfold State.raiseEnds
  dsimp only
  generalize s.recordOccupancy present = u at ht ⊢
  have settles : Beside u (u.boundary (.change .settle) State.beginSettle) :=
    beside_boundary ht _ (beside_beginSettle ht)
  split
  · refine .ite (fun _ => .ite (fun _ => ?_) fun _ => ?_) fun _ => settles
    · refine beside_boundaryAfter (beside_setMotion u _) ?_ (beside_beginExtraLower ?_) <;> exact ht
    · refine beside_boundaryAfter ((beside_setMotion u _).trans (beside_reportTrayEmpty _)) ?_ (beside_beginSettle ?_) <;>
        exact (reportTrayEmpty_state _).symm ▸ ht
  · exact settles

theorem beside_beginRaise {s : State} (hs : shutMotion s.tray.state) : Beside s s.beginRaise := by
  have hm : shutMotion (.changing .raise) := by simp
  exact Beside.switched (beside_goOn hs hm rfl (.inl rfl)) (beside_raiseEnds hm _)

theorem beside_beginIndexOrRaise {s : State} (hs : shutMotion s.tray.state) : Beside s s.beginIndexOrRaise :=
  .ite (fun _ => beside_beginRaise hs) fun _ => beside_beginIndex hs

theorem beside_lowerEnds {s : State} (hs : shutMotion s.tray.state) : Beside s s.lowerEnds :=
  beside_boundary hs _ (beside_beginIndexOrRaise hs)

theorem beside_beginLower {s : State} (hs : shutMotion s.tray.state) : Beside s s.beginLower := by
  have hm : shutMotion (.changing .lower) := by simp
  exact Beside.switched (beside_goOn hs hm rfl (.inl rfl)) (beside_lowerEnds hm)

theorem beside_closeEnds {s : State} (hs : shutMotion s.tray.state) : Beside s s.closeEnds :=
  beside_boundary hs _ (beside_beginLower hs)

theorem beside_beginClose {s : State} (hfree : s.tray.state.busy = true ∨ s.lamp.changer.isSwapping = false) :
    Beside s s.beginClose := by
  have hm : shutMotion (.changing .shutterClose) := by simp
  exact Beside.switched (beside_begin hfree hm rfl rfl) (beside_closeEnds hm)

theorem beside_beginChange {s : State} (hfree : s.tray.state.busy = true ∨ s.lamp.changer.isSwapping = false)
    (a : Action) (m : Motion) : Beside s (s.beginChange a m) :=
  Beside.trans (t := s.setTray { s.tray with motion := some m, current := some a, cut := false, trayEmpty := false }) {}
    (beside_beginClose hfree)

theorem beside_homeLowerEnds {s : State} (hs : shutMotion s.tray.state) : Beside s s.homeLowerEnds :=
  beside_boundary hs _ (beside_beginSeek hs)

theorem beside_beginHomeLower {s : State} (hs : shutMotion s.tray.state) : Beside s s.beginHomeLower := by
  have hm : shutMotion (.homing .lower) := by simp
  exact Beside.switched (beside_goOn hs hm rfl (.inl rfl)) (beside_homeLowerEnds hm)

theorem beside_homeCloseEnds {s : State} (hs : shutMotion s.tray.state) : Beside s s.homeCloseEnds :=
  beside_boundary hs _ (beside_beginHomeLower hs)

theorem beside_beginHomeClose {s : State} (hfree : s.tray.state.busy = true ∨ s.lamp.changer.isSwapping = false) :
    Beside s s.beginHomeClose := by
  have hm : shutMotion (.homing .shutterClose) := by simp
  exact Beside.switched (beside_begin hfree hm rfl rfl) (beside_homeCloseEnds hm)

/-- A homing begins with the position invalid, before its first phase makes the state HOMING. -/
theorem beside_beginHoming {s : State} (hfree : s.tray.state.busy = true ∨ s.lamp.changer.isSwapping = false)
    (a : Action) : Beside s (s.beginHoming a) := by
  have hm : shutMotion (.homing .shutterClose) := by simp
  unfold State.beginHoming State.beginHomeClose
  exact Beside.switched (beside_begin hfree hm rfl rfl) (beside_homeCloseEnds hm)

/-! ## The taking of a head (R101, R129) -/

theorem beside_driveShutter_closed (s : State) : Beside s (s.driveShutter false) := { shut := fun _ _ _ => rfl }

/-- A SHUTTER action at a changer at rest, with no swap in progress. -/
theorem beside_shutterAction {s : State} (hopen : s.tray.state.needsShutterClosed = false)
    (hswap : s.lamp.changer.isSwapping = false) (close : Bool) : Beside s (s.shutterAction close) := by
  unfold State.shutterAction
  refine .ite (fun _ => beside_driveShutter_closed s) fun _ => .ite (fun ho => ?_) fun ho => ?_
  · exact { shut := fun _ h hh => h (.inr (.inr (.inl ho))) }
  · exact { shut := fun _ _ hh => by simp [hopen, hswap, ho] at hh }

theorem beside_reportChoice (s : State) (c : Choice) : Beside s (s.reportChoice c) := by
  cases c with
  | motion m => exact .refl s
  | none => exact .refl s
  | trayEmpty => exact beside_reportTrayEmpty s
  | noMark => exact beside_latch s _

theorem changerFree_iff (s : State) :
    s.changerFree = true ↔
      (s.tray.state = .idle ∨ s.tray.state = .unhomed) ∧ s.lamp.changer.isSwapping = false ∧ s.mon.supply ≠ .critical := by
  simp [State.changerFree, and_assoc]

theorem beside_trayTake {s : State} (h : s.changerFree = true) (a : Action) : Beside s (s.trayTake a) := by
  obtain ⟨hst, hswap, -⟩ := (changerFree_iff s).mp h
  have hopen : s.tray.state.needsShutterClosed = false := by rcases hst with e | e <;> rw [e] <;> rfl
  unfold State.trayTake
  refine .ite (fun _ => beside_beginHoming (.inr hswap) a) fun _ => ?_
  split
  · exact beside_beginHoming (.inr hswap) _
  · exact beside_shutterAction hopen hswap _
  · split
    · exact beside_beginChange (.inr hswap) _ _
    · exact beside_reportChoice _ _

end Sys2Proof.Proofs.Invariants
end

