-- ==== Sys2Proof/Proofs/InvariantsQueue.lean ====
section
/-!
The queue and the changer's rest keep the invariants: what an offer hands out is beside the queue, an offer takes its
heads one after another, and every entry of the changer into a rest tells the queue.
-/

namespace Sys2Proof.Proofs.Invariants

open Sys2Proof Sys2Proof.Machine

-- One declaration after another, so that the checks of many short proofs do not wait for each other in threads.
set_option Elab.async false

/-! ## Immediate actions (R104) -/

theorem beside_setTrims (s : State) (t : Trims) : Beside s (s.setTrims t) := {}

theorem beside_setTape (s : State) (t : Tape) : Beside s (s.setTape t) := {}

theorem beside_calibrationEnds (s : State) : Beside s s.calibrationEnds := by
  unfold State.calibrationEnds
  split
  · exact .ite (fun _ => .ite (fun _ => beside_setTape s _) fun _ => (beside_setTape s _).trans (beside_setTrims _ _))
      fun _ => .refl s
  · exact .refl s

theorem beside_enterTapeEnd (s : State) : Beside s s.enterTapeEnd := (beside_setTape s _).trans (beside_latch _ _)

theorem beside_tapeAction (s : State) (c : TapeCommand) : Beside s (s.tapeAction c) := by
  unfold State.tapeAction
  refine .ite (fun _ => ?_) fun _ => .refl s
  have stops (b : Prop) [Decidable b] :
      Beside s (if b then { s.calibrationEnds with tape := { s.calibrationEnds.tape with calibration := none } } else s) :=
    .ite (fun _ => (beside_calibrationEnds s).trans (beside_setTape _ _)) fun _ => .refl s
  exact .ite (fun _ => (stops _).trans (beside_enterTapeEnd _)) fun _ => (stops _).trans (beside_setTape _ _)

theorem beside_setLamp (s : State) (level : Nat) : Beside s (s.setLamp level) :=
  Beside.trans (t := { s with lamp := { s.lamp with target := level, computed := level, dissolve := none } }) {}
    (beside_lampFall _ _)

theorem beside_beginDissolve (s : State) (target duration : Nat) (loaded : Bool) :
    Beside s (s.beginDissolve target duration loaded) :=
  .ite (fun _ => beside_setLamp s target) fun _ => {}

theorem beside_setSound (s : State) (a : Sound) (h : a.fifo = s.sound.fifo) : Beside s (s.setSound a) :=
  { room := fun ⟨hrx, hrep, hq, hfifo⟩ => ⟨hrx, hrep, hq, (congrArg List.length h).trans_le hfifo⟩ }

theorem beside_markAction (s : State) (n : Byte) : Beside s (s.markAction n) :=
  Beside.trans (t := { s with events := { s.events with lastMark := n } }) {} (beside_latch _ _)

theorem beside_handImmediate (s : State) (a : Action) : Beside s (s.handImmediate a) := by
  unfold State.handImmediate
  split
  · exact beside_setLamp s _
  · exact beside_beginDissolve s _ _ _
  · exact beside_setSound s _ rfl
  · exact beside_setSound s _ rfl
  · exact beside_tapeAction s _
  · exact beside_markAction s _
  · exact .refl s

/-! ## The offer and placement (R97 to R107) -/

/-- The head leaves the entries and joins those taken. -/
theorem keeps_takeHead {s : State} {e : QueueEntry} {rest : List QueueEntry} (h : s.queue.entries = e :: rest) :
    Keeps s (s.takeHead rest) :=
  { counts := fun hc => by
      have one : BitVec.ofNat 32 (rest.length + 1) = BitVec.ofNat 32 rest.length + 1 := BitVec.ofNat_add ..
      simp only [State.countsBalance, h, List.length_cons, one] at hc
      simp only [State.countsBalance, State.takeHead_queue, hc]
      ac_rfl
    room := fun ⟨hrx, hrep, hq, hfifo⟩ => ⟨hrx, hrep, by simp [h] at hq ⊢; omega, hfifo⟩ }

theorem keeps_setPause (s : State) (p : Option PauseTimer) : Keeps s { s with queue := { s.queue with pause := p } } := {}

theorem keeps_offerEntries (entries : List QueueEntry) (s : State) (h : s.queue.entries = entries) :
    Keeps s (offerEntries entries s) := by
  induction entries generalizing s with
  | nil => exact .refl s
  | cons e rest ih =>
    have takes : Keeps s (s.takeHead rest) := keeps_takeHead h
    have goesOn {t : State} (k : Beside (s.takeHead rest) t) : Keeps s (offerEntries rest t) :=
      (takes.trans k.toKeeps).trans (ih t (by rw [k.queue]; rfl))
    unfold offerEntries
    refine .ite (fun _ => .ite (fun _ => goesOn (beside_latch _ _)) fun _ => .ite (fun hf => ?_) fun _ => .refl s) fun _ => ?_
    · exact goesOn ((beside_trayTake (s := s.takeHead rest) hf _).trans (beside_raceSwap _))
    · split
      · exact .ite (fun _ => goesOn (.refl _)) fun _ => takes.trans (keeps_setPause _ _)
      · exact goesOn (beside_handImmediate _ _)

theorem keeps_offer (s : State) : Keeps s s.offer := by
  refine Keeps.trans ?_ (beside_moveSwap _).toKeeps
  exact .ite (fun _ => .refl s) fun _ => keeps_offerEntries _ s rfl

theorem keeps_trayRests (s : State) : Keeps s s.trayRests := (beside_raceSwap s).toKeeps.trans (keeps_offer _)

/-- Entries join the queue, counted as accepted, where there is room for them. -/
theorem keeps_place {s : State} {actions : List Action} (h : actions.length ≤ s.queueRoom) (source : ActionSource) :
    Keeps s (s.place actions source) := by
  have placed : Keeps s { s with queue := { s.queue with
      entries := s.queue.entries ++ actions.map (fun a => { action := a, source := source })
      accepted := s.queue.accepted + BitVec.ofNat 32 actions.length } } :=
    { counts := fun hc => by
        simp only [State.countsBalance] at hc ⊢
        rw [hc, List.length_append, List.length_map, BitVec.ofNat_add]
        ac_rfl
      room := fun ⟨hrx, hrep, hq, hfifo⟩ => ⟨hrx, hrep, by
        simp only [State.queueRoom, Config.queuePlaces] at h
        simp only [List.length_append, List.length_map]
        omega, hfifo⟩ }
  unfold State.place
  exact .ite (fun _ => placed.trans (keeps_offer _)) fun _ => placed

theorem keeps_placeOrDiscard (s : State) (a : Action) (source : ActionSource) : Keeps s (s.placeOrDiscard a source) :=
  .ite (fun h => keeps_place (actions := [a]) h source) fun _ => keeps_latch s _

/-- The entries that a STOP removes count as purged. -/
theorem keeps_purge (s : State) : Keeps s s.purge :=
  { counts := fun hc => by
      simp only [State.countsBalance] at hc
      simp only [State.countsBalance, State.purge, List.length_nil, hc]
      simp [BitVec.add_assoc]
    room := fun ⟨hrx, hrep, _, hfifo⟩ => ⟨hrx, hrep, Nat.zero_le _, hfifo⟩ }

/-! ## The changer's rest (R109, R122) -/

/-- The changer as it comes to rest: IDLE or UNHOMED by its position. -/
def restingTray (t : Tray) : Tray :=
  { t with
    state := if t.valid then TrayState.idle else .unhomed
    timer := 0, motion := none, seekCount := 0, current := none, carried := none, cut := false, motor := none }

theorem endMotion_eq (s : State) : s.endMotion = (s.setTray (restingTray s.tray)).trayRests := rfl

theorem restingTray_state (t : Tray) :
    (restingTray t).state.busy = false ∧ (restingTray t).state.needsShutterClosed = false := by
  cases h : t.valid <;> simp [restingTray, h, TrayState.busy, TrayState.needsShutterClosed]

theorem positionMeaning_restingTray {s : State} (h : s.tray.position < 100) :
    (s.setTray (restingTray s.tray)).positionMeaning := by
  cases hv : s.tray.valid <;> simp [State.positionMeaning, restingTray, hv, h]

/-- Coming to rest keeps the invariants, whatever the position's validity was before. -/
theorem keeps_rests (s : State) : Keeps s (s.setTray (restingTray s.tray)) :=
  { apart := fun _ hb => by simp [(restingTray_state s.tray).1] at hb
    shut := fun _ h hh => h (hh.imp (fun hn => by simp [(restingTray_state s.tray).2] at hn) id)
    position := fun h => positionMeaning_restingTray h.1 }

theorem keeps_endMotion (s : State) : Keeps s s.endMotion := (keeps_rests s).trans (keeps_trayRests _)

/-- A rest after a change of the changer that matters to no invariant but the position's meaning. -/
theorem keeps_endMotion_of {s t : State} (k : Keeps { s with tray := { s.tray with valid := false } } t)
    (hp : s.tray.position < 100 → t.tray.position < 100) : Keeps s t.endMotion :=
  Keeps.trans (t := t.setTray (restingTray t.tray))
    { (k.trans (keeps_rests t)) with position := fun h => positionMeaning_restingTray (hp h.1) } (keeps_trayRests _)

theorem keeps_enterUnhomed (s : State) : Keeps s s.enterUnhomed :=
  keeps_endMotion_of (t := s.setTray { s.tray with valid := false }) (.refl _) fun h => h

/-- SHUTTER_OPEN is begun only where nothing holds the shutter and the lamp changer is out of the way. -/
theorem keeps_beginShutterOpen {s : State} (hb : s.tray.state.busy = true) (hd : s.endsDark = false) :
    Keeps s s.beginShutterOpen := by
  simp only [State.endsDark, Bool.or_eq_false_iff, decide_eq_false_iff_not] at hd
  obtain ⟨⟨hdark, hheat⟩, -⟩ := hd
  have opens : Keeps s (s.setTray { s.tray with state := .changing .shutterOpen, shutterOpen := true, timer := 0 }) :=
    { apart := fun h hh => h ⟨hb, hh.2⟩
      shut := fun h _ hh => by
        simp only [State.setTray_tray, State.setTray_mon, State.setTray_lamp, TrayState.needsShutterClosed, hdark, hheat,
          Bool.false_eq_true, false_or] at hh
        exact absurd ⟨hb, hh⟩ h
      position := fun h => position_of_busy rfl h.1 }
  exact .ite (fun _ => opens.trans (keeps_endMotion _)) fun _ => opens

theorem keeps_goOn {s : State} {t : Tray} (hs : shutMotion s.tray.state) (hm : shutMotion t.state)
    (hopen : t.shutterOpen = s.tray.shutterOpen) (hpos : t.position = s.tray.position ∨ t.position < 100) :
    Keeps s (s.setTray t) := (beside_goOn hs hm hopen hpos).toKeeps

theorem keeps_boundary {s : State} (hs : shutMotion s.tray.state) (r : Resume) {begin : State → State}
    (hb : Keeps s (begin s)) : Keeps s (s.boundary r begin) := by
  unfold State.boundary
  exact .ite (fun _ => keeps_goOn hs (shutMotion_suspended r) rfl (.inl rfl)) fun _ => hb

theorem keeps_settleEnds {s : State} (hs : shutMotion s.tray.state) : Keeps s s.settleEnds :=
  .ite (fun _ => keeps_endMotion s) fun h => keeps_boundary hs _ (keeps_beginShutterOpen hs.1 (by simpa using h))

/-- A carried SHUTTER carried out as a homing ends. -/
theorem keeps_shutterAction_endMotion {s : State} (hs : shutMotion s.tray.state) (close : Bool) :
    Keeps s (s.shutterAction close).endMotion := by
  refine Keeps.trans (t := (s.shutterAction close).setTray (restingTray (s.shutterAction close).tray)) ?_ (keeps_trayRests _)
  have rested {x : Tray} (hx : x.shutterOpen = true → s.mon.thermal ≠ .overheat ∧ x.holdDark = false)
      (hp : x.position = s.tray.position) : Keeps s (s.setTray (restingTray x)) :=
    { apart := fun _ hb => by simp [(restingTray_state x).1] at hb
      shut := fun h _ hh => by
        by_contra ho
        obtain ⟨hheat, hdark⟩ := hx (by simpa [restingTray] using ho)
        have hswap : s.lamp.changer.isSwapping = true := by
          simpa [(restingTray_state x).2, hheat, show (restingTray x).holdDark = false from hdark] using hh
        exact h ⟨hs.1, hswap⟩
      position := fun h => positionMeaning_restingTray (s := s.setTray x) (by simpa [hp] using h.1) }
  unfold State.shutterAction
  cases close with
  | true => exact rested (by simp) rfl
  | false =>
    by_cases ho : s.mon.thermal = .overheat
    · simp only [ho, Bool.false_eq_true, if_false, if_true]
      exact
        { apart := fun _ hb => by simp [(restingTray_state _).1] at hb
          shut := fun _ h _ => h (.inl hs.2)
          position := fun h => positionMeaning_restingTray (s := s.setTray { s.tray with holdDark := false }) h.1 }
    · simp only [ho, Bool.false_eq_true, if_false]
      exact rested (x := { s.tray with holdDark := false, shutterOpen := true }) (fun _ => ⟨ho, rfl⟩) rfl

theorem keeps_homeRaiseEnds {s : State} (hs : shutMotion s.tray.state) (present : Bool) :
    Keeps s (s.homeRaiseEnds present) := by
  refine (beside_recordOccupancy s present).toKeeps.trans ?_
  unfold State.homeRaiseEnds
  dsimp only
  split
  · exact keeps_shutterAction_endMotion (by simpa using hs) _
  · exact keeps_endMotion _

theorem Keeps.switched {s t : State} {c : Bool} {next : State} (h : Keeps s t) (k : Keeps t next) :
    Keeps s (if c then next else t) := .ite (fun _ => h.trans k) fun _ => h

theorem keeps_beginHomeRaise {s : State} (hs : shutMotion s.tray.state) : Keeps s s.beginHomeRaise := by
  have hm : shutMotion (.homing .raise) := by simp
  exact Keeps.switched (keeps_goOn hs hm rfl (.inl rfl)) (keeps_homeRaiseEnds hm _)

/-! ## Jams, pulses and switches (R110 to R127) -/

theorem keeps_jam (s : State) : Keeps s s.jam := by
  refine ((Keeps.trans ?_ (keeps_latch _ _)).trans (keeps_latchIf _ _ _)).trans (keeps_trayRests _)
  exact
    { apart := fun _ hb => nomatch hb.1
      shut := fun _ _ _ => rfl
      position := fun h => ⟨h.1, nofun, nofun, fun _ => rfl⟩ }

theorem keeps_unexpectedPulse (s : State) : Keeps s s.unexpectedPulse := by
  unfold State.unexpectedPulse
  refine .ite (fun hv => ?_) fun _ => .refl s
  have k := keeps_latch (s.setTray { s.tray with valid := false, positionError := true }) .positionError
  refine .ite (fun _ => keeps_endMotion_of ?_ fun h => ?_) fun hi => ?_
  · exact Keeps.trans (t := s.setTray { s.tray with valid := false, positionError := true }) {} k
  · rw [State.latch_frame]; exact h
  · exact { k with position := fun h => k.position ⟨h.1, fun e => absurd e hi, fun _ => rfl, fun _ => rfl⟩ }

theorem stepFrom_lt (d : Direction) (p : Nat) : stepFrom d p < 100 := by
  cases d <;> exact Nat.mod_lt _ (by decide)

@[simp] theorem latch_tray (s : State) (f : Flag) : (s.latch f).tray = s.tray := by rw [State.latch_frame]

@[simp] theorem latchIf_tray (s : State) (c : Bool) (f : Flag) : (s.latchIf c f).tray = s.tray := by
  rw [State.latchIf_frame]

theorem beside_resync {s : State} (hs : shutMotion s.tray.state) (m : Motion) :
    Beside s (s.resync m) ∧ (s.resync m).tray.state = s.tray.state := by
  unfold State.resync
  dsimp only
  split_ifs
  · exact ⟨{}, rfl⟩
  · refine ⟨?_, by simp⟩
    refine Beside.trans ?_ (beside_latch _ _)
    exact beside_goOn hs hs rfl (.inr (by decide : 0 < 100))
  · exact ⟨beside_goOn hs hs rfl (.inr (by decide : 0 < 100)), rfl⟩
  · exact ⟨beside_goOn hs hs rfl (.inr (by decide : 0 < 100)), rfl⟩

theorem keeps_indexPulse {s : State} (hs : s.tray.state = .changing .index) (m : Motion) (homeMark : Bool) :
    Keeps s (s.indexPulse m homeMark) := by
  have hsm : shutMotion s.tray.state := by simp [hs]
  unfold State.indexPulse
  dsimp only
  have counted : Beside s (s.setTray { s.tray with
      position := stepFrom m.direction s.tray.position, motion := some { m with remaining := m.remaining - 1 } }) :=
    beside_goOn hsm hsm rfl (.inr (stepFrom_lt _ _))
  generalize hx : s.setTray _ = t at counted ⊢
  have ht : t.tray.state = .changing .index := by rw [← hx]; exact hs
  have marked : ∃ u, (if homeMark = true then t.resync { m with remaining := m.remaining - 1 } else t) = u ∧ Beside s u ∧
      u.tray.state = .changing .index := by
    have hr := beside_resync (s := t) (by simp [ht]) { m with remaining := m.remaining - 1 }
    split
    · exact ⟨_, rfl, counted.trans hr.1, hr.2.trans ht⟩
    · exact ⟨_, rfl, counted, ht⟩
  obtain ⟨u, hu, ku, hus⟩ := marked
  rw [hu]
  have cuts : ∃ v, (if u.tray.cut = true then u.setTray u.tray.cutSteps else u) = v ∧ Beside s v ∧
      v.tray.state = .changing .index := by
    split
    · exact ⟨_, rfl, ku.trans {}, hus⟩
    · exact ⟨_, rfl, ku, hus⟩
  obtain ⟨v, hv, kv, hvs⟩ := cuts
  rw [hv]
  have hvm : shutMotion v.tray.state := by simp [hvs]
  refine .ite (fun _ => ?_) fun _ => ?_
  · have stops : Beside v (v.setTray { v.tray with motor := none }) := {}
    refine (beside_boundaryAfter (kv.trans stops) ?_ (beside_beginRaise ?_)).toKeeps <;> exact hvm
  · exact (kv.trans (beside_boundary hvm _ (beside_beginIndex hvm))).toKeeps

end Sys2Proof.Proofs.Invariants
end

