-- ==== Sys2Proof/Proofs/InvariantsChanger.lean ====
section
/-!
The changer's homing, its switches, STOP, resumption, and what the sense and the housing do to it keep the invariants.
-/

namespace Sys2Proof.Proofs.Invariants

open Sys2Proof Sys2Proof.Machine

-- One declaration after another, so that the checks of many short proofs do not wait for each other in threads.
set_option Elab.async false

/-! ## Homing (R112, R125, R126) -/

theorem keeps_boundaryAfter {s t : State} (h : Keeps s t) (ht : shutMotion t.tray.state) {r : Resume}
    {begin : State → State} (hb : Keeps t (begin t)) : Keeps s (t.boundary r begin) :=
  h.trans (keeps_boundary ht r hb)

theorem keeps_setCarried (s : State) (c : Option Action) : Keeps s (s.setTray { s.tray with carried := c }) := {}

theorem keeps_setCut (s : State) : Keeps s (s.setTray { s.tray with cut := true }) := {}

theorem keeps_reportChoice (s : State) (c : Choice) : Keeps s (s.reportChoice c) := (beside_reportChoice s c).toKeeps

@[simp] theorem reportChoice_state (s : State) (c : Choice) : (s.reportChoice c).tray.state = s.tray.state := by
  cases c <;> simp [State.reportChoice]

theorem keeps_carryOn {s : State} (hs : shutMotion s.tray.state) : Keeps s s.carryOn := by
  have raises : Keeps s (s.boundary (.home .raise) State.beginHomeRaise) := keeps_boundary hs _ (keeps_beginHomeRaise hs)
  unfold State.carryOn
  split
  · exact raises
  · exact raises
  · split
    · refine .ite (fun _ => ?_) fun _ => ?_
      · refine keeps_boundaryAfter (keeps_setCarried s none) ?_ (keeps_beginHomeRaise ?_) <;> exact hs
      · refine keeps_boundaryAfter ?_ ?_ (beside_beginIndex ?_).toKeeps
        · exact {}
        · exact hs
        · exact hs
    · refine keeps_boundaryAfter ((keeps_setCarried s none).trans (keeps_reportChoice _ _)) ?_ (keeps_beginHomeRaise ?_) <;>
        exact (reportChoice_state _ _).symm ▸ hs
  · exact raises

theorem keeps_homeFound {s : State} (hs : shutMotion s.tray.state) : Keeps s s.homeFound := by
  unfold State.homeFound
  refine .ite (fun _ => ?_) fun _ => ?_
  · refine Keeps.trans ?_ (keeps_carryOn ?_)
    · exact keeps_goOn hs hs rfl (.inr (by decide : 0 < 100))
    · exact hs
  · refine Keeps.trans ?_ (keeps_enterUnhomed _)
    exact Keeps.trans (t := s.setTray { s.tray with motor := none, carried := none }) {} (keeps_latchIf _ _ _)

theorem keeps_seekPulse {s : State} (hs : s.tray.state = .homing .seek) (homeMark : Bool) :
    Keeps s (s.seekPulse homeMark) := by
  have hm : shutMotion s.tray.state := by simp [hs]
  unfold State.seekPulse
  dsimp only
  have counted : Keeps s (s.setTray { s.tray with
      position := stepFrom .forward s.tray.position, seekCount := min 101 (s.tray.seekCount + 1) }) :=
    keeps_goOn hm hm rfl (.inr (stepFrom_lt .forward s.tray.position))
  refine .ite (fun _ => ?_) fun _ => .ite (fun _ => ?_) fun _ => .ite (fun _ => counted) fun _ => ?_
  · exact counted.trans (keeps_enterUnhomed _)
  · exact counted.trans (keeps_homeFound hm)
  · refine keeps_boundaryAfter counted ?_ (beside_beginSeek ?_).toKeeps <;> exact hm

theorem keeps_pulse (s : State) (homeMark : Bool) : Keeps s (s.pulse homeMark) := by
  unfold State.pulse
  split
  · rename_i hs _ _; exact keeps_indexPulse hs _ homeMark
  · rename_i hs _; exact keeps_seekPulse hs homeMark
  · exact keeps_unexpectedPulse s

/-! ## The switches (R110) -/

theorem keeps_homePhaseEnds {s : State} {next : State → State} (h : Keeps s (next s)) : Keeps s (s.homePhaseEnds next) :=
  .ite (fun _ => keeps_enterUnhomed s) fun _ => h

theorem keeps_closedSwitch (s : State) (made : Bool) : Keeps s (s.closedSwitch made) := by
  unfold State.closedSwitch
  dsimp only [State.setTray_tray]
  have seen : Keeps s (s.setTray { s.tray with closedSwitch := made, openSwitch := s.tray.openSwitch && !made }) := {}
  split
  · rename_i hs
    exact seen.switched (beside_closeEnds (by simp [hs])).toKeeps
  · rename_i hs
    exact seen.switched (keeps_homePhaseEnds (beside_homeCloseEnds (by simp [hs])).toKeeps)
  · exact seen

theorem keeps_downSwitch (s : State) (made : Bool) : Keeps s (s.downSwitch made) := by
  unfold State.downSwitch
  dsimp only [State.setTray_tray]
  have seen : Keeps s (s.setTray { s.tray with downSwitch := made, upSwitch := s.tray.upSwitch && !made }) := {}
  split
  · rename_i hs
    exact seen.switched (beside_lowerEnds (by simp [hs])).toKeeps
  · rename_i hs
    exact seen.switched (keeps_homePhaseEnds (beside_homeLowerEnds (by simp [hs])).toKeeps)
  · exact seen

theorem keeps_upSwitch (s : State) (made present : Bool) : Keeps s (s.upSwitch made present) := by
  unfold State.upSwitch
  dsimp only [State.setTray_tray]
  have seen : Keeps s (s.setTray { s.tray with
      upSwitch := made, downSwitch := s.tray.downSwitch && !made, slidePresent := present }) := {}
  split
  · rename_i hs
    exact seen.switched (beside_raiseEnds (by simp [hs]) _).toKeeps
  · rename_i hs
    exact seen.switched (keeps_homeRaiseEnds (by simp [hs]) _)
  · exact seen

theorem keeps_openSwitch (s : State) (made : Bool) : Keeps s (s.openSwitch made) := by
  unfold State.openSwitch
  dsimp only [State.setTray_tray]
  have seen : Keeps s (s.setTray { s.tray with openSwitch := made, closedSwitch := s.tray.closedSwitch && !made }) := {}
  split
  · exact seen.switched (keeps_endMotion _)
  · exact seen

/-! ## STOP (R106, R131, R132) -/

theorem keeps_cutMotion (s : State) (steps : Bool) : Keeps s (s.cutMotion steps) := by cases steps <;> exact {}

theorem keeps_changerStop (s : State) : Keeps s s.changerStop := by
  unfold State.changerStop
  refine Keeps.trans (t := s.setTray { s.tray with holdDark := true, shutterOpen := false }) { shut := fun _ _ _ => rfl } ?_
  dsimp only
  generalize s.setTray _ = t
  split
  case h_6 | h_7 => exact keeps_endMotion t
  case h_13 | h_15 => exact keeps_setCarried t none
  case h_14 => exact (keeps_setCarried t none).trans (keeps_setCut _)
  case h_16 => exact (keeps_setCarried t none).trans (keeps_enterUnhomed _)
  case h_17 => exact .refl t
  all_goals exact keeps_cutMotion t _

theorem keeps_stopAll (s : State) : Keeps s s.stopAll := (keeps_purge s).trans (keeps_changerStop _)

/-! ## Resumption, the housing and TRAY_SENSE (R112, R124, R133, R134) -/

theorem keeps_beginResumed {s : State} (hs : shutMotion s.tray.state) (r : Resume) : Keeps s (s.beginResumed r) := by
  unfold State.beginResumed
  split
  case h_1 => exact (beside_beginClose (.inl hs.1)).toKeeps
  case h_2 => exact (beside_beginLower hs).toKeeps
  case h_3 => exact (beside_beginIndexOrRaise hs).toKeeps
  case h_4 => exact (beside_beginRaise hs).toKeeps
  case h_5 => exact (beside_beginSettle hs).toKeeps
  case h_6 => exact .ite (fun _ => keeps_endMotion s) fun h => keeps_beginShutterOpen hs.1 (by simpa using h)
  case h_7 => exact (beside_beginHomeClose (.inl hs.1)).toKeeps
  case h_8 => exact (beside_beginHomeLower hs).toKeeps
  case h_9 => exact (beside_beginSeek hs).toKeeps
  case h_10 => exact keeps_beginHomeRaise hs

theorem keeps_resumeChanger (s : State) : Keeps s s.resumeChanger := by
  unfold State.resumeChanger
  split
  · rename_i hs; exact keeps_beginResumed (by simp [hs]) _
  · exact .refl s

theorem keeps_senseCheck (s : State) : Keeps s s.senseCheck := by
  unfold State.senseCheck
  refine .ite (fun _ => .ite (fun _ => keeps_endMotion_of (.refl _) fun h => h) fun hi => ?_) fun _ => .refl s
  exact { position := fun h => ⟨h.1, fun e => absurd e hi, fun _ => rfl, fun _ => rfl⟩ }

theorem keeps_clearTrayJam (s : State) : Keeps s s.clearTrayJam := .ite (fun _ => keeps_enterUnhomed s) fun _ => .refl s

theorem keeps_phaseLimit (s : State) : Keeps s s.phaseLimit := .ite (fun _ => keeps_jam s) fun _ => .refl s

theorem keeps_seekExhausted (s : State) : Keeps s s.seekExhausted := .ite (fun _ => keeps_jam s) fun _ => .refl s

theorem keeps_settleEnd (s : State) : Keeps s s.settleEnd := by
  refine .ite (fun h => keeps_settleEnds ?_) fun _ => .refl s
  simp only [State.settleDue, Bool.and_eq_true, decide_eq_true_eq] at h
  simp [h.1]

end Sys2Proof.Proofs.Invariants
end

