-- ==== Sys2Proof/Proofs/InvariantsLink.lean ====
section
/-!
The cue engine, the detector, the message unit and the link keep the invariants. The attempt being written is the one
thing here that an invariant reads: only the frames of a master write an ENUMERATE.
-/

namespace Sys2Proof.Proofs.Invariants

open Sys2Proof Sys2Proof.Machine

-- One declaration after another, so that the checks of many short proofs do not wait for each other in threads.
set_option Elab.async false

/-! ## The cue engine and the detector (R59 to R94) -/

theorem keeps_setCue (s : State) (c : CueEngine) : Keeps s (s.setCue c) := {}

theorem keeps_setDet (s : State) (d : Detector) : Keeps s (s.setDet d) := {}

theorem keeps_clearOnce (s : State) (i : Nat) : Keeps s (s.clearOnce i) :=
  .ite (fun _ => .ite (fun _ => {}) fun _ => {}) fun _ => .refl s

theorem keeps_setLookup (s : State) (a b : Bool) : Keeps s (s.setLookup a b) := {}

theorem keeps_cueFire (s : State) (i : Nat) : Keeps s (s.cueFire i) := by
  have looked (a b : Bool) : Keeps s ((s.clearOnce i).setLookup a b) := (keeps_clearOnce s i).trans (keeps_setLookup _ _ _)
  refine .ite (fun h => (looked _ _).trans (keeps_place ?_ _)) fun _ => (looked _ _).trans (keeps_latch _ _)
  exact h

theorem keeps_lookUp (s : State) (w : List Symbol) : Keeps s (s.lookUp w) := by
  unfold State.lookUp
  split
  · exact keeps_cueFire s _
  · exact (keeps_setLookup s _ _).trans (keeps_latch _ _)

theorem keeps_completeWord (s : State) : Keeps s s.completeWord :=
  .ite (fun _ => keeps_setCue s _) fun _ => (keeps_setCue s _).trans (keeps_lookUp _ _)

theorem keeps_wordCompletes (s : State) : Keeps s s.wordCompletes := by
  unfold State.wordCompletes
  split
  · exact .refl s
  · exact keeps_completeWord s
  · exact (keeps_completeWord s).trans (keeps_setCue _ _)

theorem keeps_enterStuck (s : State) : Keeps s s.enterStuck := (keeps_setCue s _).trans (keeps_latch _ _)

theorem keeps_stuckTone (s : State) : Keeps s s.stuckTone := .ite (fun _ => keeps_enterStuck s) fun _ => .refl s

theorem keeps_stuckEnd (s : State) : Keeps s s.stuckEnd := .ite (fun _ => keeps_setCue s _) fun _ => .refl s

theorem keeps_engineDue (s : State) : Keeps s s.engineDue :=
  .ite (fun _ => keeps_enterStuck s) fun _ => .ite (fun _ => keeps_setCue s _) fun _ => keeps_wordCompletes s

theorem keeps_takeVerdict (s : State) (v : Verdict) : Keeps s (s.takeVerdict v) :=
  (keeps_engineDue s).trans (keeps_setCue _ _)

theorem keeps_endBlock (s : State) : Keeps s s.endBlock := (keeps_setDet s _).trans (keeps_takeVerdict _ _)

theorem keeps_takeFrame (s : State) (n : Nat) (x : Sample) : Keeps s (s.takeFrame n x) :=
  .ite (fun _ => (keeps_setDet s _).trans (keeps_endBlock _)) fun _ => keeps_setDet s _

theorem keeps_openBlock (s : State) (n : Nat) (x : Sample) (d : Bool) : Keeps s (s.openBlock n x d) :=
  (keeps_setDet s _).trans (keeps_takeFrame _ _ _)

theorem keeps_handFrame (s : State) (n : Nat) (x : Sample) (bad broke : Bool) : Keeps s (s.handFrame n x bad broke) := by
  unfold State.handFrame
  split
  · exact .ite (fun _ => keeps_openBlock s _ _ _) fun _ => .refl s
  · exact keeps_openBlock s _ _ _
  · exact .ite (fun _ => ((keeps_setDet s _).trans (keeps_endBlock _)).trans (keeps_openBlock _ _ _ _)) fun _ =>
      (keeps_setDet s _).trans (keeps_takeFrame _ _ _)

/-! ## The sound path (R168 to R178) -/

theorem keeps_setSound (s : State) (a : Sound) (h : a.fifo.length ≤ s.sound.fifo.length := by exact le_rfl) :
    Keeps s (s.setSound a) :=
  { room := fun ⟨hrx, hrep, hq, hfifo⟩ => ⟨hrx, hrep, hq, h.trans hfifo⟩ }

theorem keeps_setReasons (s : State) (r : MuteReasons) : Keeps s (s.setReasons r) := keeps_setSound s _

theorem keeps_slip (s : State) : Keeps s s.slip := (keeps_setSound s _).trans (keeps_latch _ _)

theorem keeps_endFilling (s : State) : Keeps s s.endFilling :=
  .ite (fun _ => keeps_setSound s _) fun _ => .refl s

theorem keeps_writePair (s : State) (p : Pair) : Keeps s (s.writePair p) := by
  unfold State.writePair
  refine .ite (fun _ => keeps_slip s) fun h => Keeps.trans ?_ (keeps_endFilling _)
  exact
    { room := fun ⟨hrx, hrep, hq, hfifo⟩ => ⟨hrx, hrep, hq, by
        simp only [Config.fifoPairs] at h
        simp only [State.setSound_sound, List.length_append, List.length_singleton]
        omega⟩ }

theorem keeps_readPair (s : State) : Keeps s s.readPair.2 := by
  unfold State.readPair
  dsimp only
  split
  · exact .refl s
  · exact keeps_setSound s _
  · split
    · rename_i hf
      refine Keeps.trans (keeps_setSound s _ ?_) (keeps_slip _)
      simp only [hf, List.length_cons]; omega
    · exact .refl s
  · exact (keeps_setSound s _).trans (keeps_slip _)
  · split
    · rename_i hf
      refine keeps_setSound s _ ?_
      simp only [hf, List.length_cons]; omega
    · exact .refl s

theorem keeps_flushIfOff (s : State) : Keeps s s.flushIfOff := by
  refine .ite (fun _ => ?_) fun _ => .refl s
  unfold State.flushDelay
  split
  · exact keeps_setSound s _ (Nat.zero_le _)
  · exact .refl s

theorem keeps_rampGain (s : State) : Keeps s s.rampGain :=
  .ite (fun _ => keeps_setSound s _) fun _ => keeps_setSound s _

theorem keeps_outputSampleWork (s : State) : Keeps s s.outputSampleWork :=
  (((keeps_readPair s).trans (keeps_rampGain _)).trans (keeps_setSound _ _)).trans (keeps_flushIfOff _)

theorem keeps_changeDelay (s : State) (d : Nat) : Keeps s (s.changeDelay d) :=
  (keeps_setSound s _).trans (keeps_flushIfOff _)

/-! ## The message unit (R24 to R33) -/

/-- The message unit replaced by one that holds no more, keeps the held place, and writes no other attempt. -/
theorem keeps_setMsg {s : State} {m : MsgUnit}
    (hatt : ∀ a, m.attempt = some a → a.enumerate = true → ∃ b, s.msg.attempt = some b ∧ b.enumerate = true)
    (hrep : m.replies.length ≤ s.msg.replies.length) (hrx : m.rx = s.msg.rx) (hheld : m.held = s.msg.held) :
    Keeps s (s.setMsg m) :=
  { room := fun ⟨h1, h2, h3, h4⟩ => by
      refine ⟨(congrArg List.length hrx).trans_le h1, ?_, h3, h4⟩
      simp only [State.placesUsed, State.setMsg_msg, hheld] at h2 ⊢
      omega
    enum := fun h hl a ha => by
      by_contra he
      obtain ⟨b, hb, hbe⟩ := hatt a ha (by simpa using he)
      simp [h hl b hb] at hbe
    held := hheld }

theorem keeps_setMsg_sameAttempt {s : State} {m : MsgUnit} (hrep : m.replies = s.msg.replies := by rfl)
    (hatt : m.attempt = s.msg.attempt := by rfl) (hrx : m.rx = s.msg.rx := by rfl)
    (hheld : m.held = s.msg.held := by rfl) : Keeps s (s.setMsg m) :=
  keeps_setMsg (fun a ha he => ⟨a, hatt ▸ ha, he⟩) (by rw [hrep]) hrx hheld

theorem keeps_setMsg_noAttempt {s : State} {m : MsgUnit}
    (hrep : m.replies.length ≤ s.msg.replies.length := by exact le_rfl) (hatt : m.attempt = none := by rfl)
    (hrx : m.rx = s.msg.rx := by rfl) (hheld : m.held = s.msg.held := by rfl) : Keeps s (s.setMsg m) :=
  keeps_setMsg (fun a ha => by simp [hatt] at ha) hrep hrx hheld

theorem keeps_abandon (s : State) : Keeps s s.abandon :=
  .ite (fun _ => keeps_setMsg_sameAttempt) fun _ => .refl s

theorem keeps_placeRx (s : State) (m : Message) : Keeps s (s.placeRx m) := by
  unfold State.placeRx
  refine .ite (fun h => ?_) fun _ => keeps_latch s _
  exact
    { room := fun ⟨_, h2, h3, h4⟩ => ⟨by simpa [Config.rxBuffers] using h, h2, h3, h4⟩ }

theorem placesUsed_enqueueReply (s : State) (m : OutMsg) : (s.enqueueReply m).placesUsed = s.placesUsed + 1 := by
  change (s.msg.replies ++ [m]).length + (if s.msg.held then 1 else 0) = s.placesUsed + 1
  rw [State.placesUsed, List.length_append, List.length_singleton]
  omega

theorem keeps_enqueueReply {s : State} (h : s.placeFree = true) (m : OutMsg) : Keeps s (s.enqueueReply m) :=
  { room := fun ⟨h1, _, h3, h4⟩ =>
      ⟨h1, (placesUsed_enqueueReply s m).trans_le (Nat.succ_le_of_lt (of_decide_eq_true h)), h3, h4⟩ }

/-- A receiver of the same role. -/
theorem keeps_setLink {s : State} {l : LinkRx} (h : l.role = s.link.role := by rfl) : Keeps s (s.setLink l) :=
  { enum := fun he hl => he (h ▸ hl) }

theorem keeps_deliverRelay (s : State) (m : Message) : Keeps s (s.deliverRelay m) := by
  unfold State.deliverRelay
  split
  · refine .ite (fun _ => .ite (fun h => keeps_enqueueReply ?_ _) fun _ => .refl s) fun _ =>
      .ite (fun _ => keeps_placeRx s m) fun _ => .refl s
    simp only [Bool.and_eq_true] at h; exact h.2
  · exact .refl s

theorem keeps_deliverEnumerate (s : State) (m : Message) : Keeps s (s.deliverEnumerate m) := by
  unfold State.deliverEnumerate
  split
  · exact .refl s
  · exact .ite (fun _ => (keeps_setLink).trans (keeps_placeRx _ m)) fun _ => keeps_placeRx s m

theorem keeps_deliver (s : State) (m : Message) : Keeps s (s.deliver m) :=
  .ite (fun _ => .refl s) fun _ => .ite (fun _ => keeps_deliverRelay s m) fun _ =>
    .ite (fun _ => keeps_deliverEnumerate s m) fun _ => keeps_placeRx s m

theorem keeps_judgeMessage (s : State) (bytes : List Byte) (check : Byte) : Keeps s (s.judgeMessage bytes check) := by
  unfold State.judgeMessage
  split
  · refine .ite (fun _ => ?_) fun _ => keeps_abandon s
    have taken : Keeps s (s.setMsg { s.msg with assembly := none }) := keeps_setMsg_sameAttempt
    exact .ite (fun _ => taken.trans (keeps_deliver _ _)) fun _ => taken
  · exact keeps_abandon s

theorem keeps_takeSlot (s : State) (tag : SlotTag) (b : Byte) : Keeps s (s.takeSlot tag b) := by
  unfold State.takeSlot
  split
  · exact keeps_abandon s
  · exact (keeps_abandon s).trans keeps_setMsg_sameAttempt
  · split
    · split
      · exact keeps_setMsg_sameAttempt
      · exact keeps_abandon s
    · exact .refl s
  · split
    · exact keeps_judgeMessage s _ _
    · exact .refl s

theorem keeps_attemptDone (s : State) (a : Attempt) : Keeps s (s.attemptDone a) := by
  refine .ite (fun _ => ?_) fun _ => keeps_setMsg_noAttempt (by simp)
  exact (keeps_setMsg_noAttempt).trans (keeps_setTape _ _)

/-- Writing a byte of an attempt keeps the invariants where the attempt may be written at all. -/
theorem keeps_writeSlot {s : State} {a : Attempt} (h : s.enumeratesAsMaster → s.link.role = .follower → a.enumerate = false) :
    Keeps s (s.writeSlot a).2 := by
  unfold State.writeSlot
  split
  · exact keeps_setMsg_noAttempt
  · exact keeps_attemptDone s a
  · exact
      { enum := fun he hl b hb => by
          simp only [State.setMsg_msg, Option.some.injEq] at hb
          rw [← hb]; exact h he hl }

theorem newAttempt_enumerate {s : State} {a : Attempt} (h : s.newAttempt = some a) : a.enumerate = false := by
  unfold State.newAttempt at h
  split at h
  · cases h
  · cases h; rfl

theorem keeps_supplySlot (s : State) (mayBegin : Bool) : Keeps s (s.supplySlot mayBegin).2 := by
  unfold State.supplySlot
  split
  · rename_i ha; exact keeps_writeSlot fun he hl => he hl _ ha
  · split
    · split
      · rename_i ha; exact keeps_writeSlot fun _ _ => newAttempt_enumerate ha
      · exact .refl s
    · exact .refl s

theorem keeps_loseAttempt (s : State) : Keeps s s.loseAttempt := by
  have drops : Keeps s (s.setMsg s.msg.dropHead) := keeps_setMsg_noAttempt (by simp [MsgUnit.dropHead])
  exact .ite (fun _ => .refl s) fun _ => .ite (fun _ => drops.trans (keeps_latch _ _)) fun _ =>
    .ite (fun _ => drops) fun _ => keeps_setMsg_noAttempt

theorem keeps_countWait (s : State) : Keeps s s.countWait := by
  unfold State.countWait
  split
  · exact keeps_setMsg_sameAttempt
  · exact .refl s

theorem keeps_endWait (s : State) : Keeps s s.endWait :=
  .ite (fun _ => keeps_setMsg_sameAttempt) fun _ => .refl s

theorem keeps_noteSlot (s : State) (free : Bool) : Keeps s (s.noteSlot free) := keeps_setMsg_sameAttempt

/-! ## Frames (R3 to R14) -/

theorem keeps_beginLoss (s : State) : Keeps s s.beginLoss :=
  ((((keeps_setReasons s _).trans (keeps_setDet _ _)).trans (keeps_setCue _ _)).trans
    keeps_setLink).trans (keeps_latch _ _)

theorem keeps_endLoss (s : State) : Keeps s s.endLoss := (keeps_setReasons s _).trans keeps_setLink

theorem keeps_enterLink (s : State) (new : LinkState) : Keeps s (s.enterLink new) :=
  .ite (fun _ => ((keeps_engineDue s).trans keeps_setLink).trans (keeps_beginLoss _)) fun _ =>
    .ite (fun _ => (keeps_setLink).trans (keeps_endLoss _)) fun _ => keeps_setLink

theorem keeps_lossTimeout (s : State) : Keeps s s.lossTimeout := .ite (fun _ => keeps_enterLink s _) fun _ => .refl s

theorem keeps_countGood (s : State) (number sync : Nat) : Keeps s (s.countGood number sync) := by
  unfold State.countGood
  refine Keeps.trans (.ite (fun _ => ?_) fun _ => ?_) (keeps_latchIf _ _ _)
  · exact Keeps.trans keeps_setLink (keeps_setReasons _ _)
  · exact keeps_setLink

theorem keeps_countBad (s : State) : Keeps s s.countBad := by
  unfold State.countBad
  refine .ite (fun _ => Keeps.trans (.ite (fun _ => ?_) fun _ => ?_) (keeps_latch _ _)) fun _ => ?_
  · exact Keeps.trans keeps_setLink (keeps_setReasons _ _)
  · exact keeps_setLink
  · exact keeps_setLink

theorem keeps_handOn (s : State) (f : LinkFrame) (jump : Bool) : Keeps s (s.handOn f jump) :=
  ((((keeps_setLink).trans (keeps_setReasons _ _)).trans (keeps_writePair _ _)).trans (keeps_latchIf _ _ _)).trans
    (keeps_handFrame _ _ _ _ _)

theorem keeps_handOnBad (s : State) (expected : Option Nat) : Keeps s (s.handOnBad expected) := by
  unfold State.handOnBad
  dsimp only
  split
  · exact (keeps_writePair s _).trans (keeps_handFrame _ _ _ _ _)
  · exact keeps_writePair s _

theorem keeps_forward (s : State) (f : LinkFrame) : Keeps s (s.forward f) := by
  unfold State.forward
  split
  · exact (keeps_supplySlot s _).trans keeps_setLink
  · exact (keeps_loseAttempt s).trans keeps_setLink

theorem keeps_followerGood (s : State) (f : LinkFrame) (sync : Nat) : Keeps s (s.followerGood f sync) := by
  unfold State.followerGood
  refine Keeps.trans (Keeps.trans (.ite (fun _ => ?_) fun _ => ?_) (keeps_noteSlot _ _)) (keeps_countWait _)
  on_goal 2 => refine Keeps.trans ?_ (keeps_forward _ f)
  all_goals
    refine Keeps.trans (.ite (fun _ => ?_) fun _ => ?_) (keeps_takeSlot _ _ _)
    on_goal 1 => refine Keeps.trans ?_ keeps_setLink
    on_goal 2 => refine Keeps.trans ?_ (keeps_handOn _ _ _)
    all_goals
      refine Keeps.trans (.ite (fun _ => ?_) fun _ => ?_) (keeps_enterLink _ _)
      · exact (keeps_countGood s _ _).trans (keeps_loseAttempt _)
      · exact keeps_countGood s _ _

theorem windowPast_role (l : LinkRx) (sync : Option Nat) : (l.windowPast sync).role = l.role := by cases sync <;> rfl

theorem keeps_followerBad (s : State) (f : Option LinkFrame) (sync : Nat) : Keeps s (s.followerBad f sync) := by
  unfold State.followerBad
  refine (((Keeps.trans ?_ (keeps_abandon _)).trans keeps_setLink).trans (keeps_noteSlot _ _)).trans (keeps_countWait _)
  split
  · exact keeps_countBad s
  · exact (((keeps_countBad s).trans (keeps_handOnBad _ _)).trans (keeps_loseAttempt _)).trans
      (keeps_setLink (windowPast_role _ _))
  · exact keeps_countBad s
  · exact ((keeps_countBad s).trans (keeps_loseAttempt _)).trans (keeps_setLink (windowPast_role _ _))

theorem keeps_originate (s : State) : Keeps s s.originate :=
  .ite (fun _ => (keeps_supplySlot s true).trans keeps_setLink) fun _ => .refl s

theorem keeps_ringReturns (s : State) : Keeps s s.ringReturns :=
  .ite (fun _ => keeps_setTape s _) fun _ => keeps_setTape s _

theorem keeps_masterGood (s : State) (f : LinkFrame) (sync : Nat) : Keeps s (s.masterGood f sync) := by
  have taken := (keeps_countGood s f.number.toNat sync).trans (keeps_takeSlot _ f.tag f.byte)
  exact .ite (fun _ => taken) fun _ => taken.trans (keeps_ringReturns _)

theorem keeps_masterBad (s : State) (sync : Option Nat) : Keeps s (s.masterBad sync) :=
  ((keeps_countBad s).trans (keeps_abandon _)).trans (keeps_setLink (windowPast_role _ _))

theorem keeps_receive (s : State) (f : LinkFrame) (sync : Nat) : Keeps s (s.receive f sync) :=
  .ite (fun _ => .ite (fun _ => keeps_masterGood s f sync) fun _ => keeps_masterBad s _) fun _ =>
    .ite (fun _ => keeps_followerGood s f sync) fun _ => keeps_followerBad s _ _

theorem keeps_miss (s : State) : Keeps s s.miss := .ite (fun _ => keeps_masterBad s none) fun _ => keeps_followerBad s _ _

/-! ## The master (R180 to R189) -/

theorem keeps_ringOpens (s : State) : Keeps s s.ringOpens :=
  .ite (fun _ => (keeps_setTape s _).trans (keeps_latch _ _)) fun _ => .refl s

theorem keeps_enumExpires (s : State) : Keeps s s.enumExpires :=
  .ite (fun _ => .ite (fun _ => (keeps_setTape s _).trans (keeps_latch _ _)) fun _ => keeps_setTape s _) fun _ => .refl s

theorem keeps_enumReturned (s : State) : Keeps s s.enumReturned := .ite (fun _ => keeps_setTape s _) fun _ => .refl s

theorem keeps_masterSlot {s : State} (h : s.isMaster = true) : Keeps s s.masterSlot.2 := by
  have hm : s.link.role ≠ .follower := by
    simp only [State.isMaster, decide_eq_true_eq] at h; simp [h]
  unfold State.masterSlot
  split
  · exact keeps_writeSlot fun _ hl => absurd hl hm
  · split
    · exact (keeps_setTape s _).trans (keeps_writeSlot fun _ hl => absurd hl hm)
    · split
      · exact keeps_writeSlot fun _ hl => absurd hl hm
      · exact .refl s

theorem keeps_buildFrame (s : State) (r : Readings) : Keeps s (s.buildFrame r) := by
  unfold State.buildFrame
  refine .ite (fun h => ?_) fun _ => .refl s
  refine Keeps.trans (Keeps.trans (Keeps.trans ?_ (keeps_setReasons _ _)) (keeps_writePair _ _)) (keeps_handFrame _ _ _ _ _)
  refine Keeps.trans (Keeps.trans (Keeps.trans ?_ (keeps_masterSlot ?_)) keeps_setLink) (keeps_setTape _ _)
  · exact (keeps_setTape s _).trans (keeps_setTape _ _)
  · exact h

end Sys2Proof.Proofs.Invariants
end

