-- ==== Sys2Proof/Proofs/InvariantsStep.lean ====
section
/-!
Every step keeps the invariants: the handler's commands, the remote decoder, the tick and the steps it brings about, the
two resets, and at last the due steps together and the command at the front of the queue.
-/

namespace Sys2Proof.Proofs.Invariants

open Sys2Proof Sys2Proof.Machine

-- One declaration after another, so that the checks of many short proofs do not wait for each other in threads.
set_option Elab.async false

/-! ## The handler (R28, R37 to R58) -/

/-- The work of a command keeps the invariants and the held place. -/
def WorkKeeps (work : Message → State → Answer × State) : Prop := ∀ m s, Keeps s (work m s).2

theorem kept_takeOldest {s : State} {m : Message} (h : s.mayTake m = true) : Kept s (s.takeOldest m) :=
  { room := fun ⟨h1, h2, h3, h4⟩ => by
      refine ⟨(show s.msg.rx.tail.length ≤ 3 by rw [List.length_tail]; omega), ?_, h3, h4⟩
      change s.msg.replies.length + (if m.needsReply then 1 else 0) ≤ 4
      simp only [State.mayTake, Bool.and_eq_true, Bool.or_eq_true, Bool.not_eq_true'] at h
      unfold State.placesUsed at h2
      cases hn : m.needsReply with
      | false => simp only [Bool.false_eq_true, if_false]; omega
      | true =>
        have hf : s.placesUsed < 4 := of_decide_eq_true (h.2.resolve_left (by simp [hn]))
        unfold State.placesUsed at hf
        simp only [if_true]; omega }

/-- A reply is placed in the place held for it. -/
theorem kept_answer {s : State} {m : Message} (h : s.msg.held = m.needsReply) (a : Answer) : Kept s (s.answer m a) := by
  have freed : Kept s (s.setMsg { s.msg with held := false }) :=
    { room := fun ⟨h1, h2, h3, h4⟩ => ⟨h1, (Nat.le_add_right _ _).trans h2, h3, h4⟩ }
  unfold State.answer
  dsimp only
  split
  · rename_i hn
    refine { freed with room := fun hr => ?_ }
    obtain ⟨h1, h2, h3, h4⟩ := hr
    refine ⟨h1, ?_, h3, h4⟩
    rw [placesUsed_enqueueReply]
    simp only [State.placesUsed, h, hn, if_true] at h2
    exact h2
  · exact freed

theorem kept_serve {work : Message → State → Answer × State} (hw : WorkKeeps work) (s : State) (test : Message → Bool) :
    Kept s (s.serve test work) := by
  unfold State.serve
  split
  · exact .refl s
  · split
    · rename_i m _ _ h
      simp only [Bool.and_eq_true] at h
      have k := hw m (s.takeOldest m)
      exact ((kept_takeOldest h.2).trans k.toKept).trans (kept_answer k.held _)
    · exact .refl s

theorem kept_serveReset (s : State) : Kept s s.serveReset := by
  unfold State.serveReset
  split
  · exact .refl s
  · split
    · rename_i m _ _ h
      simp only [Bool.and_eq_true] at h
      have taken := kept_takeOldest h.2
      dsimp only
      split
      · exact taken.trans (kept_answer rfl _)
      · exact taken.trans {}
    · exact .refl s

theorem Keeps.iteAnswer {s : State} {c : Prop} [Decidable c] {x y : Answer × State} (h : c → Keeps s x.2)
    (k : ¬ c → Keeps s y.2) : Keeps s (if c then x else y).2 := by
  split
  · exact h ‹_›
  · exact k ‹_›

theorem identify_keeps : WorkKeeps identify := fun _ s => .iteAnswer (fun _ => .refl s) fun _ => .refl s

theorem setGroups_keeps : WorkKeeps setGroups := fun m s => by
  unfold setGroups
  split
  · exact .iteAnswer (fun _ => .refl s) fun _ => keeps_setLink
  · exact .refl s

theorem status_keeps : WorkKeeps status := fun _ s => .iteAnswer (fun _ => .refl s) fun _ => .refl s

theorem readEvents_keeps : WorkKeeps readEvents := fun _ s => .iteAnswer (fun _ => .refl s) fun _ => .refl s

theorem clearEventsCommand_keeps : WorkKeeps clearEventsCommand := fun _ s => .iteAnswer (fun _ => .refl s) fun _ => {}

theorem setMasksCommand_keeps : WorkKeeps setMasksCommand := fun _ s => .iteAnswer (fun _ => .refl s) fun _ => {}

theorem keeps_afterParam (s : State) (p : Param) : Keeps s (s.afterParam p) := by
  unfold State.afterParam
  split
  · exact keeps_senseCheck s
  · exact keeps_changeDelay s _
  · exact keeps_setSound s _
  · exact .refl s

theorem keeps_setParam (s : State) (p : Param) (w : BitVec 32) : Keeps s (s.setParam p w) := {}

theorem setParamCommand_keeps : WorkKeeps setParamCommand := fun m s => by
  unfold setParamCommand
  split
  · split
    · exact .iteAnswer (fun _ => .refl s) fun _ => (keeps_setParam s _ _).trans (keeps_afterParam _ _)
    · exact .refl s
  · exact .refl s

theorem readParam_keeps : WorkKeeps readParam := fun m s => by
  unfold readParam
  split
  · split <;> exact .refl s
  · exact .refl s

theorem loadCue_keeps : WorkKeeps loadCue := fun m s => by
  unfold loadCue
  split
  · refine .iteAnswer (fun _ => ?_) fun _ => .refl s
    split
    · exact .iteAnswer (fun _ => .refl s) fun _ => keeps_setCue s _
    · exact .refl s
  · exact .refl s

theorem readCue_keeps : WorkKeeps readCue := fun m s => by
  unfold readCue
  split
  · exact .iteAnswer (fun _ => .refl s) fun _ => .refl s
  · exact .refl s

theorem keeps_setRemote (s : State) (r : Remote) : Keeps s (s.setRemote r) := {}

theorem loadKey_keeps : WorkKeeps loadKey := fun m s => by
  unfold loadKey
  split
  · refine .iteAnswer (fun _ => ?_) fun _ => .refl s
    split
    · exact .iteAnswer (fun _ => .refl s) fun _ => keeps_setRemote s _
    · exact .refl s
  · exact .refl s

theorem readKey_keeps : WorkKeeps readKey := fun m s => by
  unfold readKey
  split
  · exact .iteAnswer (fun _ => .refl s) fun _ => .refl s
  · exact .refl s

theorem loadSlot_keeps : WorkKeeps loadSlot := fun m s => by
  unfold loadSlot
  split
  · exact .iteAnswer (fun _ => .iteAnswer (fun _ => .refl s) fun _ => {}) fun _ => .refl s
  · exact .refl s

theorem keeps_readSlots (s : State) (cursor : Nat) : Keeps s (s.readSlots cursor).2 := {}

theorem readSlot_keeps : WorkKeeps readSlot := fun m s => by
  unfold readSlot
  split
  · exact .iteAnswer (fun _ => keeps_readSlots s _) fun _ => .iteAnswer (fun _ => keeps_readSlots s _) fun _ => .refl s
  · exact .refl s

theorem loadCurve_keeps : WorkKeeps loadCurve := fun m s => by
  unfold loadCurve
  split
  · exact .iteAnswer (fun _ => .iteAnswer (fun _ => .refl s) fun _ => {}) fun _ => .refl s
  · exact .refl s

theorem actCommand_keeps : WorkKeeps actCommand := fun m s => by
  unfold actCommand
  split
  · rename_i a _
    exact .iteAnswer (fun h => keeps_place (actions := [a]) h _) fun _ => keeps_latchIf s _ _
  · exact .refl s

theorem stopCommand_keeps : WorkKeeps stopCommand := fun _ s => .iteAnswer (fun _ => .refl s) fun _ => keeps_stopAll s

theorem keeps_clearSwapJam (s : State) : Keeps s s.clearSwapJam := by
  refine .ite (fun h => ?_) fun _ => .refl s
  exact
    { apart := fun _ hb => nomatch hb.2
      shut := fun _ hh hn => hh (by simpa [h, LampChanger.isSwapping] using hn)
      lamp := fun hl => ⟨hl.1, hl.2.1, fun _ => hl.2.2 (.inr (.inr (.inl h)))⟩ }

theorem clearJam_keeps : WorkKeeps clearJam := fun _ s =>
  .iteAnswer (fun _ => .refl s) fun _ => (keeps_clearSwapJam s).trans (keeps_clearTrayJam _)

theorem saveCommand_keeps : WorkKeeps saveCommand := fun m s => by
  unfold saveCommand
  split
  · split
    · exact .iteAnswer (fun _ => .refl s) fun _ => .iteAnswer (fun _ => keeps_startJob s _) fun _ => .refl s
    · exact .refl s
  · exact .refl s

theorem protectCommand_keeps : WorkKeeps protectCommand := fun m s => by
  unfold protectCommand
  split
  · exact .iteAnswer (fun _ => .iteAnswer (fun _ => keeps_startJob s _) fun _ => .refl s) fun _ => .refl s
  · exact .refl s

theorem storeRead_keeps : WorkKeeps storeRead := fun m s => by
  unfold storeRead
  split
  · exact .iteAnswer (fun _ => .ite (fun _ => {}) fun _ => .refl s) fun _ => .refl s
  · exact .refl s

/-- A record that leaves FAILED only makes the zero conditions weaker. -/
theorem keeps_setRecord_ok (s : State) (n : LampNo) :
    Keeps s { s with lamp := s.lamp.setRecord n { status := .ok, minutes := 0 } } := by
  have hfailed : (Lamp.record (s.lamp.setRecord n { status := .ok, minutes := 0 }) s.lamp.active).status = .failed →
      (s.lamp.record s.lamp.active).status = .failed := by
    cases n <;> cases s.lamp.active <;> simp [Lamp.setRecord, Lamp.record]
  have safe : s.lampSafe →
      State.lampSafe { s with lamp := s.lamp.setRecord n { status := .ok, minutes := 0 } } := by
    rintro ⟨h1, h2, h3⟩
    cases n <;> exact ⟨h1, h2, fun hz => h3 (hz.imp_right (Or.imp_right (Or.imp_right hfailed)))⟩
  cases n <;> exact { lamp := safe }

theorem keeps_replaceLamp (s : State) (n : LampNo) : Keeps s (s.replaceLamp n) := by
  unfold State.replaceLamp
  refine Keeps.trans ((keeps_setRecord_ok s n).trans ?_) (keeps_requestLampWrite _ n)
  exact .ite (fun _ => {}) fun _ => .ite (fun _ => (beside_requestSwap _).toKeeps) fun _ => .refl _

theorem lampReplaced_keeps : WorkKeeps lampReplaced := fun m s => by
  unfold lampReplaced
  split
  · exact .iteAnswer (fun _ => keeps_replaceLamp s _) fun _ => .refl s
  · exact .refl s

theorem calibrateCommand_keeps : WorkKeeps calibrateCommand := fun _ s =>
  .iteAnswer (fun _ => .refl s) fun _ => .iteAnswer (fun _ => .refl s) fun _ =>
    .iteAnswer (fun _ => .refl s) fun _ => keeps_setTape s _

theorem enumerateCommand_keeps : WorkKeeps enumerateCommand := fun _ s =>
  .ite (fun _ => keeps_enumReturned s) fun _ => .refl s

theorem unknownCommand_keeps : WorkKeeps unknownCommand := fun _ s => .refl s

/-! ## The remote decoder (R191 to R196) -/

theorem keeps_offerRelayed (s : State) (record : List Byte) : Keeps s (s.offerRelayed record) := by
  unfold State.offerRelayed
  split
  · exact keeps_placeOrDiscard s _ _
  · exact keeps_latch s _

theorem keeps_relayCopy (s : State) (origin : Byte) (record : List Byte) : Keeps s (s.relayCopy origin record) := by
  unfold State.relayCopy
  split
  · exact .ite (fun _ => .ite (fun _ => keeps_setRemote s _) fun _ => (keeps_setRemote s _).trans (keeps_offerRelayed _ _))
      fun _ => keeps_offerRelayed s _
  · exact .ite (fun _ => keeps_setRemote s _) fun _ => keeps_offerRelayed s _
  · exact keeps_offerRelayed s _

theorem relayCommand_keeps : WorkKeeps relayCommand := fun _ s => keeps_relayCopy s _ _

theorem keeps_sendRelay (s : State) (a : Action) (scope : KeyScope) : Keeps s (s.sendRelay a scope) :=
  .ite (fun h => (keeps_enqueueReply h _).trans (keeps_setRemote _ _)) fun _ => keeps_latch s _

theorem keeps_keyScope (s : State) (a : Action) (scope : KeyScope) : Keeps s (s.keyScope a scope) := by
  cases scope with
  | here => exact keeps_placeOrDiscard s a _
  | relay => exact .ite (fun _ => keeps_setRemote s _) fun _ => keeps_sendRelay s a _
  | both =>
    exact .ite (fun _ => keeps_setRemote s _) fun _ => (keeps_placeOrDiscard s a _).trans (keeps_sendRelay _ a _)

theorem keeps_useKey (s : State) (e : KeyEntry) : Keeps s (s.useKey e) :=
  .ite (fun _ => keeps_setRemote s _) fun _ => keeps_keyScope s _ _

theorem keeps_press (s : State) (code : Byte) (source : KeySource) : Keeps s (s.press code source) := by
  unfold State.press
  refine .ite (fun _ => (keeps_stopAll s).trans (keeps_setRemote _ _)) fun _ => ?_
  split
  · exact (keeps_setRemote s _).trans (keeps_useKey _ _)
  · exact keeps_setRemote s _

theorem keeps_keepHold (s : State) : Keeps s s.keepHold := by
  unfold State.keepHold
  split
  · exact .ite (fun _ => keeps_setRemote s _) fun _ => .refl s
  · exact .refl s

theorem keeps_irElement (s : State) (e : IrElement) : Keeps s (s.irElement e) := by
  unfold State.irElement
  split
  · exact keeps_setRemote s _
  · exact (keeps_setRemote s _).trans (keeps_keepHold _)
  · exact .ite (fun _ => (keeps_setRemote s _).trans (keeps_press _ _ _)) fun _ => keeps_setRemote s _

theorem keeps_irElements (s : State) (es : List IrElement) : Keeps s (s.irElements es) := by
  induction es generalizing s with
  | nil => exact .refl s
  | cons e rest ih => exact (keeps_irElement s e).trans (ih _)

theorem keeps_buttonDown (s : State) (b : Fin 3) (before now : Bool) : Keeps s (s.buttonDown b before now) :=
  .ite (fun _ => (keeps_setRemote s _).trans (keeps_press _ _ _)) fun _ => .refl s

theorem keeps_buttonUp (s : State) (b : Fin 3) (before now : Bool) : Keeps s (s.buttonUp b before now) :=
  .ite (fun _ => .ite (fun _ => (keeps_setRemote s _).trans (keeps_setRemote _ _)) fun _ => keeps_setRemote s _)
    fun _ => .refl s

theorem keeps_endHold (s : State) : Keeps s s.endHold := .ite (fun _ => keeps_setRemote s _) fun _ => .refl s

theorem keeps_keyRepeats (s : State) : Keeps s s.keyRepeats := by
  unfold State.keyRepeats
  split
  · refine .ite (fun _ => .ite (fun _ => keeps_setRemote s _) fun _ => ?_) fun _ => .refl s
    split
    · exact .ite (fun _ => (keeps_setRemote s _).trans (keeps_useKey _ _)) fun _ => keeps_setRemote s _
    · exact keeps_setRemote s _
  · exact .refl s

theorem keeps_relayExpires (s : State) : Keeps s s.relayExpires := by
  unfold State.relayExpires
  split
  · exact .ite (fun _ => (keeps_setRemote s _).trans (keeps_latch _ _)) fun _ => .refl s
  · exact .refl s

end Sys2Proof.Proofs.Invariants
end

