-- ==== Sys2Proof/Proofs/EveryStep.lean ====
section
/-!
Every step keeps the invariants: the tick and what it brings about, the monitor's events, the two resets, the due steps
together, and the command at the front of the queue. The obligations about every step are read off from that.
-/

namespace Sys2Proof.Proofs.Invariants

open Sys2Proof Sys2Proof.Machine Sys2Proof.Proofs.Commands

-- One declaration after another, so that the checks of many short proofs do not wait for each other in threads.
set_option Elab.async false

/-! ## The tick (log 3) -/

theorem fanTick_off (f : FanState) : f.tick = .off ↔ f = .off := by cases f <;> simp [FanState.tick]

theorem fanTick_isRunning (f : FanState) : f.tick.isRunning = f.isRunning := by
  cases f <;> rfl

theorem keeps_tickLink (s : State) : Keeps s s.tickLink := .ite (fun _ => keeps_setLink) fun _ => .refl s

theorem keeps_tickPause (s : State) : Keeps s s.tickPause := {}

theorem keeps_tickTray (s : State) : Keeps s s.tickTray := .ite (fun _ => {}) fun _ => .refl s

theorem keeps_tickSwap (s : State) : Keeps s s.tickSwap := by
  unfold State.tickSwap
  split
  · rename_i n h
    have hs : s.lamp.changer.isSwapping = true := by rw [h]; rfl
    exact
      { apart := fun hh hb => hh ⟨hb.1, hs⟩
        shut := fun _ hh _ => hh (.inr (.inr (.inr hs)))
        lamp := fun hl => ⟨hl.1, hl.2.1, fun _ => hl.2.2 (.inr (.inl hs))⟩ }
  · exact .refl s

theorem keeps_tickMonitor (s : State) : Keeps s s.tickMonitor :=
  { lamp := fun ⟨h1, h2, h3⟩ => ⟨h1, h2, fun hz => h3 (hz.imp_left fun h => (fanTick_isRunning _).symm.trans h)⟩
    fan := fun h howed hoff =>
      h (howed.imp_left fun (hc : 0 < s.mon.cooldown - 1) => by omega) ((fanTick_off _).mp hoff) }

theorem keeps_tickRemote (s : State) : Keeps s s.tickRemote := keeps_setRemote s _

theorem tickLevel_le_allowed (s : State) : s.tickLevel ≤ s.allowed := by
  unfold State.tickLevel
  split_ifs
  · exact le_rfl
  · exact Nat.min_le_left _ _
  · exact le_rfl

@[simp] theorem dissolveStep_frame (l : Lamp) :
    l.dissolveStep = { l with dissolve := l.dissolveStep.dissolve, computed := l.dissolveStep.computed } := by
  unfold Lamp.dissolveStep
  split
  · dsimp only
    split <;> rfl
  · rfl

theorem keeps_lampTickWork (s : State) (currentPresent : Bool) : Keeps s (s.lampTickWork currentPresent) := by
  have dissolves : Keeps s { s with lamp := s.lamp.dissolveStep } := by rw [dissolveStep_frame]; exact {}
  unfold State.lampTickWork
  exact (dissolves.trans (keeps_setApplied (tickLevel_le_allowed _))).trans {}

theorem keeps_tick (s : State) (currentPresent : Bool) : Keeps s (s.tick currentPresent) :=
  ((((((keeps_tickLink s).trans (keeps_tickPause _)).trans (keeps_tickTray _)).trans (keeps_tickSwap _)).trans
    (keeps_tickMonitor _)).trans (keeps_tickRemote _)).trans (keeps_lampTickWork _ _)

/-! ## What a count brings about -/

theorem keeps_raiseShowSafe (s : State) : Keeps s s.raiseShowSafe := by
  refine .ite (fun _ => .ite (fun _ => ?_) fun _ => keeps_setLink) fun _ => .refl s
  exact Keeps.trans keeps_setLink ((keeps_stopAll _).trans (beside_beginDissolve _ _ _ _).toKeeps)

theorem keeps_pauseExpires (s : State) : Keeps s s.pauseExpires :=
  .ite (fun _ => (keeps_setPause s none).trans (keeps_offer _)) fun _ => .refl s

theorem keeps_dissolveEnds (s : State) : Keeps s s.dissolveEnds := .ite (fun _ => {}) fun _ => .refl s

/-! ## Lamp failures and swaps (R157 to R160) -/

/-- A change of the lamp controller that leaves its changer alone, in an event after which the lamp is safe. -/
theorem keeps_lamp_of_safe {s t : State} {l : Lamp} (hc : l.changer = s.lamp.changer) (k : Keeps { s with lamp := l } t)
    (hl : t.lampSafe) : Keeps s t :=
  { k with
    lamp := fun _ => hl
    apart := fun h => k.apart (by simpa only [State.neverTogether, hc] using h)
    shut := fun h hh =>
      k.shut (by simpa only [State.neverTogether, hc] using h) (by simpa only [State.shutterHeld, hc] using hh) }

@[simp] theorem setRecord_changer (l : Lamp) (n : LampNo) (r : LampRecord) : (l.setRecord n r).changer = l.changer := by
  cases n <;> rfl

theorem keeps_lampFails (s : State) : Keeps s s.lampFails := by
  have fails := keeps_lamp_of_safe (s := s)
    (l := { s.lamp.setRecord s.lamp.active { s.lamp.record s.lamp.active with status := .failed } with failCount := 0 })
    (setRecord_changer _ _ _) ((keeps_latch _ .lampFailed).trans (keeps_lampFall _ s.allowed)) (lampSafe_lampFall _ _)
  exact .ite (fun _ => fails.trans (beside_requestSwap _).toKeeps) fun _ => fails

theorem keeps_lampFailure (s : State) : Keeps s s.lampFailure := .ite (fun _ => keeps_lampFails s) fun _ => .refl s

theorem keeps_litMinute (s : State) : Keeps s s.litMinute := by
  refine .ite (fun _ => ?_) fun _ => .refl s
  have adds (m : Nat) : Keeps s { s with lamp := { s.lamp.setRecord s.lamp.active
      { s.lamp.record s.lamp.active with minutes := m } with litCount := 0 } } := by
    cases ha : s.lamp.active <;>
      exact { lamp := fun h => ⟨h.1, h.2.1, fun hz => h.2.2 (by simpa [ha, Lamp.setRecord, Lamp.record] using hz)⟩ }
  exact .ite (fun _ => (adds _).trans (keeps_requestLampWrite _ _)) fun _ => adds _

/-- A swap in progress holds the lamp at 0, so that its end may lift every zero condition. -/
theorem applied_of_swapping {s : State} (hs : s.lamp.changer.isSwapping = true) (h : s.lampSafe) : s.lamp.applied = 0 :=
  h.2.2 (.inr (.inl hs))

theorem lampSafe_of_dark {s : State} (h : s.lamp.applied = 0) : s.lampSafe :=
  ⟨by simp [h], by simp [h], fun _ => h⟩

/-- The end of a swap: the lamp changer leaves SWAPPING, the applied level stays. -/
theorem keeps_leaveSwapping {s : State} {l : Lamp} (hs : s.lamp.changer.isSwapping = true)
    (hn : l.changer.isSwapping = false) (ha : l.applied = s.lamp.applied) : Keeps s { s with lamp := l } :=
  { apart := fun _ hb => by simp [hn] at hb
    shut := fun _ hh _ => hh (.inr (.inr (.inr hs)))
    lamp := fun h => lampSafe_of_dark (ha.trans (applied_of_swapping hs h)) }

theorem keeps_swapSwitch (s : State) (made : Bool) : Keeps s (s.swapSwitch made) := by
  have seen : Keeps s { s with lamp := { s.lamp with swapSwitch := made } } := {}
  refine .ite (fun h => ?_) fun _ => seen
  simp only [Bool.and_eq_true] at h
  refine seen.trans (Keeps.trans (Keeps.trans ?_ (keeps_latch _ _)) (keeps_offer _))
  exact keeps_leaveSwapping h.2 rfl rfl

theorem keeps_swapTimeout (s : State) : Keeps s s.swapTimeout := by
  refine .ite (fun h => ?_) fun _ => .refl s
  have hs : s.lamp.changer.isSwapping = true := by
    unfold State.swapDue at h
    split at h
    · rename_i hc; rw [hc]; rfl
    · cases h
  refine Keeps.trans (Keeps.trans ?_ (keeps_latch _ _)) (keeps_offer _)
  exact keeps_leaveSwapping hs rfl rfl

/-! ## The fan (R152 to R154) -/

/-- A fan that does not come to OFF and does not leave RUNNING. -/
theorem keeps_setFan {s : State} {m : Monitor} (hm : m = { s.mon with fan := m.fan, fanAttempts := m.fanAttempts })
    (hoff : m.fan ≠ .off) (hrun : s.mon.fan.isRunning = true → m.fan.isRunning = true) : Keeps s { s with mon := m } := by
  rw [hm]
  exact
    { fan := fun _ _ => hoff
      lamp := fun ⟨h1, h2, h3⟩ => ⟨h1, h2, fun hz => h3 (hz.imp_left fun h => by
        by_contra hr
        simp [hrun (by simpa using hr)] at h)⟩ }

theorem keeps_tachPulse (s : State) : Keeps s s.tachPulse := by
  unfold State.tachPulse
  split
  · exact keeps_setFan rfl (by simp) fun _ => rfl
  · exact keeps_setFan rfl (by simp) fun _ => rfl
  · exact .refl s

theorem keeps_fanStalls (s : State) : Keeps s s.fanStalls := by
  have k := (keeps_latch { s with mon := { s.mon with fan := .stalled false } } .fanStall).trans (keeps_lampFall _ s.allowed)
  exact { k with lamp := fun _ => lampSafe_lampFall _ _, fan := fun _ => k.fan fun _ => by simp }

theorem keeps_fanStartTimeout (s : State) : Keeps s s.fanStartTimeout := .ite (fun _ => keeps_fanStalls s) fun _ => .refl s

theorem keeps_fanSupervisionTimeout (s : State) : Keeps s s.fanSupervisionTimeout :=
  .ite (fun _ => keeps_fanStalls s) fun _ => .refl s

theorem keeps_fanRests (s : State) : Keeps s s.fanRests := by
  refine .ite (fun h => keeps_setFan rfl (by simp) ?_) fun _ => .refl s
  have hf : s.mon.fan = .stalled true := of_decide_eq_true h
  simp [hf, FanState.isRunning]

theorem keeps_fanRestEnds (s : State) : Keeps s s.fanRestEnds := by
  refine .ite (fun h => keeps_setFan rfl (by simp) ?_) fun _ => .refl s
  unfold State.fanRested at h
  split at h
  · rename_i hf; simp [hf, FanState.isRunning]
  · cases h

theorem keeps_cooldownEnds (s : State) : Keeps s s.cooldownEnds :=
  .ite (fun _ => (keeps_reformDemand s).trans (keeps_lampFall _ _)) fun _ => .refl s

/-! ## Temperature and supply (R148 to R156) -/

/-- A conversion: the demand and the applied level are formed anew, and an entry into OVERHEAT closes the shutter. -/
theorem keeps_convertTemperature (s : State) (code : BitVec 10) : Keeps s (s.convertTemperature code) := by
  refine .ite (fun _ => .refl s) fun _ => ?_
  generalize htemp : s.trimmedTemperature code = n
  let m : State := { s with mon := { s.mon with temperature := n, sinceConversion := 0, thermal := nextThermal s.mon.thermal n } }
  have k : Keeps m (m.reformDemand.lampFall s.allowed) := (keeps_reformDemand m).trans (keeps_lampFall _ _)
  have hl := lampSafe_lampFall m.reformDemand s.allowed
  have hf := (keeps_lampFall m.reformDemand s.allowed).fan (fanKept_reformDemand m)
  refine .ite (fun _ => ?_) fun h => ?_
  · have heats : Keeps s (((m.reformDemand.lampFall s.allowed).latch .overheat).driveShutter false) :=
      { (k.trans (keeps_latch _ _)).trans (beside_driveShutter_closed _).toKeeps with
        lamp := fun _ => (beside_driveShutter_closed _).lamp ((keeps_latch _ _).lamp hl)
        fan := fun _ => (beside_driveShutter_closed _).fan ((keeps_latch _ _).fan hf)
        shut := fun _ _ _ => rfl }
    exact heats.trans (.ite (fun _ => keeps_endMotion _) fun _ => .refl _)
  · refine { k with lamp := fun _ => hl, fan := fun _ => hf, shut := fun hn hh => k.shut hn fun hm => hh ?_ }
    exact hm.imp_right (Or.imp_right (Or.imp_left fun ht => by_contra fun ho => h ⟨ht, ho⟩))

theorem keeps_sampleSupply (s : State) (reading : BitVec 10) : Keeps s (s.sampleSupply reading) := by
  unfold State.sampleSupply State.enterSupply
  dsimp only
  generalize nextSupply _ _ _ = new
  have flags (b c : Bool) : Keeps s ((((({ s with mon := { s.mon with supply := new } } : State).lampFall s.allowed).latchIf
      b .supplyLow)).latchIf c .supplyCritical) := by
    have k := (keeps_latchIf (({ s with mon := { s.mon with supply := new } } : State).lampFall s.allowed) b .supplyLow).trans
      (keeps_latchIf _ c .supplyCritical)
    exact { (keeps_lampFall _ s.allowed).trans k with lamp := fun _ => k.lamp (lampSafe_lampFall _ _) }
  exact .ite (fun _ => (flags _ _).trans (keeps_storeSuspend _)) fun _ => .ite
    (fun _ => (((flags _ _).trans (keeps_resumeChanger _)).trans (keeps_storeResume _)).trans (keeps_offer _))
    fun _ => flags _ _

theorem keeps_endSensorReads (s : State) (active : Bool) : Keeps s (s.endSensorReads active) :=
  .ite (fun _ => (keeps_setTape s _).trans (beside_enterTapeEnd _).toKeeps) fun _ => keeps_setTape s _

theorem keeps_dimmerPeriod (s : State) : Keeps s s.dimmerPeriod := {}

theorem keeps_losePower (s : State) : Keeps s s.losePower :=
  (keeps_storePowerLoss s).trans { shut := fun _ _ _ => rfl }

/-! ## The two resets (R20, R47) -/

theorem kept_powerOn (s : State) (strap b0 b1 b2 : Bool) : Kept s (s.powerOn strap b0 b1 b2) := by
  have fails : Kept s (if s.powered then storePowerLoss s else s) := by
    split
    · exact (keeps_storePowerLoss s).toKept
    · exact .refl s
  have fresh (t : State) : Kept t (t.freshBlocks strap b0 b1 b2) :=
    { counts := fun _ => rfl
      apart := fun _ hb => nomatch hb.1
      shut := fun _ _ _ => rfl
      position := fun _ => ⟨(by decide : 0 < 100), nofun, fun _ => rfl, fun _ => rfl⟩
      lamp := fun _ => lampSafe_of_dark rfl
      fan := fun _ _ => nofun
      room := fun _ => ⟨Nat.zero_le _, Nat.zero_le _, Nat.zero_le _, Nat.zero_le _⟩
      enum := fun _ _ _ ha => nomatch ha }
  exact (fails.trans (fresh _)).trans (keeps_latchIf _ _ _).toKept

theorem keeps_latchRaw (s : State) : Keeps s s.latchRaw := by
  have folds (flags : List Flag) (t : State) :
      Keeps t (flags.foldl (fun t f => if s.rawFlag f then t.latch f else t) t) := by
    induction flags generalizing t with
    | nil => exact .refl t
    | cons f rest ih => exact Keeps.trans (.ite (fun _ => keeps_latch t f) fun _ => .refl t) (ih _)
  exact folds _ s

/-- A busy changer becomes UNHOMED with its shutter closed; one at rest stays as it is. -/
theorem trayAfterReset_cases (s : State) :
    (s.trayAfterReset.state = .unhomed ∧ s.trayAfterReset.valid = false ∧ s.trayAfterReset.shutterOpen = false ∨
      s.tray.state.busy = false ∧ s.trayAfterReset.state = s.tray.state ∧ s.trayAfterReset.valid = s.tray.valid ∧
        s.trayAfterReset.shutterOpen = s.tray.shutterOpen) ∧
      s.trayAfterReset.position = s.tray.position ∧ s.trayAfterReset.holdDark = s.tray.holdDark := by
  unfold State.trayAfterReset
  dsimp only
  split
  · exact ⟨.inl ⟨rfl, rfl, rfl⟩, rfl, rfl⟩
  · rename_i hb; exact ⟨.inr ⟨by simpa using hb, rfl, rfl, rfl⟩, rfl, rfl⟩

theorem afterReset_replies (m : MsgUnit) : m.afterReset.replies.length ≤ 1 := by
  unfold MsgUnit.afterReset
  dsimp only
  split <;> simp

theorem kept_restarted (s : State) : Kept s s.restarted := by
  obtain ⟨hcases, hpos, hdark⟩ := trayAfterReset_cases s
  refine
    { counts := fun _ => rfl
      apart := fun h hb => ?apart
      shut := fun _ h hh => ?shut
      position := fun h => ?position
      lamp := fun _ => lampSafe_of_dark rfl
      room := fun _ => ⟨Nat.zero_le _, Nat.le_trans (afterReset_replies s.msg) (by decide), Nat.zero_le _, Nat.zero_le _⟩ }
  case apart =>
    obtain ⟨hbusy, hswap⟩ : s.trayAfterReset.state.busy = true ∧ s.lamp.changer.isSwapping = true := hb
    rcases hcases with ⟨hst, -, -⟩ | ⟨hb', hst, -, -⟩
    · rw [hst] at hbusy; cases hbusy
    · rw [hst, hb'] at hbusy; cases hbusy
  case shut =>
    change s.trayAfterReset.shutterOpen = false
    rcases hcases with ⟨-, -, ho⟩ | ⟨-, hst, -, ho⟩
    · exact ho
    · rw [ho]
      refine h ?_
      have hh' : s.trayAfterReset.state.needsShutterClosed = true ∨ s.trayAfterReset.holdDark = true ∨
        s.mon.thermal = .overheat ∨ s.lamp.changer.isSwapping = true := hh
      rwa [hst, hdark] at hh'
  case position =>
    change s.trayAfterReset.position < 100 ∧ (s.trayAfterReset.state = .idle → s.trayAfterReset.valid = true) ∧
      (s.trayAfterReset.state = .unhomed → s.trayAfterReset.valid = false) ∧
        (s.trayAfterReset.state = .jammed → s.trayAfterReset.valid = false)
    rw [hpos]
    rcases hcases with ⟨hst, hv, -⟩ | ⟨-, hst, hv, -⟩
    · rw [hst, hv]; exact ⟨h.1, nofun, fun _ => rfl, fun _ => rfl⟩
    · rw [hst, hv]; exact h

theorem keeps_moveSwap (s : State) : Keeps s s.moveSwap := (beside_moveSwap s).toKeeps

theorem keeps_resetFall (s : State) : Keeps s s.resetFall := by
  have k := keeps_reformDemand { s with mon := { s.mon with cooldown := Config.cooldownTicks } }
  exact Keeps.trans { k with fan := fun _ => fanKept_reformDemand _ } (keeps_requestLampWrite _ _)

theorem kept_linkReset (s : State) (m : Message) : Kept s (s.linkReset m) := by
  have hfree : s.restarted.placeFree = true :=
    decide_eq_true (Nat.lt_of_le_of_lt (afterReset_replies s.msg) (by decide))
  have replied : Kept s (if m.needsReply then s.restarted.enqueueReply (replyTo m (.good [])) else s.restarted) := by
    split
    · exact (kept_restarted s).trans (keeps_enqueueReply hfree _).toKept
    · exact kept_restarted s
  have moved := replied.trans (((keeps_latchRaw _).trans (keeps_senseCheck _)).trans (keeps_moveSwap _)).toKept
  unfold State.linkReset
  dsimp only
  split
  · exact moved.trans (keeps_resetFall _).toKept
  · exact moved.trans (keeps_reformDemand _).toKept

theorem kept_carryReset (s : State) : Kept s s.carryReset := by
  unfold State.carryReset
  split
  · split
    · exact kept_linkReset s _
    · exact .refl s
  · exact .refl s

/-! ## Steps -/

theorem kept_settle (s : State) : Kept s (settle s) := by
  unfold settle
  refine Kept.trans (Keeps.toKept ?_) (kept_carryReset _)
  refine ((((((Keeps.trans ?_ (keeps_phaseLimit _)).trans (keeps_seekExhausted _)).trans (keeps_settleEnd _)).trans
    (keeps_pauseExpires _)).trans (keeps_endHold _)).trans (keeps_keyRepeats _)).trans (keeps_relayExpires _)
  refine (((((((((Keeps.trans ?_ (keeps_dissolveEnds _)).trans (keeps_lampFailure _)).trans (keeps_litMinute _)).trans
    (keeps_swapTimeout _)).trans (keeps_fanStartTimeout _)).trans (keeps_fanSupervisionTimeout _)).trans
    (keeps_fanRests _)).trans (keeps_fanRestEnds _)).trans (keeps_cooldownEnds _))
  exact (((((((((beside_calibrationEnds s).toKeeps.trans (keeps_stuckTone _)).trans (keeps_stuckEnd _)).trans
    (keeps_wordCompletes _)).trans (keeps_lossTimeout _)).trans (keeps_ringOpens _)).trans (keeps_raiseShowSafe _)).trans
    (keeps_endWait _)).trans (keeps_enumExpires _))

theorem kept_frameArrives (s : State) (f : LinkFrame) (sync : Nat) : Kept s (s.frameArrives f sync) := by
  unfold State.frameArrives
  split
  · exact ((keeps_miss s).toKept.trans (kept_settle _)).trans (keeps_receive _ f sync).toKept
  · exact (keeps_receive s f sync).toKept

/-- What a look-up of a kind gives keeps the invariants. -/
def LookupKeeps (o : Option (Message → State → Answer × State)) : Prop := ∀ work, o = some work → WorkKeeps work

theorem LookupKeeps.orElse {c : Prop} [Decidable c] {work : Message → State → Answer × State}
    {o : Option (Message → State → Answer × State)} (hw : WorkKeeps work) (ho : LookupKeeps o) :
    LookupKeeps (if c then some work else o) := by
  split
  · intro w hs; cases hs; exact hw
  · exact ho

theorem workOf_keeps (k : Byte) : LookupKeeps (workOf k) := by
  unfold workOf
  refine .orElse enumerateCommand_keeps <| .orElse identify_keeps <| .orElse setGroups_keeps <| .orElse status_keeps <|
    .orElse readEvents_keeps <| .orElse clearEventsCommand_keeps <| .orElse setMasksCommand_keeps <| .orElse
    setParamCommand_keeps <| .orElse readParam_keeps <| .orElse loadCue_keeps <| .orElse readCue_keeps <| .orElse
    loadKey_keeps <| .orElse readKey_keeps <| .orElse loadSlot_keeps <| .orElse readSlot_keeps <| .orElse
    loadCurve_keeps <| .orElse actCommand_keeps <| .orElse stopCommand_keeps <| .orElse clearJam_keeps <| .orElse
    saveCommand_keeps <| .orElse storeRead_keeps <| .orElse protectCommand_keeps <| .orElse lampReplaced_keeps <|
    .orElse calibrateCommand_keeps <| .orElse relayCommand_keeps <| fun _ h => ?_
  split at h
  · cases h
  · cases h; exact unknownCommand_keeps

theorem kept_serveOldest (s : State) : Kept s s.serveOldest := by
  unfold State.serveOldest
  split
  · exact .refl s
  · split
    · exact kept_serveReset s
    · split
      · rename_i h; exact kept_serve (workOf_keeps _ _ h) s _
      · exact .refl s

theorem kept_idleStep (s : State) : Kept s (idleStep s) := by
  unfold idleStep
  split
  · exact (kept_settle s).trans (kept_serveOldest _)
  · exact .refl s

theorem kept_whenPowered {s t u : State} (h : whenPowered s t = .next u) (k : Kept s t) : Kept s u := by
  unfold whenPowered at h
  cases h
  split
  · exact k
  · exact .refl s

theorem kept_whenSettled {s u : State} {f : State → State} (h : whenSettled s f = .next u) (k : ∀ t, Kept t (f t)) :
    Kept s u := kept_whenPowered h ((kept_settle s).trans (k _))

theorem kept_next {s t u : State} (h : (.next t : Host.Outcome State Fault Refusal) = .next u) (k : Kept s t) : Kept s u :=
  Host.Outcome.next.inj h ▸ k

theorem kept_command {s u : State} {test : Message → Bool} {work : Message → State → Answer × State}
    (h : whenSettled s (fun t => t.serve test work) = .next u) (hw : WorkKeeps work) : Kept s u :=
  kept_whenSettled h fun t => kept_serve hw t test

/-- Every command keeps the invariants. -/
theorem kept_exec (c : Instr) {s t : State} (h : exec c s = .next t) : Kept s t := by
  cases c with
  | powerOnReset strap b0 b1 b2 =>
    exact kept_next ((exec_powerOnReset s strap b0 b1 b2).symm.trans h) (kept_powerOn s strap b0 b1 b2)
  | linkReset => exact kept_whenPowered ((exec_linkReset s).symm.trans h) (kept_carryReset s)
  | frameReceived f sync =>
    exact kept_whenSettled ((exec_frameReceived s f sync).symm.trans h) fun t => kept_frameArrives t f sync
  | missingFrame => exact kept_whenSettled ((exec_missingFrame s).symm.trans h) fun t => (keeps_miss t).toKept
  | linkLossTimeout => exact kept_whenPowered ((exec_linkLossTimeout s).symm.trans h) (keeps_lossTimeout s).toKept
  | originatedFrame =>
    exact kept_whenSettled ((exec_originatedFrame s).symm.trans h) fun t => (keeps_originate t).toKept
  | showSafeRaised => exact kept_whenPowered ((exec_showSafeRaised s).symm.trans h) (keeps_raiseShowSafe s).toKept
  | retryWaitEnd => exact kept_whenPowered ((exec_retryWaitEnd s).symm.trans h) (keeps_endWait s).toKept
  | stuckTone => exact kept_whenPowered ((exec_stuckTone s).symm.trans h) (keeps_stuckTone s).toKept
  | stuckEnd => exact kept_whenPowered ((exec_stuckEnd s).symm.trans h) (keeps_stuckEnd s).toKept
  | wordComplete => exact kept_whenPowered ((exec_wordComplete s).symm.trans h) (keeps_wordCompletes s).toKept
  | identify => exact kept_command ((exec_identify s).symm.trans h) identify_keeps
  | setGroups => exact kept_command ((exec_setGroups s).symm.trans h) setGroups_keeps
  | status => exact kept_command ((exec_status s).symm.trans h) status_keeps
  | readEvents => exact kept_command ((exec_readEvents s).symm.trans h) readEvents_keeps
  | clearEvents => exact kept_command ((exec_clearEvents s).symm.trans h) clearEventsCommand_keeps
  | setMasks => exact kept_command ((exec_setMasks s).symm.trans h) setMasksCommand_keeps
  | reset => exact kept_whenSettled ((exec_reset s).symm.trans h) kept_serveReset
  | setParam => exact kept_command ((exec_setParam s).symm.trans h) setParamCommand_keeps
  | readParam => exact kept_command ((exec_readParam s).symm.trans h) readParam_keeps
  | loadCue => exact kept_command ((exec_loadCue s).symm.trans h) loadCue_keeps
  | readCue => exact kept_command ((exec_readCue s).symm.trans h) readCue_keeps
  | loadKey => exact kept_command ((exec_loadKey s).symm.trans h) loadKey_keeps
  | readKey => exact kept_command ((exec_readKey s).symm.trans h) readKey_keeps
  | loadSlot => exact kept_command ((exec_loadSlot s).symm.trans h) loadSlot_keeps
  | readSlot => exact kept_command ((exec_readSlot s).symm.trans h) readSlot_keeps
  | loadCurve => exact kept_command ((exec_loadCurve s).symm.trans h) loadCurve_keeps
  | act => exact kept_command ((exec_act s).symm.trans h) actCommand_keeps
  | stop => exact kept_command ((exec_stop s).symm.trans h) stopCommand_keeps
  | clearJam => exact kept_command ((exec_clearJam s).symm.trans h) clearJam_keeps
  | save => exact kept_command ((exec_save s).symm.trans h) saveCommand_keeps
  | storeRead => exact kept_command ((exec_storeRead s).symm.trans h) storeRead_keeps
  | protect => exact kept_command ((exec_protect s).symm.trans h) protectCommand_keeps
  | lampReplaced => exact kept_command ((exec_lampReplaced s).symm.trans h) lampReplaced_keeps
  | calibrate => exact kept_command ((exec_calibrate s).symm.trans h) calibrateCommand_keeps
  | enumerate => exact kept_command ((exec_enumerate s).symm.trans h) enumerateCommand_keeps
  | unknownCommand => exact kept_command ((exec_unknownCommand s).symm.trans h) unknownCommand_keeps
  | remoteRelay => exact kept_command ((exec_remoteRelay s).symm.trans h) relayCommand_keeps
  | pauseExpiry => exact kept_whenPowered ((exec_pauseExpiry s).symm.trans h) (keeps_pauseExpires s).toKept
  | shutterClosedSwitch made =>
    exact kept_whenSettled ((exec_shutterClosedSwitch s made).symm.trans h) fun t => (keeps_closedSwitch t made).toKept
  | gateDownSwitch made =>
    exact kept_whenSettled ((exec_gateDownSwitch s made).symm.trans h) fun t => (keeps_downSwitch t made).toKept
  | indexPulse homeMark =>
    exact kept_whenSettled ((exec_indexPulse s homeMark).symm.trans h) fun t => (keeps_pulse t homeMark).toKept
  | gateUpSwitch made present =>
    exact kept_whenSettled ((exec_gateUpSwitch s made present).symm.trans h) fun t => (keeps_upSwitch t made present).toKept
  | settleEnd => exact kept_whenPowered ((exec_settleEnd s).symm.trans h) (keeps_settleEnd s).toKept
  | shutterOpenSwitch made =>
    exact kept_whenSettled ((exec_shutterOpenSwitch s made).symm.trans h) fun t => (keeps_openSwitch t made).toKept
  | phaseLimitExpiry => exact kept_whenPowered ((exec_phaseLimitExpiry s).symm.trans h) (keeps_phaseLimit s).toKept
  | seekExhausted => exact kept_whenPowered ((exec_seekExhausted s).symm.trans h) (keeps_seekExhausted s).toKept
  | lampTick current =>
    exact kept_whenSettled ((exec_lampTick s current).symm.trans h) fun t => (keeps_tick t current).toKept
  | dissolveEnd => exact kept_whenPowered ((exec_dissolveEnd s).symm.trans h) (keeps_dissolveEnds s).toKept
  | lampFailure => exact kept_whenPowered ((exec_lampFailure s).symm.trans h) (keeps_lampFailure s).toKept
  | swapSwitch made =>
    exact kept_whenSettled ((exec_swapSwitch s made).symm.trans h) fun t => (keeps_swapSwitch t made).toKept
  | swapTimeout => exact kept_whenPowered ((exec_swapTimeout s).symm.trans h) (keeps_swapTimeout s).toKept
  | litMinute => exact kept_whenPowered ((exec_litMinute s).symm.trans h) (keeps_litMinute s).toKept
  | tempConversion code =>
    exact kept_whenSettled ((exec_tempConversion s code).symm.trans h) fun t => (keeps_convertTemperature t code).toKept
  | fanTachPulse => exact kept_whenSettled ((exec_fanTachPulse s).symm.trans h) fun t => (keeps_tachPulse t).toKept
  | fanStartTimeout => exact kept_whenPowered ((exec_fanStartTimeout s).symm.trans h) (keeps_fanStartTimeout s).toKept
  | fanSupervisionTimeout =>
    exact kept_whenPowered ((exec_fanSupervisionTimeout s).symm.trans h) (keeps_fanSupervisionTimeout s).toKept
  | fanRest => exact kept_whenPowered ((exec_fanRest s).symm.trans h) (keeps_fanRests s).toKept
  | fanRestEnd => exact kept_whenPowered ((exec_fanRestEnd s).symm.trans h) (keeps_fanRestEnds s).toKept
  | cooldownEnd => exact kept_whenPowered ((exec_cooldownEnd s).symm.trans h) (keeps_cooldownEnds s).toKept
  | supplySample reading =>
    exact kept_whenSettled ((exec_supplySample s reading).symm.trans h) fun t => (keeps_sampleSupply t reading).toKept
  | outputSample =>
    exact kept_whenSettled ((exec_outputSample s).symm.trans h) fun t => (keeps_outputSampleWork t).toKept
  | masterFrameBuild left right cue =>
    exact kept_whenSettled ((exec_masterFrameBuild s left right cue).symm.trans h) fun t => (keeps_buildFrame t { left := left, right := right, cue := cue }).toKept
  | calibrationComplete =>
    exact kept_whenPowered ((exec_calibrationComplete s).symm.trans h) (beside_calibrationEnds s).toKept
  | tapeEndSensor active =>
    exact kept_whenSettled ((exec_tapeEndSensor s active).symm.trans h) fun t => (keeps_endSensorReads t active).toKept
  | ringOpenTimeout => exact kept_whenPowered ((exec_ringOpenTimeout s).symm.trans h) (keeps_ringOpens s).toKept
  | enumerationWaitExpiry =>
    exact kept_whenPowered ((exec_enumerationWaitExpiry s).symm.trans h) (keeps_enumExpires s).toKept
  | irCodeFrame es =>
    exact kept_whenSettled ((exec_irCodeFrame s es).symm.trans h) fun t => (keeps_irElements t es).toKept
  | irRepeatFrame es =>
    exact kept_whenSettled ((exec_irRepeatFrame s es).symm.trans h) fun t => (keeps_irElements t es).toKept
  | buttonPress b before now =>
    exact kept_whenSettled ((exec_buttonPress s b before now).symm.trans h) fun t => (keeps_buttonDown t b before now).toKept
  | buttonRelease b before now =>
    exact kept_whenSettled ((exec_buttonRelease s b before now).symm.trans h) fun t => (keeps_buttonUp t b before now).toKept
  | holdEnd => exact kept_whenPowered ((exec_holdEnd s).symm.trans h) (keeps_endHold s).toKept
  | keyRepeat => exact kept_whenPowered ((exec_keyRepeat s).symm.trans h) (keeps_keyRepeats s).toKept
  | relayWaitExpiry => exact kept_whenPowered ((exec_relayWaitExpiry s).symm.trans h) (keeps_relayExpires s).toKept
  | pageOperationDone =>
    exact kept_whenSettled ((exec_pageOperationDone s).symm.trans h) fun t => (keeps_pageOperationEnds t).toKept
  | powerLoss => exact kept_whenSettled ((exec_powerLoss s).symm.trans h) fun t => (keeps_losePower t).toKept
  | dimmerPeriodStart =>
    exact kept_whenSettled ((exec_dimmerPeriodStart s).symm.trans h) fun t => (keeps_dimmerPeriod t).toKept
  | irFrameDiscarded es =>
    exact kept_whenSettled ((exec_irFrameDiscarded s es).symm.trans h) fun t => (keeps_irElements t es).toKept

/-- Every step keeps the invariants. -/
theorem kept_step {s t : State} (h : step s = .next t) : Kept s t := by
  unfold step at h
  split at h
  · cases h; exact kept_idleStep s
  · exact Kept.trans (t := { s with pending := _ }) {} (kept_exec _ h)

/-! ## The obligations about every step -/

/-- Settles O31. -/
theorem everyStepKeepsCountsBalanced : Obligations.EveryStepKeepsCountsBalanced := fun _ _ hs h => (kept_step h).counts hs

/-- Settles O38. -/
theorem everyStepKeepsShutterAndChangers : Obligations.EveryStepKeepsShutterAndChangers :=
  ⟨fun _ _ hs h => (kept_step h).apart hs, fun _ _ hs hh h => (kept_step h).shut hs hh⟩

/-- Settles O39. -/
theorem everyStepKeepsPositionMeaning : Obligations.EveryStepKeepsPositionMeaning := fun _ _ hs h => (kept_step h).position hs

/-- Settles O47. -/
theorem everyStepKeepsLampSafe : Obligations.EveryStepKeepsLampSafe := fun _ _ hs h => (kept_step h).lamp hs

/-- Settles O48. -/
theorem everyStepKeepsFanOn : Obligations.EveryStepKeepsFanOn := fun _ _ hs h => (kept_step h).fan hs

/-- Settles O59. -/
theorem everyStepKeepsMemoryAndCapacities : Obligations.EveryStepKeepsMemoryAndCapacities :=
  ⟨fun _ _ hs h => (kept_step h).mem hs, fun _ _ hs h => (kept_step h).room hs, fun _ _ hs h => (kept_step h).enum hs⟩

end Sys2Proof.Proofs.Invariants
end

