-- ==== Sys2Proof/Proofs/Steps.lean ====
section
/-!
Steps: the command at the front of the queue, the part that idles, the part without a supply, and the state after reset.
-/

namespace Sys2Proof.Proofs.Steps

open Sys2Proof Sys2Proof.Machine Sys2Proof.Proofs.Commands Sys2Proof.Proofs.StuckTone

-- One declaration after another, so that the checks of many short proofs do not wait for each other in threads.
set_option Elab.async false

/-- Settles O1. -/
theorem stepRunsFrontCommand : Obligations.StepRunsFrontCommand := by
  intro c rest s h
  rw [step, h]

theorem serveOldest_of_no_message {s : State} (h : s.msg.rx = []) : s.serveOldest = s := by
  rw [State.serveOldest, h]

theorem idleStep_of_quiet {s : State} (hs : s.Ready) (hrx : s.msg.rx = []) : idleStep s = s := by
  rw [idleStep, if_pos hs.1, settle_of_quiet hs.2, serveOldest_of_no_message hrx]

theorem idleStep_of_unpowered {s : State} (hp : s.powered = false) : idleStep s = s := by simp [idleStep, hp]

theorem whenPowered_of_unpowered {s : State} (hp : s.powered = false) (t : State) : whenPowered s t = .next s := by
  simp [whenPowered, hp]

/-- Every command but POWER_ON_RESET waits for the supply. -/
theorem exec_of_unpowered {s : State} (hp : s.powered = false) (c : Instr)
    (hc : ∀ strap b0 b1 b2, c ≠ .powerOnReset strap b0 b1 b2) : exec c s = .next s := by
  cases c
  case powerOnReset strap b0 b1 b2 => exact absurd rfl (hc strap b0 b1 b2)
  all_goals exact whenPowered_of_unpowered hp _

/-- Settles O2. -/
theorem idleAndUnpoweredSteps : Obligations.IdleAndUnpoweredSteps := by
  refine ⟨fun s hq h => ?idle, fun c s hp hc => exec_of_unpowered hp c hc, fun s hp hstuck hcount => ?stuckEnd⟩
  case idle =>
    have still : idleStep s = s := h.elim (fun ⟨hs, hrx⟩ => idleStep_of_quiet hs hrx) idleStep_of_unpowered
    rw [step, hq]
    exact congrArg _ still
  case stuckEnd => exact exec_stuckEnd_of_stuckOver hp ((stuckOver_iff s.cue).mpr ⟨hstuck, hcount.ge⟩)

/-- Settles O60, each invariant by its value at reset. -/
theorem resetMeetsInvariants : Obligations.ResetMeetsInvariants := by
  refine ⟨rfl, ?capacity, ?enumerate, rfl, ?lamp, ?fan, ?apart, ?shutter, ?position, rfl, by decide⟩
  case capacity => exact ⟨by decide, by decide, by decide, by decide⟩
  case enumerate => intro _ a ha; cases ha
  case lamp => exact ⟨by decide, by decide, fun _ => rfl⟩
  case fan => intro _ hoff; cases hoff
  case apart => rintro ⟨hbusy, -⟩; cases hbusy
  case shutter => exact fun _ => rfl
  case position => exact ⟨by decide, nofun, fun _ => rfl, fun _ => rfl⟩

end Sys2Proof.Proofs.Steps
end

