-- ==== Sys2Proof/Proofs/Handler.lean ====
section
/-!
The command handler (spec/02, spec/03): the oldest buffer taken, its command carried out while a place is held, and the
answer placed. A command is settled by what its work does on the state with the buffer taken (`exec_answers`).
-/

namespace Sys2Proof.Proofs.Handler

open Sys2Proof Sys2Proof.Machine Sys2Proof.Proofs.Commands

-- One declaration after another, so that the checks of many short proofs do not wait for each other in threads.
set_option Elab.async false

/-! ## The buffer taken and the answer placed (R28, R37, R39) -/

theorem takeOldest_eq_taking {s : State} {m : Message} {rest : List Message} (h : s.Oldest m rest) :
    s.takeOldest m = s.taking m rest := by
  rw [State.takeOldest, h.1]; rfl

theorem answer_eq_answered (s : State) (m : Message) (a : Answer) :
    s.answer m a = s.answered (replies m a.status.code a.data) := by
  unfold State.answer replies
  cases m.needsReply with
  | true => rfl
  | false => simp [State.answered, State.setMsg]

/-- A command that serves the oldest buffer of a unit with nothing due: its work on the state with that buffer taken. -/
theorem exec_answers {s : State} {m : Message} {rest : List Message} (hs : s.Ready) (ho : s.Oldest m rest) {c : Instr}
    {test : Message → Bool} {work : Message → State → Answer × State}
    (hc : exec c s = whenSettled s fun t => t.serve test work) (ht : test m = true) {a : Answer} {u : State}
    (hw : work m (s.taking m rest) = (a, u)) : exec c s = .next (u.answered (replies m a.status.code a.data)) := by
  rw [hc, whenSettled_of_ready hs, State.serve_of_oldest ho ht, takeOldest_eq_taking ho, hw, answer_eq_answered]

/-- A command answered OK. -/
theorem exec_good {s : State} {m : Message} {rest : List Message} (hs : s.Ready) (ho : s.Oldest m rest) {c : Instr}
    {test : Message → Bool} {work : Message → State → Answer × State}
    (hc : exec c s = whenSettled s fun t => t.serve test work) (ht : test m = true) {data : List Byte} {u : State}
    (hw : work m (s.taking m rest) = (.good data, u)) : exec c s = .next (u.answered (replies m 0x00 data)) :=
  exec_answers hs ho hc ht hw

theorem isKind_of_kind {m : Message} {k : Byte} (h : m.kind = k) : isKind k m = true := decide_eq_true h

theorem replies_of_not_needsReply {m : Message} (h : m.needsReply = false) (status : Byte) (data : List Byte) :
    replies m status data = [] := by simp [replies, h]

/-! ## Operands -/

theorem toNat_byteOf {n : Nat} (h : n < 256) : (byteOf n).toNat = n := by
  rw [byteOf, BitVec.toNat_ofNat]; exact Nat.mod_eq_of_lt h

theorem natOf_bytesOf_four (w : BitVec 32) : BitVec.ofNat 32 (natOf (bytesOf 4 w.toNat)) = w := by
  apply BitVec.eq_of_toNat_eq
  have e : natOf (bytesOf 4 w.toNat) =
      (((w.toNat >>> 24 % 256) * 256 + w.toNat >>> 16 % 256) * 256 + w.toNat >>> 8 % 256) * 256 + w.toNat % 256 := by
    simp [natOf, bytesOf, byteOf, List.range_succ]
  have hw := w.isLt
  rw [BitVec.toNat_ofNat, e]
  simp only [Nat.shiftRight_eq_div_pow]
  omega

theorem getD_of_lt {α : Type} {n : Nat} (v : Vector α n) {i : Nat} (h : i < n) (d : α) : v.getD i d = v[i] := by
  simp [Vector.getD, h]

theorem paramOfId (p : Param) : Param.ofId (byteOf p.id).toNat = some p := by cases p <;> rfl

/-! ## Reading commands (R42 to R53, R189) -/

theorem sourceByte_eq (s : State) :
    s.sourceByte = (match s.link.address with | some a => byteOf a | none => 0xFE) := by
  unfold State.sourceByte
  cases s.link.address <;> rfl

theorem master_ite {α : Type} (s : State) (x y : α) :
    (if s.isMaster then x else y) = if s.link.role = .master then x else y := by simp [State.isMaster]

theorem needsReply_of_all {m : Message} (h : m.dest = 0xFF) : m.needsReply = false := by simp [Message.needsReply, h]

theorem dest_of_needsReply {m : Message} (h : m.needsReply = true) : m.dest ≠ 0xFF :=
  fun hd => by simp [needsReply_of_all hd] at h

theorem enumReturned_eq (s : State) :
    (if s.isMaster then s.enumReturned else s) =
      if s.link.role = .master ∧ s.tape.enumWait ≠ none then
        { s with tape := { s.tape with enumWait := none, enumAttempts := 0 } }
      else s := by
  by_cases hm : s.link.role = .master
  · cases hw : s.tape.enumWait <;> simp [State.isMaster, State.enumReturned, State.setTape, hm, hw]
  · simp [State.isMaster, hm]

/-- Settles O12, each command by its work on the state with the buffer taken. -/
theorem readingCommandsAnswer : Obligations.ReadingCommandsAnswer := by
  refine ⟨fun s m rest hs ho => ⟨fun hk hp => ?identify, fun p hk hp => ?readParam, fun i hk hp => ?readCue,
    fun i hk hp => ?readKey, fun hk => ?unknown, fun hk hn => ?enumAlone, fun hk hd => ?enumAll⟩,
    fun s m rest hs ho hp => ⟨fun hk => ?status, fun hk => ?readEvents⟩⟩
  case identify =>
    rw [exec_good hs ho (exec_identify s) (isKind_of_kind hk) (by rw [identify, if_neg (by simp [hp])]),
      sourceByte_eq, master_ite]
    rfl
  case readParam =>
    refine exec_good hs ho (exec_readParam s) (isKind_of_kind hk) (u := s.taking m rest) ?_
    rw [readParam, hp]
    simp only [paramOfId]
    rfl
  case readCue =>
    have hi : (byteOf i).toNat = i := toNat_byteOf (by omega)
    refine exec_good hs ho (exec_readCue s) (isKind_of_kind hk) (u := s.taking m rest) ?_
    rw [readCue, hp]
    simp [hi, State.taking, Nat.lt_succ_iff.mp i.isLt, getD_of_lt]
  case readKey =>
    have hi : (byteOf i).toNat = i := toNat_byteOf (by omega)
    refine exec_good hs ho (exec_readKey s) (isKind_of_kind hk) (u := s.taking m rest) ?_
    rw [readKey, hp]
    simp [hi, State.taking, Nat.lt_succ_iff.mp i.isLt, getD_of_lt]
  case unknown => exact exec_answers hs ho (exec_unknownCommand s) hk rfl
  case enumAlone =>
    have hd : (State.isMaster (s.taking m rest) && decide (m.dest = 0xFF)) = false := by
      rw [decide_eq_false (dest_of_needsReply hn), Bool.and_false]
    refine exec_answers hs ho (exec_enumerate s) (isKind_of_kind hk) (a := .refusal .range) (u := s.taking m rest) ?_
    rw [enumerateCommand, hd]
    rfl
  case enumAll =>
    have hwork : enumerateCommand m (s.taking m rest) = (.refusal .range,
        if s.link.role = .master ∧ s.tape.enumWait ≠ none then
          { s.taking m rest with tape := { s.tape with enumWait := none, enumAttempts := 0 } }
        else s.taking m rest) := by
      rw [enumerateCommand, hd]
      simp only [decide_true, Bool.and_true, enumReturned_eq]
      rfl
    rw [exec_answers hs ho (exec_enumerate s) (isKind_of_kind hk) hwork, replies_of_not_needsReply (needsReply_of_all hd)]
    split <;> rfl
  case status =>
    rw [exec_good hs ho (exec_status s) (isKind_of_kind hk) (by rw [status, if_neg (by simp [hp])]),
      State.statusRecord, master_ite]
    simp only [State.attentionBit, decide_eq_true_eq]
    rfl
  case readEvents =>
    refine exec_good hs ho (exec_readEvents s) (isKind_of_kind hk) (u := s.taking m rest) ?_
    rw [readEvents, if_neg (by simp [hp])]
    rfl

/-! ## Management (R43 to R46) -/

@[simp] theorem length_bytesOf (k n : Nat) : (bytesOf k n).length = k := by simp [bytesOf]

/-- Settles O13. -/
theorem managementCommandsTakeEffect : Obligations.ManagementCommandsTakeEffect := by
  refine fun s m rest hs ho => ⟨fun g hk hp hsave => ?groups, fun w hk hp => ?clear, fun a b hk hp => ?masks⟩
  case groups =>
    refine exec_good hs ho (exec_setGroups s) (isKind_of_kind hk)
      (u := { s.taking m rest with link := { s.link with groups := g } }) ?_
    have hsave' : (s.taking m rest).saving .settings = false := hsave
    rw [setGroups, hp]
    simp only [hsave', Bool.false_eq_true, if_false]
    rfl
  case clear =>
    refine exec_good hs ho (exec_clearEvents s) (isKind_of_kind hk) (u := (s.taking m rest).clearEvents w) ?_
    rw [clearEventsCommand, if_neg (by simp [hp]), hp, natOf_bytesOf_four]
    rfl
  case masks =>
    refine exec_good hs ho (exec_setMasks s) (isKind_of_kind hk) (u := (s.taking m rest).setMasks a b) ?_
    have h1 : (bytesOf 4 a.toNat ++ bytesOf 4 b.toNat).take 4 = bytesOf 4 a.toNat := List.take_left' (length_bytesOf _ _)
    have h2 : (bytesOf 4 a.toNat ++ bytesOf 4 b.toNat).drop 4 = bytesOf 4 b.toNat := List.drop_left' (length_bytesOf _ _)
    rw [setMasksCommand, if_neg (by simp [hp]), hp, h1, h2, natOf_bytesOf_four, natOf_bytesOf_four]
    rfl

end Sys2Proof.Proofs.Handler
end

