-- ==== Sys2Proof/Proofs/Refusals.lean ====
section
/-!
Refused commands (spec/03, R37): each work of the command table either answers OK or leaves the state as it was and
carries no data.
-/

namespace Sys2Proof.Proofs.Refusals

open Sys2Proof Sys2Proof.Machine Sys2Proof.Proofs.Handler

-- One declaration after another, so that the checks of many short proofs do not wait for each other in threads.
set_option Elab.async false

/-- What a work makes of a state, when it refuses: nothing, and no data. -/
def Clean (s : State) (r : Answer × State) : Prop := r.1.status ≠ .ok → r.2 = s ∧ r.1.data = []

/-- A work that refuses cleanly a message that needs a reply. -/
def RefusesCleanly (work : Message → State → Answer × State) : Prop := ∀ m s, m.needsReply = true → Clean s (work m s)

theorem Clean.good {s t : State} (data : List Byte) : Clean s (.good data, t) := fun h => absurd rfl h

theorem Clean.refusal (s : State) (r : ReplyStatus) : Clean s (.refusal r, s) := fun _ => ⟨rfl, rfl⟩

theorem Clean.ite {s : State} {c : Prop} [Decidable c] {x y : Answer × State} (h : c → Clean s x) (k : ¬ c → Clean s y) :
    Clean s (if c then x else y) := by
  split
  · exact h ‹_›
  · exact k ‹_›

/-- A refusal under a condition, otherwise OK. -/
theorem Clean.guard {s t : State} {c : Prop} [Decidable c] (r : ReplyStatus) (data : List Byte) :
    Clean s (if c then (.refusal r, s) else (.good data, t)) := .ite (fun _ => .refusal s r) fun _ => .good data

/-- OK under a condition, otherwise a refusal. -/
theorem Clean.check {s t : State} {c : Prop} [Decidable c] (r : ReplyStatus) (data : List Byte) :
    Clean s (if c then (.good data, t) else (.refusal r, s)) := .ite (fun _ => .good data) fun _ => .refusal s r

theorem identify_clean : RefusesCleanly identify := fun _ _ _ => .guard _ _

theorem setGroups_clean : RefusesCleanly setGroups := fun _ s _ => by
  unfold setGroups
  split
  · exact .guard _ _
  · exact .refusal s _

theorem status_clean : RefusesCleanly status := fun _ _ _ => .guard _ _

theorem readEvents_clean : RefusesCleanly readEvents := fun _ _ _ => .guard _ _

theorem clearEventsCommand_clean : RefusesCleanly clearEventsCommand := fun _ _ _ => .guard _ _

theorem setMasksCommand_clean : RefusesCleanly setMasksCommand := fun _ _ _ => .guard _ _

theorem setParamCommand_clean : RefusesCleanly setParamCommand := fun _ s _ => by
  unfold setParamCommand
  split
  · split
    · exact .guard _ _
    · exact .refusal s _
  · exact .refusal s _

theorem readParam_clean : RefusesCleanly readParam := fun _ s _ => by
  unfold readParam
  split
  · split
    · exact .good _
    · exact .refusal s _
  · exact .refusal s _

theorem loadCue_clean : RefusesCleanly loadCue := fun _ s _ => by
  unfold loadCue
  split
  · refine .ite (fun _ => ?_) fun _ => .refusal s _
    split
    · exact .guard _ _
    · exact .refusal s _
  · exact .refusal s _

theorem readCue_clean : RefusesCleanly readCue := fun _ s _ => by
  unfold readCue
  split
  · exact .check _ _
  · exact .refusal s _

theorem loadKey_clean : RefusesCleanly loadKey := fun _ s _ => by
  unfold loadKey
  split
  · refine .ite (fun _ => ?_) fun _ => .refusal s _
    split
    · exact .guard _ _
    · exact .refusal s _
  · exact .refusal s _

theorem readKey_clean : RefusesCleanly readKey := fun _ s _ => by
  unfold readKey
  split
  · exact .check _ _
  · exact .refusal s _

theorem loadSlot_clean : RefusesCleanly loadSlot := fun _ s _ => by
  unfold loadSlot
  split
  · exact .ite (fun _ => .guard _ _) fun _ => .refusal s _
  · exact .refusal s _

theorem readSlot_clean : RefusesCleanly readSlot := fun _ s _ => by
  unfold readSlot
  split
  · exact .ite (fun _ => .good _) fun _ => .ite (fun _ => .good _) fun _ => .refusal s _
  · exact .refusal s _

theorem loadCurve_clean : RefusesCleanly loadCurve := fun _ s _ => by
  unfold loadCurve
  split
  · exact .ite (fun _ => .guard _ _) fun _ => .refusal s _
  · exact .refusal s _

/-- A full queue refuses an ACT; ACTION_DISCARDED is for one that has no reply to give (R39). -/
theorem actCommand_clean : RefusesCleanly actCommand := fun m s hn => by
  unfold actCommand
  split
  · refine .ite (fun _ => .good _) fun _ => ?_
    rw [hn]
    exact .refusal s _
  · exact .refusal s _

theorem stopCommand_clean : RefusesCleanly stopCommand := fun _ _ _ => .guard _ _

theorem clearJam_clean : RefusesCleanly clearJam := fun _ _ _ => .guard _ _

theorem saveCommand_clean : RefusesCleanly saveCommand := fun _ s _ => by
  unfold saveCommand
  split
  · split
    · exact .ite (fun _ => .refusal s _) fun _ => .check _ _
    · exact .refusal s _
  · exact .refusal s _

theorem protectCommand_clean : RefusesCleanly protectCommand := fun _ s _ => by
  unfold protectCommand
  split
  · exact .ite (fun _ => .check _ _) fun _ => .refusal s _
  · exact .refusal s _

theorem storeRead_clean : RefusesCleanly storeRead := fun _ s _ => by
  unfold storeRead
  split
  · exact .check _ _
  · exact .refusal s _

theorem lampReplaced_clean : RefusesCleanly lampReplaced := fun _ s _ => by
  unfold lampReplaced
  split
  · exact .check _ _
  · exact .refusal s _

theorem calibrateCommand_clean : RefusesCleanly calibrateCommand := fun _ s _ =>
  .ite (fun _ => .refusal s _) fun _ => .ite (fun _ => .refusal s _) fun _ => .guard _ _

/-- An ENUMERATE that needs a reply was sent to the unit alone, and is not passed on (R42). -/
theorem enumerateCommand_clean : RefusesCleanly enumerateCommand := fun m s hn => by
  rw [enumerateCommand, decide_eq_false (dest_of_needsReply hn), Bool.and_false]
  exact .refusal s _

theorem relayCommand_clean : RefusesCleanly relayCommand := fun _ _ _ => .good _

theorem unknownCommand_clean : RefusesCleanly unknownCommand := fun _ s _ => .refusal s _

/-- What a look-up of a kind gives refuses cleanly. -/
def LookupClean (o : Option (Message → State → Answer × State)) : Prop := ∀ work, o = some work → RefusesCleanly work

theorem LookupClean.orElse {c : Prop} [Decidable c] {work : Message → State → Answer × State}
    {o : Option (Message → State → Answer × State)} (hw : RefusesCleanly work) (ho : LookupClean o) :
    LookupClean (if c then some work else o) := by
  split
  · intro w hs; cases hs; exact hw
  · exact ho

theorem workOf_clean (k : Byte) : LookupClean (workOf k) := by
  unfold workOf
  refine .orElse enumerateCommand_clean <| .orElse identify_clean <| .orElse setGroups_clean <| .orElse
    status_clean <| .orElse readEvents_clean <| .orElse clearEventsCommand_clean <| .orElse setMasksCommand_clean <|
    .orElse setParamCommand_clean <| .orElse readParam_clean <| .orElse loadCue_clean <| .orElse readCue_clean <|
    .orElse loadKey_clean <| .orElse readKey_clean <| .orElse loadSlot_clean <| .orElse readSlot_clean <| .orElse
    loadCurve_clean <| .orElse actCommand_clean <| .orElse stopCommand_clean <| .orElse clearJam_clean <| .orElse
    saveCommand_clean <| .orElse storeRead_clean <| .orElse protectCommand_clean <| .orElse lampReplaced_clean <|
    .orElse calibrateCommand_clean <| .orElse relayCommand_clean <| fun _ h => ?_
  split at h
  · cases h
  · cases h; exact unknownCommand_clean

/-- Settles O16, by the look-up of the kind. -/
theorem refusedCommandChangesNothing : Obligations.RefusedCommandChangesNothing :=
  fun k work m s hw hn hstatus => workOf_clean k work hw m s hn hstatus

end Sys2Proof.Proofs.Refusals
end

