-- ==== Sys2Proof/Proofs/Records.lean ====
section
/-!
Records and tables (spec/03): action records, cue entries and key entries are read back as they were written, and the
commands that load and read the tables.
-/

namespace Sys2Proof.Proofs.Records

open Sys2Proof Sys2Proof.Machine Sys2Proof.Proofs.Commands Sys2Proof.Proofs.Handler

-- One declaration after another, so that the checks of many short proofs do not wait for each other in threads.
set_option Elab.async false

/-! ## Action records (R50) -/

theorem bytesOf_two (n : Nat) : bytesOf 2 n = [byteOf (n / 256), byteOf n] := by
  simp [bytesOf, byteOf, List.range_succ, Nat.shiftRight_eq_div_pow]

theorem toNat_bytesOf_two {n : Nat} (h : n < 65536) : (byteOf (n / 256)).toNat * 256 + (byteOf n).toNat = n := by
  rw [byteOf, byteOf, BitVec.toNat_ofNat, BitVec.toNat_ofNat]
  omega

theorem clampNat_of_mem {lo hi n : Nat} (h : lo ≤ n ∧ n ≤ hi) : clampNat lo hi n = n := by
  rw [clampNat, Nat.min_eq_right h.2, Nat.max_eq_right h.1]

/-- A record is four bytes, its kind is one of the table, and it names its action. -/
theorem record_of_action {a : Action} (h : a.inRange) :
    ∃ k x y z, recordOf a = [k, x, y, z] ∧ k ≠ 255#8 ∧ actionOf k x y z = some a := by
  cases a with
  | advance n skip =>
    refine ⟨_, _, _, _, rfl, by decide, ?_⟩
    obtain ⟨h1, h2⟩ := h
    cases skip <;> simp [actionOf, toNat_byteOf (show n < 256 by omega), clampNat_of_mem ⟨h1, h2⟩]
  | reverse n skip =>
    refine ⟨_, _, _, _, rfl, by decide, ?_⟩
    obtain ⟨h1, h2⟩ := h
    cases skip <;> simp [actionOf, toNat_byteOf (show n < 256 by omega), clampNat_of_mem ⟨h1, h2⟩]
  | goto p =>
    have hp : p ≤ 99 := h
    exact ⟨_, _, _, _, rfl, by decide, by simp [actionOf, toNat_byteOf (show p < 256 by omega), hp]⟩
  | gotoMark m =>
    obtain ⟨h1, h2⟩ : 1 ≤ m ∧ m ≤ 63 := h
    exact ⟨_, _, _, _, rfl, by decide, by simp [actionOf, toNat_byteOf (show m < 256 by omega), h1, h2]⟩
  | home => exact ⟨_, _, _, _, rfl, by decide, rfl⟩
  | shutter close => exact ⟨_, _, _, _, rfl, by decide, by cases close <;> rfl⟩
  | lamp level =>
    have hl : level ≤ 255 := h
    exact ⟨_, _, _, _, rfl, by decide, by simp [actionOf, toNat_byteOf (show level < 256 by omega)]⟩
  | dissolve target duration loaded =>
    obtain ⟨ht, hd⟩ : target ≤ 255 ∧ duration ≤ 2550 := h
    refine ⟨_, _, _, _, by rw [recordOf, bytesOf_two]; rfl, by decide, ?_⟩
    have hw : duration + (if loaded then 32768 else 0) < 65536 := by split <;> omega
    simp only [actionOf, toNat_bytesOf_two hw, toNat_byteOf (show target < 256 by omega)]
    cases loaded <;> simp <;> omega
  | audio step =>
    have hs : step ≤ 96 := h
    exact ⟨_, _, _, _, rfl, by decide, by simp [actionOf, toNat_byteOf (show step < 256 by omega), hs]⟩
  | mute on => exact ⟨_, _, _, _, rfl, by decide, by cases on <;> rfl⟩
  | tape c => exact ⟨_, _, _, _, rfl, by decide, by cases c <;> rfl⟩
  | mark n => exact ⟨_, _, _, _, rfl, by decide, rfl⟩
  | pause d =>
    have hd : d ≤ 2550 := h
    refine ⟨_, _, _, _, by rw [recordOf, bytesOf_two]; rfl, by decide, ?_⟩
    simp [actionOf, toNat_bytesOf_two (show d < 65536 by omega), hd]

theorem actionOfBytes_recordOf {a : Action} (h : a.inRange) : actionOfBytes (recordOf a) = some a := by
  obtain ⟨k, x, y, z, hr, -, ha⟩ := record_of_action h
  rw [hr]; exact ha

theorem length_recordOf {a : Action} (h : a.inRange) : (recordOf a).length = 4 := by
  obtain ⟨k, x, y, z, hr, -, -⟩ := record_of_action h
  rw [hr]; rfl

theorem actionsOfBytes_records {actions : List Action} (h : ∀ a ∈ actions, a.inRange) :
    actionsOfBytes (actions.flatMap recordOf) = some actions := by
  induction actions with
  | nil => rfl
  | cons a rest ih =>
    obtain ⟨k, x, y, z, hr, -, ha⟩ := record_of_action (h a (by simp))
    rw [List.flatMap_cons, hr]
    simp only [List.cons_append, List.nil_append, actionsOfBytes, ha, ih fun b hb => h b (by simp [hb])]

theorem length_records {actions : List Action} (h : ∀ a ∈ actions, a.inRange) :
    (actions.flatMap recordOf).length = 4 * actions.length := by
  induction actions with
  | nil => rfl
  | cons a rest ih =>
    rw [List.flatMap_cons, List.length_append, length_recordOf (h a (by simp)), ih fun b hb => h b (by simp [hb]),
      List.length_cons]
    omega

/-! ## Cue entries (R52, R201) -/

theorem symbolOfCode_symbolCode (x : Symbol) : symbolOfCode (symbolCode x).toNat = some x := by
  obtain ⟨tone, long⟩ := x
  cases tone <;> cases long <;> rfl

/-- Three codes name the one to three symbols they were made of. -/
theorem symbols_round_trip {w : List Symbol} (h1 : 1 ≤ w.length) (h3 : w.length ≤ 3) :
    ∃ a b c, symbolCodes w = [a, b, c] ∧ symbolsOf a b c = some w := by
  have h0 : symbolOfCode 0 = none := rfl
  match w, h1, h3 with
  | [x], _, _ => exact ⟨_, _, _, rfl, by simp [symbolsOf, symbolOfCode_symbolCode, h0]⟩
  | [x, y], _, _ => exact ⟨_, _, _, rfl, by simp [symbolsOf, symbolOfCode_symbolCode, h0]⟩
  | [x, y, z], _, _ => exact ⟨_, _, _, rfl, by simp [symbolsOf, symbolOfCode_symbolCode]⟩

/-- The flags byte of an entry, from its marks and its group (R52). -/
def flagsByte (enabled once grouped ranged : Bool) (g : Nat) : Byte :=
  byteOf ((if enabled then 0x80 else 0) + (if once then 0x40 else 0) + (if grouped then 0x20 else 0) +
    (if ranged then 0x10 else 0) + g)

theorem flagsByte_bits (enabled once grouped ranged : Bool) {g : Nat} (h : g ≤ 7) :
    (flagsByte enabled once grouped ranged g).getLsbD 7 = enabled ∧
      (flagsByte enabled once grouped ranged g).getLsbD 6 = once ∧
      (flagsByte enabled once grouped ranged g).getLsbD 5 = grouped ∧
      (flagsByte enabled once grouped ranged g).getLsbD 4 = ranged ∧
      (flagsByte enabled once grouped ranged g).toNat % 8 = g := by
  have all : ∀ (e o r k : Bool) (n : Fin 8),
      (flagsByte e o r k n).getLsbD 7 = e ∧ (flagsByte e o r k n).getLsbD 6 = o ∧ (flagsByte e o r k n).getLsbD 5 = r ∧
        (flagsByte e o r k n).getLsbD 4 = k ∧ (flagsByte e o r k n).toNat % 8 = n := by decide
  exact all enabled once grouped ranged ⟨g, by omega⟩

theorem group_round_trip (enabled once ranged : Bool) {group : Option Nat} (h : ∀ g, group = some g → g ≤ 7) :
    (if (flagsByte enabled once group.isSome ranged (group.getD 0)).getLsbD 5 then
      some ((flagsByte enabled once group.isSome ranged (group.getD 0)).toNat % 8) else none) = group := by
  cases group with
  | none =>
    obtain ⟨-, -, h5, -, -⟩ := flagsByte_bits enabled once false ranged (Nat.zero_le 7)
    simp only [Option.isSome_none, Option.getD_none, h5, Bool.false_eq_true, if_false]
  | some g =>
    obtain ⟨-, -, h5, -, hg⟩ := flagsByte_bits enabled once true ranged (h g rfl)
    simp only [Option.isSome_some, Option.getD_some, h5, hg, if_true]

theorem range_round_trip (enabled once grouped : Bool) {g : Nat} (hg : g ≤ 7) {range : Option (Nat × Nat)}
    (h : ∀ r, range = some r → r.1 ≤ r.2 ∧ r.2 ≤ 99) :
    cueRange (flagsByte enabled once grouped range.isSome g) (byteOf (range.getD (0, 0)).1) (byteOf (range.getD (0, 0)).2) =
      some range := by
  unfold cueRange
  rw [(flagsByte_bits enabled once grouped range.isSome hg).2.2.2.1]
  cases range with
  | none => rfl
  | some r =>
    obtain ⟨hlo, hhi⟩ := h r rfl
    simp [toNat_byteOf (show r.1 < 256 by omega), toNat_byteOf (show r.2 < 256 by omega), hlo, hhi]

/-- The form of an entry: six bytes and its records. -/
theorem cueBytes_form {e : CueEntry} (h : e.inRange) :
    ∃ a b c, symbolCodes e.symbols = [a, b, c] ∧ symbolsOf a b c = some e.symbols ∧
      cueBytes e = [flagsByte e.enabled e.once e.group.isSome e.range.isSome (e.group.getD 0), a, b, c,
        byteOf (e.range.getD (0, 0)).1, byteOf (e.range.getD (0, 0)).2] ++ e.actions.flatMap recordOf := by
  obtain ⟨h1, h3, -⟩ := h
  obtain ⟨a, b, c, hc, hs⟩ := symbols_round_trip h1 h3
  exact ⟨a, b, c, hc, hs, by rw [cueBytes, hc]; rfl⟩

theorem group_le {e : CueEntry} (h : e.inRange) : e.group.getD 0 ≤ 7 := by
  obtain ⟨-, -, hg, -⟩ := h
  cases hgr : e.group with
  | none => exact Nat.zero_le _
  | some g => exact hg g hgr

theorem cueOfBytes_cueBytes {e : CueEntry} (h : e.inRange) : cueOfBytes (cueBytes e) = some e := by
  obtain ⟨a, b, c, -, hs, hform⟩ := cueBytes_form h
  have hg7 := group_le h
  obtain ⟨-, -, hg, hr, -, -, ha⟩ := h
  obtain ⟨h7, h6, -⟩ := flagsByte_bits e.enabled e.once e.group.isSome e.range.isSome hg7
  rw [hform]
  simp only [List.cons_append, List.nil_append, cueOfBytes, hs, range_round_trip _ _ _ hg7 hr, actionsOfBytes_records ha,
    group_round_trip _ _ _ hg, h7, h6]

theorem length_cueBytes {e : CueEntry} (h : e.inRange) : (cueBytes e).length = 6 + 4 * e.actions.length := by
  obtain ⟨a, b, c, -, -, hform⟩ := cueBytes_form h
  obtain ⟨-, -, -, -, -, -, ha⟩ := h
  rw [hform, List.length_append, length_records ha]
  rfl

/-- A page of one to four records after six bytes is read up to the first kind byte that is erased (log 21). -/
theorem cuePageBytes_padPage {p0 p1 p2 p3 p4 p5 : Byte} {actions : List Action} (h : ∀ a ∈ actions, a.inRange)
    (h1 : 1 ≤ actions.length) (h4 : actions.length ≤ 4) :
    cuePageBytes (padPage ([p0, p1, p2, p3, p4, p5] ++ actions.flatMap recordOf)) =
      [p0, p1, p2, p3, p4, p5] ++ actions.flatMap recordOf := by
  match actions, h1, h4, h with
  | [a], _, _, h =>
    obtain ⟨k, x, y, z, hr, hk, -⟩ := record_of_action (h a (by simp))
    simp [hr, hk, padPage, cuePageBytes, pageBytes, List.replicate_succ, erasedByte]
  | [a, b], _, _, h =>
    obtain ⟨k, x, y, z, hr, hk, -⟩ := record_of_action (h a (by simp))
    obtain ⟨k', x', y', z', hr', hk', -⟩ := record_of_action (h b (by simp))
    simp [hr, hk, hr', hk', padPage, cuePageBytes, pageBytes, List.replicate_succ, erasedByte]
  | [a, b, c], _, _, h =>
    obtain ⟨k, x, y, z, hr, hk, -⟩ := record_of_action (h a (by simp))
    obtain ⟨k', x', y', z', hr', hk', -⟩ := record_of_action (h b (by simp))
    obtain ⟨k'', x'', y'', z'', hr'', hk'', -⟩ := record_of_action (h c (by simp))
    simp [hr, hk, hr', hk', hr'', hk'', padPage, cuePageBytes, pageBytes, List.replicate_succ, erasedByte]
  | [a, b, c, d], _, _, h =>
    obtain ⟨k, x, y, z, hr, hk, -⟩ := record_of_action (h a (by simp))
    obtain ⟨k', x', y', z', hr', hk', -⟩ := record_of_action (h b (by simp))
    obtain ⟨k'', x'', y'', z'', hr'', hk'', -⟩ := record_of_action (h c (by simp))
    obtain ⟨k₃, x₃, y₃, z₃, hr₃, hk₃, -⟩ := record_of_action (h d (by simp))
    simp [hr, hk, hr', hk', hr'', hk'', hr₃, hk₃, padPage, cuePageBytes, pageBytes, List.replicate_succ, erasedByte]

theorem cuePageBytes_cueBytes {e : CueEntry} (h : e.inRange) : cuePageBytes (padPage (cueBytes e)) = cueBytes e := by
  obtain ⟨a, b, c, -, -, hform⟩ := cueBytes_form h
  obtain ⟨-, -, -, -, h1, h4, ha⟩ := h
  rw [hform]
  exact cuePageBytes_padPage ha h1 h4

/-- Settles O18. -/
theorem recordsRoundTrip : Obligations.RecordsRoundTrip :=
  ⟨fun _ h => ⟨length_recordOf h, actionOfBytes_recordOf h⟩,
    fun _ h => ⟨length_cueBytes h, cueOfBytes_cueBytes h, by rw [cuePageBytes_cueBytes h]; exact cueOfBytes_cueBytes h⟩⟩

/-! ## Key entries (R53) -/

theorem scope_round_trip (enabled repeats duringShow : Bool) (scope : KeyScope) :
    let flags := byteOf ((if enabled then 0x80 else 0) + (if repeats then 0x40 else 0) +
      (if duringShow then 0x20 else 0) + scopeCode scope)
    scopeOfCode (flags.toNat % 4) = some scope ∧ flags.getLsbD 7 = enabled ∧ flags.getLsbD 6 = repeats ∧
      flags.getLsbD 5 = duringShow := by
  cases enabled <;> cases repeats <;> cases duringShow <;> cases scope <;> decide

theorem keyOfBytes_keyBytes {e : KeyEntry} (h : e.action.inRange) : keyOfBytes (keyBytes e) = some e := by
  obtain ⟨k, x, y, z, hr, -, ha⟩ := record_of_action h
  obtain ⟨hs, h7, h6, h5⟩ := scope_round_trip e.enabled e.repeats e.duringShow e.scope
  rw [keyBytes, hr]
  simp only [List.cons_append, List.nil_append, keyOfBytes, hs, ha, h7, h6, h5]

theorem setIfInBounds_of_lt {α : Type} {n : Nat} (v : Vector α n) {i : Nat} (h : i < n) (x : α) :
    v.setIfInBounds i x = v.set i x h := by
  ext j hj
  simp [Vector.getElem_set, Vector.getElem_setIfInBounds]

/-- Settles O17: an entry that is read back as it was written replaces the named one. -/
theorem tableLoadsReplaceEntry : Obligations.TableLoadsReplaceEntry := by
  refine fun s m rest hs ho => ⟨fun i e he hk hp hsave => ?cue, fun i e he hk hp hsave => ?key⟩
  case cue =>
    have hi : (byteOf i).toNat = i := toNat_byteOf (by omega)
    refine exec_good hs ho (exec_loadCue s) (isKind_of_kind hk)
      (u := { s.taking m rest with cue := { s.cue with table := s.cue.table.set i e } }) ?_
    have hlen : [10, 14, 18, 22].contains (cueBytes e).length = true := by
      rw [length_cueBytes he]
      obtain ⟨-, -, -, -, h1, h4, -⟩ := he
      simp; omega
    have hle : i.val ≤ 63 := by omega
    have hsave' : (s.taking m rest).saving .cues = false := hsave
    rw [loadCue, hp]
    simp only [hlen, hi, hle, decide_true, Bool.and_self, if_true, cueOfBytes_cueBytes he, hsave', Bool.false_eq_true,
      if_false]
    rw [setIfInBounds_of_lt _ i.isLt]; rfl
  case key =>
    have hi : (byteOf i).toNat = i := toNat_byteOf (by omega)
    refine exec_good hs ho (exec_loadKey s) (isKind_of_kind hk)
      (u := { s.taking m rest with remote := { s.remote with keys := s.remote.keys.set i e } }) ?_
    have hle : i.val ≤ 15 := by omega
    have hsave' : (s.taking m rest).saving .keys = false := hsave
    rw [loadKey, hp]
    simp only [hi, hle, if_true, keyOfBytes_keyBytes he, hsave', Bool.false_eq_true, if_false]
    rw [setIfInBounds_of_lt _ i.isLt]; rfl

end Sys2Proof.Proofs.Records
end

