-- ==== Sys2Proof/Proofs/Tables.lean ====
section
/-!
The slot map and the curve (spec/03 section 3.5): a run of positions or points loaded, the slot map read; and the start
and end of a calibration (spec/10 section 10.3).
-/

namespace Sys2Proof.Proofs.Tables

open Sys2Proof Sys2Proof.Machine Sys2Proof.Proofs.Commands Sys2Proof.Proofs.Handler Sys2Proof.Proofs.Records

-- One declaration after another, so that the checks of many short proofs do not wait for each other in threads.
set_option Elab.async false

theorem getD_setIfInBounds {α : Type} {n : Nat} (v : Vector α n) (i : Nat) (x d : α) {j : Nat} (hj : j < n) :
    (v.setIfInBounds i x).getD j d = if i = j then x else v.getD j d := by
  rw [getD_of_lt _ hj, getD_of_lt _ hj, Vector.getElem_setIfInBounds]

/-! ## The slot map (R54) -/

/-- The entry a load of bytes from a position on leaves at a position. -/
theorem loadSlots_getD (bytes : List Byte) (slots : Vector SlotEntry 100) (p : Nat) {q : Nat} (hq : q < 100) :
    (loadSlots slots p bytes).getD q SlotEntry.blank =
      if p ≤ q ∧ q < p + bytes.length then slotWithByte (slots.getD q SlotEntry.blank) (bytes.getD (q - p) 0)
      else slots.getD q SlotEntry.blank := by
  induction bytes generalizing slots p with
  | nil => simp [loadSlots, show ¬ (p ≤ q ∧ q < p) by omega]
  | cons b rest ih =>
    rw [loadSlots, ih, getD_setIfInBounds _ _ _ _ hq, List.length_cons]
    rcases Nat.lt_trichotomy q p with hlt | rfl | hgt
    · rw [if_neg (by omega), if_neg (by omega), if_neg (by omega)]
    · rw [if_neg (by omega), if_pos rfl, if_pos (by omega), Nat.sub_self]; rfl
    · have hin : (p + 1 ≤ q ∧ q < p + 1 + rest.length) ↔ (p ≤ q ∧ q < p + (rest.length + 1)) := by omega
      have hd : (b :: rest).getD (q - p) 0 = rest.getD (q - (p + 1)) 0 := by
        rw [show q - p = q - (p + 1) + 1 by omega]; rfl
      simp only [hin, hd, if_neg (show ¬ p = q by omega)]

/-- Settles O19. -/
theorem slotMapLoadedAndRead : Obligations.SlotMapLoadedAndRead := by
  refine fun s m rest hs ho => ⟨fun p entries hk hp h1 h8 hlast hbits hsave => ?load, fun q hk hp hq => ?read⟩
  case load =>
    have hi : (byteOf p).toNat = p := toNat_byteOf (by omega)
    have hsave' : (s.taking m rest).saving .slots = false := hsave
    have hall : entries.all (fun b => !b.getLsbD 6) = true := List.all_eq_true.mpr fun b hb => by rw [hbits b hb]; rfl
    refine ⟨_, exec_good hs ho (exec_loadSlot s) (isKind_of_kind hk) (data := [byteOf p, byteOf entries.length])
      (u := { s.taking m rest with tray := { s.tray with slots := loadSlots s.tray.slots p entries } }) ?_, rfl,
      fun q hq => loadSlots_getD entries s.tray.slots p hq⟩
    rw [loadSlot, hp]
    simp only [hi, h1, h8, show p ≤ 99 by omega, hlast, hall, hsave', and_self, if_true, Bool.false_eq_true, if_false]
    rfl
  case read =>
    refine exec_good hs ho (exec_readSlot s) (isKind_of_kind hk)
      (u := { s.taking m rest with tray := { s.tray with
        cursor := min 99 ((if q = 0xFF then s.tray.cursor else q.toNat) +
          min 8 (100 - (if q = 0xFF then s.tray.cursor else q.toNat))) } }) ?_
    rw [readSlot, hp]
    by_cases hff : q = 0xFF
    · simp only [hff, show ¬ (0xFF : Byte).toNat ≤ 99 by decide, if_true, if_false]
      rfl
    · simp only [hff, hq.resolve_right hff, if_true, if_false]
      rfl

/-! ## The curve (R55, R144) -/

/-- The point a load of values from a point on leaves at a point. -/
theorem loadPoints_getD (sent : List Nat) (curve : Vector Nat 33) (p : Nat) {i : Nat} (hi : i < 33) :
    (loadPoints curve p sent).getD i 0 =
      if p ≤ i ∧ i < p + sent.length then curvePoint i (sent.getD (i - p) 0) else curve.getD i 0 := by
  induction sent generalizing curve p with
  | nil => simp [loadPoints, show ¬ (p ≤ i ∧ i < p) by omega]
  | cons x rest ih =>
    rw [loadPoints, ih, getD_setIfInBounds _ _ _ _ hi, List.length_cons]
    rcases Nat.lt_trichotomy i p with hlt | rfl | hgt
    · rw [if_neg (by omega), if_neg (by omega), if_neg (by omega)]
    · rw [if_neg (by omega), if_pos rfl, if_pos (by omega), Nat.sub_self]; rfl
    · have hin : (p + 1 ≤ i ∧ i < p + 1 + rest.length) ↔ (p ≤ i ∧ i < p + (rest.length + 1)) := by omega
      have hd : (x :: rest).getD (i - p) 0 = rest.getD (i - (p + 1)) 0 := by
        rw [show i - p = i - (p + 1) + 1 by omega]; rfl
      simp only [hin, hd, if_neg (show ¬ p = i by omega)]

theorem natOf_pair {n : Nat} (h : n < 65536) : natOf [byteOf (n / 256), byteOf n] = n := by
  simp only [natOf, List.foldl, byteOf, BitVec.toNat_ofNat]
  omega

/-- The values sent as eight points are read back (R55). -/
theorem sentPoints_of_points {points : List Nat} (h8 : points.length = 8) (h : ∀ x ∈ points, x < 65536) :
    sentPoints (points.flatMap fun x => bytesOf 2 x) = points := by
  match points, h8, h with
  | [a, b, c, d, e, f, g, k], _, h =>
    simp only [List.mem_cons, List.not_mem_nil, or_false, forall_eq_or_imp, forall_eq] at h
    obtain ⟨ha, hb, hc, hd, he, hf, hg, hk⟩ := h
    simp [sentPoints, bytesOf_two, List.range_succ, natOf_pair, *]

theorem length_points (points : List Nat) : (points.flatMap fun x => bytesOf 2 x).length = 2 * points.length := by
  simp [List.length_flatMap, Nat.mul_comm]

theorem getElem_eq_getD {n : Nat} (v : Vector Nat n) {i : Nat} (h : i < n) : v[i] = v.getD i 0 :=
  (getD_of_lt v h 0).symm

/-- The marks after a load, in one form (R144). -/
theorem segmentLoaded_complete (l : Lamp) {seg : Nat} (h : seg ≤ 4) :
    (l.segmentLoaded seg).1 = true ↔ seg = 4 ∧ l.complete = false ∧ l.segments = 0xF := by
  unfold Lamp.segmentLoaded
  split
  · have : seg ≠ 4 := by omega
    cases l.complete <;> simp [this]
  · have : seg = 4 := by omega
    cases l.complete
    · by_cases hf : l.segments = 15#4 <;> simp [this, hf]
    · simp

theorem segmentLoaded_segments (l : Lamp) (seg : Nat) :
    (l.segmentLoaded seg).2 =
      if seg < 4 then (if l.complete then 0 else l.segments) ||| ((1 : BitVec 4) <<< seg)
      else if l.complete ∨ l.segments = 0xF then 0 else l.segments := by
  unfold Lamp.segmentLoaded
  split
  · cases l.complete <;> simp
  · cases l.complete
    · by_cases hf : l.segments = 15#4 <;> simp [hf]
    · simp

/-- Segment 4 is point 32 alone: its place in the curve. -/
theorem loadCurve_point {points : List Nat} (h8 : points.length = 8) (curve : Vector Nat 33) {seg : Nat}
    {i : Nat} (hi : i < 33) :
    (loadPoints curve (8 * seg) (if seg = 4 then points.take 1 else points)).getD i 0 =
      if 8 * seg ≤ i ∧ i < 8 * seg + 8 then curvePoint i (points.getD (i - 8 * seg) 0) else curve.getD i 0 := by
  rw [loadPoints_getD _ _ _ hi]
  split
  next h =>
    have hin : (8 * seg ≤ i ∧ i < 8 * seg + (points.take 1).length) ↔ (8 * seg ≤ i ∧ i < 8 * seg + 8) := by
      rw [List.length_take, h8]; omega
    simp only [hin]
    split
    next hr =>
      have : i - 8 * seg = 0 := by omega
      match points, h8 with
      | a :: _, _ => rw [this]; rfl
    · rfl
  · rw [h8]

/-- Settles O20. -/
theorem curveSegmentLoaded : Obligations.CurveSegmentLoaded := by
  intro s m rest seg points hs ho hk h4 h8 hx hp hsave
  have hseg : (byteOf seg).toNat = seg := toNat_byteOf (by omega)
  have hsave' : (s.taking m rest).saving .curve = false := hsave
  let curve := loadPoints s.lamp.curve (8 * seg) (if seg = 4 then points.take 1 else points)
  refine ⟨_, exec_good hs ho (exec_loadCurve s) (isKind_of_kind hk)
    (data := byteOf seg :: (List.range 8).flatMap fun i =>
      bytesOf 2 (if seg = 4 ∧ i ≠ 0 then 0 else curve.getD (8 * seg + i) 0))
    (u := { s.taking m rest with lamp := { s.lamp with
      curve := curve, complete := (s.lamp.segmentLoaded seg).1, segments := (s.lamp.segmentLoaded seg).2 } }) ?_,
    rfl, fun i hi => ?_, segmentLoaded_complete s.lamp h4, segmentLoaded_segments s.lamp seg⟩
  · rw [loadCurve, hp]
    simp only [length_points, h8, hseg, h4, hsave', and_self, if_true, Bool.false_eq_true, if_false,
      sentPoints_of_points h8 hx]
    rfl
  · rw [getElem_eq_getD, getElem_eq_getD]
    exact loadCurve_point h8 s.lamp.curve hi

/-! ## Calibration (R58, R184, R185) -/

/-- A trim is in range and is the nearest one its limits allow, halves away from zero (R184). -/
theorem trimOf_nearest (sum : Nat) :
    -7 ≤ trimOf sum ∧ trimOf sum ≤ 7 ∧
      (-7 < trimOf sum → 2 * (2048 * trimOf sum) ≤ 2 * (524288 - (sum : Int)) + 2048 ∧
        (trimOf sum ≤ 0 → 2 * (2048 * trimOf sum) < 2 * (524288 - (sum : Int)) + 2048)) ∧
      (trimOf sum < 7 → 2 * (524288 - (sum : Int)) ≤ 2 * (2048 * trimOf sum) + 2048 ∧
        (0 ≤ trimOf sum → 2 * (524288 - (sum : Int)) < 2 * (2048 * trimOf sum) + 2048)) := by
  have ht : trimOf sum = max (-7) (min 7 (if 524288 - (sum : Int) < 0 then
    -((((524288 - (sum : Int)).natAbs + 1024) / 2048 : Nat) : Int)
    else ((((524288 - (sum : Int)).natAbs + 1024) / 2048 : Nat) : Int))) := rfl
  split at ht <;> omega

theorem setTrims_eq (s : State) (t : Trims) :
    s.setTrims t = { s with params :=
      ((s.params.set 16 (BitVec.ofInt 32 t.left)).set 17 (BitVec.ofInt 32 t.right)).set 18 (BitVec.ofInt 32 t.cue) } := by
  unfold State.setTrims State.setParam
  simp only [Param.id]
  rw [setIfInBounds_of_lt _ (by decide), setIfInBounds_of_lt _ (by decide), setIfInBounds_of_lt _ (by decide)]

/-- Settles O24. -/
theorem calibrationBeginsAndEnds : Obligations.CalibrationBeginsAndEnds := by
  refine ⟨fun s m rest hs ho hk => ⟨fun hr => ?follower, fun hr hp => ?master⟩, fun s c hpow hc h256 => ?ends⟩
  case follower =>
    refine exec_answers hs ho (exec_calibrate s) (isKind_of_kind hk) (a := .refusal .role) (u := s.taking m rest) ?_
    have hf : (s.taking m rest).isFollower = true := decide_eq_true hr
    rw [calibrateCommand, if_pos hf]
  case master =>
    have hf : ¬ (s.taking m rest).isFollower = true := by
      show ¬ decide (s.link.role = .follower) = true
      rw [hr]; decide
    have hbusy : (s.taking m rest).calibrateBusy = true ↔
        s.tape.transport ≠ .stopped ∨ s.tape.calibration ≠ none ∨ s.saving .settings = true := by
      show (decide (s.tape.transport ≠ .stopped) || s.tape.calibration.isSome || s.saving .settings) = true ↔ _
      simp [Option.isSome_iff_ne_none, or_assoc]
    split
    next hb =>
      refine exec_answers hs ho (exec_calibrate s) (isKind_of_kind hk) (a := .refusal .busy) (u := s.taking m rest) ?_
      rw [calibrateCommand, if_neg hf, if_neg (by simp [hp]), if_pos (hbusy.mpr hb)]
    next hb =>
      refine exec_good hs ho (exec_calibrate s) (isKind_of_kind hk) (u := { s.taking m rest with
        tape := { s.tape with calibration := some { count := 0, sumLeft := 0, sumRight := 0, sumCue := 0 } } }) ?_
      rw [calibrateCommand, if_neg hf, if_neg (by simp [hp]), if_neg (mt hbusy.mp hb)]
      rfl
  case ends =>
    refine ⟨trimOf c.sumLeft, trimOf c.sumRight, trimOf c.sumCue, fun x hx => ?_, ?_⟩
    · simp only [List.mem_cons, List.not_mem_nil, or_false] at hx
      rcases hx with rfl | rfl | rfl <;> exact trimOf_nearest _
    · rw [exec_calibrationComplete s, whenPowered_of_powered hpow, State.calibrationEnds, hc]
      simp only [h256, if_true, setTrims_eq]

end Sys2Proof.Proofs.Tables
end

