-- ==== Sys2Proof/Proofs/Events.lean ====
section
/-!
The event unit (spec/11 section 11.4): what a flag's event leaves, the raw conditions at their places, and the attention
bit and the alarm output.
-/

namespace Sys2Proof.Proofs.Events

open Sys2Proof Sys2Proof.Machine

-- One declaration after another, so that the checks of many short proofs do not wait for each other in threads.
set_option Elab.async false

/-! ## The places of the flags (R45, R198) -/

theorem all_getElem_place (f : Flag) : Flag.all[f.place]? = some f := by cases f <;> rfl

theorem place_injective : Function.Injective Flag.place := fun f g h =>
  Option.some.inj ((all_getElem_place f).symm.trans (h ▸ all_getElem_place g))

theorem mem_all (f : Flag) : f ∈ Flag.all := List.mem_of_getElem? (all_getElem_place f)

theorem place_lt (f : Flag) : f.place < 26 := by cases f <;> decide

theorem weight_getLsbD (f : Flag) {i : Nat} (h : i < 32) : f.weight.getLsbD i = decide (f.place = i) := by
  have hf := place_lt f
  rw [Flag.weight, BitVec.getLsbD_shiftLeft, decide_eq_true h, Bool.true_and]
  rcases Nat.lt_trichotomy i f.place with hlt | heq | hgt
  · rw [decide_eq_true hlt, decide_eq_false (by omega)]; rfl
  · rw [heq, Nat.sub_self, decide_eq_true rfl, decide_eq_false (Nat.lt_irrefl _)]; rfl
  · rw [decide_eq_false (show ¬ f.place = i by omega)]
    have : i - f.place ≠ 0 := by omega
    simp [BitVec.getLsbD_one, this]

theorem foldl_weights_getLsbD (test : Flag → Bool) (l : List Flag) (w : EventSet) {i : Nat} (h : i < 32) :
    (l.foldl (fun w f => if test f then w ||| f.weight else w) w).getLsbD i =
      (w.getLsbD i || l.any fun f => test f && decide (f.place = i)) := by
  induction l generalizing w with
  | nil => simp
  | cons f rest ih =>
    rw [List.foldl_cons, ih, List.any_cons]
    cases test f
    · simp
    · simp [weight_getLsbD f h, Bool.or_assoc]

/-- An event set holds at a flag's place what the test gives for that flag. -/
theorem eventSet_getLsbD_place (test : Flag → Bool) (f : Flag) : (eventSet test).getLsbD f.place = test f := by
  have hf := place_lt f
  rw [eventSet, foldl_weights_getLsbD test _ _ (by omega), Bool.eq_iff_iff]
  simp only [BitVec.ofNat_eq_ofNat, BitVec.getLsbD_zero, Bool.false_or, List.any_eq_true, Bool.and_eq_true,
    decide_eq_true_eq]
  constructor
  · rintro ⟨g, -, hg, hp⟩
    exact place_injective hp ▸ hg
  · exact fun h => ⟨f, mem_all f, h, rfl⟩

theorem eventSet_getLsbD_above (test : Flag → Bool) {i : Nat} (h : 26 ≤ i) : (eventSet test).getLsbD i = false := by
  by_cases hi : i < 32
  · rw [eventSet, foldl_weights_getLsbD test _ _ hi, Bool.eq_false_iff]
    simp only [BitVec.ofNat_eq_ofNat, BitVec.getLsbD_zero, Bool.false_or, ne_eq, List.any_eq_true, Bool.and_eq_true,
      decide_eq_true_eq]
    rintro ⟨g, -, -, hp⟩
    have := place_lt g
    omega
  · exact BitVec.getLsbD_of_ge _ _ (by omega)

/-! ## Latching (R34, R199, R200) -/

theorem latch_of_latched {s : State} {f : Flag} (h : s.latchedFlag f = true) : s.latch f = s := by
  rw [State.latch, if_pos h]

theorem noticePending_iff (s : State) : s.noticePending = false ↔ ∀ m ∈ s.msg.replies, m.kind ≠ 0x81 := by
  simp [State.noticePending]

theorem latch_of_clear {s : State} {f : Flag} (h : s.latchedFlag f = false) :
    s.latch f =
      if s.events.attention.getLsbD f.place = true ∧ s.link.role = .follower ∧
          (∀ m ∈ s.msg.replies, m.kind ≠ 0x81) ∧ s.placesUsed < 4 then
        { s with
          events := { s.events with latched := s.events.latched ||| f.weight }
          msg := { s.msg with replies := s.msg.replies ++ [{ kind := 0x81, dest := 0x00, payload := [] }] } }
      else { s with events := { s.events with latched := s.events.latched ||| f.weight } } := by
  have hask : (s.isFollower && !s.noticePending && s.placeFree) = true ↔
      s.link.role = .follower ∧ (∀ m ∈ s.msg.replies, m.kind ≠ 0x81) ∧ s.placesUsed < 4 := by
    simp only [Bool.and_eq_true, Bool.not_eq_true', noticePending_iff, State.isFollower, State.placeFree,
      decide_eq_true_eq, and_assoc]
    exact Iff.rfl
  rw [State.latch, h, if_neg Bool.false_ne_true]
  by_cases ha : s.events.attention.getLsbD f.place = true
  · simp only [ha, if_true, true_and]
    exact if_congr hask rfl rfl
  · simp only [ha, if_false, false_and, Bool.false_eq_true]

theorem latchedFlag_latch (s : State) (f g : Flag) : (s.latch f).latchedFlag g = (s.latchedFlag g || decide (g = f)) := by
  by_cases h : s.latchedFlag f = true
  · rw [latch_of_latched h]
    by_cases hg : g = f
    · rw [hg, h, Bool.true_or]
    · rw [decide_eq_false hg, Bool.or_false]
  · have hw : (s.latch f).events.latched = s.events.latched ||| f.weight := by
      rw [latch_of_clear (Bool.eq_false_iff.mpr h)]
      split <;> rfl
    have hplace : decide (f.place = g.place) = decide (g = f) :=
      decide_eq_decide.mpr ⟨fun e => place_injective e.symm, fun e => e ▸ rfl⟩
    have hg := place_lt g
    rw [State.latchedFlag, hw, BitVec.getLsbD_or, weight_getLsbD f (by omega), hplace]
    rfl

/-! ## Raw conditions (R198) -/

theorem inLoss_iff (s : State) :
    s.inLoss = true ↔
      s.link.role = .follower ∧ (s.link.state = .lostOriginating ∨ s.link.state = .lostForwarding) := by
  simp [State.inLoss, State.isFollower]

theorem rawStall_iff (m : Monitor) :
    m.rawStall = true ↔
      (∃ rested, m.fan = .stalled rested) ∨ (∃ n, m.fan = .resting n) ∨ (∃ n, m.fan = .starting n) ∧ 0 < m.fanAttempts := by
  unfold Monitor.rawStall
  cases m.fan <;> simp

theorem rawTapeEnd_iff (s : State) :
    (if s.isMaster then decide (s.tape.transport = .atEnd) else s.link.tapeEnd) = true ↔
      s.link.role = .master ∧ s.tape.transport = .atEnd ∨ s.link.role = .follower ∧ s.link.tapeEnd = true := by
  cases h : s.link.role <;> simp [State.isMaster, h]

/-! ## Masks (R200) -/

theorem and_ne_zero_iff (x y : EventSet) : x &&& y ≠ 0 ↔ ∃ i, x.getLsbD i = true ∧ y.getLsbD i = true := by
  rw [ne_eq, BitVec.ofNat_eq_ofNat, BitVec.zero_iff_eq_false]
  simp

/-- Settles O55. -/
theorem flagLatches : Obligations.FlagLatches := by
  refine fun s f => ⟨latch_of_latched, latch_of_clear, latchedFlag_latch s f, ?raw,
    fun i => eventSet_getLsbD_above s.rawFlag, ?attention, ?alarm⟩
  case raw =>
    rw [State.rawSet, eventSet_getLsbD_place]
    cases f with
    | linkLost => exact inLoss_iff s
    | fanStall => exact rawStall_iff s.mon
    | tapeEnd => exact rawTapeEnd_iff s
    | lampSwapped => simp [State.rawFlag, Option.any_eq_true]
    | audioSlip => simp [State.rawFlag, Sound.outsideWindow]
    | storeDone => simp [State.rawFlag, and_assoc]
    | relayLost => simp [State.rawFlag, Option.isSome_iff_ne_none]
    | seqJump | cueUnmatched | cueDropped | trayEmpty | positionError => exact Iff.rfl
    | txGiveup | actionDiscarded | mark => exact iff_of_false Bool.false_ne_true id
    | _ => exact decide_eq_true_iff
  case attention => exact decide_eq_true_iff.trans (and_ne_zero_iff _ _)
  case alarm =>
    rw [State.alarmOutput, Bool.and_eq_true, decide_eq_true_iff, and_ne_zero_iff]

end Sys2Proof.Proofs.Events
end

