-- ==== Sys2Proof/Proofs/Dissolves.lean ====
section
/-!
Dissolves (spec/08 section 8.2): the curve value stays in 0 to 1024 and the computed level between start and target.
-/

namespace Sys2Proof.Proofs.Dissolves

open Sys2Proof Sys2Proof.Machine Sys2Proof.Proofs.Handler

-- One declaration after another, so that the checks of many short proofs do not wait for each other in threads.
set_option Elab.async false

theorem point_le {l : Lamp} (h : ∀ p ∈ l.curve.toList, p ≤ 1024) (loaded : Bool) {i : Nat} (hi : i < 33) :
    l.point loaded i ≤ 1024 := by
  unfold Lamp.point
  split
  · rw [getD_of_lt _ hi]
    exact h _ (by simp)
  · omega

theorem point_last {l : Lamp} (h : l.curve[32] = 1024) (loaded : Bool) : l.point loaded 32 = 1024 := by
  unfold Lamp.point
  split
  · rw [getD_of_lt _ (by decide), h]
  · rfl

/-- A share of a difference, in 32nds and rounded down, lies between 0 and the difference. -/
theorem share_between (d : Int) {frac : Nat} (h : frac ≤ 32) :
    min 0 d ≤ d * frac / 32 ∧ d * frac / 32 ≤ max 0 d := by
  have hf : (frac : Int) ≤ 32 := by omega
  rcases le_total 0 d with hd | hd
  · have h0 : 0 ≤ d * frac := mul_nonneg hd (Int.natCast_nonneg _)
    have h1 : d * frac ≤ d * 32 := mul_le_mul_of_nonneg_left hf hd
    omega
  · have h0 : d * frac ≤ 0 := mul_nonpos_of_nonpos_of_nonneg hd (Int.natCast_nonneg _)
    have h1 : d * 32 ≤ d * frac := mul_le_mul_of_nonpos_left hf hd
    omega

theorem curveValue_eq (l : Lamp) (loaded : Bool) (p : Nat) :
    l.curveValue loaded p =
      if p / 32 = 32 then (l.point loaded 32 : Int)
      else (l.point loaded (p / 32) : Int) +
        (((l.point loaded (p / 32 + 1) : Int) - (l.point loaded (p / 32) : Int)) * ((p - 32 * (p / 32) : Nat) : Int)) / 32 :=
  rfl

theorem curveValue_between {l : Lamp} (h : ∀ p ∈ l.curve.toList, p ≤ 1024) (loaded : Bool) {p : Nat} (hp : p ≤ 1024) :
    0 ≤ l.curveValue loaded p ∧ l.curveValue loaded p ≤ 1024 := by
  rw [curveValue_eq]
  split
  · have := point_le h loaded (show 32 < 33 by decide)
    omega
  next hi =>
    have h0 := point_le h loaded (show p / 32 < 33 by omega)
    have h1 := point_le h loaded (show p / 32 + 1 < 33 by omega)
    have hshare := share_between ((l.point loaded (p / 32 + 1) : Int) - l.point loaded (p / 32))
      (show p - 32 * (p / 32) ≤ 32 by omega)
    omega

theorem curveValue_last {l : Lamp} (h : l.curve[32] = 1024) (loaded : Bool) : l.curveValue loaded 1024 = 1024 := by
  rw [curveValue_eq, if_pos rfl, point_last h]
  rfl

/-- A share of a difference in 1024ths, divided toward zero, lies between 0 and the difference. -/
theorem tdiv_between (d : Int) {cv : Int} (h0 : 0 ≤ cv) (h1 : cv ≤ 1024) :
    min 0 d ≤ (d * cv).tdiv 1024 ∧ (d * cv).tdiv 1024 ≤ max 0 d := by
  rcases le_total 0 d with hd | hd
  · have hlo : 0 ≤ d * cv := mul_nonneg hd h0
    have hhi : d * cv ≤ d * 1024 := mul_le_mul_of_nonneg_left h1 hd
    rw [Int.tdiv_eq_ediv_of_nonneg hlo]
    omega
  · have hlo : d * cv ≤ 0 := mul_nonpos_of_nonpos_of_nonneg hd h0
    have hhi : d * 1024 ≤ d * cv := mul_le_mul_of_nonpos_left h1 hd
    have hneg : (d * cv).tdiv 1024 = -((-(d * cv)) / 1024) := by
      rw [← Int.tdiv_eq_ediv_of_nonneg (by omega), Int.neg_tdiv, neg_neg]
    rw [hneg]
    omega

/-- Settles O40. -/
theorem dissolveStaysBetween : Obligations.DissolveStaysBetween := by
  intro l d hcurve hlast hdur helapsed
  have hp : d.elapsed * 1024 / d.duration ≤ 1024 :=
    Nat.div_le_of_le_mul (by rw [Nat.mul_comm]; exact Nat.mul_le_mul_left _ helapsed |>.trans (by rw [Nat.mul_comm]))
  obtain ⟨h0, h1⟩ := curveValue_between hcurve d.loaded hp
  obtain ⟨hlo, hhi⟩ := tdiv_between ((d.target : Int) - d.start) h0 h1
  refine ⟨?_, ?_, fun he => ?_⟩
  · rw [Lamp.dissolveLevel]; omega
  · rw [Lamp.dissolveLevel]; omega
  · have hend : d.elapsed * 1024 / d.duration = 1024 := by rw [he]; exact Nat.mul_div_cancel_left _ hdur
    rw [Lamp.dissolveLevel, hend, curveValue_last hlast, Int.mul_tdiv_cancel _ (by decide)]
    omega

end Sys2Proof.Proofs.Dissolves
end

