-- ==== Sys2Proof/Proofs/Tape.lean ====
section
/-!
The ring supervision and the end sensor (spec/10 sections 10.2 and 10.5).
-/

namespace Sys2Proof.Proofs.Tape

open Sys2Proof Sys2Proof.Machine Sys2Proof.Proofs.Commands

-- One declaration after another, so that the checks of many short proofs do not wait for each other in threads.
set_option Elab.async false

theorem ringDue_iff (s : State) :
    s.ringDue = true ↔ s.link.role = .master ∧ s.tape.ring ≠ .opened ∧ 32 ≤ s.tape.sinceReturn := by
  simp only [State.ringDue, State.isMaster, Bool.and_eq_true, decide_eq_true_eq, and_assoc]
  exact Iff.rfl

theorem enumWaitOver_of_wait {s : State} {n : Nat} (h : s.tape.enumWait = some n) (hn : 64 ≤ n) :
    s.enumWaitOver = true := by
  simp [State.enumWaitOver, h, hn]

/-- The end sensor becoming active while a master's tape runs toward its end. -/
theorem endSensorReads_at_end {s : State} (hr : s.link.role = .master) (he : s.tape.endSensor = false)
    (ht : s.tape.transport.towardEnd = true) :
    s.endSensorReads true =
      State.latch { s with tape := { s.tape with endSensor := true, transport := .atEnd } } .tapeEnd := by
  have hm : s.isMaster = true := decide_eq_true hr
  rw [State.endSensorReads, he, hm, ht]
  rfl

/-- In a state away from the end only the sensor's level is kept. -/
theorem endSensorReads_elsewhere {s : State} (ht : s.tape.transport.towardEnd = false) :
    s.endSensorReads true = { s with tape := { s.tape with endSensor := true } } := by
  rw [State.endSensorReads, ht, Bool.and_false]
  rfl

/-- Settles O51. -/
theorem ringAndEndSensor : Obligations.RingAndEndSensor := by
  refine ⟨fun s hp => ⟨fun hr ho hn => ?opens, fun n hw hn => ?waits⟩, fun s hs => ⟨fun hr he ht => ?ends, fun ht => ?keeps⟩⟩
  case opens =>
    rw [exec_ringOpenTimeout, whenPowered_of_powered hp, State.ringOpens, if_pos ((ringDue_iff s).mpr ⟨hr, ho, hn⟩)]
    rfl
  case waits =>
    rw [exec_enumerationWaitExpiry, whenPowered_of_powered hp, State.enumExpires, if_pos (enumWaitOver_of_wait hw hn)]
    rfl
  case ends =>
    rw [exec_tapeEndSensor, whenSettled_of_ready hs]
    exact congrArg _ (endSensorReads_at_end hr he (by rcases ht with h | h <;> rw [h] <;> rfl))
  case keeps =>
    rw [exec_tapeEndSensor, whenSettled_of_ready hs]
    exact congrArg _ (endSensorReads_elsewhere (by rcases ht with h | h | h <;> rw [h] <;> rfl))

end Sys2Proof.Proofs.Tape
end

