-- ==== Sys2Proof/Proofs/PowerLoss.lean ====
section
/-!
The failure of the supply (spec/11 section 11.5): the page being written is spoiled, and nothing else of the store.
-/

namespace Sys2Proof.Proofs.PowerLoss

open Sys2Proof Sys2Proof.Machine Sys2Proof.Proofs.Commands

-- One declaration after another, so that the checks of many short proofs do not wait for each other in threads.
set_option Elab.async false

/-- The state whose store a power loss leaves: with the page being written spoiled, or the one before. -/
def spoiledByLoss (s : State) : State :=
  match s.store.job with
  | some ⟨_, _, some op⟩ => s.spoilPage op.page
  | _ => s

theorem storePowerLoss_eq (s : State) :
    storePowerLoss s = { spoiledByLoss s with store := { (spoiledByLoss s).store with
      job := none, pendingLamp0 := false, pendingLamp1 := false } } := rfl

/-- A power loss spoils the page of the operation in progress; without one it leaves the state. -/
theorem spoiledByLoss_cases (s : State) :
    (∃ job op, s.store.job = some job ∧ job.op = some op ∧ spoiledByLoss s = s.spoilPage op.page) ∨
      (∀ job op, s.store.job = some job → job.op ≠ some op) ∧ spoiledByLoss s = s := by
  unfold spoiledByLoss
  split
  next k pages op hj => exact .inl ⟨_, op, hj, rfl, rfl⟩
  next hno => exact .inr ⟨fun job op hj ho => hno job.kind job.pages op (by rw [hj, ← ho]), rfl⟩

theorem spoiledByLoss_wf {s : State} (h : s.store.mem.wf = true) : (spoiledByLoss s).store.mem.wf = true := by
  rcases spoiledByLoss_cases s with ⟨job, op, -, -, he⟩ | ⟨-, he⟩
  · rw [he]; exact State.spoilPage_wf h op.page
  · rw [he]; exact h

theorem spoiledByLoss_read {s : State} (h : s.store.mem.wf = true) {a : Nat}
    (ha : ∀ job op, s.store.job = some job → job.op = some op → a / 32 ≠ op.page) :
    (spoiledByLoss s).store.mem.read a = s.store.mem.read a := by
  rcases spoiledByLoss_cases s with ⟨job, op, hj, ho, he⟩ | ⟨-, he⟩
  · rw [he]; exact State.spoilPage_read h (ha job op hj ho)
  · rw [he]

theorem spoiledByLoss_broken {s : State} {job : Job} {op : PageOp} (hj : s.store.job = some job)
    (ho : job.op = some op) : op.page ∈ (spoiledByLoss s).store.broken := by
  rcases spoiledByLoss_cases s with ⟨job', op', hj', ho', he⟩ | ⟨hno, -⟩
  · obtain rfl : job = job' := Option.some.inj (hj ▸ hj')
    obtain rfl : op = op' := Option.some.inj (ho ▸ ho')
    rw [he]; simp
  · exact absurd ho (hno job op hj)

/-- What the loss of the store's page leaves alone. -/
theorem spoiledByLoss_frame (s : State) :
    (spoiledByLoss s).params = s.params ∧ (spoiledByLoss s).queue = s.queue ∧ (spoiledByLoss s).msg = s.msg ∧
      (spoiledByLoss s).cue = s.cue ∧ (spoiledByLoss s).events = s.events := by
  rcases spoiledByLoss_cases s with ⟨job, op, -, -, he⟩ | ⟨-, he⟩ <;> rw [he] <;> exact ⟨rfl, rfl, rfl, rfl, rfl⟩

/-- Settles O57. -/
theorem powerLossKeepsPages : Obligations.PowerLossKeepsPages := by
  intro s hs hm
  obtain ⟨hparams, hqueue, hmsg, hcue, hevents⟩ := spoiledByLoss_frame s
  refine ⟨s.losePower, (exec_powerLoss s).trans (whenSettled_of_ready hs _), rfl, ?_⟩
  rw [State.losePower, storePowerLoss_eq]
  exact ⟨rfl, rfl, rfl, rfl, rfl, rfl, rfl, rfl, rfl, rfl, rfl, rfl, spoiledByLoss_wf hm,
    fun a ha => spoiledByLoss_read hm ha, fun job op hj ho => spoiledByLoss_broken hj ho,
    hparams, hqueue, hmsg, hcue, hevents⟩

end Sys2Proof.Proofs.PowerLoss
end

