-- ==== Sys2Proof/Proofs/Load.lean ====
section
/-!
What the store loads at a reset (spec/11 section 11.5): each working table from its region's pages where they pass the
region's check, and its defaults otherwise; the lamp records; and the store-error set.
-/

namespace Sys2Proof.Proofs.Load

open Sys2Proof Sys2Proof.Machine Sys2Proof.Proofs.Handler Sys2Proof.Proofs.Records

-- One declaration after another, so that the checks of many short proofs do not wait for each other in threads.
set_option Elab.async false

/-! ## Checks of regions (R207) -/

theorem regionAgrees_iff (s : State) (r : Region) : s.regionAgrees r = true ↔ s.Checks r := by
  unfold State.regionAgrees State.Checks
  simp only [Bool.and_eq_true, Bool.not_eq_true', List.any_eq_false, List.contains_eq_mem, decide_eq_true_eq,
    decide_eq_false_iff_not, not_and_or, not_le, not_lt]
  tauto

theorem regionAgrees_of_checks {s : State} {r : Region} (h : s.Checks r) : s.regionAgrees r = true :=
  (regionAgrees_iff s r).mpr h

theorem not_regionAgrees_of_not_checks {s : State} {r : Region} (h : ¬ s.Checks r) : ¬ s.regionAgrees r = true :=
  mt (regionAgrees_iff s r).mp h

/-- The store-error bits of the regions, as the five checks give them. -/
def errorsOf (settings cues keys slots curve : Bool) : BitVec 7 :=
  let none : BitVec 7 := 0
  let w := if settings then none else none ||| regionError .settings
  let w := if cues then w else w ||| regionError .cues
  let w := if keys then w else w ||| regionError .keys
  let w := if slots then w else w ||| regionError .slots
  if curve then w else w ||| regionError .curve

theorem regionErrors_eq (s : State) :
    s.regionErrors = errorsOf (s.regionAgrees .settings) (s.regionAgrees .cues) (s.regionAgrees .keys)
      (s.regionAgrees .slots) (s.regionAgrees .curve) := rfl

theorem errorsOf_bits : ∀ a b c d e : Bool,
    (errorsOf a b c d e).getLsbD 0 = !a ∧ (errorsOf a b c d e).getLsbD 1 = !b ∧ (errorsOf a b c d e).getLsbD 2 = !c ∧
      (errorsOf a b c d e).getLsbD 3 = !d ∧ (errorsOf a b c d e).getLsbD 4 = !e ∧
        (errorsOf a b c d e).getLsbD 5 = false ∧ (errorsOf a b c d e).getLsbD 6 = false := by decide

/-- A region's bit stands exactly when its check fails. -/
theorem regionErrors_region (s : State) (r : Region) : s.regionErrors.getLsbD (regionCode r) = true ↔ ¬ s.Checks r := by
  rw [← regionAgrees_iff, Bool.not_eq_true, ← Bool.not_eq_true', regionErrors_eq]
  obtain ⟨h0, h1, h2, h3, h4, -⟩ := errorsOf_bits (s.regionAgrees .settings) (s.regionAgrees .cues)
    (s.regionAgrees .keys) (s.regionAgrees .slots) (s.regionAgrees .curve)
  cases r
  · exact Iff.of_eq (congrArg (· = true) h0)
  · exact Iff.of_eq (congrArg (· = true) h1)
  · exact Iff.of_eq (congrArg (· = true) h2)
  · exact Iff.of_eq (congrArg (· = true) h3)
  · exact Iff.of_eq (congrArg (· = true) h4)

/-- The two lamps' bits are not a region's. -/
theorem regionErrors_lamps (s : State) : s.regionErrors.getLsbD 5 = false ∧ s.regionErrors.getLsbD 6 = false := by
  rw [regionErrors_eq]
  exact (errorsOf_bits _ _ _ _ _).2.2.2.2.2

/-- The store-error bits of the lamps, as their two records give them. -/
def lampErrorsOf (lamp0 lamp1 : Bool) : BitVec 7 :=
  let none : BitVec 7 := 0
  let w := if lamp0 then none else none ||| lampError .lamp0
  if lamp1 then w else w ||| lampError .lamp1

theorem lampErrors_eq (s : State) :
    s.lampErrors = lampErrorsOf (s.loadLamp .lamp0).isSome (s.loadLamp .lamp1).isSome := rfl

theorem lampErrorsOf_bits : ∀ a b : Bool, ∀ i : Fin 5,
    (lampErrorsOf a b).getLsbD i = false ∧ (lampErrorsOf a b).getLsbD 5 = !a ∧ (lampErrorsOf a b).getLsbD 6 = !b := by
  decide

theorem regionCode_lt (r : Region) : regionCode r < 5 := by cases r <;> decide

/-- The errors after a power-on: a region's bit by its check. -/
theorem allErrors_region (s : State) (r : Region) :
    (s.regionErrors ||| s.lampErrors).getLsbD (regionCode r) = true ↔ ¬ s.Checks r := by
  obtain ⟨h, -⟩ := lampErrorsOf_bits (s.loadLamp .lamp0).isSome (s.loadLamp .lamp1).isSome ⟨_, regionCode_lt r⟩
  rw [BitVec.getLsbD_or, lampErrors_eq, h, Bool.or_false, regionErrors_region]

theorem allErrors_lamp0 (s : State) : (s.regionErrors ||| s.lampErrors).getLsbD 5 = !(s.loadLamp .lamp0).isSome := by
  rw [BitVec.getLsbD_or, (regionErrors_lamps s).1, lampErrors_eq, (lampErrorsOf_bits _ _ 0).2.1, Bool.false_or]

theorem allErrors_lamp1 (s : State) : (s.regionErrors ||| s.lampErrors).getLsbD 6 = !(s.loadLamp .lamp1).isSome := by
  rw [BitVec.getLsbD_or, (regionErrors_lamps s).2, lampErrors_eq, (lampErrorsOf_bits _ _ 0).2.2, Bool.false_or]

/-! ## The working tables (R48, R49, R88, R115, R144, R197) -/

theorem getElem_ofFn_val {α : Type} {n : Nat} (f : Fin n → α) (i : Fin n) : (Vector.ofFn f)[i] = f i := by simp

theorem loadedParams_of_checks {s : State} (h : s.Checks .settings) (p : Param) :
    s.loadedParams.getD p.id 0 = BitVec.ofNat 32 (natOf (((s.regionStored .settings).drop (4 * p.id)).take 4)) := by
  have hp : p.id < 21 := by cases p <;> decide
  rw [State.loadedParams, if_pos (regionAgrees_of_checks h), getD_of_lt _ hp, Vector.getElem_ofFn]
  rfl

theorem loadedSlots_getD (s : State) (old : Vector SlotEntry 100) {q : Nat} (hq : q < 100) :
    (s.loadedSlots old).getD q SlotEntry.blank =
      slotWithByte (old.getD q SlotEntry.blank)
        ((if s.regionAgrees .slots then s.regionStored .slots else List.replicate 100 0).getD q 0) := by
  rw [State.loadedSlots, getD_of_lt _ hq, Vector.getElem_ofFn]

theorem getD_replicate_self {α : Type} (n q : Nat) (x : α) : (List.replicate n x).getD q x = x := by
  rw [List.getD_eq_getElem?_getD, List.getElem?_replicate]
  split <;> rfl

theorem protectionOf_eq (page : List Byte) :
    protectionOf page =
      if page.getD 1 0 = ~~~ (page.getD 0 0) ∧ (page.getD 0 0).toNat < 32 then page.getD 0 0 else 0 := by
  match page with
  | [] => rfl
  | [a] =>
    by_cases h : (0 : Byte) = ~~~a ∧ a.toNat < 32
    · obtain ⟨h0, hlt⟩ := h
      have hn := congrArg BitVec.toNat h0
      rw [BitVec.toNat_not] at hn
      simp at hn
      omega
    · exact (if_neg h).symm
  | a :: b :: _ => rfl

theorem loadedProtection_eq (s : State) :
    (if s.store.broken.contains 255 then (0 : Byte) else protectionOf (s.store.mem.page 255)) =
      if 255 ∉ s.store.broken ∧ (s.store.mem.page 255).getD 1 0 = ~~~ ((s.store.mem.page 255).getD 0 0) ∧
        ((s.store.mem.page 255).getD 0 0).toNat < 32 then (s.store.mem.page 255).getD 0 0 else 0 := by
  rw [protectionOf_eq]
  by_cases h : 255 ∈ s.store.broken
  · rw [if_pos (by simpa using h), if_neg (by tauto)]
  · rw [if_neg (by simpa using h)]
    exact if_congr (by tauto) rfl rfl

/-- A state that took the loaded tables has what LoadedInto says. -/
theorem loadedInto_of {s t : State} {old : Vector SlotEntry 100} (hparams : t.params = s.loadedParams)
    (hgroups : t.link.groups = s.loadedGroups) (hcues : t.cue.table = s.loadedCues)
    (hkeys : t.remote.keys = s.loadedKeys) (hslots : t.tray.slots = s.loadedSlots old)
    (hcurve : t.lamp.curve = s.loadedCurve.1) (hcomplete : t.lamp.complete = s.loadedCurve.2)
    (hprot : t.store.protection =
      if s.store.broken.contains 255 then 0 else protectionOf (s.store.mem.page 255))
    (herr : ∀ r, t.store.errors.getLsbD (regionCode r) = true ↔ ¬ s.Checks r) : s.LoadedInto t := by
  refine ⟨herr, fun h => ⟨fun p => ?param, ?groups⟩, fun h => ⟨?defaults, ?noGroups⟩, fun i e h he hpage => ?cue,
    fun h i => ?noCue, fun i e h he hbytes => ?key, fun h => ?noKey, fun q hq => ⟨fun h => ?slot, fun h => ?noSlot⟩,
    fun h => ⟨fun i => ?point, ?complete⟩, fun h => ⟨fun i => ?linear, ?linearComplete⟩,
    hprot.trans (loadedProtection_eq s)⟩
  case param => rw [State.param, hparams]; exact loadedParams_of_checks h p
  case groups => rw [hgroups, State.loadedGroups, if_pos (regionAgrees_of_checks h)]; rfl
  case defaults =>
    have hp : t.params = Params.default := by
      rw [hparams, State.loadedParams, if_neg (not_regionAgrees_of_not_checks h)]
    have hf : t.paramNat = fun p => (Params.default.getD p.id 0).toNat := by
      funext p
      rw [State.paramNat, State.param, hp]
    rw [hf]
    rfl
  case noGroups => rw [hgroups, State.loadedGroups, if_neg (not_regionAgrees_of_not_checks h)]
  case cue =>
    rw [hcues, State.loadedCues, if_pos (regionAgrees_of_checks h), getElem_ofFn_val, hpage, cuePageBytes_cueBytes he,
      cueOfBytes_cueBytes he]
    rfl
  case noCue =>
    rw [hcues, State.loadedCues, if_neg (not_regionAgrees_of_not_checks h)]
    simp [CueEntry.default]
  case key =>
    have hread := keyOfBytes_keyBytes he
    rw [hkeys, State.loadedKeys, if_pos (regionAgrees_of_checks h), getElem_ofFn_val]
    exact (congrArg (fun b => (keyOfBytes b).getD KeyEntry.blank) hbytes).trans (by rw [hread]; rfl)
  case noKey => rw [hkeys, State.loadedKeys, if_neg (not_regionAgrees_of_not_checks h)]
  case slot =>
    rw [Tray.slot, hslots, loadedSlots_getD s old hq, if_pos (regionAgrees_of_checks h)]
    exact ⟨rfl, rfl⟩
  case noSlot =>
    rw [Tray.slot, hslots, loadedSlots_getD s old hq, if_neg (not_regionAgrees_of_not_checks h), getD_replicate_self]
    exact ⟨rfl, rfl⟩
  case point =>
    rw [hcurve, State.loadedCurve, if_pos (regionAgrees_of_checks h)]
    exact getElem_ofFn_val _ i
  case complete =>
    rw [hcomplete, State.loadedCurve, if_pos (regionAgrees_of_checks h)]
    exact decide_eq_true_iff
  case linear =>
    rw [hcurve, State.loadedCurve, if_neg (not_regionAgrees_of_not_checks h)]
    exact getElem_ofFn_val _ i
  case linearComplete => rw [hcomplete, State.loadedCurve, if_neg (not_regionAgrees_of_not_checks h)]

/-! ## Lamp records (R201, R207) -/

theorem bytesOf_three (n : Nat) : bytesOf 3 n = [byteOf (n / 65536), byteOf (n / 256), byteOf n] := by
  simp [bytesOf, byteOf, List.range_succ, Nat.shiftRight_eq_div_pow]

theorem natOf_three {n : Nat} (h : n < 0x1000000) : natOf [byteOf (n / 65536), byteOf (n / 256), byteOf n] = n := by
  simp only [natOf, List.foldl, byteOf, BitVec.toNat_ofNat]
  omega

/-- Six bytes of a page, and 0xFF after them, are read as the record whose check agrees. -/
theorem lampOfPage_lampPage {r : LampRecord} (h : r.minutes < 0x1000000) : lampOfPage (lampPage r) = some r := by
  obtain ⟨status, minutes⟩ := r
  have hm := natOf_three h
  have hcheck (c : BitVec 16) : natOf [byteOf (c.toNat / 256), byteOf c.toNat] = c.toNat := by
    rw [← bytesOf_two, natOf_bytesOf_two]
  simp only [lampPage, bytesOf_three, bytesOf_two, padPage, pageBytes, List.cons_append, List.nil_append,
    List.take_succ_cons, lampOfPage, hcheck, if_true, hm]
  cases status <;> rfl

theorem lampOfPage_of_wrong_check {page : List Byte}
    (h : natOf ((page.drop 4).take 2) ≠ (crc16 (page.take 4)).toNat) : lampOfPage page = none := by
  match page, h with
  | [], _ => rfl
  | [_], _ => rfl
  | [_, _], _ => rfl
  | [_, _, _], _ => rfl
  | [_, _, _, _], _ => rfl
  | [_, _, _, _, _], _ => rfl
  | _ :: _ :: _ :: _ :: _ :: _ :: _, h => exact if_neg h

end Sys2Proof.Proofs.Load
end

