-- ==== Sys2Proof/Proofs/PowerOn.lean ====
section
/-!
Power-on reset (spec/11 section 11.5, R207): the values of every block and what the store loads.
-/

namespace Sys2Proof.Proofs.PowerOn

open Sys2Proof Sys2Proof.Machine Sys2Proof.Proofs.Commands Sys2Proof.Proofs.Handler Sys2Proof.Proofs.Load

-- One declaration after another, so that the checks of many short proofs do not wait for each other in threads.
set_option Elab.async false

/-- With no job in flight, the failure of a supply that was not seen to fail leaves the blocks nothing to keep. -/
theorem freshBlocks_of_no_job {s : State} (h : s.powered = false ∨ s.store.job = none) (strap b0 b1 b2 : Bool) :
    (if s.powered then storePowerLoss s else s).freshBlocks strap b0 b1 b2 = s.freshBlocks strap b0 b1 b2 := by
  split
  next hp =>
    have hj : s.store.job = none := h.resolve_left (by simp [hp])
    rw [storePowerLoss, hj]
    rfl
  · rfl

/-- STORE_ERROR latched in a fresh event unit, with no flag that asks for attention. -/
theorem latchIf_storeError_of_fresh {u : State} (h : u.events = Events.powerOn) (c : Bool) :
    u.latchIf c .storeError =
      { u with events :=
          { latched := if c then 0x00800000 else 0, attention := 0, alarm := 0, lastMark := 0 } } := by
  cases c with
  | false =>
    have hu : { u with events := Events.powerOn } = u := by rw [← h]
    exact hu.symm
  | true =>
    have hl : u.latchedFlag .storeError = false := by rw [State.latchedFlag, h]; rfl
    have ha : u.events.attention.getLsbD Flag.storeError.place = false := by rw [h]; rfl
    rw [State.latchIf, if_pos rfl, State.latch, hl, ha, h]
    rfl

/-- A power-on reset: the fresh blocks, and STORE_ERROR where something did not load. -/
theorem powerOn_eq {s : State} (h : s.powered = false ∨ s.store.job = none) (strap b0 b1 b2 : Bool) :
    s.powerOn strap b0 b1 b2 =
      { s.freshBlocks strap b0 b1 b2 with events :=
          { latched := if s.regionErrors ||| s.lampErrors = 0 then 0 else 0x00800000, attention := 0, alarm := 0
            lastMark := 0 } } := by
  rw [State.powerOn, freshBlocks_of_no_job h]
  refine (latchIf_storeError_of_fresh rfl _).trans ?_
  have herr : (s.freshBlocks strap b0 b1 b2).store.errors = s.regionErrors ||| s.lampErrors := rfl
  rw [herr]
  by_cases he : s.regionErrors ||| s.lampErrors = 0
  · rw [if_pos he, if_neg (by simp [he])]
  · rw [if_neg he, if_pos (decide_eq_true he)]

theorem loadedActive_iff {s : State} (h : s.Checks .settings) :
    s.loadedActive = .lamp1 ↔ (s.store.mem.pages 0 4).getD 85 0 = 1 := by
  have hd : s.loadedActive = if (s.store.mem.pages 0 4).getD 85 0 = 1 then .lamp1 else .lamp0 := by
    rw [State.loadedActive, regionAgrees_of_checks h, Bool.true_and]
    exact if_congr decide_eq_true_iff rfl rfl
  rw [hd]
  split <;> simp_all

theorem loadedActive_of_not_checks {s : State} (h : ¬ s.Checks .settings) : s.loadedActive = .lamp0 := by
  rw [State.loadedActive, if_neg (by simp [not_regionAgrees_of_not_checks h])]

/-- The page of a lamp's record. -/
def lampPageOf (n : LampNo) : Nat := if n = .lamp0 then 82 else 83

/-- The bit of a lamp in the store-error set. -/
def lampBit (n : LampNo) : Nat := if n = .lamp0 then 5 else 6

theorem loadLamp_eq (s : State) (n : LampNo) :
    s.loadLamp n = if s.store.broken.contains (lampPageOf n) then none else lampOfPage (s.store.mem.page (lampPageOf n)) := by
  cases n <;> rfl

theorem loadLamp_of_page {s : State} {n : LampNo} {r : LampRecord} (hm : r.minutes < 0x1000000)
    (hb : lampPageOf n ∉ s.store.broken) (hp : s.store.mem.page (lampPageOf n) = lampPage r) : s.loadLamp n = some r := by
  rw [loadLamp_eq, if_neg (by simpa using hb), hp, lampOfPage_lampPage hm]

theorem loadLamp_of_failed {s : State} {n : LampNo}
    (h : lampPageOf n ∈ s.store.broken ∨ natOf (((s.store.mem.page (lampPageOf n)).drop 4).take 2) ≠
      (crc16 ((s.store.mem.page (lampPageOf n)).take 4)).toNat) : s.loadLamp n = none := by
  rw [loadLamp_eq]
  split
  · rfl
  next hb => exact lampOfPage_of_wrong_check (h.resolve_left (by simpa using hb))

theorem record_of_fresh (s : State) (strap b0 b1 b2 : Bool) (n : LampNo) :
    (s.freshBlocks strap b0 b1 b2).lamp.record n = (s.loadLamp n).getD LampRecord.missing := by cases n <;> rfl

theorem errors_lampBit (s : State) (n : LampNo) :
    (s.regionErrors ||| s.lampErrors).getLsbD (lampBit n) = !(s.loadLamp n).isSome := by
  cases n
  · exact allErrors_lamp0 s
  · exact allErrors_lamp1 s

/-- Settles O58. -/
theorem powerOnResetValues : Obligations.PowerOnResetValues := by
  intro s strap b0 b1 b2 h
  refine ⟨_, exec_powerOnReset s strap b0 b1 b2, ?_⟩
  rw [powerOn_eq h]
  have loaded : s.LoadedInto (s.freshBlocks strap b0 b1 b2) :=
    loadedInto_of (old := SlotEntry.blanks) rfl rfl rfl rfl rfl rfl rfl rfl (allErrors_region s)
  refine ⟨rfl, rfl, by cases strap <;> rfl, rfl, rfl, rfl, rfl, rfl, rfl, rfl, rfl, rfl, rfl, rfl, rfl, rfl, rfl, rfl, rfl,
    rfl, rfl, rfl, fun q hq => ?occupancy, rfl, rfl, rfl, rfl, rfl, rfl, rfl, rfl, rfl, loaded,
    fun hc => loadedActive_iff hc, fun hc => loadedActive_of_not_checks hc, fun n => ⟨fun r hm hb hp => ?good, fun hbad => ?bad⟩,
    rfl, rfl, rfl, rfl, rfl, rfl, rfl, rfl, rfl, rfl, rfl, rfl, rfl, rfl, rfl, rfl, rfl, rfl, rfl⟩
  case occupancy =>
    refine (congrArg SlotEntry.occupancy (loadedSlots_getD s SlotEntry.blanks hq)).trans ?_
    have hblank : SlotEntry.blanks.getD q SlotEntry.blank = SlotEntry.blank := by
      rw [getD_of_lt _ hq, SlotEntry.blanks, Vector.getElem_replicate]
    rw [hblank]
    rfl
  case good =>
    have hl := loadLamp_of_page hm hb hp
    exact ⟨(record_of_fresh s strap b0 b1 b2 n).trans (by rw [hl]; rfl), (errors_lampBit s n).trans (by rw [hl]; rfl)⟩
  case bad =>
    have hl := loadLamp_of_failed hbad
    exact ⟨(record_of_fresh s strap b0 b1 b2 n).trans (by rw [hl]; rfl), (errors_lampBit s n).trans (by rw [hl]; rfl)⟩

end Sys2Proof.Proofs.PowerOn
end

