-- ==== Sys2Proof/Proofs/LinkReset.lean ====
section
/-!
RESET and the link reset (spec/03 section 3.2, R47): what the blocks are restarted with (`State.restarted`), the raw
flags latched again (`LatchesOnly`), and what TRAY_SENSE, a waiting swap and the lamp's fall still change (`Stays`).
-/

namespace Sys2Proof.Proofs.LinkReset

open Sys2Proof Sys2Proof.Machine Sys2Proof.Proofs.Commands Sys2Proof.Proofs.Handler Sys2Proof.Proofs.Events
open Sys2Proof.Proofs.Load

-- One declaration after another, so that the checks of many short proofs do not wait for each other in threads.
set_option Elab.async false

/-! ## RESET is held (R47) -/

theorem mayTake_of_oldest {s : State} {m : Message} {rest : List Message} (h : s.Oldest m rest) : s.mayTake m = true := by
  obtain ⟨-, hheld, hplace⟩ := h
  rw [State.mayTake, hheld]
  cases hn : m.needsReply
  · rfl
  · exact decide_eq_true (hplace hn)

theorem serveReset_of_oldest {s : State} {m : Message} {rest : List Message} (h : s.Oldest m rest) (hk : m.kind = 0x08)
    (hp : m.payload = []) :
    s.serveReset = { s with msg := { s.msg with rx := rest, held := m.needsReply, heldReset := some m } } := by
  obtain ⟨hrx, -, -⟩ := id h
  rw [State.serveReset, hrx]
  simp only [isKind_of_kind hk, mayTake_of_oldest h, Bool.and_self, if_true, hp, List.length_nil, ne_eq,
    not_true_eq_false, if_false, takeOldest_eq_taking h]
  rfl

/-! ## The flags of raw conditions latched again (R199) -/

/-- Only flags have latched, and NOTICEs joined the replies. -/
structure LatchesOnly (s t : State) : Prop where
  frame : t = { s with events := { s.events with latched := t.events.latched }, msg := t.msg }
  msg : ∃ out, t.msg = { s.msg with replies := s.msg.replies ++ out }

theorem LatchesOnly.refl (s : State) : LatchesOnly s s := ⟨rfl, [], by rw [List.append_nil]⟩

theorem LatchesOnly.trans {s t u : State} (h : LatchesOnly s t) (k : LatchesOnly t u) : LatchesOnly s u := by
  obtain ⟨hf, out, hm⟩ := h
  obtain ⟨kf, out', km⟩ := k
  refine ⟨by rw [kf, hf], out ++ out', ?_⟩
  rw [km, hm, ← List.append_assoc]

theorem latchesOnly_latch (s : State) (f : Flag) : LatchesOnly s (s.latch f) := by
  refine ⟨?_, ?_⟩
  · have he := s.latch_events f
    rw [State.latch_frame, he]
  · rcases s.latch_msg f with h | ⟨-, -, h⟩
    · exact ⟨[], by rw [h, List.append_nil]⟩
    · exact ⟨_, h⟩

theorem latchesOnly_latchRaw (s : State) : LatchesOnly s s.latchRaw := by
  have folds (flags : List Flag) (t : State) :
      LatchesOnly t (flags.foldl (fun t f => if s.rawFlag f then t.latch f else t) t) := by
    induction flags generalizing t with
    | nil => exact .refl t
    | cons f rest ih =>
      rw [List.foldl_cons]
      refine LatchesOnly.trans ?_ (ih _)
      split
      · exact latchesOnly_latch t f
      · exact .refl t
  exact folds _ s

theorem latchedFlag_latchRaw (s : State) (g : Flag) :
    s.latchRaw.latchedFlag g = (s.latchedFlag g || s.rawFlag g) := by
  have folds (flags : List Flag) (t : State) :
      (flags.foldl (fun t f => if s.rawFlag f then t.latch f else t) t).latchedFlag g =
        (t.latchedFlag g || (s.rawFlag g && decide (g ∈ flags))) := by
    induction flags generalizing t with
    | nil => simp
    | cons f rest ih =>
      rw [List.foldl_cons, ih]
      by_cases hg : g = f
      · subst hg
        cases hr : s.rawFlag g <;> simp [latchedFlag_latch]
      · cases hr : s.rawFlag f <;> simp [latchedFlag_latch, hg]
  rw [State.latchRaw, folds, decide_eq_true (mem_all g), Bool.and_true]

/-! ## Lamp writes and the store-error set (R203, R204) -/

theorem clearLampErrors_region (e : BitVec 7) (a b : Bool) (r : Region) :
    (e &&& ~~~((if a then lampError .lamp0 else 0) ||| (if b then lampError .lamp1 else 0))).getLsbD (regionCode r) =
      e.getLsbD (regionCode r) := by
  have all : ∀ (a b : Bool) (i : Fin 5),
      (~~~((if a then lampError .lamp0 else 0) ||| (if b then lampError .lamp1 else 0))).getLsbD i = true := by decide
  rw [BitVec.getLsbD_and]
  exact (congrArg _ (all a b ⟨_, regionCode_lt r⟩)).trans (Bool.and_true _)

/-- A lamp write leaves the protection set, and the regions in the store-error set. -/
def SameRegions (s t : State) : Prop :=
  t.store.protection = s.store.protection ∧
    ∀ r, t.store.errors.getLsbD (regionCode r) = s.store.errors.getLsbD (regionCode r)

theorem SameRegions.trans {s t u : State} (h : SameRegions s t) (k : SameRegions t u) : SameRegions s u :=
  ⟨k.1.trans h.1, fun r => (k.2 r).trans (h.2 r)⟩

theorem sameRegions_runPages (a b : Bool) (pages : List Nat) (s : State) :
    SameRegions s (runPages (.lampWrite a b) pages s) := by
  induction pages generalizing s with
  | nil => exact ⟨rfl, clearLampErrors_region s.store.errors a b⟩
  | cons p rest ih =>
    unfold runPages
    dsimp only
    split
    · exact ih (s.mendPage p)
    · split <;> exact ⟨rfl, fun _ => rfl⟩

theorem sameRegions_startPending (s : State) : SameRegions s s.startPending := by
  unfold State.startPending
  split
  · exact sameRegions_runPages _ _ _ { s with store := { s.store with pendingLamp0 := false, pendingLamp1 := false } }
  · exact ⟨rfl, fun _ => rfl⟩

theorem sameRegions_requestLampWrite (s : State) (n : LampNo) : SameRegions s (s.requestLampWrite n) := by
  unfold State.requestLampWrite State.startJob
  split
  · exact (sameRegions_runPages _ _ _ s).trans (sameRegions_startPending _)
  · cases n <;> exact ⟨rfl, fun _ => rfl⟩

/-! ## What follows a restart -/

/-- The end of a link reset leaves these as the restart set them: the tray changer where it is UNHOMED or its shutter
closed, the lamp changer, the fan and the store's jobs left open. -/
structure Stays (s t : State) : Prop where
  link : t.link = s.link := by rfl
  msg : t.msg = s.msg := by rfl
  det : t.det = s.det := by rfl
  cue : t.cue = s.cue := by rfl
  queue : t.queue = s.queue := by rfl
  sound : t.sound = s.sound := by rfl
  tape : t.tape = s.tape := by rfl
  remote : t.remote = s.remote := by rfl
  events : t.events = s.events := by rfl
  params : t.params = s.params := by rfl
  mem : t.store.mem = s.store.mem := by rfl
  regions : SameRegions s t := by exact ⟨rfl, fun _ => rfl⟩
  lamp : t.lamp =
    { s.lamp with changer := t.lamp.changer, failCount := t.lamp.failCount, held := t.lamp.held } := by rfl
  slots : t.tray.slots = s.tray.slots := by rfl
  cursor : t.tray.cursor = s.tray.cursor := by rfl
  unhomed : s.tray.state = .unhomed → t.tray.state = .unhomed := by exact fun h => h
  invalid : s.tray.valid = false → t.tray.valid = false := by exact fun h => h
  shut : s.tray.shutterOpen = false → t.tray.shutterOpen = false := by exact fun h => h

theorem Stays.refl (s : State) : Stays s s := {}

theorem Stays.trans {s t u : State} (h : Stays s t) (k : Stays t u) : Stays s u where
  link := k.link.trans h.link
  msg := k.msg.trans h.msg
  det := k.det.trans h.det
  cue := k.cue.trans h.cue
  queue := k.queue.trans h.queue
  sound := k.sound.trans h.sound
  tape := k.tape.trans h.tape
  remote := k.remote.trans h.remote
  events := k.events.trans h.events
  params := k.params.trans h.params
  mem := k.mem.trans h.mem
  regions := h.regions.trans k.regions
  lamp := by rw [k.lamp, h.lamp]
  slots := k.slots.trans h.slots
  cursor := k.cursor.trans h.cursor
  unhomed := k.unhomed ∘ h.unhomed
  invalid := k.invalid ∘ h.invalid
  shut := k.shut ∘ h.shut

theorem Stays.applied {s t : State} (h : Stays s t) : t.lamp.applied = s.lamp.applied := by rw [h.lamp]

/-- A fall of what is allowed finds a dark lamp dark. -/
theorem lampFall_of_dark {s : State} (h : s.lamp.applied = 0) (before : Nat) :
    s.lampFall before = { s with lamp := { s.lamp with held := (s.lampFall before).lamp.held } } := by
  have hset : s.setApplied (min s.lamp.applied s.allowed) =
      { s with lamp := { s.lamp with held := decide (0 < s.lamp.computed) } } := by
    rw [h, Nat.zero_min, State.setApplied, h, if_neg (by decide), if_pos rfl, ← h]
  unfold State.lampFall
  split
  · rw [hset]
  · rfl

theorem stays_startSwap {s : State} (h : s.lamp.applied = 0) : Stays s s.startSwap := by
  rw [State.startSwap, lampFall_of_dark (s := { s with lamp := { s.lamp with changer := .swapping 0, failCount := 0 } }) h]
  exact { shut := fun _ => rfl }

theorem stays_swapMovesOn {s : State} (h : s.lamp.applied = 0) : Stays s s.swapMovesOn := by
  unfold State.swapMovesOn
  split
  · exact stays_startSwap h
  · exact {}

theorem stays_moveSwap {s : State} (h : s.lamp.applied = 0) : Stays s s.moveSwap := by
  unfold State.moveSwap
  split
  · exact stays_swapMovesOn h
  · exact .refl s

theorem stays_raceSwap {s : State} (h : s.lamp.applied = 0) : Stays s s.raceSwap := by
  unfold State.raceSwap
  split
  · split
    · exact Stays.trans (t := s.draw) {} (stays_swapMovesOn (s := s.draw) h)
    · exact {}
  · exact .refl s

/-- With the queue empty an offer only lets a waiting swap move on. -/
theorem offer_of_empty {s : State} (h : s.queue.entries = []) : s.offer = s.moveSwap := by
  rw [State.offer, h]
  split <;> rfl

theorem stays_trayRests {s : State} (h : s.lamp.applied = 0) (hq : s.queue.entries = []) : Stays s s.trayRests := by
  have hrace := stays_raceSwap h
  rw [State.trayRests, offer_of_empty (by rw [hrace.queue, hq])]
  exact hrace.trans (stays_moveSwap (hrace.applied.trans h))

theorem stays_senseCheck {s : State} (h : s.lamp.applied = 0) (hq : s.queue.entries = []) : Stays s s.senseCheck := by
  unfold State.senseCheck
  split
  · dsimp only
    split
    next hidle =>
      refine Stays.trans ?_ (stays_trayRests h hq)
      exact { unhomed := fun hu => absurd (hidle.symm.trans hu) nofun, invalid := fun _ => rfl }
    · exact { invalid := fun _ => rfl }
  · exact .refl s

theorem stays_reformDemand (s : State) : Stays s s.reformDemand := by
  rw [State.reformDemand_frame]
  exact {}

theorem stays_requestLampWrite (s : State) (n : LampNo) : Stays s (s.requestLampWrite n) := by
  have hmem := s.requestLampWrite_mem n
  have hreg := sameRegions_requestLampWrite s n
  rw [State.requestLampWrite_frame] at hmem hreg ⊢
  exact { mem := hmem, regions := hreg }

theorem stays_resetFall (s : State) : Stays s s.resetFall :=
  Stays.trans (Stays.trans (t := { s with mon := { s.mon with cooldown := Config.cooldownTicks } }) {}
    (stays_reformDemand _)) (stays_requestLampWrite _ _)

/-! ## The link reset -/

/-- The restarted blocks with the reply of RESET, where one is needed. -/
def repliedReset (s : State) (m : Message) : State :=
  if m.needsReply then s.restarted.enqueueReply (replyTo m (.good [])) else s.restarted

/-- The reply joins the restarted message unit, and nothing else changes. -/
theorem repliedReset_eq (s : State) (m : Message) :
    repliedReset s m =
      { s.restarted with msg := { s.msg.afterReset with
          replies := s.msg.afterReset.replies ++ if m.needsReply then [replyTo m (.good [])] else [] } } := by
  unfold repliedReset
  split
  · rfl
  · rw [List.append_nil]; rfl

/-- The state once the flags of raw conditions have latched: the restarted blocks, a latched set and the replies. -/
def relatched (s : State) (m : Message) (latched : EventSet) (out : List OutMsg) : State :=
  { s.restarted with
    events := { s.restarted.events with latched := latched }
    msg := { s.msg.afterReset with
      replies := s.msg.afterReset.replies ++ (if m.needsReply then [replyTo m (.good [])] else []) ++ out } }

theorem latchRaw_repliedReset (s : State) (m : Message) :
    ∃ latched out, (repliedReset s m).latchRaw = relatched s m latched out ∧
      latched.getLsbD Flag.storeError.place = decide (s.regionErrors ≠ 0) := by
  obtain ⟨hframe, out, hmsg⟩ := latchesOnly_latchRaw (repliedReset s m)
  have hraw := latchedFlag_latchRaw (repliedReset s m) .storeError
  refine ⟨(repliedReset s m).latchRaw.events.latched, out, ?_, hraw.trans ?_⟩
  · rw [hmsg] at hframe
    refine hframe.trans ?_
    rw [repliedReset_eq]
    rfl
  · have hclear : (repliedReset s m).latchedFlag .storeError = false := by
      rw [repliedReset_eq]
      exact (by decide : (0 : EventSet).getLsbD 23 = false)
    have hflag : (repliedReset s m).rawFlag .storeError = decide (s.regionErrors ≠ 0) := by rw [repliedReset_eq]; rfl
    rw [hclear, hflag, Bool.false_or]

/-- A link reset: the restarted blocks with the flags latched, and what stays of them. -/
theorem linkReset_relatched (s : State) (m : Message) :
    ∃ latched out, Stays (relatched s m latched out) (s.linkReset m) ∧
      latched.getLsbD Flag.storeError.place = decide (s.regionErrors ≠ 0) := by
  obtain ⟨latched, out, heq, hbit⟩ := latchRaw_repliedReset s m
  refine ⟨latched, out, ?_, hbit⟩
  have sensed : Stays (relatched s m latched out) (relatched s m latched out).senseCheck := stays_senseCheck rfl rfl
  have moved := sensed.trans (stays_moveSwap (sensed.applied.trans rfl))
  rw [← heq] at moved ⊢
  unfold State.linkReset
  dsimp only
  split
  · exact moved.trans (stays_resetFall _)
  · exact moved.trans (stays_reformDemand _)

theorem replies_of_no_attempt {s : State} (h : s.msg.attempt = none) : s.msg.afterReset.replies = [] := by
  have hp : s.msg.headInProgress = false := by rw [MsgUnit.headInProgress, h]; rfl
  rw [MsgUnit.afterReset, hp]; rfl

theorem trayAfterReset_slots (s : State) : s.trayAfterReset.slots = s.loadedSlots s.tray.slots := by
  unfold State.trayAfterReset
  dsimp only
  split <;> rfl

theorem trayAfterReset_cursor (s : State) : s.trayAfterReset.cursor = 0 := by
  unfold State.trayAfterReset
  dsimp only
  split <;> rfl

theorem trayAfterReset_of_busy {s : State} (h : s.tray.state.busy = true) :
    s.trayAfterReset.state = .unhomed ∧ s.trayAfterReset.valid = false ∧ s.trayAfterReset.shutterOpen = false := by
  rw [State.trayAfterReset, if_pos h]
  exact ⟨rfl, rfl, rfl⟩

theorem storeFree_of_idle {s : State} (hj : s.store.job = none) (h0 : s.store.pendingLamp0 = false)
    (h1 : s.store.pendingLamp1 = false) : s.storeFree = true := by
  rw [State.storeFree, State.storeIdle, hj, h0, h1]; rfl

/-- Some region is in the store-error set of a restart exactly when it is not empty. -/
theorem errors_ne_zero_iff (s : State) : s.regionErrors ≠ 0 ↔ ∃ r, ¬ s.Checks r := by
  constructor
  · intro h
    by_contra hall
    have hbits (r : Region) : s.regionAgrees r = true := (regionAgrees_iff s r).mpr (not_not.mp fun hr => hall ⟨r, hr⟩)
    refine h ?_
    rw [regionErrors_eq, hbits, hbits, hbits, hbits, hbits]
    rfl
  · rintro ⟨r, hr⟩ h0
    have := (regionErrors_region s r).mpr hr
    rw [h0] at this
    simp at this

/-- Settles O14. -/
theorem resetHeldThenCarriedOut : Obligations.ResetHeldThenCarriedOut := by
  refine ⟨fun s m rest hs ho hk hp => ?_, fun s m hp hm hj h0 h1 => ?_⟩
  · rw [exec_reset, whenSettled_of_ready hs, serveReset_of_oldest ho hk hp]
  have hcarry : exec .linkReset s = .next (s.linkReset m) := by
    rw [exec_linkReset, whenPowered_of_powered hp, State.carryReset, hm]
    simp only [storeFree_of_idle hj h0 h1, if_true]
  obtain ⟨latched, out, stays, hbit⟩ := linkReset_relatched s m
  have hlamp := stays.lamp
  have herr := fun r => Iff.of_eq (congrArg (· = true) (stays.regions.2 r))
  have loaded : s.LoadedInto (s.linkReset m) :=
    loadedInto_of (old := s.tray.slots) stays.params (congrArg _ stays.link) (congrArg _ stays.cue) (congrArg _ stays.remote)
      (stays.slots.trans (trayAfterReset_slots s)) (by rw [hlamp]; rfl) (by rw [hlamp]; rfl) stays.regions.1
      fun r => (herr r).trans (regionErrors_region s r)
  refine ⟨_, hcarry, stays.link, congrArg MsgUnit.rx stays.msg, by rw [stays.msg]; rfl,
    by rw [stays.msg]; rfl, congrArg MsgUnit.held stays.msg, congrArg MsgUnit.heldReset stays.msg,
    congrArg MsgUnit.wait stays.msg, congrArg MsgUnit.attempts stays.msg, fun ha hn => ?reply, stays.det, stays.cue,
    stays.queue, stays.params, stays.remote, by rw [hlamp]; rfl, by rw [hlamp]; rfl, by rw [hlamp]; rfl,
    by rw [hlamp]; rfl, by rw [hlamp]; rfl, by rw [hlamp]; rfl, by rw [hlamp]; rfl, fun hb => ?busy,
    stays.cursor.trans (trayAfterReset_cursor s), congrArg Sound.fifo stays.sound, congrArg Sound.reader stays.sound,
    by rw [stays.sound]; rfl, by rw [stays.events]; rfl, by rw [stays.events]; rfl,
    congrArg Events.lastMark stays.events, stays.mem, by rw [stays.tape]; rfl, loaded, ?flag⟩
  case reply =>
    rw [stays.msg, relatched, replies_of_no_attempt ha, if_pos hn]
    rfl
  case busy =>
    obtain ⟨hu, hv, hc⟩ := trayAfterReset_of_busy hb
    exact ⟨stays.unhomed hu, stays.invalid hv, stays.shut hc⟩
  case flag =>
    rw [State.latchedFlag, stays.events, ← errors_ne_zero_iff]
    exact (Iff.of_eq (congrArg (· = true) hbit)).trans decide_eq_true_iff

end Sys2Proof.Proofs.LinkReset
end

