-- ==== Sys2Proof/Proofs/Rests.lean ====
section
/-!
The tray changer at rest (spec/06 section 6.3, spec/08 section 8.10): the queue's offer said by the expiry of a PAUSE, and
the waiting swap that moves on before or after it. One lemma for every entry into IDLE, UNHOMED or JAMMED
(`restsInto_trayRests`).
-/

namespace Sys2Proof.Proofs.Rests

open Sys2Proof Sys2Proof.Machine Sys2Proof.Proofs.Commands Sys2Proof.Proofs.GotoShorterWay

-- One declaration after another, so that the checks of many short proofs do not wait for each other in threads.
set_option Elab.async false

/-! ## Offers (R100, R105) -/

/-- The offer at another event is the expiry of a PAUSE before it. -/
theorem exec_pauseExpiry_offering {s : State} (hp : s.powered = true) (hpause : s.queue.pause = none) :
    exec .pauseExpiry s.offering = .next s.offer := by
  rw [exec_pauseExpiry_of_elapsed (s := s.offering) hp rfl (Nat.le_refl 0)]
  have hs : ({ s.offering with queue := { s.offering.queue with pause := none } } : State) = s := by
    rw [State.offering, ← hpause]
  rw [hs]

theorem offer_of_paused {s : State} (h : s.queue.pause ≠ none) : s.offer = s.moveSwap := by
  rw [State.offer, if_pos (Option.isSome_iff_ne_none.mpr h)]

theorem offer_of_no_entries {s : State} (h : s.queue.entries = []) : s.offer = s.moveSwap := by
  rw [State.offer, h]
  split <;> rfl

/-! ## A waiting swap with a dark lamp (R103, R159) -/

theorem allowed_of_failed {s : State} (h : (s.lamp.record s.lamp.active).status = .failed) : s.allowed = 0 := by
  rw [State.allowed, if_pos (by simp [State.lampHeldDark, h])]

/-- Where nothing was allowed and the lamp is dark, nothing falls. -/
theorem lampFall_zero_of_dark {s : State} (h : s.lamp.applied = 0) : s.lampFall 0 = s := by
  rw [State.lampFall, h, if_neg (by omega)]

/-- A swap of a failed lamp that is dark already: the lamp changer's state and the shutter. -/
theorem startSwap_of_failed_dark {s : State} (hf : (s.lamp.record s.lamp.active).status = .failed)
    (h : s.lamp.applied = 0) :
    s.startSwap =
      { s with
        lamp := { s.lamp with changer := .swapping 0, failCount := 0 }
        tray := { s.tray with shutterOpen := false } } := by
  rw [State.startSwap, allowed_of_failed hf,
    lampFall_zero_of_dark (s := { s with lamp := { s.lamp with changer := .swapping 0, failCount := 0 } }) h]
  rfl

/-- The state once a waiting swap has moved on with a dark lamp. -/
def swapMoved (s : State) : State :=
  if (s.lamp.record s.lamp.active).status = .failed then
    { s with
      lamp := { s.lamp with changer := .swapping 0, failCount := 0 }
      tray := { s.tray with shutterOpen := false } }
  else { s with lamp := { s.lamp with changer := .idle } }

theorem swapMovesOn_of_dark {s : State} (h : s.lamp.applied = 0) : s.swapMovesOn = swapMoved s := by
  unfold State.swapMovesOn swapMoved
  split
  next hf => exact startSwap_of_failed_dark hf h
  · rfl

theorem swapMoved_drawn (s : State) (n : Nat) : swapMoved { s with drawn := n } = { swapMoved s with drawn := n } := by
  unfold swapMoved
  dsimp only
  split <;> rfl

theorem swapMoved_queue (s : State) : (swapMoved s).queue = s.queue := by unfold swapMoved; split <;> rfl

theorem swapMoved_powered (s : State) : (swapMoved s).powered = s.powered := by unfold swapMoved; split <;> rfl

theorem swapCanMove_swapMoved (s : State) : (swapMoved s).swapCanMove = false := by
  unfold swapMoved
  split <;> rfl

theorem swapCanMove_of_waiting {s : State} (h : s.lamp.changer = .waitChanger) (hr : s.tray.state.atRest = true) :
    s.swapCanMove = true := by
  rw [State.swapCanMove, h, hr]; rfl

/-- The free value drawn where a swap waits, and the swap moved on before the offer or left for after it. -/
theorem raceSwap_of_waiting {s : State} (h : s.lamp.changer = .waitChanger) (hr : s.tray.state.atRest = true)
    (hd : s.lamp.applied = 0) :
    s.raceSwap = s.draw ∨ s.raceSwap = { swapMoved s with drawn := s.drawn + 1 } := by
  rw [State.raceSwap, if_pos (swapCanMove_of_waiting h hr)]
  split
  · exact .inr ((swapMovesOn_of_dark (s := s.draw) hd).trans (swapMoved_drawn s _))
  · exact .inl rfl

/-- With no action offered a waiting swap moves on. -/
theorem moveSwap_raceSwap_of_waiting {s : State} (h : s.lamp.changer = .waitChanger) (hr : s.tray.state.atRest = true)
    (hd : s.lamp.applied = 0) : s.raceSwap.moveSwap = { swapMoved s with drawn := s.drawn + 1 } := by
  rcases raceSwap_of_waiting h hr hd with hrace | hrace
  · rw [hrace, State.moveSwap, if_pos (swapCanMove_of_waiting (s := s.draw) h hr)]
    exact (swapMovesOn_of_dark (s := s.draw) hd).trans (swapMoved_drawn s _)
  · rw [hrace]
    exact moveSwap_of_not_swapCanMove (s := { swapMoved s with drawn := s.drawn + 1 }) (swapCanMove_swapMoved s)

/-! ## The changer comes to rest -/

theorem trayRests_of_not_waiting {s : State} (h : s.lamp.changer ≠ .waitChanger) : s.trayRests = s.offer := by
  rw [State.trayRests, raceSwap_of_not_swapCanMove (swapCanMove_of_not_waiting h)]

theorem trayRests_of_nothingWaits {s : State} (h : s.NothingWaits) : s.trayRests = s := by
  obtain ⟨hq, hw⟩ := h
  rw [trayRests_of_not_waiting hw, offer_of_no_entries hq, moveSwap_of_not_swapCanMove (swapCanMove_of_not_waiting hw)]

/-- An entry into rest, as the statements say it. -/
theorem restsInto_trayRests {s : State} (hp : s.powered = true) (hr : s.tray.state.atRest = true) :
    s.RestsInto (.next s.trayRests) := by
  refine ⟨fun hw => ⟨fun hpause => ?paused, fun hpause => ?offered⟩, fun hw hd => ⟨fun hq => ?swapAlone, fun hpause => ?race⟩⟩
  case paused =>
    rw [trayRests_of_not_waiting hw, offer_of_paused hpause, moveSwap_of_not_swapCanMove (swapCanMove_of_not_waiting hw)]
  case offered => rw [trayRests_of_not_waiting hw, exec_pauseExpiry_offering hp hpause]
  case swapAlone =>
    refine ⟨s.drawn + 1, congrArg _ ?_⟩
    have hqueue : s.raceSwap.queue = s.queue := by
      rcases raceSwap_of_waiting hw hr hd with h | h
      · rw [h]; rfl
      · rw [h]; exact swapMoved_queue s
    have hoffer : s.raceSwap.offer = s.raceSwap.moveSwap := by
      rcases hq with hq | hq
      · exact offer_of_no_entries (by rw [hqueue, hq])
      · exact offer_of_paused (by rw [hqueue]; exact hq)
    rw [State.trayRests, hoffer, moveSwap_raceSwap_of_waiting hw hr hd]
    rfl
  case race =>
    rcases raceSwap_of_waiting hw hr hd with h | h
    · refine ⟨s, s.drawn + 1, .inl rfl, ?_⟩
      rw [State.trayRests, h]
      exact (exec_pauseExpiry_offering (s := s.draw) hp hpause).symm
    · refine ⟨swapMoved s, s.drawn + 1, .inr rfl, ?_⟩
      rw [State.trayRests, h]
      exact (exec_pauseExpiry_offering (s := { swapMoved s with drawn := s.drawn + 1 }) ((swapMoved_powered s).trans hp)
        ((congrArg ActionQueue.pause (swapMoved_queue s)).trans hpause)).symm

/-- The two ways the statements speak of an entry into rest, for one outcome. -/
theorem rests_of_outcome {s : State} {o : Host.Outcome State Fault Refusal} (ho : o = .next s.trayRests)
    (hp : s.powered = true) (hr : s.tray.state.atRest = true) : (s.NothingWaits → o = .next s) ∧ s.RestsInto o := by
  subst ho
  exact ⟨fun h => by rw [trayRests_of_nothingWaits h], restsInto_trayRests hp hr⟩

end Sys2Proof.Proofs.Rests
end

