-- ==== Sys2Proof/Proofs/SetParam.lean ====
section
/-!
SET_PARAM (spec/03 section 3.3): the clamped value, and what the blocks do at once with it.
-/

namespace Sys2Proof.Proofs.SetParam

open Sys2Proof Sys2Proof.Machine Sys2Proof.Proofs.Commands Sys2Proof.Proofs.Handler Sys2Proof.Proofs.Rests

-- One declaration after another, so that the checks of many short proofs do not wait for each other in threads.
set_option Elab.async false

/-! ## The clamped value (R48) -/

theorem clamp_eq {p : Param} (h : p ≠ .muteMask) (w : BitVec 32) :
    p.clamp w =
      BitVec.ofInt 32 (clampInt p.range.1 p.range.2 (if p.signed then w.toInt else (w.toNat : Int))) := by
  cases p
  case muteMask => exact absurd rfl h
  all_goals rfl

theorem range_of_signed {p : Param} (h : p.signed = true) : -15 ≤ p.range.1 ∧ p.range.1 ≤ p.range.2 ∧ p.range.2 ≤ 15 := by
  revert h; cases p <;> decide

theorem range_of_unsigned {p : Param} (h : p.signed = false) :
    0 ≤ p.range.1 ∧ p.range.1 ≤ p.range.2 ∧ p.range.2 ≤ 4294967295 := by
  revert h; cases p <;> decide

theorem clampInt_bounds {lo hi x : Int} (h : lo ≤ hi) : lo ≤ clampInt lo hi x ∧ clampInt lo hi x ≤ hi := by
  unfold clampInt; omega

theorem toInt_ofInt_of_small {x : Int} (h : -15 ≤ x ∧ x ≤ 15) : (BitVec.ofInt 32 x).toInt = x := by
  rw [BitVec.toInt_ofInt, Int.bmod_eq_of_le (by omega) (by omega)]

theorem toNat_ofInt_of_word {x : Int} (h : 0 ≤ x ∧ x ≤ 4294967295) : ((BitVec.ofInt 32 x).toNat : Int) = x := by
  rw [BitVec.toNat_ofInt]
  omega

/-- The value set, as the parameter reads it, is the sent one clamped to the range. -/
theorem clamp_value {p : Param} (h : p ≠ .muteMask) (w : BitVec 32) :
    (if p.signed then (p.clamp w).toInt else ((p.clamp w).toNat : Int)) =
      clampInt p.range.1 p.range.2 (if p.signed then w.toInt else (w.toNat : Int)) := by
  rw [clamp_eq h]
  cases hs : p.signed
  · obtain ⟨h0, hle, h1⟩ := range_of_unsigned hs
    have := clampInt_bounds (x := if false then w.toInt else (w.toNat : Int)) hle
    exact toNat_ofInt_of_word (by omega)
  · obtain ⟨h0, hle, h1⟩ := range_of_signed hs
    have := clampInt_bounds (x := if true then w.toInt else (w.toNat : Int)) hle
    exact toInt_ofInt_of_small (by omega)

theorem range_le (p : Param) : p.range.1 ≤ p.range.2 := by cases p <;> decide

/-! ## The command -/

theorem setParamCommand_eq {m : Message} {s : State} {p : Param} {w : BitVec 32}
    (hp : m.payload = byteOf p.id :: bytesOf 4 w.toNat) (hs : s.saving .settings = false) :
    setParamCommand m s =
      (.good (byteOf p.id :: bytesOf 4 (p.clamp w).toNat), (s.setParam p (p.clamp w)).afterParam p) := by
  obtain ⟨a, b, c, d, hb⟩ : ∃ a b c d, bytesOf 4 w.toNat = [a, b, c, d] := ⟨_, _, _, _, rfl⟩
  have hw := natOf_bytesOf_four w
  rw [hb] at hp hw
  rw [setParamCommand, hp]
  simp only [paramOfId, hs, Bool.false_eq_true, if_false, hw]

theorem id_lt (p : Param) : p.id < 21 := by cases p <;> decide

theorem param_setParam (s : State) (p : Param) (w : BitVec 32) : (s.setParam p w).param p = w := by
  rw [State.param, State.setParam, getD_of_lt _ (id_lt p), Vector.getElem_setIfInBounds, if_pos rfl]

theorem paramNat_setParam (s : State) (p : Param) (w : BitVec 32) : (s.setParam p w).paramNat p = w.toNat := by
  rw [State.paramNat, param_setParam]

theorem traySense_setParam (s : State) (w : BitVec 32) :
    (s.setParam .traySense w).traySense = if w = 0 then .normal else .reversed := by
  rw [State.traySense, paramNat_setParam]
  exact if_congr ⟨fun h => BitVec.eq_of_toNat_eq h, fun h => by rw [h]; rfl⟩ rfl rfl

/-- The tray of an IDLE changer whose position has become invalid. -/
def unhomedTray (t : Tray) : Tray :=
  { t with
    valid := false, state := .unhomed, timer := 0, motion := none, seekCount := 0, current := none, carried := none
    cut := false, motor := none }

/-- TRAY_SENSE against the sense in use (R112). -/
theorem senseCheck_eq (s : State) :
    s.senseCheck =
      if s.tray.valid = true ∧ s.tray.sense ≠ some s.traySense then
        (if s.tray.state = .idle then ({ s with tray := unhomedTray s.tray } : State).trayRests
         else { s with tray := { s.tray with valid := false } })
      else s := by
  unfold State.senseCheck
  refine if_congr ?_ rfl rfl
  simp [State.senseAgrees]

/-- A set AUDIO_DELAY (R177): the delay change is flushed at once while the gain is at OFF, otherwise it waits. -/
theorem changeDelay_eq (s : State) (d : Nat) :
    s.changeDelay d =
      { s with sound :=
          if s.sound.step = 97 then
            { s.sound with
              fifo := [], delay := d, pendingDelay := none, lastRead := (0, 0), holdoff := 0, reader := .filling
              reasons := { s.sound.reasons with delayChange := false, underflow := false, fill := true } }
          else
            { s.sound with pendingDelay := some d, reasons := { s.sound.reasons with delayChange := true } } } := by
  unfold State.changeDelay State.flushIfOff
  by_cases h : s.sound.step = 97
  · rw [if_pos h]; exact if_pos h
  · rw [if_neg h]; exact if_neg h

/-- A set TRAY_SENSE with nothing waiting for a changer that becomes UNHOMED. -/
theorem afterParam_traySense {s : State} (w : BitVec 32) (hw : s.tray.state = .idle → s.NothingWaits) :
    (s.setParam .traySense w).afterParam .traySense =
      { s.setParam .traySense w with tray :=
          if s.tray.valid = true ∧ s.tray.sense ≠ some (if w = 0 then .normal else .reversed) then
            (if s.tray.state = .idle then unhomedTray s.tray else { s.tray with valid := false })
          else s.tray } := by
  have hcheck := senseCheck_eq (s.setParam .traySense w)
  rw [traySense_setParam] at hcheck
  refine hcheck.trans ?_
  by_cases hd : s.tray.valid = true ∧ s.tray.sense ≠ some (if w = 0 then .normal else .reversed)
  · rw [if_pos hd]
    refine (if_pos hd).trans ?_
    by_cases hi : s.tray.state = .idle
    · rw [if_pos hi]
      refine (if_pos hi).trans ?_
      exact trayRests_of_nothingWaits (s := { s.setParam .traySense w with tray := unhomedTray s.tray }) (hw hi)
    · rw [if_neg hi]
      exact if_neg hi
  · rw [if_neg hd]
    exact if_neg hd

/-- Settles O15. -/
theorem setParamClamps : Obligations.SetParamClamps := by
  refine ⟨fun s m rest p w hs ho hk hp hsave hwaits => ?set, fun s m rest w hs ho hk hp hsave hidle hv hd => ?unhomes,
    fun p w h => ?clamps⟩
  case set =>
    have hrest : (s.taking m rest).saving .settings = false := hsave
    rw [exec_good hs ho (exec_setParam s) (isKind_of_kind hk) (setParamCommand_eq hp hrest)]
    cases p
    case traySense =>
      rw [afterParam_traySense (s := s.taking m rest) _ (hwaits rfl)]
      simp only [true_and]
      rfl
    case audioDelay =>
      rw [State.afterParam, changeDelay_eq, paramNat_setParam]
      rfl
    case audioLevel =>
      rw [State.afterParam, State.setShowLevel, paramNat_setParam]
      rfl
    all_goals rfl
  case unhomes =>
    have hrest : (s.taking m rest).saving .settings = false := hsave
    refine ⟨_, ?_, exec_good hs ho (exec_setParam s) (isKind_of_kind hk) (setParamCommand_eq hp hrest)⟩
    have hcheck := senseCheck_eq ((s.taking m rest).setParam .traySense (Param.traySense.clamp w))
    rw [traySense_setParam] at hcheck
    rw [State.afterParam, hcheck.trans ((if_pos ⟨hv, hd⟩).trans (if_pos hidle))]
    exact restsInto_trayRests hs.1 rfl
  case clamps =>
    have hset := clamp_value h w
    have hle := range_le p
    dsimp only
    rw [hset]
    unfold clampInt
    omega

end Sys2Proof.Proofs.SetParam
end

