-- ==== Sys2Proof/Proofs/Offers.lean ====
section
/-!
The offer of the queue's head (spec/06 section 6.3): a lone head at the expiry of a PAUSE, handed to its owner or taken
by the changer (`exec_pauseExpiry_of_lone`, `exec_pauseExpiry_of_lone_changer_head`).
-/

namespace Sys2Proof.Proofs.Offers

open Sys2Proof Sys2Proof.Machine Sys2Proof.Proofs.Commands Sys2Proof.Proofs.GotoShorterWay Sys2Proof.Proofs.Rests
open Sys2Proof.Proofs.Events

-- One declaration after another, so that the checks of many short proofs do not wait for each other in threads.
set_option Elab.async false

/-! ## Actions and their owners (R96, R104) -/

/-- The changer kinds but HOME and SHUTTER choose a target. -/
theorem trayTake_of_idle {s : State} {a : Action} (hidle : s.tray.state = .idle) (hhome : a ≠ .home)
    (hshutter : ∀ close, a ≠ .shutter close) :
    s.trayTake a =
      match s.tray.choose a with
      | .motion m => s.beginChange a m
      | c => s.reportChoice c := by
  have hu : ¬ s.tray.state = .unhomed := by rw [hidle]; decide
  unfold State.trayTake
  rw [if_neg hu]
  cases a
  case home => exact absurd rfl hhome
  case shutter close => exact absurd rfl (hshutter close)
  all_goals rfl

/-- An action with a choice other than to stay is a motion's: the changer owns it, and it is neither HOME nor SHUTTER. -/
theorem chooser_of_choose {t : Tray} {a : Action} (h : t.choose a ≠ .none) :
    a.forChanger = true ∧ a ≠ .home ∧ ∀ close, a ≠ .shutter close := by
  cases a
  case home | shutter | lamp | dissolve | audio | mute | tape | mark | pause => exact absurd rfl h
  all_goals exact ⟨rfl, nofun, nofun⟩

theorem trayTake_of_motion {s : State} {a : Action} {m : Motion} (hidle : s.tray.state = .idle)
    (h : s.tray.choose a = .motion m) : s.trayTake a = s.beginChange a m := by
  obtain ⟨-, hhome, hshutter⟩ := chooser_of_choose (t := s.tray) (a := a) (by rw [h]; nofun)
  rw [trayTake_of_idle hidle hhome hshutter, h]

theorem trayTake_of_trayEmpty {s : State} {a : Action} (hidle : s.tray.state = .idle)
    (h : s.tray.choose a = .trayEmpty) :
    s.trayTake a = State.latch { s with tray := { s.tray with trayEmpty := true } } .trayEmpty := by
  obtain ⟨-, hhome, hshutter⟩ := chooser_of_choose (t := s.tray) (a := a) (by rw [h]; nofun)
  rw [trayTake_of_idle hidle hhome hshutter, h]
  rfl

theorem trayTake_of_noMark {s : State} {a : Action} (hidle : s.tray.state = .idle)
    (h : s.tray.choose a = .noMark) : s.trayTake a = s.latch .actionDiscarded := by
  obtain ⟨-, hhome, hshutter⟩ := chooser_of_choose (t := s.tray) (a := a) (by rw [h]; nofun)
  rw [trayTake_of_idle hidle hhome hshutter, h]
  rfl

/-- A change begins with the shutter driven closed, its switch still open. -/
theorem beginChange_of_open {s : State} (a : Action) (m : Motion) (h : s.tray.closedSwitch = false) :
    s.beginChange a m =
      { s with tray := { s.tray with
          motion := some m, current := some a, cut := false, trayEmpty := false, state := .changing .shutterClose
          shutterOpen := false, timer := 0 } } :=
  if_neg (by simp [h])

/-- A homing begins in the same way. -/
theorem beginHoming_of_open {s : State} (a : Action) (h : s.tray.closedSwitch = false) :
    s.beginHoming a =
      { s with tray := { s.tray with
          valid := false, sense := some (if s.paramNat .traySense = 0 then .normal else .reversed), seekCount := 0
          current := some a, carried := if s.tray.state = .unhomed then some a else none, motion := none
          cut := false, state := .homing .shutterClose, shutterOpen := false, timer := 0 } } :=
  if_neg (by simp [h])

theorem trayTake_of_homing {s : State} {a : Action} (h : s.tray.state = .unhomed ∨ s.tray.state = .idle ∧ a = .home) :
    s.trayTake a = s.beginHoming a := by
  rcases h with h | ⟨h, rfl⟩
  · exact if_pos h
  · exact if_neg (by rw [h]; decide)

/-! ## A lone head at the expiry of a PAUSE (R100, R105) -/

/-- The state with a lone head taken and the PAUSE before it over. -/
def loneTaken (s : State) : State :=
  { s with queue := { s.queue with pause := none, entries := [], taken := s.queue.taken + 1 } }

/-- A PAUSE has run its ticks, and no swap waits. -/
structure PauseOver (s : State) : Prop where
  powered : s.powered = true
  elapsed : ∃ p : PauseTimer, s.queue.pause = some p ∧ p.duration ≤ p.elapsed
  noSwap : s.lamp.changer ≠ .waitChanger

/-- The state at the end of a PAUSE, whose offer PAUSE_EXPIRY is. -/
def unpaused (s : State) : State := { s with queue := { s.queue with pause := none } }

theorem exec_pauseExpiry_of_over {s : State} (h : PauseOver s) : exec .pauseExpiry s = .next (unpaused s).offer := by
  obtain ⟨hp, ⟨p, hpause, hover⟩, -⟩ := h
  exact exec_pauseExpiry_of_elapsed hp hpause hover

theorem moveSwap_of_noSwap {s : State} (h : s.lamp.changer ≠ .waitChanger) : s.moveSwap = s :=
  moveSwap_of_not_swapCanMove (swapCanMove_of_not_waiting h)

theorem raceSwap_of_noSwap {s : State} (h : s.lamp.changer ≠ .waitChanger) : s.raceSwap = s :=
  raceSwap_of_not_swapCanMove (swapCanMove_of_not_waiting h)

theorem offerEntries_immediate {s : State} {e : QueueEntry} {rest : List QueueEntry}
    (hkind : e.action.forChanger = false) (hpause : ∀ d, e.action ≠ .pause d) :
    offerEntries (e :: rest) s = offerEntries rest ((s.takeHead rest).handImmediate e.action) := by
  rw [offerEntries, hkind, if_neg Bool.false_ne_true]
  split
  next d hd => exact absurd hd (hpause d)
  · rfl

theorem offerEntries_changer {s : State} {e : QueueEntry} {rest : List QueueEntry}
    (hkind : e.action.forChanger = true) (hjam : s.tray.state ≠ .jammed) (hfree : s.changerFree = true) :
    offerEntries (e :: rest) s = offerEntries rest (((s.takeHead rest).trayTake e.action).raceSwap) := by
  rw [offerEntries, if_pos hkind, if_neg hjam, if_pos hfree]

/-- A lone head of an immediate kind is handed to its owner, which starts no motion. -/
theorem exec_pauseExpiry_of_lone {s : State} (h : PauseOver s) {a : Action} {source : ActionSource}
    (hq : s.queue.entries = [{ action := a, source := source }]) (hkind : a.forChanger = false)
    (hpause : ∀ d, a ≠ .pause d) (hlamp : ((loneTaken s).handImmediate a).lamp.changer ≠ .waitChanger) :
    exec .pauseExpiry s = .next ((loneTaken s).handImmediate a) := by
  rw [exec_pauseExpiry_of_over h]
  have hoffer : (unpaused s).offer = (offerEntries s.queue.entries (unpaused s)).moveSwap := rfl
  rw [hoffer, hq, offerEntries_immediate (e := { action := a, source := source }) hkind hpause]
  exact congrArg _ (moveSwap_of_noSwap hlamp)

/-- A lone head of a changer kind is taken by a changer that stands free. -/
theorem exec_pauseExpiry_of_lone_changer_head {s : State} (h : PauseOver s) {a : Action} {source : ActionSource}
    (hq : s.queue.entries = [{ action := a, source := source }]) (hkind : a.forChanger = true)
    (hjam : s.tray.state ≠ .jammed) (hfree : s.changerFree = true)
    (hlamp : ((loneTaken s).trayTake a).lamp.changer ≠ .waitChanger) :
    exec .pauseExpiry s = .next ((loneTaken s).trayTake a) := by
  rw [exec_pauseExpiry_of_over h]
  have hoffer : (unpaused s).offer = (offerEntries s.queue.entries (unpaused s)).moveSwap := rfl
  rw [hoffer, hq, offerEntries_changer (s := unpaused s) (e := { action := a, source := source }) hkind hjam hfree]
  have hrace : ((loneTaken s).trayTake a).raceSwap = (loneTaken s).trayTake a := raceSwap_of_noSwap hlamp
  exact congrArg Host.Outcome.next ((congrArg State.moveSwap hrace).trans (moveSwap_of_noSwap hlamp))

theorem changerFree_of_rest {s : State} (hrest : s.tray.state = .idle ∨ s.tray.state = .unhomed)
    (hswap : s.lamp.changer.isSwapping = false) (hsupply : s.mon.supply ≠ .critical) : s.changerFree = true := by
  rw [State.changerFree, hswap, decide_eq_true hsupply]
  rcases hrest with h | h <;> rw [h] <;> rfl

theorem not_jammed_of_rest {s : State} (hrest : s.tray.state = .idle ∨ s.tray.state = .unhomed) :
    s.tray.state ≠ .jammed := by
  rcases hrest with h | h <;> rw [h] <;> decide

/-! ## Heads that wait or are discarded (R101, R102) -/

theorem changerFree_of_busy {s : State} (h : s.tray.state.busy = true) : s.changerFree = false := by
  cases hst : s.tray.state
  case idle | unhomed | jammed => rw [hst] at h; exact absurd h (by decide)
  all_goals rw [State.changerFree, hst]; rfl

/-- A changer-kind head waits for a changer that stands not free. -/
theorem offerEntries_waits {s : State} {e : QueueEntry} {rest : List QueueEntry} (hkind : e.action.forChanger = true)
    (hjam : s.tray.state ≠ .jammed) (hfree : s.changerFree = false) : offerEntries (e :: rest) s = s := by
  rw [offerEntries, if_pos hkind, if_neg hjam, hfree, if_neg Bool.false_ne_true]

theorem latch_takeHead (s : State) (f : Flag) (rest : List QueueEntry) :
    (s.latch f).takeHead rest = (s.takeHead rest).latch f := by
  unfold State.latch State.askNotice
  split
  · exact (if_pos ‹_›).symm
  · refine Eq.trans ?_ (if_neg ‹_›).symm
    dsimp only
    split
    · refine Eq.trans ?_ (if_pos ‹_›).symm
      split
      · exact (if_pos ‹_›).symm
      · exact (if_neg ‹_›).symm
    · exact (if_neg ‹_›).symm

theorem latch_latch (s : State) (f : Flag) : (s.latch f).latch f = s.latch f :=
  latch_of_latched (by rw [latchedFlag_latch, decide_eq_true rfl, Bool.or_true])

/-- The state with the queue's entries taken, some number of them. -/
def purgedBy (s : State) (n : Nat) : State :=
  { s with queue := { s.queue with entries := [], taken := s.queue.taken + BitVec.ofNat 32 n } }

theorem purgedBy_takeHead (s : State) (rest : List QueueEntry) (n : Nat) :
    purgedBy (s.takeHead rest) n = purgedBy s (n + 1) := by
  have hb : s.queue.taken + 1 + BitVec.ofNat 32 n = s.queue.taken + BitVec.ofNat 32 (n + 1) := by
    rw [BitVec.ofNat_add, BitVec.add_assoc, BitVec.add_comm 1]
    rfl
  simp only [purgedBy, State.takeHead, hb]

/-- In JAMMED every changer-kind entry is discarded (R102). -/
theorem offerEntries_jammed {entries : List QueueEntry} {s : State} (hjam : s.tray.state = .jammed)
    (hne : entries ≠ []) (hkind : ∀ e ∈ entries, e.action.forChanger = true) :
    offerEntries entries s = (purgedBy s entries.length).latch .actionDiscarded := by
  have discards : ∀ (entries : List QueueEntry) (s : State), s.tray.state = .jammed →
      (∀ e ∈ entries, e.action.forChanger = true) → s.queue.entries = entries →
      offerEntries entries (s.latch .actionDiscarded) = (purgedBy s entries.length).latch .actionDiscarded := by
    intro entries
    induction entries with
    | nil =>
      intro s _ _ hq
      have hs : purgedBy s 0 = s := by simp [purgedBy, ← hq]
      rw [List.length_nil, hs]
      rfl
    | cons e rest ih =>
      intro s hjam hkind _
      have hj : (s.latch .actionDiscarded).tray.state = .jammed := by rw [State.latch_frame]; exact hjam
      rw [offerEntries, if_pos (hkind e (by simp)), if_pos hj, latch_takeHead, latch_latch,
        ih (s.takeHead rest) hjam (fun e he => hkind e (by simp [he])) rfl]
      rw [purgedBy_takeHead]; rfl
  obtain ⟨e, rest, rfl⟩ := List.exists_cons_of_ne_nil hne
  rw [offerEntries, if_pos (hkind e (by simp)), if_pos hjam,
    discards rest (s.takeHead rest) hjam (fun e he => hkind e (by simp [he])) rfl]
  rw [purgedBy_takeHead]; rfl

end Sys2Proof.Proofs.Offers
end

