-- ==== Sys2Proof/Proofs/LampFall.lean ====
section
/-!
The applied level at an event where the allowed level may fall (spec/08 sections 8.4 and 8.7): the level, the monitor and
the allowed level after it.
-/

namespace Sys2Proof.Proofs.LampFall

open Sys2Proof Sys2Proof.Machine

-- One declaration after another, so that the checks of many short proofs do not wait for each other in threads.
set_option Elab.async false

/-- The fan where there is demand: from OFF it starts (R152). -/
def startedFan (f : FanState) : FanState := if f = .off then .starting 0 else f

theorem startedFan_isRunning (f : FanState) : (startedFan f).isRunning = f.isRunning := by
  unfold startedFan
  split
  next h => rw [h]; rfl
  · rfl

theorem fanDemand_ne_none {s : State} (h : 0 < s.lamp.applied ∨ 0 < s.mon.cooldown ∨ 180 ≤ s.mon.temperature) :
    s.fanDemand ≠ none := by
  unfold State.fanDemand
  split_ifs <;> nofun

theorem reformDemand_of_demand {s : State} (h : s.fanDemand ≠ none) :
    s.reformDemand = { s with mon := { s.mon with fan := startedFan s.mon.fan } } := by
  unfold State.reformDemand startedFan
  rw [if_neg h]
  split <;> rfl

theorem setApplied_same (s : State) :
    s.setApplied s.lamp.applied = { s with lamp := { s.lamp with held := decide (s.lamp.applied < s.lamp.computed) } } := by
  unfold State.setApplied
  exact (if_neg (by omega)).trans (if_pos rfl)

/-- The level falls to 0: the cooldown timer restarts, so there is demand (R154). -/
theorem setApplied_zero_mon {s : State} (h : 0 < s.lamp.applied) :
    (s.setApplied 0).mon = { s.mon with cooldown := 12000, fan := startedFan s.mon.fan } := by
  unfold State.setApplied
  rw [if_pos ⟨rfl, h⟩, State.requestLampWrite_frame, reformDemand_of_demand (fanDemand_ne_none (.inr (.inl (Nat.zero_lt_succ _))))]
  rfl

/-- The level changes to one above 0, at which there is demand (R151). -/
theorem setApplied_lit_mon {s : State} {a : Nat} (h : 0 < a) (hne : a ≠ s.lamp.applied) :
    (s.setApplied a).mon = { s.mon with fan := startedFan s.mon.fan } := by
  unfold State.setApplied
  rw [if_neg (by omega), if_neg hne, reformDemand_of_demand (fanDemand_ne_none (.inl h))]

/-- The monitor after a level has been set. -/
theorem setApplied_mon_eq (s : State) (a : Nat) :
    (s.setApplied a).mon =
      if a = s.lamp.applied then s.mon
      else { s.mon with
        cooldown := if a = 0 then 12000 else s.mon.cooldown, fan := startedFan s.mon.fan } := by
  by_cases ha : a = s.lamp.applied
  · rw [if_pos ha, ha, setApplied_same]
  · rw [if_neg ha]
    by_cases h0 : a = 0
    · rw [if_pos h0, h0, setApplied_zero_mon (by omega)]
    · rw [if_neg h0, setApplied_lit_mon (by omega) ha]

/-- Setting a level changes neither the caps nor the zero conditions. -/
theorem setApplied_allowed (s : State) (a : Nat) : (s.setApplied a).allowed = s.allowed := by
  have hrun : (s.setApplied a).mon.fan.isRunning = s.mon.fan.isRunning := by
    rw [setApplied_mon_eq]
    split
    · rfl
    · exact startedFan_isRunning _
  have htherm : (s.setApplied a).mon.thermal = s.mon.thermal := by rw [setApplied_mon_eq]; split <;> rfl
  have hsupply : (s.setApplied a).mon.supply = s.mon.supply := by rw [setApplied_mon_eq]; split <;> rfl
  unfold State.allowed State.lampHeldDark State.lampCap
  rw [hrun, htherm, hsupply, State.setApplied_lamp]
  rfl

theorem lampFall_allowed (s : State) (before : Nat) : (s.lampFall before).allowed = s.allowed := by
  unfold State.lampFall
  split
  · exact setApplied_allowed s _
  · rfl

/-- The monitor after an event at which the allowed level may have fallen. -/
theorem lampFall_mon (s : State) (before : Nat) :
    (s.lampFall before).mon =
      if s.allowed < s.lamp.applied then
        { s.mon with
          cooldown := if s.allowed = 0 then 12000 else s.mon.cooldown, fan := startedFan s.mon.fan }
      else s.mon := by
  unfold State.lampFall
  by_cases hlt : s.allowed < s.lamp.applied
  · rw [if_pos (.inr hlt), if_pos hlt, Nat.min_eq_right (Nat.le_of_lt hlt), setApplied_mon_eq, if_neg (by omega)]
  · rw [if_neg hlt]
    split
    · rw [Nat.min_eq_left (by omega), setApplied_mon_eq, if_pos rfl]
    · rfl

end Sys2Proof.Proofs.LampFall
end

