-- ==== Sys2Proof/Proofs/QueueOffers.lean ====
section
/-!
What each action does when its entry is offered (spec/06 section 6.3, R101 to R105).
-/

namespace Sys2Proof.Proofs.QueueOffers

open Sys2Proof Sys2Proof.Machine Sys2Proof.Proofs.Commands Sys2Proof.Proofs.GotoShorterWay Sys2Proof.Proofs.Rests
open Sys2Proof.Proofs.Events Sys2Proof.Proofs.Offers Sys2Proof.Proofs.LampFall

-- One declaration after another, so that the checks of many short proofs do not wait for each other in threads.
set_option Elab.async false

/-! ## Waiting heads -/

theorem exec_pauseExpiry_of_waiting {s : State} (h : PauseOver s)
    (hq : s.queue.entries = [] ∨
      (∃ e rest, s.queue.entries = e :: rest ∧ e.action.forChanger = true ∧ s.tray.state.busy = true)) :
    exec .pauseExpiry s = .next (unpaused s) := by
  have hwait : offerEntries s.queue.entries (unpaused s) = unpaused s := by
    rcases hq with hq | ⟨e, rest, hq, hkind, hbusy⟩
    · rw [hq]; rfl
    · have hjam : s.tray.state ≠ .jammed := by
        intro hj
        rw [hj] at hbusy
        exact absurd hbusy (by decide)
      rw [hq]
      exact offerEntries_waits (s := unpaused s) hkind hjam (changerFree_of_busy hbusy)
  rw [exec_pauseExpiry_of_over h]
  have hoffer : (unpaused s).offer = (offerEntries s.queue.entries (unpaused s)).moveSwap := rfl
  rw [hoffer, hwait]
  exact congrArg _ (moveSwap_of_noSwap (s := unpaused s) h.noSwap)

theorem exec_pauseExpiry_of_pause {s : State} (h : PauseOver s) {d : Nat} {source : ActionSource}
    {rest : List QueueEntry} (hq : s.queue.entries = { action := .pause d, source := source } :: rest) (hd : d ≠ 0) :
    exec .pauseExpiry s =
      .next { s with queue := { s.queue with
        entries := rest, taken := s.queue.taken + 1, pause := some { elapsed := 0, duration := d } } } := by
  have hpause : offerEntries ({ action := .pause d, source := source } :: rest) (unpaused s) =
      { s with queue := { s.queue with
        entries := rest, taken := s.queue.taken + 1, pause := some { elapsed := 0, duration := d } } } := if_neg hd
  rw [exec_pauseExpiry_of_over h]
  have hoffer : (unpaused s).offer = (offerEntries s.queue.entries (unpaused s)).moveSwap := rfl
  rw [hoffer, hq, hpause]
  exact congrArg _ (moveSwap_of_not_swapCanMove (swapCanMove_of_not_waiting h.noSwap))

/-! ## LAMP and DISSOLVE (R139, R140) -/

theorem handImmediate_lamp (s : State) {a : Action} {level : Nat}
    (h : a = .lamp level ∨ ∃ loaded, a = .dissolve level 0 loaded) : s.handImmediate a = s.setLamp level := by
  rcases h with rfl | ⟨loaded, rfl⟩ <;> rfl

theorem setLamp_changer (s : State) (level : Nat) : (s.setLamp level).lamp.changer = s.lamp.changer := by
  rw [State.setLamp, State.lampFall_lamp]

/-! ## TAPE (R182 to R185) -/

/-- The table of R182. -/
theorem after_eq (old : Transport) (c : TapeCommand) :
    old.after c =
      match c with
      | .play => if old = .atEnd then .atEnd else .playing
      | .stop => .stopped
      | .windForward => if old = .atEnd then .atEnd else .windForward
      | .windBack => .windBack := by
  cases old <;> cases c <;> rfl

theorem towardEnd_iff (t : Transport) : t.towardEnd = true ↔ t = .playing ∨ t = .windForward := by
  cases t <;> decide

theorem calibrationEnds_of_running {s : State} (h : ∀ k, s.tape.calibration = some k → k.count < 256) :
    s.calibrationEnds = s := by
  unfold State.calibrationEnds
  split
  next c hc =>
    have := h c hc
    exact if_neg (by omega)
  · rfl

/-- The end of a calibration reads and changes nothing of the queue. -/
theorem calibrationEnds_withQueue (s : State) (q : ActionQueue) :
    ({ s with queue := q } : State).calibrationEnds = { s.calibrationEnds with queue := q } := by
  unfold State.calibrationEnds
  dsimp only
  split
  · split
    · have hs : ({ s with queue := q } : State).saving .settings = s.saving .settings := rfl
      rw [hs]
      split <;> rfl
    · rfl
  · rfl

/-- A calibration that has ended changes the tape unit's calibration and trims and the parameters alone. -/
theorem calibrationEnds_frame (s : State) :
    s.calibrationEnds =
      { s with
        tape := { s.tape with
          calibration := s.calibrationEnds.tape.calibration, pendingTrims := s.calibrationEnds.tape.pendingTrims }
        params := s.calibrationEnds.params } := by
  unfold State.calibrationEnds
  split
  · split
    · dsimp only
      split <;> rfl
    · rfl
  · rfl

theorem calibrationEnds_over {s : State} {k : Calibration} (h : s.tape.calibration = some k) (hk : 256 ≤ k.count) :
    s.calibrationEnds.tape.calibration = none := by
  unfold State.calibrationEnds
  rw [h]
  dsimp only
  rw [if_pos hk]
  split <;> rfl

/-- The state a TAPE action leaves, once a calibration has been dealt with: at an active end sensor END instead. -/
def tapeMoved (t : State) (old new : Transport) (endSensor : Bool) : State :=
  if new ≠ old ∧ new.towardEnd = true ∧ endSensor = true then t.enterTapeEnd
  else { t with tape := { t.tape with transport := new } }

theorem tapeAction_of_follower {s : State} (h : s.link.role = .follower) (c : TapeCommand) : s.tapeAction c = s :=
  if_neg (by simp [State.isMaster, h])

/-- Out of STOPPED a calibration ends, with its readings or without. -/
theorem tapeAction_leaving {s : State} (h : s.link.role = .master) {c : TapeCommand}
    (hc : s.tape.transport = .stopped ∧ s.tape.transport.after c ≠ .stopped) :
    s.tapeAction c =
      tapeMoved { s.calibrationEnds with tape := { s.calibrationEnds.tape with calibration := none } }
        s.tape.transport (s.tape.transport.after c) s.tape.endSensor := by
  have hm : s.isMaster = true := decide_eq_true h
  unfold State.tapeAction tapeMoved
  rw [if_pos hm]
  dsimp only
  rw [if_pos hc]

theorem tapeAction_running {s : State} (h : s.link.role = .master) {c : TapeCommand}
    (hc : ¬ (s.tape.transport = .stopped ∧ s.tape.transport.after c ≠ .stopped)) :
    s.tapeAction c = tapeMoved s s.tape.transport (s.tape.transport.after c) s.tape.endSensor := by
  have hm : s.isMaster = true := decide_eq_true h
  unfold State.tapeAction tapeMoved
  rw [if_pos hm]
  dsimp only
  rw [if_neg hc]

/-- A TAPE action in a master whose calibration, if one runs, has readings to come. -/
theorem tapeAction_of_master {s : State} (h : s.link.role = .master)
    (hk : ∀ k, s.tape.calibration = some k → k.count < 256) (c : TapeCommand) :
    s.tapeAction c =
      tapeMoved
        { s with tape := { s.tape with calibration :=
            if s.tape.transport = .stopped ∧ s.tape.transport.after c ≠ .stopped then none else s.tape.calibration } }
        s.tape.transport (s.tape.transport.after c) s.tape.endSensor := by
  by_cases hc : s.tape.transport = .stopped ∧ s.tape.transport.after c ≠ .stopped
  · rw [tapeAction_leaving h hc, calibrationEnds_of_running hk, if_pos hc]
  · rw [tapeAction_running h hc, if_neg hc]

/-- The same, as the statement has it. -/
theorem tapeAction_to {s : State} {c : TapeCommand} {new : Transport} (h : s.link.role = .master)
    (hk : ∀ k, s.tape.calibration = some k → k.count < 256) (hnew : new = s.tape.transport.after c) :
    let ends := new ≠ s.tape.transport ∧ (new = .playing ∨ new = .windForward) ∧ s.tape.endSensor = true
    let moved : State := { s with tape := { s.tape with
      transport := if ends then .atEnd else new
      calibration := if s.tape.transport = .stopped ∧ new ≠ .stopped then none else s.tape.calibration } }
    s.tapeAction c = if ends then moved.latch .tapeEnd else moved := by
  have hmove := tapeAction_of_master h hk c
  rw [← hnew, tapeMoved] at hmove
  intro ends moved
  by_cases he : ends
  · have he' : new ≠ s.tape.transport ∧ new.towardEnd = true ∧ s.tape.endSensor = true := by
      rw [towardEnd_iff]; exact he
    rw [if_pos he'] at hmove
    rw [if_pos he, hmove]
    simp only [moved, if_pos he]
    rfl
  · have he' : ¬ (new ≠ s.tape.transport ∧ new.towardEnd = true ∧ s.tape.endSensor = true) := by
      rw [towardEnd_iff]; exact he
    rw [if_neg he'] at hmove
    rw [if_neg he, hmove]
    simp only [moved, if_neg he]

/-- Out of STOPPED, a calibration with its 256th reading ends as its own step ends it. -/
theorem tapeAction_calibrated {s u : State} {k : Calibration} {c : TapeCommand} (h : s.link.role = .master)
    (hk : s.tape.calibration = some k) (hover : 256 ≤ k.count) (hold : s.tape.transport = .stopped)
    (hnew : Transport.stopped.after c ≠ .stopped) (hu : s.calibrationEnds = u) :
    (loneTaken s).tapeAction c = (loneTaken u).tapeAction c := by
  have hframe := calibrationEnds_frame s
  have hnone := calibrationEnds_over hk hover
  have hended : (loneTaken s).calibrationEnds = loneTaken s.calibrationEnds := by
    have hqueue : s.calibrationEnds.queue = s.queue := by rw [hframe]
    rw [loneTaken, calibrationEnds_withQueue, loneTaken, hqueue]
  subst hu
  have hstill : (loneTaken s.calibrationEnds).calibrationEnds = loneTaken s.calibrationEnds :=
    calibrationEnds_of_running fun k hk => by
      rw [show (loneTaken s.calibrationEnds).tape.calibration = none from hnone] at hk
      cases hk
  have hrole : s.calibrationEnds.link.role = .master := by rw [hframe]; exact h
  have htransport : s.calibrationEnds.tape.transport = s.tape.transport := by rw [hframe]
  have hsensor : s.calibrationEnds.tape.endSensor = s.tape.endSensor := by rw [hframe]
  rw [tapeAction_leaving (s := loneTaken s) h ⟨hold, by rw [show (loneTaken s).tape.transport = _ from hold]; exact hnew⟩,
    tapeAction_leaving (s := loneTaken s.calibrationEnds) hrole
      ⟨htransport.trans hold, by
        rw [show (loneTaken s.calibrationEnds).tape.transport = _ from htransport.trans hold]; exact hnew⟩,
    hended, hstill]
  have ht : (loneTaken s.calibrationEnds).tape.transport = (loneTaken s).tape.transport := htransport
  have he : (loneTaken s.calibrationEnds).tape.endSensor = (loneTaken s).tape.endSensor := hsensor
  rw [ht, he]

theorem tapeMoved_lamp (t : State) (old new : Transport) (endSensor : Bool) :
    (tapeMoved t old new endSensor).lamp = t.lamp := by
  unfold tapeMoved
  split
  · rw [State.enterTapeEnd, State.latch_frame]
  · rfl

theorem tapeAction_lamp (s : State) (c : TapeCommand) : (s.tapeAction c).lamp = s.lamp := by
  cases h : s.link.role
  · rw [tapeAction_of_follower h]
  · by_cases hc : s.tape.transport = .stopped ∧ s.tape.transport.after c ≠ .stopped
    · rw [tapeAction_leaving h hc, tapeMoved_lamp]
      have hframe := calibrationEnds_frame s
      rw [hframe]
    · rw [tapeAction_running h hc, tapeMoved_lamp]

/-! ## The obligation -/

theorem shutterAction_eq (s : State) (close : Bool) :
    s.shutterAction close =
      { s with tray := { s.tray with
          holdDark := if close then s.tray.holdDark else false
          shutterOpen := if close then false else if s.mon.thermal = .overheat then s.tray.shutterOpen else true } } := by
  cases close with
  | true => rfl
  | false =>
    unfold State.shutterAction
    by_cases h : s.mon.thermal = .overheat
    · simp only [h, if_true, Bool.false_eq_true, if_false]; rfl
    · simp only [h, if_false, Bool.false_eq_true]; rfl

theorem transportDrive_eq {s : State} (h : s.powered = true) :
    s.transportDrive =
      match s.tape.transport with
      | .playing => .play
      | .windForward => .fastForward
      | .windBack => .rewind
      | .stopped | .atEnd => .stopped := by
  rw [State.transportDrive, if_pos h]
  cases s.tape.transport <;> rfl

/-- Settles O30. -/
theorem queueOffersHead : Obligations.QueueOffersHead := by
  refine ⟨fun s p hp hpause hover hw => ?waits, fun s p a source hp hpause hover hw hq => ?acts,
    fun s hp => transportDrive_eq hp, fun s hpause hw => ?offers⟩
  case waits =>
    have ended : PauseOver s := ⟨hp, ⟨p, hpause, hover⟩, hw⟩
    exact ⟨exec_pauseExpiry_of_waiting ended, fun d source rest hq hd => exec_pauseExpiry_of_pause ended hq hd⟩
  case offers =>
    refine ⟨fun hjam hne hkind => ?jammed, fun e rest hq hkind hjam hbusy => ?head⟩
    case jammed =>
      rw [State.offer, hpause, offerEntries_jammed hjam hne hkind]
      refine moveSwap_of_noSwap ?_
      rw [if_neg (by decide), State.latch_frame]
      exact hw
    case head =>
      have hfree : s.changerFree = false := by
        rcases hbusy with hb | hs | hc
        · exact changerFree_of_busy hb
        · simp [State.changerFree, hs]
        · simp [State.changerFree, hc]
      rw [State.offer, hpause, hq, offerEntries_waits hkind hjam hfree]
      exact moveSwap_of_noSwap hw
  case acts =>
    have ended : PauseOver s := ⟨hp, ⟨p, hpause, hover⟩, hw⟩
    refine ⟨fun n ha => ?audio, fun on ha => ?mute, fun n ha => ?mark, fun level ha => ?lamp,
      fun target duration loaded ha hd => ?dissolve, fun c ha => ?tape, fun close ha hidle hswap hsupply => ?shutter,
      fun m hm hidle hswap hsupply hopen => ?motion, fun hkind hstate hswap hsupply hopen => ?homing⟩
    case audio => subst ha; exact exec_pauseExpiry_of_lone ended hq rfl nofun hw
    case mute => subst ha; exact exec_pauseExpiry_of_lone ended hq rfl nofun hw
    case mark =>
      subst ha
      refine exec_pauseExpiry_of_lone ended hq rfl nofun ?_
      rw [State.handImmediate, State.markAction, State.latch_frame]
      exact hw
    case lamp =>
      have hkind : a.forChanger = false ∧ ∀ d, a ≠ .pause d := by
        rcases ha with rfl | ⟨loaded, rfl⟩ <;> exact ⟨rfl, nofun⟩
      have hand := handImmediate_lamp (loneTaken s) ha
      have hlamp : ((loneTaken s).handImmediate a).lamp.changer ≠ .waitChanger := by
        rw [hand, setLamp_changer]; exact hw
      refine ⟨_, (exec_pauseExpiry_of_lone ended hq hkind.1 hkind.2 hlamp).trans (congrArg _ hand), ?_⟩
      have hl := State.lampFall_lamp
        { loneTaken s with lamp := { s.lamp with target := level, computed := level, dissolve := none } } s.allowed
      have ha' := lampFall_allowed
        { loneTaken s with lamp := { s.lamp with target := level, computed := level, dissolve := none } } s.allowed
      have hset : (loneTaken s).setLamp level =
        State.lampFall { loneTaken s with lamp := { s.lamp with target := level, computed := level, dissolve := none } }
          s.allowed := rfl
      rw [← hset] at hl ha'
      rw [hl, ha']
      refine ⟨rfl, rfl, rfl, rfl, rfl, ?_⟩
      rw [← hl, hset]
      exact State.lampFall_frame _ _
    case dissolve =>
      subst ha
      have hbegin : (loneTaken s).handImmediate (.dissolve target duration loaded) = _ := if_neg hd
      rw [exec_pauseExpiry_of_lone ended hq rfl nofun (by rw [hbegin]; exact hw), hbegin]
      rfl
    case tape =>
      subst ha
      have hexec := exec_pauseExpiry_of_lone ended hq rfl nofun
        (by rw [show (loneTaken s).handImmediate (.tape c) = (loneTaken s).tapeAction c from rfl, tapeAction_lamp]; exact hw)
      refine ⟨fun hr => ?follower, fun hr hk => ?master, fun k u hr hk hover hold hnew hu => ?calibrated⟩
      case follower => exact hexec.trans (congrArg _ (tapeAction_of_follower (s := loneTaken s) hr c))
      case master =>
        exact hexec.trans (congrArg _ (tapeAction_to (s := loneTaken s) hr hk (after_eq s.tape.transport c).symm))
      case calibrated =>
        have hends : s.calibrationEnds = u :=
          Host.Outcome.next.inj ((whenPowered_of_powered hp _).symm.trans ((exec_calibrationComplete s).symm.trans hu))
        have hframe := calibrationEnds_frame s
        rw [hends] at hframe
        have ended' : PauseOver u := by
          rw [hframe]
          exact ⟨hp, ⟨p, hpause, by assumption⟩, hw⟩
        have hq' : u.queue.entries = [{ action := .tape c, source := source }] := by rw [hframe]; exact hq
        have hexec' := exec_pauseExpiry_of_lone ended' hq' rfl nofun
          (by rw [show (loneTaken u).handImmediate (.tape c) = (loneTaken u).tapeAction c from rfl, tapeAction_lamp]
              exact ended'.noSwap)
        have hafter := after_eq s.tape.transport c
        rw [hexec, hexec']
        exact congrArg _ (tapeAction_calibrated hr hk hover hold
          (fun h => hnew (hafter.symm.trans (by rw [hold]; exact h))) hends)
    case shutter =>
      subst ha
      have rest : s.tray.state = .idle ∨ s.tray.state = .unhomed := .inl hidle
      have hidle' : ¬ (loneTaken s).tray.state = .unhomed := by
        rw [show (loneTaken s).tray.state = _ from hidle]; decide
      have htake : (loneTaken s).trayTake (.shutter close) = (loneTaken s).shutterAction close := if_neg hidle'
      rw [shutterAction_eq] at htake
      rw [exec_pauseExpiry_of_lone_changer_head ended hq rfl (not_jammed_of_rest rest)
        (changerFree_of_rest rest hswap hsupply) (by rw [htake]; exact hw), htake]
      rfl
    case motion =>
      have rest : s.tray.state = .idle ∨ s.tray.state = .unhomed := .inl hidle
      obtain ⟨hkind, -⟩ := chooser_of_choose (t := s.tray) (a := a) (by rw [hm]; nofun)
      have htake := (trayTake_of_motion (s := loneTaken s) hidle hm).trans (beginChange_of_open a m hopen)
      rw [exec_pauseExpiry_of_lone_changer_head ended hq hkind (not_jammed_of_rest rest)
        (changerFree_of_rest rest hswap hsupply) (by rw [htake]; exact hw), htake]
      rfl
    case homing =>
      have rest : s.tray.state = .idle ∨ s.tray.state = .unhomed := hstate.symm.imp And.left id
      have htake := (trayTake_of_homing (s := loneTaken s) hstate).trans (beginHoming_of_open a hopen)
      rw [exec_pauseExpiry_of_lone_changer_head ended hq hkind (not_jammed_of_rest rest)
        (changerFree_of_rest rest hswap hsupply) (by rw [htake]; exact hw), htake]
      rfl

end Sys2Proof.Proofs.QueueOffers
end

