-- ==== Sys2Proof/Proofs/Targets.lean ====
section
/-!
The targets of ADVANCE, REVERSE and GOTO_MARK (spec/07 section 7.3): the places met going round the tray, the nth
eligible one of them, and the first with a mark.
-/

namespace Sys2Proof.Proofs.Targets

open Sys2Proof Sys2Proof.Machine Sys2Proof.Proofs.GotoShorterWay Sys2Proof.Proofs.Offers

-- One declaration after another, so that the checks of many short proofs do not wait for each other in threads.
set_option Elab.async false

/-! ## Round the tray -/

theorem iterate_stepFrom_lt (d : Direction) {p : Nat} (hp : p < 100) (k : Nat) : (stepFrom d)^[k] p < 100 := by
  rw [iterate_stepFrom d hp]; exact Nat.mod_lt _ (by decide)

/-- The places in the order met, each a step from the one before. -/
theorem positionsFrom_eq (d : Direction) {p : Nat} (hp : p < 100) :
    positionsFrom d p = (List.range 100).map fun k => (stepFrom d)^[k + 1] p := by
  refine List.map_congr_left fun k hk => ?_
  have hk' : k < 100 := List.mem_range.mp hk
  rw [iterate_stepFrom d hp]
  cases d with
  | forward => simp only [stride]; congr 1; omega
  | backward => simp only [stride]; omega

theorem iterate_stepFrom_add_round (d : Direction) {p : Nat} (hp : p < 100) (k : Nat) :
    (stepFrom d)^[100 + k] p = (stepFrom d)^[k] p := by
  rw [iterate_stepFrom d hp, iterate_stepFrom d hp, Nat.add_mul, ← Nat.add_assoc, Nat.add_right_comm,
    Nat.add_mul_mod_self_left]

/-- Every place is met within one round. -/
theorem mem_positionsFrom (d : Direction) {p q : Nat} (hp : p < 100) (hq : q < 100) : q ∈ positionsFrom d p := by
  rw [positionsFrom_eq d hp, List.mem_map]
  cases d with
  | forward =>
    refine ⟨(q + 199 - p) % 100, List.mem_range.mpr (Nat.mod_lt _ (by decide)), ?_⟩
    rw [iterate_stepFrom _ hp]
    simp only [stride]
    omega
  | backward =>
    refine ⟨(p + 199 - q) % 100, List.mem_range.mpr (Nat.mod_lt _ (by decide)), ?_⟩
    rw [iterate_stepFrom _ hp]
    simp only [stride]
    omega

/-! ## Counting -/

/-- How many of the first numbers meet a test. -/
def countTo (e : Nat → Bool) (n : Nat) : Nat := ((List.range n).filter e).length

theorem countTo_eq (e : Nat → Bool) (n : Nat) : countTo e n = Nat.count (fun k => e k = true) n := by
  unfold countTo
  induction n with
  | zero => rfl
  | succ n ih =>
    rw [List.range_succ, List.filter_append, List.length_append, ih, Nat.count_succ]
    cases h : e n <;> simp [h]

/-- A test with a period counts the same in each round. -/
theorem countTo_rounds {e : Nat → Bool} (he : ∀ k, e (100 + k) = e k) (a b : Nat) :
    countTo e (100 * a + b) = countTo e 100 * a + countTo e b := by
  induction a with
  | zero => rw [Nat.mul_zero, Nat.mul_zero, Nat.zero_add, Nat.zero_add]
  | succ a ih =>
    have hsplit : 100 * (a + 1) + b = 100 + (100 * a + b) := by omega
    rw [hsplit]
    simp only [countTo_eq] at ih ⊢
    rw [Nat.count_add]
    simp only [he]
    rw [ih, Nat.mul_succ]
    omega

/-- An element that a filter leaves at a place stands in the list behind as many others that it leaves. -/
theorem getElem?_filter {α : Type} {test : α → Bool} {l : List α} {i : Nat} {q : α}
    (h : (l.filter test)[i]? = some q) :
    ∃ k, l[k]? = some q ∧ test q = true ∧ ((l.take k).filter test).length = i := by
  induction l generalizing i with
  | nil => simp at h
  | cons x rest ih =>
    cases hx : test x
    · rw [List.filter_cons_of_neg (by simp [hx])] at h
      obtain ⟨k, hk, hq, hi⟩ := ih h
      exact ⟨k + 1, hk, hq, by rw [List.take_succ_cons, List.filter_cons_of_neg (by simp [hx])]; exact hi⟩
    · rw [List.filter_cons_of_pos hx] at h
      cases i with
      | zero =>
        obtain rfl : x = q := by simpa using h
        exact ⟨0, rfl, hx, rfl⟩
      | succ i =>
        obtain ⟨k, hk, hq, hi⟩ := ih (i := i) (by simpa using h)
        refine ⟨k + 1, hk, hq, ?_⟩
        rw [List.take_succ_cons, List.filter_cons_of_pos hx, List.length_cons, hi]

/-! ## The nth eligible position (R116) -/

/-- Whether the place met after some steps more than one is eligible. -/
def metEligible (t : Tray) (d : Direction) (skip : Bool) (j : Nat) : Bool :=
  t.eligible skip ((stepFrom d)^[j + 1] t.position)

theorem metEligible_period {t : Tray} (hp : t.position < 100) (d : Direction) (skip : Bool) (k : Nat) :
    metEligible t d skip (100 + k) = metEligible t d skip k := by
  rw [metEligible, Nat.add_assoc, iterate_stepFrom_add_round d hp]
  rfl

/-- The eligible places of one round. -/
def found (t : Tray) (d : Direction) (skip : Bool) : List Nat := (positionsFrom d t.position).filter (t.eligible skip)

theorem nthEligible_eq (t : Tray) (d : Direction) (n : Nat) (skip : Bool) :
    t.nthEligible d n skip = (found t d skip)[(n - 1) % (found t d skip).length]? := rfl

theorem take_positionsFrom (d : Direction) {p k : Nat} (hp : p < 100) (hk : k ≤ 100) :
    (positionsFrom d p).take k = (List.range k).map fun j => (stepFrom d)^[j + 1] p := by
  rw [positionsFrom_eq d hp, ← List.map_take, List.take_range, Nat.min_eq_left hk]

theorem length_filter_take {t : Tray} (d : Direction) (skip : Bool) (hp : t.position < 100) {k : Nat} (hk : k ≤ 100) :
    (((positionsFrom d t.position).take k).filter (t.eligible skip)).length = countTo (metEligible t d skip) k := by
  rw [take_positionsFrom d hp hk, List.filter_map, List.length_map]
  rfl

theorem length_found {t : Tray} (d : Direction) (skip : Bool) (hp : t.position < 100) :
    (found t d skip).length = countTo (metEligible t d skip) 100 := by
  rw [← length_filter_take d skip hp (Nat.le_refl 100), take_positionsFrom d hp (Nat.le_refl 100),
    ← positionsFrom_eq d hp]
  rfl

theorem nthEligible_none {t : Tray} (d : Direction) (n : Nat) (skip : Bool) (hp : t.position < 100) :
    t.nthEligible d n skip = none ↔ ∀ q, q < 100 → t.eligible skip q = false := by
  have hempty : t.nthEligible d n skip = none ↔ found t d skip = [] := by
    rw [nthEligible_eq, List.getElem?_eq_none_iff]
    constructor
    · intro h
      by_contra hne
      exact absurd (Nat.mod_lt (n - 1) (List.length_pos_iff.mpr hne)) (by omega)
    · intro h
      rw [h]; exact Nat.zero_le _
  rw [hempty, found, List.filter_eq_nil_iff]
  constructor
  · exact fun h q hq => Bool.eq_false_iff.mpr (h q (mem_positionsFrom d hp hq))
  · intro h q hq
    rw [positionsFrom_eq d hp, List.mem_map] at hq
    obtain ⟨k, -, rfl⟩ := hq
    rw [h _ (iterate_stepFrom_lt d hp _)]
    exact Bool.false_ne_true

/-- The nth eligible place is met after whole rounds and the steps of one round. -/
theorem nthEligible_some {t : Tray} {d : Direction} {n : Nat} {skip : Bool} {q : Nat} (hp : t.position < 100)
    (hn : 1 ≤ n) (h : t.nthEligible d n skip = some q) :
    ∃ m, 1 ≤ m ∧ (stepFrom d)^[m] t.position = q ∧ t.eligible skip q = true ∧
      countTo (metEligible t d skip) m = n := by
  rw [nthEligible_eq] at h
  obtain ⟨k, hk, hq, hi⟩ := getElem?_filter (l := positionsFrom d t.position) h
  obtain ⟨hklt, hkq⟩ : k < 100 ∧ (stepFrom d)^[k + 1] t.position = q := by
    rw [positionsFrom_eq d hp, List.getElem?_map] at hk
    obtain ⟨j, hj, hjq⟩ := Option.map_eq_some_iff.mp hk
    obtain ⟨hlt, rfl⟩ := List.getElem?_eq_some_iff.mp hj
    exact ⟨by simpa using hlt, by simpa using hjq⟩
  rw [length_filter_take d skip hp (Nat.le_of_lt hklt)] at hi
  have hlen := length_found d skip hp
  refine ⟨100 * ((n - 1) / (found t d skip).length) + (k + 1), by omega, ?_, hq, ?_⟩
  · have hrounds : ∀ a, (stepFrom d)^[100 * a + (k + 1)] t.position = (stepFrom d)^[k + 1] t.position := by
      intro a
      induction a with
      | zero => rw [Nat.mul_zero, Nat.zero_add]
      | succ a ih =>
        rw [show 100 * (a + 1) + (k + 1) = 100 + (100 * a + (k + 1)) by omega, iterate_stepFrom_add_round d hp, ih]
    rw [hrounds, hkq]
  · have hmet : metEligible t d skip k = true := by rw [metEligible, hkq]; exact hq
    have hsucc : countTo (metEligible t d skip) (k + 1) = countTo (metEligible t d skip) k + 1 := by
      rw [countTo_eq, countTo_eq, Nat.count_succ, if_pos hmet]
    rw [countTo_rounds (metEligible_period hp d skip), hsucc, hi, ← hlen]
    have := Nat.div_add_mod (n - 1) (found t d skip).length
    omega

theorem eligible_iff (t : Tray) (skip : Bool) (q : Nat) :
    t.eligible skip q = true ↔ q ≠ 0 ∧ (t.slot q).skip = false ∧ ¬ ((t.slot q).occupancy = .empty ∧ skip = true) := by
  simp only [Tray.eligible, Bool.and_eq_true, Bool.not_eq_true', decide_eq_true_eq, Bool.and_eq_false_iff,
    decide_eq_false_iff_not, not_and, Bool.not_eq_true, and_assoc]
  tauto

/-- ADVANCE or REVERSE, by its direction. -/
def goAround (d : Direction) (n : Nat) (skip : Bool) : Action :=
  match d with
  | .forward => .advance n skip
  | .backward => .reverse n skip

theorem choose_goAround (t : Tray) (d : Direction) (n : Nat) (skip : Bool) :
    t.choose (goAround d n skip) =
      match t.nthEligible d n skip with
      | some q => .motion (motionTo d t.position q)
      | none => .trayEmpty := by
  cases d <;> rfl

/-! ## The first position with a mark (R118) -/

/-- The position some steps forward carries a mark. -/
def carries (t : Tray) (mark k : Nat) : Prop := (t.slots.getD ((t.position + k) % 100) SlotEntry.blank).mark = mark

theorem getElem?_ahead {p : Nat} (hp : p < 100) {k : Nat} (h1 : 1 ≤ k) (h99 : k ≤ 99) :
    ((positionsFrom .forward p).take 99)[k - 1]? = some ((p + k) % 100) := by
  rw [take_positionsFrom .forward hp (by decide), List.getElem?_map, List.getElem?_range (by omega)]
  rw [Option.map_some, Nat.sub_add_cancel h1, iterate_stepFrom .forward hp]
  simp [stride]

theorem nextMarked_none {t : Tray} {mark : Nat} (hp : t.position < 100) (h : ∀ k, 1 ≤ k → k ≤ 99 → ¬ carries t mark k) :
    t.nextMarked mark = none := by
  rw [Tray.nextMarked, List.find?_eq_none]
  intro q hq
  obtain ⟨i, hi⟩ := List.mem_iff_getElem?.mp hq
  have hlt : i < 99 := by
    have := (List.getElem?_eq_some_iff.mp hi).1
    rw [take_positionsFrom .forward hp (by decide)] at this
    simpa using this
  have hk := getElem?_ahead hp (k := i + 1) (by omega) (by omega)
  rw [Nat.add_sub_cancel, hi] at hk
  obtain rfl := Option.some.inj hk
  intro hmark
  have hcarries := of_decide_eq_true hmark
  exact h (i + 1) (by omega) (by omega) hcarries

theorem nextMarked_some {t : Tray} {mark k : Nat} (hp : t.position < 100) (h1 : 1 ≤ k) (h99 : k ≤ 99)
    (hk : carries t mark k) (hfirst : ∀ j, 1 ≤ j → j < k → ¬ carries t mark j) :
    t.nextMarked mark = some ((t.position + k) % 100) := by
  rw [Tray.nextMarked, List.find?_eq_some_iff_getElem]
  obtain ⟨hlt, hget⟩ := List.getElem?_eq_some_iff.mp (getElem?_ahead hp h1 h99)
  refine ⟨decide_eq_true hk, k - 1, hlt, hget, fun j hj => ?_⟩
  obtain ⟨_, hgetj⟩ := List.getElem?_eq_some_iff.mp (getElem?_ahead hp (k := j + 1) (by omega) (by omega))
  simp only [Nat.add_sub_cancel] at hgetj
  rw [hgetj, Bool.not_eq_true', decide_eq_false_iff_not]
  exact hfirst (j + 1) (by omega) (by omega)

theorem motionTo_ahead {p k : Nat} (hp : p < 100) (h99 : k ≤ 99) :
    motionTo .forward p ((p + k) % 100) =
      { direction := .forward, target := (p + k) % 100, remaining := k, extra := 0, dark := false } := by
  have hd : distanceIn .forward p ((p + k) % 100) = k := by
    rw [distanceIn_forward hp]; omega
  rw [motionTo, hd]

/-! ## The obligation -/

theorem distanceIn_lt (d : Direction) (p q : Nat) : distanceIn d p q < 100 := by
  cases d <;> exact Nat.mod_lt _ (by decide)

/-- Settles O32. -/
theorem targetIsNthEligible : Obligations.TargetIsNthEligible := by
  refine ⟨fun t d n skip hp hn => ⟨nthEligible_none d n skip hp, fun q hq => nthEligible_some hp hn hq⟩,
    fun t skip q => eligible_iff t skip q, fun t d n skip hp hn => ⟨fun hnone => ?trayEmpty, fun ⟨q, hq, he⟩ => ?motion⟩,
    fun t mark hp => ⟨fun hno => ?noMark, fun k h1 h99 hk hfirst => ?mark⟩,
    fun s p a source hpow hpause hover hq hw hswap hidle hsupply => ⟨fun hc => ?empty, fun hc => ?unmarked⟩⟩
  case trayEmpty =>
    refine (choose_goAround t d n skip).trans ?_
    rw [(nthEligible_none d n skip hp).mpr hnone]
  case motion =>
    obtain ⟨q', hq'⟩ : ∃ q', t.nthEligible d n skip = some q' := by
      refine Option.ne_none_iff_exists'.mp fun hnone => ?_
      rw [(nthEligible_none d n skip hp).mp hnone q hq] at he
      cases he
    obtain ⟨k, hk, hkq, hel, hcount⟩ := nthEligible_some hp hn hq'
    have hlt : q' < 100 := hkq ▸ iterate_stepFrom_lt d hp k
    refine ⟨_, (choose_goAround t d n skip).trans (by rw [hq']), rfl, rfl, rfl, distanceIn_lt _ _ _,
      iterate_stepFrom_distanceIn d hp hlt, hel, k, hk, hkq, hcount⟩
  case noMark => rw [Tray.choose, nextMarked_none hp hno]
  case mark => rw [Tray.choose, nextMarked_some hp h1 h99 hk hfirst]; exact congrArg _ (motionTo_ahead hp h99)
  case empty =>
    have ended : PauseOver s := ⟨hpow, ⟨p, hpause, hover⟩, hw⟩
    have rest : s.tray.state = .idle ∨ s.tray.state = .unhomed := .inl hidle
    obtain ⟨hkind, -⟩ := chooser_of_choose (t := s.tray) (a := a) (by rw [hc]; nofun)
    have htake := trayTake_of_trayEmpty (s := loneTaken s) hidle hc
    rw [exec_pauseExpiry_of_lone_changer_head ended hq hkind (not_jammed_of_rest rest)
      (changerFree_of_rest rest hswap hsupply) (by rw [htake, State.latch_frame]; exact hw), htake]
    rfl
  case unmarked =>
    have ended : PauseOver s := ⟨hpow, ⟨p, hpause, hover⟩, hw⟩
    have rest : s.tray.state = .idle ∨ s.tray.state = .unhomed := .inl hidle
    obtain ⟨hkind, -⟩ := chooser_of_choose (t := s.tray) (a := a) (by rw [hc]; nofun)
    have htake := trayTake_of_noMark (s := loneTaken s) hidle hc
    rw [exec_pauseExpiry_of_lone_changer_head ended hq hkind (not_jammed_of_rest rest)
      (changerFree_of_rest rest hswap hsupply) (by rw [htake, State.latch_frame]; exact hw), htake]
    rfl

end Sys2Proof.Proofs.Targets
end

