-- ==== Sys2Proof/Proofs/ActionCommands.lean ====
section
/-!
ACT, STOP and CLEAR_JAM (spec/03 section 3.4).
-/

namespace Sys2Proof.Proofs.ActionCommands

open Sys2Proof Sys2Proof.Machine Sys2Proof.Proofs.Commands Sys2Proof.Proofs.Handler Sys2Proof.Proofs.GotoShorterWay
open Sys2Proof.Proofs.Rests Sys2Proof.Proofs.Offers

-- One declaration after another, so that the checks of many short proofs do not wait for each other in threads.
set_option Elab.async false

/-! ## ACT (R51, R97, R98) -/

/-- The queue with an entry of the link behind those that wait. -/
def withEntry (s : State) (a : Action) : State :=
  { s with queue := { s.queue with
      entries := s.queue.entries ++ [{ action := a, source := .link }], accepted := s.queue.accepted + 1 } }

theorem queueRoom_pos {s : State} (h : s.queue.entries.length < 16) : 1 ≤ s.queueRoom := by
  have : Config.queuePlaces = 16 := rfl
  rw [State.queueRoom]; omega

theorem actCommand_placed {m : Message} {s : State} {a : Action} (ha : actionOfBytes m.payload = some a)
    (h : s.queue.entries.length < 16) :
    actCommand m s =
      (.good (recordOf a), if s.queue.entries = [] then (withEntry s a).offer else withEntry s a) := by
  rw [actCommand, ha]
  exact if_pos (queueRoom_pos h)

theorem actCommand_full {m : Message} {s : State} {a : Action} (ha : actionOfBytes m.payload = some a)
    (hn : m.needsReply = true) (h : s.queue.entries.length = 16) : actCommand m s = (.refusal .full, s) := by
  have hroom : ¬ 1 ≤ s.queueRoom := by
    have : Config.queuePlaces = 16 := rfl
    rw [State.queueRoom]; omega
  rw [actCommand, ha]
  refine (if_neg hroom).trans ?_
  rw [hn]
  rfl

/-- The queue with a first entry of the link. -/
def firstEntry (s : State) (a : Action) : State :=
  { s with queue := { s.queue with
      entries := [{ action := a, source := .link }], accepted := s.queue.accepted + 1 } }

/-- The state with the entry placed into an empty queue taken. -/
def firstTaken (s : State) : State :=
  { s with queue := { s.queue with
      entries := [], accepted := s.queue.accepted + 1, taken := s.queue.taken + 1 } }

theorem firstTaken_eq {s : State} (h : s.queue.entries = []) :
    firstTaken s =
      { s with queue := { s.queue with accepted := s.queue.accepted + 1, taken := s.queue.taken + 1 } } := by
  rw [firstTaken, ← h]

/-- An ACT into an empty queue: its entry is offered. -/
theorem exec_act_empty {s : State} {m : Message} {rest : List Message} {a : Action} (hs : s.Ready) (ho : s.Oldest m rest)
    (hk : m.kind = 0x30) (ha : actionOfBytes m.payload = some a) (hempty : s.queue.entries = []) :
    exec .act s = .next ((firstEntry (s.taking m rest) a).offer.answered (replies m 0x00 (recordOf a))) := by
  have hentry : withEntry (s.taking m rest) a = firstEntry (s.taking m rest) a := by
    rw [withEntry, show (s.taking m rest).queue.entries = [] from hempty]
    rfl
  have hroom : (s.taking m rest).queue.entries.length < 16 := by
    rw [show (s.taking m rest).queue.entries = [] from hempty]; decide
  refine exec_good hs ho (exec_act s) (isKind_of_kind hk) ?_
  rw [actCommand_placed ha hroom, hentry]
  exact congrArg _ (if_pos hempty)

theorem offer_firstEntry_immediate {s : State} {a : Action} (hpause : s.queue.pause = none)
    (hkind : a.forChanger = false) (hnp : ∀ d, a ≠ .pause d)
    (hlamp : ((firstTaken s).handImmediate a).lamp.changer ≠ .waitChanger) :
    (firstEntry s a).offer = (firstTaken s).handImmediate a := by
  have hp : (firstEntry s a).queue.pause = none := hpause
  have hq : (firstEntry s a).queue.entries = [{ action := a, source := .link }] := rfl
  rw [State.offer, hp, hq, offerEntries_immediate (e := { action := a, source := .link }) hkind hnp]
  exact moveSwap_of_noSwap hlamp

theorem offer_firstEntry_changer {s : State} {a : Action} (hpause : s.queue.pause = none)
    (hkind : a.forChanger = true) (hjam : s.tray.state ≠ .jammed) (hfree : s.changerFree = true)
    (hlamp : ((firstTaken s).trayTake a).lamp.changer ≠ .waitChanger) :
    (firstEntry s a).offer = (firstTaken s).trayTake a := by
  have hp : (firstEntry s a).queue.pause = none := hpause
  have hq : (firstEntry s a).queue.entries = [{ action := a, source := .link }] := rfl
  rw [State.offer, hp, hq, offerEntries_changer (s := firstEntry s a) (e := { action := a, source := .link }) hkind hjam
    hfree]
  have hrace : ((firstTaken s).trayTake a).raceSwap = (firstTaken s).trayTake a := raceSwap_of_noSwap hlamp
  exact (congrArg State.moveSwap hrace).trans (moveSwap_of_noSwap hlamp)

/-! ## STOP (R106, R131, R132) -/

/-- The tray a STOP leaves, before the queue and a waiting swap are told. -/
def stoppedTray (t : Tray) : Tray :=
  let held := { t with holdDark := true, shutterOpen := false }
  let cutSteps := { held with motion := t.motion.map fun x => { x with remaining := 0 }, cut := true }
  let rests := { held with
    state := if t.valid then .idle else .unhomed, timer := 0, motion := none, seekCount := 0
    current := none, carried := none, cut := false, motor := none }
  match t.state with
  | .changing .shutterClose | .changing .lower | .suspended (.change .shutterClose)
  | .suspended (.change .lower) | .suspended (.change .index) => cutSteps
  | .changing .index | .changing .raise | .changing .settle | .suspended (.change .raise)
  | .suspended (.change .settle) => { held with cut := true }
  | .changing .shutterOpen | .suspended (.change .shutterOpen) => rests
  | .homing .raise | .suspended (.home .raise) => { held with carried := none }
  | .homing .shutterClose | .homing .lower | .homing .seek => { held with carried := none, cut := true }
  | .suspended (.home .shutterClose) | .suspended (.home .lower) | .suspended (.home .seek) =>
    { rests with state := .unhomed, valid := false }
  | .idle | .unhomed | .jammed => held

theorem resting_not_busy (valid : Bool) : (if valid then TrayState.idle else .unhomed).busy = false := by
  cases valid <;> rfl

/-- A STOP at the changer: either its state stays, or a busy changer comes to rest and tells the queue and a waiting
swap. -/
theorem changerStop_cases (s : State) :
    (s.changerStop = { s with tray := stoppedTray s.tray } ∧ (stoppedTray s.tray).state = s.tray.state) ∨
      (s.changerStop = ({ s with tray := stoppedTray s.tray } : State).trayRests ∧ s.tray.state.busy = true ∧
        (stoppedTray s.tray).state.busy = false) := by
  unfold State.changerStop stoppedTray
  dsimp only [State.setTray]
  cases s.tray.state with
  | idle | unhomed | jammed => exact .inl ⟨rfl, rfl⟩
  | changing p =>
    cases p with
    | shutterOpen => exact .inr ⟨rfl, rfl, resting_not_busy _⟩
    | shutterClose | lower | index | raise | settle => exact .inl ⟨rfl, rfl⟩
  | homing p => cases p <;> exact .inl ⟨rfl, rfl⟩
  | suspended r =>
    cases r with
    | change p =>
      cases p with
      | shutterOpen => exact .inr ⟨rfl, rfl, resting_not_busy _⟩
      | shutterClose | lower | index | raise | settle => exact .inl ⟨rfl, rfl⟩
    | home p =>
      cases p with
      | raise => exact .inl ⟨rfl, rfl⟩
      | shutterClose | lower | seek => exact .inr ⟨rfl, rfl, rfl⟩

theorem atRest_of_not_busy {st : TrayState} (h : st.busy = false) : st.atRest = true := by
  cases st with
  | idle | unhomed | jammed => rfl
  | _ => cases h

/-- The state a STOP leaves, before the queue and a waiting swap are told. -/
def stopped (s : State) : State := { s.purge with tray := stoppedTray s.tray }

/-- With no swap waiting, or a changer that goes on, a STOP leaves nothing to follow. -/
theorem stopAll_quiet {s : State} (h : s.lamp.changer ≠ .waitChanger ∨ (stoppedTray s.tray).state.busy = true) :
    s.stopAll = stopped s := by
  rcases changerStop_cases s.purge with ⟨he, -⟩ | ⟨he, -, hrest⟩
  · exact he
  · have hw : s.lamp.changer ≠ .waitChanger :=
      h.resolve_right fun hb => absurd (hrest.symm.trans hb) Bool.false_ne_true
    exact he.trans (trayRests_of_nothingWaits (s := stopped s) ⟨rfl, hw⟩)

/-- A STOP that brings a busy changer to rest. -/
theorem stopAll_rests {s : State} (hbusy : s.tray.state.busy = true) (hrest : (stoppedTray s.tray).state.busy = false) :
    s.stopAll = (stopped s).trayRests := by
  rcases changerStop_cases s.purge with ⟨-, hstate⟩ | ⟨he, -⟩
  · rw [show (stoppedTray s.tray).state = s.tray.state from hstate, hbusy] at hrest
    cases hrest
  · exact he

theorem stopCommand_eq {m : Message} (hp : m.payload = []) (s : State) : stopCommand m s = (.good [], s.stopAll) := by
  rw [stopCommand, if_neg (by simp [hp])]

/-! ## CLEAR_JAM (R51, R124, R161) -/

/-- The lamp changer after CLEAR_JAM. -/
def unjammed (c : LampChanger) : LampChanger := if c = .jammed then .idle else c

theorem unjammed_not_waiting {c : LampChanger} (h : c ≠ .waitChanger) : unjammed c ≠ .waitChanger := by
  unfold unjammed
  split
  · exact fun hc => nomatch hc
  · exact h

theorem clearSwapJam_eq (s : State) : s.clearSwapJam = { s with lamp := { s.lamp with changer := unjammed s.lamp.changer } } := by
  unfold State.clearSwapJam unjammed
  split <;> rfl

/-- A jammed changer cleared, before the queue and a waiting swap are told. -/
def cleared (s : State) : State :=
  { s with
    tray := { s.tray with
      state := .unhomed, valid := false, timer := 0, seekCount := 0, cut := false, motor := none, motion := none
      current := none, carried := none }
    lamp := { s.lamp with changer := unjammed s.lamp.changer } }

theorem clearJam_eq {m : Message} (hp : m.payload = []) (s : State) :
    clearJam m s =
      (.good [trayCode s.clearSwapJam.clearTrayJam.tray.state, lampChangerCode s.clearSwapJam.clearTrayJam.lamp.changer],
        s.clearSwapJam.clearTrayJam) := by
  rw [clearJam, if_neg (by simp [hp])]

theorem clearTrayJam_of_jammed {s : State} (h : s.tray.state = .jammed) :
    s.clearSwapJam.clearTrayJam = (cleared s).trayRests := by
  rw [clearSwapJam_eq]
  exact if_pos h

theorem clearTrayJam_of_not_jammed {s : State} (h : s.tray.state ≠ .jammed) :
    s.clearSwapJam.clearTrayJam = { s with lamp := { s.lamp with changer := unjammed s.lamp.changer } } := by
  rw [clearSwapJam_eq]
  exact if_neg h

/-! ## The obligation -/

/-- Settles O21. -/
theorem actionCommands : Obligations.ActionCommands := by
  refine ⟨fun s m rest a hs ho hk ha hne => ⟨fun hroom => ?placed, fun hfull hn => ?full⟩,
    fun s m rest a hs ho hk ha hempty => ⟨fun hpause hw => ?paused, fun hpause => ⟨?offered, fun hw => ⟨fun n hn => ?audio,
      fun x hx hidle hswap hsupply hopen => ?motion⟩⟩⟩,
    fun s m rest hs ho hk hp => ⟨fun hw => ?stop, fun hbusy hrest => ?stopRests⟩,
    fun s m rest hs ho hk hp => ⟨fun hnj => ?notJammed, fun hj hmotion hcurrent hcarried => ?jammed⟩⟩
  case placed =>
    refine exec_good hs ho (exec_act s) (isKind_of_kind hk) (u := withEntry (s.taking m rest) a) ?_
    rw [actCommand_placed (s := s.taking m rest) ha hroom]
    exact congrArg _ (if_neg hne)
  case full =>
    exact exec_answers hs ho (exec_act s) (isKind_of_kind hk) (actCommand_full (s := s.taking m rest) ha hn hfull)
  case paused =>
    rw [exec_act_empty hs ho hk ha hempty, offer_of_paused (s := firstEntry (s.taking m rest) a) hpause,
      moveSwap_of_noSwap (s := firstEntry (s.taking m rest) a) hw]
    rfl
  case offered =>
    exact ⟨_, exec_pauseExpiry_offering (s := firstEntry (s.taking m rest) a) hs.1 hpause, exec_act_empty hs ho hk ha hempty⟩
  case audio =>
    subst hn
    rw [exec_act_empty hs ho hk ha hempty, offer_firstEntry_immediate (s := s.taking m rest) (a := .audio n) hpause rfl nofun hw,
      firstTaken_eq (s := s.taking m rest) hempty]
    rfl
  case motion =>
    have rest' : s.tray.state = .idle ∨ s.tray.state = .unhomed := .inl hidle
    obtain ⟨hkind, -⟩ := chooser_of_choose (t := s.tray) (a := a) (by rw [hx]; nofun)
    have htake := (trayTake_of_motion (s := firstTaken (s.taking m rest)) hidle hx).trans (beginChange_of_open a x hopen)
    rw [exec_act_empty hs ho hk ha hempty, offer_firstEntry_changer (s := s.taking m rest) hpause hkind
      (not_jammed_of_rest rest') (changerFree_of_rest rest' hswap hsupply) (by rw [htake]; exact hw), htake,
      firstTaken_eq (s := s.taking m rest) hempty]
    rfl
  case stop =>
    exact exec_good hs ho (exec_stop s) (isKind_of_kind hk)
      ((stopCommand_eq hp _).trans (congrArg _ (stopAll_quiet (s := s.taking m rest) hw)))
  case stopRests =>
    refine ⟨_, restsInto_trayRests (s := stopped (s.taking m rest)) hs.1 (atRest_of_not_busy hrest), ?_⟩
    exact exec_good hs ho (exec_stop s) (isKind_of_kind hk)
      ((stopCommand_eq hp _).trans (congrArg _ (stopAll_rests (s := s.taking m rest) hbusy hrest)))
  case notJammed =>
    have hclear := clearJam_eq hp (s.taking m rest)
    rw [clearTrayJam_of_not_jammed (s := s.taking m rest) hnj] at hclear
    exact exec_good hs ho (exec_clearJam s) (isKind_of_kind hk) hclear
  case jammed =>
    have hclear := clearJam_eq hp (s.taking m rest)
    rw [clearTrayJam_of_jammed (s := s.taking m rest) hj] at hclear
    have hexec := exec_good hs ho (exec_clearJam s) (isKind_of_kind hk) hclear
    have hcleared : ∀ t : State, t.tray = s.tray → cleared t =
        { t with
          tray := { t.tray with
            state := .unhomed, valid := false, timer := 0, seekCount := 0, cut := false, motor := none }
          lamp := { t.lamp with changer := unjammed t.lamp.changer } } := by
      intro t ht
      simp only [cleared, ht, hmotion, hcurrent, hcarried]
    refine ⟨fun hnw => ?_, (cleared (s.taking m rest)).trayRests, ?_, hexec⟩
    · have hquiet : (cleared (s.taking m rest)).NothingWaits :=
        ⟨hnw.1, unjammed_not_waiting hnw.2⟩
      rw [hexec, trayRests_of_nothingWaits hquiet, hcleared (s.taking m rest) rfl]
      rfl
    · have hrests := restsInto_trayRests (s := cleared (s.taking m rest)) hs.1 rfl
      have hc := hcleared (s.taking m rest) rfl
      generalize (cleared (s.taking m rest)).trayRests = u at hrests
      rw [hc] at hrests
      exact hrests

end Sys2Proof.Proofs.ActionCommands
end

