-- ==== Sys2Proof/Proofs/Changes.lean ====
section
/-!
The phases of a change up to its RAISE, its resync at the home mark, and its suspension while the supply is CRITICAL
(spec/07 sections 7.2 to 7.4).
-/

namespace Sys2Proof.Proofs.Changes

open Sys2Proof Sys2Proof.Machine Sys2Proof.Proofs.Commands Sys2Proof.Proofs.GotoShorterWay Sys2Proof.Proofs.Rests
open Sys2Proof.Proofs.Invariants Sys2Proof.Proofs.Events

-- One declaration after another, so that the checks of many short proofs do not wait for each other in threads.
set_option Elab.async false

/-! ## The end of a phase (R133) -/

theorem boundary_of_supplied {s : State} (h : s.mon.supply ≠ .critical) (r : Resume) (begin : State → State) :
    s.boundary r begin = begin s := if_neg h

theorem boundary_of_critical {s : State} (h : s.mon.supply = .critical) (r : Resume) (begin : State → State) :
    s.boundary r begin = { s with tray := { s.tray with state := .suspended r, motor := none, timer := 0 } } := if_pos h

/-! ## The switches made (R110, R120; log 14) -/

/-- What the made shutter-closed switch ends. -/
def afterClosed (t : State) : State :=
  match t.tray.state with
  | .changing .shutterClose => t.closeEnds
  | .homing .shutterClose => t.homePhaseEnds State.homeCloseEnds
  | _ => t

/-- The shutter-closed switch made, the other open. -/
def closedMade (s : State) : State := { s with tray := { s.tray with closedSwitch := true, openSwitch := false } }

theorem closedSwitch_made (s : State) : s.closedSwitch true = afterClosed (closedMade s) := by
  unfold State.closedSwitch
  rw [Bool.not_true, Bool.and_false]
  rfl

theorem afterClosed_change {t : State} (h : t.tray.state = .changing .shutterClose) : afterClosed t = t.closeEnds := by
  rw [afterClosed, h]

theorem afterClosed_homing {t : State} (h : t.tray.state = .homing .shutterClose) :
    afterClosed t = t.homePhaseEnds State.homeCloseEnds := by
  rw [afterClosed, h]

/-- What the made gate-down switch ends. -/
def afterDown (t : State) : State :=
  match t.tray.state with
  | .changing .lower => t.lowerEnds
  | .homing .lower => t.homePhaseEnds State.homeLowerEnds
  | _ => t

/-- The gate-down switch made, the other open. -/
def downMade (s : State) : State := { s with tray := { s.tray with downSwitch := true, upSwitch := false } }

theorem downSwitch_made (s : State) : s.downSwitch true = afterDown (downMade s) := by
  unfold State.downSwitch
  rw [Bool.not_true, Bool.and_false]
  rfl

theorem afterDown_change {t : State} (h : t.tray.state = .changing .lower) : afterDown t = t.lowerEnds := by
  rw [afterDown, h]

theorem afterDown_homing {t : State} (h : t.tray.state = .homing .lower) :
    afterDown t = t.homePhaseEnds State.homeLowerEnds := by
  rw [afterDown, h]

/-- What the made gate-up switch ends. -/
def afterUp (t : State) (present : Bool) : State :=
  match t.tray.state with
  | .changing .raise => t.raiseEnds present
  | .homing .raise => t.homeRaiseEnds present
  | _ => t

/-- The gate-up switch made, the other open, with the slide sensor's level. -/
def upMade (s : State) (present : Bool) : State :=
  { s with tray := { s.tray with upSwitch := true, downSwitch := false, slidePresent := present } }

theorem upSwitch_made (s : State) (present : Bool) : s.upSwitch true present = afterUp (upMade s present) present := by
  unfold State.upSwitch
  rw [Bool.not_true, Bool.and_false]
  rfl

theorem afterUp_change {t : State} (h : t.tray.state = .changing .raise) (present : Bool) :
    afterUp t present = t.raiseEnds present := by
  rw [afterUp, h]

theorem afterUp_homing {t : State} (h : t.tray.state = .homing .raise) (present : Bool) :
    afterUp t present = t.homeRaiseEnds present := by
  rw [afterUp, h]

/-- What the made shutter-open switch ends. -/
def afterOpen (t : State) : State :=
  match t.tray.state with
  | .changing .shutterOpen => t.endMotion
  | _ => t

/-- The shutter-open switch made, the other open. -/
def openMade (s : State) : State := { s with tray := { s.tray with openSwitch := true, closedSwitch := false } }

theorem openSwitch_made (s : State) : s.openSwitch true = afterOpen (openMade s) := by
  unfold State.openSwitch
  rw [Bool.not_true, Bool.and_false]
  rfl

theorem afterOpen_change {t : State} (h : t.tray.state = .changing .shutterOpen) : afterOpen t = t.endMotion := by
  rw [afterOpen, h]

/-! ## Phases that begin with their switch open -/

theorem beginLower_of_up {s : State} (h : s.tray.downSwitch = false) :
    s.beginLower = { s with tray := { s.tray with state := .changing .lower, gate := .down, timer := 0 } } :=
  if_neg (by simp [h])

theorem beginRaise_of_down {s : State} (h : s.tray.upSwitch = false) :
    s.beginRaise = { s with tray := { s.tray with state := .changing .raise, gate := .up, timer := 0 } } :=
  if_neg (by simp [h])

theorem beginIndex_of_motion {s : State} {m : Motion} (h : s.tray.motion = some m) :
    s.beginIndex =
      { s with tray := { s.tray with
          state := .changing .index, timer := 0, motor := some (motorFor s.tray.sense m.direction) } } := by
  rw [State.beginIndex, h]; rfl

theorem remaining_of_motion {t : Tray} {m : Motion} (h : t.motion = some m) : t.remaining = m.remaining := by
  rw [Tray.remaining, h]

theorem beginIndexOrRaise_index {s : State} {m : Motion} (h : s.tray.motion = some m) (hr : m.remaining ≠ 0) :
    s.beginIndexOrRaise = s.beginIndex := by
  rw [State.beginIndexOrRaise, remaining_of_motion h, if_neg hr]

theorem beginIndexOrRaise_raise {s : State} {m : Motion} (h : s.tray.motion = some m) (hr : m.remaining = 0) :
    s.beginIndexOrRaise = s.beginRaise := by
  rw [State.beginIndexOrRaise, remaining_of_motion h, if_pos hr]

/-! ## Counted pulses (R111, R113) -/

theorem pulse_of_index {s : State} {m : Motion} (h : s.tray.state = .changing .index) (hmotor : s.tray.motor ≠ none)
    (hm : s.tray.motion = some m) (mark : Bool) : s.pulse mark = s.indexPulse m mark := by
  obtain ⟨d, hd⟩ := Option.ne_none_iff_exists'.mp hmotor
  rw [State.pulse, h, hd, hm]

/-- The step counted: the place in front and one step less to go. -/
def stepped (s : State) (m : Motion) : State :=
  { s with tray := { s.tray with
      position := stepFrom m.direction s.tray.position, motion := some { m with remaining := m.remaining - 1 } } }

/-- What follows a counted step: RAISE with the motor stopped where none is left, the next step otherwise. -/
def afterStep (s : State) : State :=
  if s.tray.remaining = 0 then
    ({ s with tray := { s.tray with motor := none } } : State).boundary (.change .raise) State.beginRaise
  else s.boundary (.change .index) State.beginIndex

/-- Under a STOP's cut no step is left (R131). -/
def cutShort (s : State) : State := if s.tray.cut then { s with tray := s.tray.cutSteps } else s

theorem cutShort_of_cut {s : State} (h : s.tray.cut = true) : cutShort s = { s with tray := s.tray.cutSteps } := if_pos h

theorem cutShort_of_uncut {s : State} (h : s.tray.cut = false) : cutShort s = s := if_neg (by rw [h]; exact Bool.false_ne_true)

theorem indexPulse_eq (s : State) (m : Motion) (mark : Bool) :
    s.indexPulse m mark =
      afterStep (cutShort
        (if mark then (stepped s m).resync { m with remaining := m.remaining - 1 } else stepped s m)) := rfl

theorem afterStep_last {s : State} (h : s.tray.remaining = 0) :
    afterStep s = ({ s with tray := { s.tray with motor := none } } : State).boundary (.change .raise) State.beginRaise :=
  if_pos h

theorem afterStep_next {s : State} (h : s.tray.remaining ≠ 0) :
    afterStep s = s.boundary (.change .index) State.beginIndex := if_neg h

/-- The tray in the next step of INDEX, or suspended before it. -/
def nextTray (supply : SupplyState) (t : Tray) (m : Motion) : Tray :=
  { t with
    timer := 0
    state := if supply = .critical then .suspended (.change .index) else .changing .index
    motor := if supply = .critical then none else some (motorFor t.sense m.direction) }

/-- The next step of INDEX, or its suspension. -/
def nextStep (s : State) (m : Motion) : State := { s with tray := nextTray s.mon.supply s.tray m }

theorem afterStep_of_motion {s : State} {m : Motion} (hm : s.tray.motion = some m) (hr : m.remaining ≠ 0) :
    afterStep s = nextStep s m := by
  rw [afterStep_next (by rw [remaining_of_motion hm]; exact hr), nextStep, nextTray]
  by_cases hc : s.mon.supply = .critical
  · rw [boundary_of_critical hc, if_pos hc, if_pos hc]
  · rw [boundary_of_supplied hc, beginIndex_of_motion hm, if_neg hc, if_neg hc]

/-- The tray in RAISE with the motor stopped, or suspended before it, the gate not up yet. -/
def lastTray (supply : SupplyState) (t : Tray) : Tray :=
  { t with
    motor := none, timer := 0
    state := if supply = .critical then .suspended (.change .raise) else .changing .raise
    gate := if supply = .critical then t.gate else .up }

/-- RAISE with the motor stopped, or its suspension. -/
def lastStep (s : State) : State := { s with tray := lastTray s.mon.supply s.tray }

theorem afterStep_of_no_steps {s : State} (h : s.tray.remaining = 0)
    (hup : s.mon.supply = .critical ∨ s.tray.upSwitch = false) : afterStep s = lastStep s := by
  rw [afterStep_last h, lastStep, lastTray]
  by_cases hc : s.mon.supply = .critical
  · rw [boundary_of_critical (s := { s with tray := { s.tray with motor := none } }) hc, if_pos hc, if_pos hc]
  · rw [boundary_of_supplied (s := { s with tray := { s.tray with motor := none } }) hc,
      beginRaise_of_down (s := { s with tray := { s.tray with motor := none } }) (hup.resolve_left hc), if_neg hc, if_neg hc]

/-! ## Slides (R115, R121) -/

/-- The slot map with what stands in the gate recorded, while the position is valid. -/
def recordedSlots (t : Tray) (present : Bool) : Vector SlotEntry 100 :=
  if t.valid then
    t.slots.setIfInBounds t.position
      { t.slot t.position with occupancy := if present then .present else .empty }
  else t.slots

theorem recordOccupancy_eq (s : State) (present : Bool) :
    s.recordOccupancy present = { s with tray := { s.tray with slots := recordedSlots s.tray present } } := by
  unfold State.recordOccupancy recordedSlots
  split <;> rfl

/-- What a slide in the gate shows: present, no skip flag, and not the gap. -/
def shows (t : Tray) (present : Bool) : Prop :=
  present = true ∧ t.position ≠ 0 ∧ (t.slot t.position).skip = false

/-- The recorded position is eligible exactly when its slide shows. -/
theorem eligible_recorded {t : Tray} {present : Bool} (hv : t.valid = true) (hp : t.position < 100) :
    ({ t with slots := recordedSlots t present } : Tray).eligible true t.position = true ↔ shows t present := by
  have hslot : ({ t with slots := recordedSlots t present } : Tray).slot t.position =
      { t.slot t.position with occupancy := if present then .present else .empty } := by
    unfold recordedSlots Tray.slot
    rw [if_pos hv]
    simp [Vector.getD, hp]
  unfold Tray.eligible shows
  rw [hslot]
  cases present <;> simp

/-- The end of RAISE calls for an extra step (R121). -/
def wantsStep (t : Tray) (present : Bool) : Prop :=
  wantsSlide t.current = true ∧ t.valid = true ∧ t.cut = false ∧
    ¬ ({ t with slots := recordedSlots t present } : Tray).eligible true t.position = true

/-- The state with the occupancy recorded. -/
def recorded (s : State) (present : Bool) : State := { s with tray := { s.tray with slots := recordedSlots s.tray present } }

theorem wantsStep_iff (s : State) (present : Bool) :
    (wantsSlide (recorded s present).tray.current && (recorded s present).tray.valid && !(recorded s present).tray.cut &&
        !(recorded s present).tray.eligible true (recorded s present).tray.position) = true ↔
      wantsStep s.tray present := by
  simp only [Bool.and_eq_true, Bool.not_eq_true', and_assoc, wantsStep, Bool.not_eq_true]
  exact Iff.rfl

theorem raiseEnds_settles {s : State} {m : Motion} {present : Bool} (hm : s.tray.motion = some m)
    (h : ¬ wantsStep s.tray present) :
    s.raiseEnds present = (recorded s present).boundary (.change .settle) State.beginSettle := by
  have hm' : (recorded s present).tray.motion = some m := hm
  rw [State.raiseEnds, recordOccupancy_eq, ← recorded]
  dsimp only
  rw [hm']
  exact if_neg (mt (wantsStep_iff s present).mp h)

/-- The state with the occupancy recorded and one step more to go. -/
def extraStepped (s : State) (present : Bool) (m : Motion) : State :=
  { recorded s present with tray := { (recorded s present).tray with motion := some { m with
      extra := m.extra + 1, target := stepFrom m.direction s.tray.position, remaining := 1 } } }

theorem raiseEnds_steps {s : State} {m : Motion} {present : Bool} (hm : s.tray.motion = some m)
    (h : wantsStep s.tray present) (hx : m.extra < 99) :
    s.raiseEnds present = (extraStepped s present m).boundary (.change .lower) State.beginExtraLower := by
  have hm' : (recorded s present).tray.motion = some m := hm
  rw [State.raiseEnds, recordOccupancy_eq, ← recorded]
  dsimp only
  rw [hm']
  exact (if_pos ((wantsStep_iff s present).mpr h)).trans (if_pos hx)

/-- The state with the occupancy recorded and no slide found, before the latch of TRAY_EMPTY. -/
def gaveUp (s : State) (present : Bool) (m : Motion) : State :=
  { recorded s present with tray := { (recorded s present).tray with
      motion := some { m with dark := true }, trayEmpty := true } }

theorem raiseEnds_gives_up {s : State} {m : Motion} {present : Bool} (hm : s.tray.motion = some m)
    (h : wantsStep s.tray present) (hx : 99 ≤ m.extra) :
    s.raiseEnds present =
      ((gaveUp s present m).latch .trayEmpty).boundary (.change .settle) State.beginSettle := by
  have hm' : (recorded s present).tray.motion = some m := hm
  rw [State.raiseEnds, recordOccupancy_eq, ← recorded]
  dsimp only
  rw [hm']
  exact (if_pos ((wantsStep_iff s present).mpr h)).trans (if_neg (by omega))

/-- A latch and a change of the tray do not meet. -/
theorem latch_withTray (s : State) (f : Flag) (t : Tray) :
    { s.latch f with tray := t } = ({ s with tray := t } : State).latch f := by
  by_cases h : s.latchedFlag f = true
  · rw [latch_of_latched h, latch_of_latched (s := { s with tray := t }) h]
  · have h' := Bool.eq_false_iff.mpr h
    refine Eq.trans ?_ (latch_of_clear (s := { s with tray := t }) h').symm
    rw [latch_of_clear h']
    split
    · exact (if_pos ‹_›).symm
    · exact (if_neg ‹_›).symm

/-- SETTLE, or its suspension, after a latch. -/
theorem settle_latch (s : State) (f : Flag) :
    (s.latch f).boundary (.change .settle) State.beginSettle =
      State.latch (s.boundary (.change .settle) State.beginSettle) f := by
  have hmon : (s.latch f).mon = s.mon := by rw [State.latch_frame]
  by_cases hc : s.mon.supply = .critical
  · rw [boundary_of_critical hc, boundary_of_critical (by rw [hmon]; exact hc), latch_tray]
    exact latch_withTray s f _
  · rw [boundary_of_supplied hc, boundary_of_supplied (by rw [hmon]; exact hc), State.beginSettle, State.setTray, latch_tray]
    exact latch_withTray s f _

end Sys2Proof.Proofs.Changes
end

