-- ==== Sys2Proof/Proofs/ChangePhases.lean ====
section
/-!
The obligations about a change (spec/07 sections 7.2 to 7.4): its phases up to RAISE, the resync, each suspension,
and how it ends from RAISE on.
-/

namespace Sys2Proof.Proofs.ChangePhases

open Sys2Proof Sys2Proof.Machine Sys2Proof.Proofs.Commands Sys2Proof.Proofs.GotoShorterWay Sys2Proof.Proofs.Rests
open Sys2Proof.Proofs.Invariants Sys2Proof.Proofs.Events Sys2Proof.Proofs.Changes

-- One declaration after another, so that the checks of many short proofs do not wait for each other in threads.
set_option Elab.async false

/-! ## The switches and the pulse of a ready changer -/

theorem exec_closedSwitch {s : State} (hs : s.Ready) :
    exec (.shutterClosedSwitch true) s = .next (afterClosed (closedMade s)) := by
  rw [exec_shutterClosedSwitch, whenSettled_of_ready hs, closedSwitch_made]

theorem exec_downSwitch {s : State} (hs : s.Ready) : exec (.gateDownSwitch true) s = .next (afterDown (downMade s)) := by
  rw [exec_gateDownSwitch, whenSettled_of_ready hs, downSwitch_made]

theorem exec_upSwitch {s : State} (hs : s.Ready) (present : Bool) :
    exec (.gateUpSwitch true present) s = .next (afterUp (upMade s present) present) := by
  rw [exec_gateUpSwitch, whenSettled_of_ready hs, upSwitch_made]

theorem exec_openSwitch {s : State} (hs : s.Ready) :
    exec (.shutterOpenSwitch true) s = .next (afterOpen (openMade s)) := by
  rw [exec_shutterOpenSwitch, whenSettled_of_ready hs, openSwitch_made]

theorem exec_pulse {s : State} (hs : s.Ready) (mark : Bool) : exec (.indexPulse mark) s = .next (s.pulse mark) := by
  rw [exec_indexPulse, whenSettled_of_ready hs]

/-! ## Steps -/

/-- A plain step that is not the last. -/
theorem indexPulse_next {s : State} {m : Motion} (hcut : s.tray.cut = false) (hr : 2 ≤ m.remaining) :
    s.indexPulse m false = nextStep (stepped s m) { m with remaining := m.remaining - 1 } := by
  rw [indexPulse_eq, if_neg Bool.false_ne_true, cutShort_of_uncut (s := stepped s m) hcut]
  exact afterStep_of_motion (m := { m with remaining := m.remaining - 1 }) rfl (by dsimp only; omega)

/-- A plain step after which none is left. -/
theorem indexPulse_last {s : State} {m : Motion} (h : s.tray.cut = true ∨ m.remaining - 1 = 0)
    (hup : s.mon.supply = .critical ∨ s.tray.upSwitch = false) :
    s.indexPulse m false =
      lastStep { stepped s m with tray := { (stepped s m).tray with motion := some { m with remaining := 0 } } } := by
  rw [indexPulse_eq, if_neg Bool.false_ne_true]
  by_cases hcut : s.tray.cut = true
  · rw [cutShort_of_cut (s := stepped s m) hcut]
    exact afterStep_of_no_steps rfl hup
  · have hz : m.remaining - 1 = 0 := h.resolve_left hcut
    rw [cutShort_of_uncut (s := stepped s m) (Bool.eq_false_iff.mpr hcut)]
    refine (afterStep_of_no_steps (s := stepped s m) hz hup).trans ?_
    rw [stepped, hz]

/-! ## The home mark at a counted pulse (R113; log 30) -/

/-- The steps counted from the home mark. -/
def anew (m : Motion) : Motion := { m with remaining := distanceIn m.direction 0 m.target }

theorem resync_zero {s : State} (m : Motion) (hv : s.tray.valid = true) (h : s.tray.position = 0) :
    s.resync m = { s with tray := { s.tray with positionError := false } } := by
  rw [State.resync, if_pos hv, if_pos h]; rfl

theorem resync_other {s : State} (m : Motion) (hv : s.tray.valid = true) (h : s.tray.position ≠ 0) :
    s.resync m =
      State.latch { s with tray := { s.tray with position := 0, motion := some (anew m), positionError := true } }
        .positionError := by
  rw [State.resync, if_pos hv, if_neg h]; rfl

theorem senseAgrees_iff (s : State) :
    s.senseAgrees = true ↔ s.tray.sense = some (if s.paramNat .traySense = 0 then .normal else .reversed) :=
  decide_eq_true_iff

theorem resync_agreeing {s : State} (m : Motion) (hv : s.tray.valid = false) (h : s.senseAgrees = true) :
    s.resync m =
      { s with tray := { s.tray with
          position := 0, motion := some (anew m), valid := true
          positionError := s.tray.positionError && decide (s.tray.position ≠ 0) } } := by
  unfold State.resync
  rw [hv, if_neg Bool.false_ne_true]
  exact if_pos h

theorem resync_differing {s : State} (m : Motion) (hv : s.tray.valid = false) (h : ¬ s.senseAgrees = true) :
    s.resync m =
      { s with tray := { s.tray with
          position := 0, positionError := s.tray.positionError && decide (s.tray.position ≠ 0) } } := by
  unfold State.resync
  rw [hv, if_neg Bool.false_ne_true]
  exact if_neg h

/-- A pulse with the home mark, the change not cut. -/
theorem indexPulse_marked {s : State} {m : Motion} {t : State}
    (ht : (stepped s m).resync { m with remaining := m.remaining - 1 } = t) (hcut : t.tray.cut = false) :
    s.indexPulse m true = afterStep t := by
  rw [indexPulse_eq, if_pos rfl, ht, cutShort_of_uncut hcut]

/-- A step after a latch. -/
theorem nextStep_latch (s : State) (f : Flag) (m : Motion) : nextStep (s.latch f) m = (nextStep s m).latch f := by
  have ht : nextTray (s.latch f).mon.supply (s.latch f).tray m = nextTray s.mon.supply s.tray m := by
    rw [State.latch_frame]
  rw [nextStep, ht]
  exact latch_withTray s f _

theorem lastStep_latch (s : State) (f : Flag) : lastStep (s.latch f) = (lastStep s).latch f := by
  have ht : lastTray (s.latch f).mon.supply (s.latch f).tray = lastTray s.mon.supply s.tray := by rw [State.latch_frame]
  rw [lastStep, ht]
  exact latch_withTray s f _

/-! ## RAISE -/

theorem wantsStep_iff_shows {t : Tray} {present : Bool} (hp : t.position < 100) :
    wantsStep t present ↔ wantsSlide t.current = true ∧ t.valid = true ∧ t.cut = false ∧ ¬ shows t present := by
  unfold wantsStep
  constructor
  · rintro ⟨hw, hv, hc, he⟩
    exact ⟨hw, hv, hc, mt (eligible_recorded hv hp).mpr he⟩
  · rintro ⟨hw, hv, hc, he⟩
    exact ⟨hw, hv, hc, mt (eligible_recorded hv hp).mp he⟩

/-! ## SETTLE -/

theorem settleEnd_of_due {s : State} (hst : s.tray.state = .changing .settle) (ht : 15 ≤ s.tray.timer) :
    s.settleEnd = s.settleEnds := by
  rw [State.settleEnd, if_pos]
  rw [State.settleDue, decide_eq_true hst, decide_eq_true ht]
  rfl

theorem endsDark_iff (s : State) :
    s.endsDark = true ↔
      s.tray.holdDark = true ∨ s.mon.thermal = .overheat ∨ ∃ m, s.tray.motion = some m ∧ m.dark = true := by
  simp only [State.endsDark, Bool.or_eq_true, decide_eq_true_eq, Option.any_eq_true, or_assoc]

/-- With no hold SHUTTER_OPEN follows SETTLE. -/
theorem settleEnds_of_lit {s : State} (hd : s.tray.holdDark = false) (ht : s.mon.thermal ≠ .overheat)
    (hm : ∀ m, s.tray.motion = some m → m.dark = false) :
    s.settleEnds = s.boundary (.change .shutterOpen) State.beginShutterOpen := by
  refine if_neg (mt (endsDark_iff s).mp ?_)
  rintro (h | h | ⟨m, hmot, h⟩)
  · rw [hd] at h; cases h
  · exact ht h
  · rw [hm m hmot] at h; cases h

theorem beginExtraLower_of_up {s : State} (h : s.tray.downSwitch = false) :
    s.beginExtraLower = { s with tray := { s.tray with state := .changing .lower, gate := .down, timer := 0 } } :=
  if_neg (by simp [h])

/-- Settles O34, phase by phase: each goes on over `boundary`, which suspends under a CRITICAL supply. -/
theorem changeMovesTrayOrSuspends : Obligations.ChangeMovesTrayOrSuspends := by
  refine ⟨fun s m hs hsup hm => ⟨fun hst hdown => ?close, fun hst hr => ?lowerIndex, fun hst hr => ?lowerRaise,
    fun hst hmotor hcut hr => ?step, fun hst hmotor hlast hup => ?last⟩,
    fun s m hs hm hst hmotor hcut hr => ⟨fun hv hc => ?zero, fun hv hc hr' => ?other, fun hv ha hr' => ?agree,
      fun hv ha => ?differ, fun hv hc hr' hup => ?otherLast⟩,
    fun s hs hc => ⟨fun hst => ?closeSuspends, fun m hst hm => ?lowerSuspends, fun m hst hmotor hm => ?stepSuspends,
      fun present m hst hm hp => ⟨fun hno => ?settleSuspends, fun hstep hx => ?extraSuspends,
        fun hstep hx => ?emptySuspends⟩⟩,
    fun s hp hc hst htimer hdark htherm hmdark => ?shutterSuspends⟩
  case close =>
    rw [exec_closedSwitch hs, afterClosed_change (t := closedMade s) hst, State.closeEnds,
      boundary_of_supplied (s := closedMade s) hsup, beginLower_of_up (s := closedMade s) hdown]
    rfl
  case lowerIndex =>
    rw [exec_downSwitch hs, afterDown_change (t := downMade s) hst, State.lowerEnds,
      boundary_of_supplied (s := downMade s) hsup, beginIndexOrRaise_index (s := downMade s) hm hr,
      beginIndex_of_motion (s := downMade s) hm]
    rfl
  case lowerRaise =>
    rw [exec_downSwitch hs, afterDown_change (t := downMade s) hst, State.lowerEnds,
      boundary_of_supplied (s := downMade s) hsup, beginIndexOrRaise_raise (s := downMade s) hm hr,
      beginRaise_of_down (s := downMade s) rfl]
    rfl
  case step =>
    rw [exec_pulse hs, pulse_of_index hst hmotor hm, indexPulse_next hcut hr, nextStep, nextTray]
    simp only [stepped, hsup, hst, if_false]
  case last =>
    rw [exec_pulse hs, pulse_of_index hst hmotor hm, indexPulse_last (hlast.imp id (by omega)) (.inr hup), lastStep, lastTray]
    simp only [stepped, hsup, if_false]
  case zero =>
    have ht := resync_zero (s := stepped s m) { m with remaining := m.remaining - 1 } hv hc
    rw [exec_pulse hs, pulse_of_index hst hmotor hm, indexPulse_marked ht hcut,
      afterStep_of_motion (m := { m with remaining := m.remaining - 1 }) rfl (by dsimp only; omega)]
    exact congrArg _ (by rw [nextStep, nextTray, stepped]; dsimp only; rw [hc])
  case other =>
    have ht := resync_other (s := stepped s m) { m with remaining := m.remaining - 1 } hv hc
    rw [exec_pulse hs, pulse_of_index hst hmotor hm, indexPulse_marked ht (by rw [latch_tray]; exact hcut),
      afterStep_of_motion (m := anew m) (by rw [latch_tray]; rfl) hr', nextStep_latch]
    rfl
  case agree =>
    have ht := resync_agreeing (s := stepped s m) { m with remaining := m.remaining - 1 } hv ((senseAgrees_iff s).mpr ha)
    rw [exec_pulse hs, pulse_of_index hst hmotor hm, indexPulse_marked ht hcut,
      afterStep_of_motion (m := anew m) rfl hr']
    rfl
  case differ =>
    have ht := resync_differing (s := stepped s m) { m with remaining := m.remaining - 1 } hv
      (mt (senseAgrees_iff s).mp ha)
    rw [exec_pulse hs, pulse_of_index hst hmotor hm, indexPulse_marked ht hcut,
      afterStep_of_motion (m := { m with remaining := m.remaining - 1 }) rfl (by dsimp only; omega)]
    rw [nextStep, nextTray, stepped]
  case otherLast =>
    have ht := resync_other (s := stepped s m) { m with remaining := m.remaining - 1 } hv hc
    rw [exec_pulse hs, pulse_of_index hst hmotor hm, indexPulse_marked ht (by rw [latch_tray]; exact hcut),
      afterStep_of_no_steps (by rw [latch_tray]; exact hr')
        (by rw [latch_tray, State.latch_frame]; exact hup), lastStep_latch]
    rfl
  case closeSuspends =>
    rw [exec_closedSwitch hs, afterClosed_change (t := closedMade s) hst, State.closeEnds,
      boundary_of_critical (s := closedMade s) hc]
    rfl
  case lowerSuspends =>
    rw [exec_downSwitch hs, afterDown_change (t := downMade s) hst, State.lowerEnds,
      boundary_of_critical (s := downMade s) hc, remaining_of_motion (t := (downMade s).tray) hm]
    rfl
  case stepSuspends =>
    rw [exec_pulse hs, pulse_of_index hst hmotor hm]
    by_cases hleft : s.tray.cut = true ∨ m.remaining - 1 = 0
    · have hz : (if s.tray.cut then 0 else m.remaining - 1) = 0 := by
        rcases hleft with h | h
        · rw [if_pos h]
        · rw [h, ite_self]
      rw [indexPulse_last hleft (.inl hc), lastStep, lastTray]
      simp only [stepped, hc, hz, if_true]
    · obtain ⟨hcut, hr⟩ := not_or.mp hleft
      rw [indexPulse_next (Bool.eq_false_iff.mpr hcut) (by omega), nextStep, nextTray]
      simp only [stepped, hc, hcut, hr, if_true, if_false, Bool.false_eq_true]
  case settleSuspends =>
    have hno' : ¬ wantsStep (upMade s present).tray present := mt (wantsStep_iff_shows hp).mp hno
    rw [exec_upSwitch hs, afterUp_change (t := upMade s present) hst, raiseEnds_settles (s := upMade s present) hm hno',
      boundary_of_critical (s := recorded (upMade s present) present) hc]
    rfl
  case extraSuspends =>
    have hstep' : wantsStep (upMade s present).tray present := (wantsStep_iff_shows hp).mpr hstep
    rw [exec_upSwitch hs, afterUp_change (t := upMade s present) hst, raiseEnds_steps (s := upMade s present) hm hstep' hx]
    rw [boundary_of_critical (s := extraStepped (upMade s present) present m) hc]
    rfl
  case emptySuspends =>
    have hstep' : wantsStep (upMade s present).tray present := (wantsStep_iff_shows hp).mpr hstep
    rw [exec_upSwitch hs, afterUp_change (t := upMade s present) hst,
      raiseEnds_gives_up (s := upMade s present) hm hstep' hx, settle_latch]
    rw [boundary_of_critical (s := gaveUp (upMade s present) present m) hc]
    rfl
  case shutterSuspends =>
    rw [exec_settleEnd, whenPowered_of_powered hp, settleEnd_of_due hst htimer, settleEnds_of_lit hdark htherm hmdark,
      boundary_of_critical hc]

/-! ## The end of a change (R122) -/

theorem restingTray_atRest (t : Tray) : (restingTray t).state.atRest = true := by
  cases h : t.valid <;> simp [restingTray, h, TrayState.atRest]

/-- A motion that ends, as the statements speak of it. -/
theorem rests_of_endMotion {s : State} {o : Host.Outcome State Fault Refusal} (ho : o = .next s.endMotion)
    (hp : s.powered = true) :
    ((s.setTray (restingTray s.tray)).NothingWaits → o = .next (s.setTray (restingTray s.tray))) ∧
      (s.setTray (restingTray s.tray)).RestsInto o :=
  rests_of_outcome (s := s.setTray (restingTray s.tray)) ho hp (restingTray_atRest s.tray)

theorem settleEnds_of_dark {s : State} {m : Motion} (hm : s.tray.motion = some m)
    (h : s.tray.holdDark = true ∨ s.mon.thermal = .overheat ∨ m.dark = true) : s.settleEnds = s.endMotion :=
  if_pos ((endsDark_iff s).mpr (h.imp id (.imp id fun hd => ⟨m, hm, hd⟩)))

theorem beginShutterOpen_of_closed {s : State} (h : s.tray.openSwitch = false) :
    s.beginShutterOpen =
      { s with tray := { s.tray with state := .changing .shutterOpen, shutterOpen := true, timer := 0 } } :=
  if_neg (by simp [h])

/-- An ADVANCE or REVERSE with its skip flag looks for a slide. -/
theorem wantsSlide_of_skip {a : Option Action} (h : ∃ n, a = some (.advance n true) ∨ a = some (.reverse n true)) :
    wantsSlide a = true := by
  obtain ⟨n, rfl | rfl⟩ := h <;> rfl

theorem not_wantsStep {t : Tray} (present : Bool) (h : wantsSlide t.current = false ∨ t.cut = true ∨ t.valid = false) :
    ¬ wantsStep t present := by
  rintro ⟨hw, hv, hc, -⟩
  rcases h with h | h | h
  · rw [hw] at h; cases h
  · rw [hc] at h; cases h
  · rw [hv] at h; cases h

/-- Settles O35: RAISE by its test for an extra step, SETTLE by its holds, the ends as entries into rest. -/
theorem changeEndsShowingSlide : Obligations.ChangeEndsShowingSlide := by
  refine ⟨fun s m hs hm => ⟨fun present hsup hst hno => ?settles,
    fun present hsup hst hskip hv hcut hp => ⟨fun hshows => ?shown, fun hno hx => ?extra, fun hno hx => ?empty⟩,
    fun hst => rests_of_endMotion (s := openMade s) ?_ hs.1⟩,
    fun s m hp hm hst htimer => ⟨fun hsup hdark htherm hmd hopen => ?opens,
      fun hdark => rests_of_endMotion (s := s) ?_ hp⟩⟩
  case settles =>
    rw [exec_upSwitch hs, afterUp_change (t := upMade s present) hst,
      raiseEnds_settles (s := upMade s present) hm (not_wantsStep present hno),
      boundary_of_supplied (s := recorded (upMade s present) present) hsup]
    rfl
  case shown =>
    have hno : ¬ wantsStep (upMade s present).tray present := fun h =>
      ((wantsStep_iff_shows (t := (upMade s present).tray) hp).mp h).2.2.2 hshows
    rw [exec_upSwitch hs, afterUp_change (t := upMade s present) hst, raiseEnds_settles (s := upMade s present) hm hno,
      boundary_of_supplied (s := recorded (upMade s present) present) hsup, State.beginSettle, recorded, recordedSlots,
      if_pos (show (upMade s present).tray.valid = true from hv)]
    rfl
  case extra =>
    have hstep : wantsStep (upMade s present).tray present :=
      (wantsStep_iff_shows (t := (upMade s present).tray) hp).mpr ⟨wantsSlide_of_skip hskip, hv, hcut, hno⟩
    rw [exec_upSwitch hs, afterUp_change (t := upMade s present) hst, raiseEnds_steps (s := upMade s present) hm hstep hx,
      boundary_of_supplied (s := extraStepped (upMade s present) present m) hsup,
      beginExtraLower_of_up (s := extraStepped (upMade s present) present m) rfl, extraStepped, recorded, recordedSlots,
      if_pos (show (upMade s present).tray.valid = true from hv)]
    rfl
  case empty =>
    have hstep : wantsStep (upMade s present).tray present :=
      (wantsStep_iff_shows (t := (upMade s present).tray) hp).mpr ⟨wantsSlide_of_skip hskip, hv, hcut, hno⟩
    rw [exec_upSwitch hs, afterUp_change (t := upMade s present) hst,
      raiseEnds_gives_up (s := upMade s present) hm hstep hx, settle_latch,
      boundary_of_supplied (s := gaveUp (upMade s present) present m) hsup, State.beginSettle, gaveUp, recorded,
      recordedSlots, if_pos (show (upMade s present).tray.valid = true from hv)]
    rfl
  case opens =>
    have hmd' : ∀ m', s.tray.motion = some m' → m'.dark = false := fun m' h => by
      rw [← Option.some.inj (hm.symm.trans h)]; exact hmd
    rw [exec_settleEnd, whenPowered_of_powered hp, settleEnd_of_due hst htimer, settleEnds_of_lit hdark htherm hmd',
      boundary_of_supplied hsup, beginShutterOpen_of_closed hopen]
  · rw [exec_openSwitch hs, afterOpen_change (t := openMade s) hst]
  · rw [exec_settleEnd, whenPowered_of_powered hp, settleEnd_of_due hst htimer, settleEnds_of_dark hm hdark]

end Sys2Proof.Proofs.ChangePhases
end

