-- ==== Sys2Proof/Proofs/Homing.lean ====
section
/-!
The obligations about a homing (spec/07 section 7.6) and about jams and pulses that are not counted (section 7.5).
-/

namespace Sys2Proof.Proofs.Homing

open Sys2Proof Sys2Proof.Machine Sys2Proof.Proofs.Commands Sys2Proof.Proofs.GotoShorterWay Sys2Proof.Proofs.Rests
open Sys2Proof.Proofs.Invariants Sys2Proof.Proofs.Events Sys2Proof.Proofs.Changes Sys2Proof.Proofs.ChangePhases
open Sys2Proof.Proofs.QueueOffers Sys2Proof.Proofs.Offers

-- One declaration after another, so that the checks of many short proofs do not wait for each other in threads.
set_option Elab.async false

/-! ## Jams (R123, R127) -/

/-- The changer as it jams, before JAM latches. -/
def jamming (s : State) : State :=
  { s with tray := { s.tray with
      state := .jammed, timer := 0, valid := false, motion := none, seekCount := 0, current := none, carried := none
      cut := false, shutterOpen := false, gate := .off, motor := none } }

theorem latchIf_isSome (s : State) (o : Option Action) (f : Flag) :
    s.latchIf o.isSome f = if o = none then s else s.latch f := by
  cases o <;> rfl

/-- The changer jammed, its flags latched. -/
def jammed (s : State) : State :=
  if s.tray.carried = none then (jamming s).latch .jam else ((jamming s).latch .jam).latch .actionDiscarded

theorem jam_eq (s : State) : s.jam = (jammed s).trayRests :=
  congrArg State.trayRests (latchIf_isSome ((jamming s).latch .jam) s.tray.carried .actionDiscarded)

theorem nothingWaits_latch (s : State) (f : Flag) : (s.latch f).NothingWaits ↔ s.NothingWaits := by
  unfold State.NothingWaits
  rw [State.latch_frame]

/-- A rest entered with one latch more or not, as the statements speak of it. -/
theorem rests_of_latched {s : State} {c : Prop} [Decidable c] {f : Flag} {o : Host.Outcome State Fault Refusal}
    (ho : o = .next (if c then s else s.latch f).trayRests) (hp : s.powered = true) (hr : s.tray.state.atRest = true) :
    (s.NothingWaits → o = .next (if c then s else s.latch f)) ∧ (if c then s else s.latch f).RestsInto o := by
  by_cases h : c
  · rw [if_pos h] at ho ⊢
    exact rests_of_outcome ho hp hr
  · rw [if_neg h] at ho ⊢
    obtain ⟨halone, hrests⟩ := rests_of_outcome ho (by rw [State.latch_frame]; exact hp) (by rw [latch_tray]; exact hr)
    exact ⟨fun hn => halone ((nothingWaits_latch s f).mpr hn), hrests⟩

/-- What a jam does, as the statement speaks of it. -/
theorem rests_of_jam {s : State} {o : Host.Outcome State Fault Refusal} (ho : o = .next s.jam) (hp : s.powered = true) :
    (s.NothingWaits → o = .next (jammed s)) ∧ (jammed s).RestsInto o := by
  obtain ⟨halone, hrests⟩ := rests_of_latched (s := (jamming s).latch .jam) (ho.trans (congrArg _ (jam_eq s)))
    (by rw [State.latch_frame]; exact hp) (by rw [latch_tray]; rfl)
  exact ⟨fun h => halone ((nothingWaits_latch (jamming s) _).mpr h), hrests⟩

/-! ## Pulses that are not counted (R114) -/

/-- The position invalid by an unexpected pulse, before POSITION_ERROR latches. -/
def misplaced (s : State) : State := { s with tray := { s.tray with valid := false, positionError := true } }

/-- A motion that ends after a latch. -/
theorem endMotion_latch (s : State) (f : Flag) :
    (s.latch f).endMotion = ((s.setTray (restingTray s.tray)).latch f).trayRests := by
  rw [endMotion_eq, latch_tray]
  exact congrArg State.trayRests (latch_withTray s f _)

theorem unexpectedPulse_idle {s : State} (hi : s.tray.state = .idle) (hv : s.tray.valid = true) :
    s.unexpectedPulse =
      (((misplaced s).setTray (restingTray (misplaced s).tray)).latch .positionError).trayRests := by
  rw [State.unexpectedPulse, if_pos hv]
  exact (if_pos hi).trans (endMotion_latch (misplaced s) .positionError)

theorem unexpectedPulse_busy {s : State} (hi : s.tray.state ≠ .idle) (hv : s.tray.valid = true) :
    s.unexpectedPulse = (misplaced s).latch .positionError := by
  rw [State.unexpectedPulse, if_pos hv]
  exact if_neg hi

theorem unexpectedPulse_invalid {s : State} (hv : s.tray.valid = false) : s.unexpectedPulse = s := by
  rw [State.unexpectedPulse, hv]
  exact if_neg Bool.false_ne_true

theorem pulse_uncounted {s : State} (hindex : s.tray.state ≠ .changing .index) (hseek : s.tray.state ≠ .homing .seek)
    (mark : Bool) : s.pulse mark = s.unexpectedPulse := by
  unfold State.pulse
  split
  next h _ _ => exact absurd h hindex
  next h _ => exact absurd h hseek
  · rfl

/-- Settles O37: a jam and an IDLE changer's unexpected pulse are entries into rest. -/
theorem jamsAndUnexpectedPulses : Obligations.JamsAndUnexpectedPulses := by
  refine ⟨fun s hp => ⟨fun ⟨n, hlimit, hn⟩ => rests_of_jam ?limit hp, fun hst hcount => rests_of_jam ?seek hp⟩,
    fun s mark hs => ⟨fun hi hv => ?idle, fun hindex hseek => ⟨fun hi hv => ?busy, fun hv => ?invalid⟩⟩⟩
  case limit =>
    rw [exec_phaseLimitExpiry, whenPowered_of_powered hp, State.phaseLimit, State.phaseExpired, hlimit]
    exact congrArg _ (if_pos (decide_eq_true hn))
  case seek =>
    rw [exec_seekExhausted, whenPowered_of_powered hp, State.seekExhausted, State.seekSpent, decide_eq_true hst,
      decide_eq_true hcount]
    rfl
  case idle =>
    have ho : exec (.indexPulse mark) s =
        .next (((misplaced s).setTray (restingTray (misplaced s).tray)).latch .positionError).trayRests := by
      rw [exec_pulse hs, pulse_uncounted (by rw [hi]; nofun) (by rw [hi]; nofun), unexpectedPulse_idle hi hv]
    obtain ⟨halone, hrests⟩ := rests_of_outcome ho (by rw [State.latch_frame]; exact hs.1) (by rw [latch_tray]; rfl)
    exact ⟨fun h => halone ((nothingWaits_latch _ _).mpr h), hrests⟩
  case busy => rw [exec_pulse hs, pulse_uncounted hindex hseek, unexpectedPulse_busy hi hv, misplaced]
  case invalid => rw [exec_pulse hs, pulse_uncounted hindex hseek, unexpectedPulse_invalid hv]

/-! ## The phases of a homing (R125, R132, R133) -/

/-- The tray in SEEK, or suspended before it or before its next step. -/
def seekingTray (supply : SupplyState) (t : Tray) : Tray :=
  if supply = .critical then { t with state := .suspended (.home .seek), motor := none, timer := 0 }
  else { t with state := .homing .seek, motor := some (motorFor t.sense .forward), timer := 0 }

theorem boundary_seek (s : State) :
    s.boundary (.home .seek) State.beginSeek = { s with tray := seekingTray s.mon.supply s.tray } := by
  unfold seekingTray
  by_cases hc : s.mon.supply = .critical
  · rw [boundary_of_critical hc, if_pos hc]
  · rw [boundary_of_supplied hc, if_neg hc]; rfl

theorem homePhaseEnds_of_uncut {s : State} (h : s.tray.cut = false) (next : State → State) :
    s.homePhaseEnds next = next s :=
  if_neg (by rw [h]; exact Bool.false_ne_true)

/-- A phase of a homing that a STOP has cut. -/
theorem homePhaseEnds_of_cut {s : State} (h : s.tray.cut = true) (next : State → State) :
    s.homePhaseEnds next = s.enterUnhomed := if_pos h

/-- An entry into UNHOMED, as the statements speak of it. -/
theorem restsInto_of_unhomed {s : State} {o : Host.Outcome State Fault Refusal} (ho : o = .next s.enterUnhomed)
    (hp : s.powered = true) :
    (s.setTray (restingTray { s.tray with valid := false })).RestsInto o :=
  (rests_of_endMotion (s := s.setTray { s.tray with valid := false }) ho hp).2

/-- LOWER of a homing begun, the gate driven down. -/
def loweringHome (s : State) : State :=
  { s with tray := { s.tray with state := .homing .lower, gate := .down, timer := 0 } }

theorem beginHomeLower_eq (s : State) :
    s.beginHomeLower =
      if s.tray.downSwitch then { s with tray := seekingTray s.mon.supply (loweringHome s).tray } else loweringHome s := by
  have h := boundary_seek (loweringHome s)
  unfold State.beginHomeLower State.homeLowerEnds
  exact congrArg (fun u => if s.tray.downSwitch then u else loweringHome s) h

/-- The pulse counted in SEEK. -/
def sought (s : State) : State :=
  { s with tray := { s.tray with
      position := stepFrom .forward s.tray.position, seekCount := min 101 (s.tray.seekCount + 1) } }

theorem pulse_of_seek {s : State} (h : s.tray.state = .homing .seek) (hmotor : s.tray.motor ≠ none) (mark : Bool) :
    s.pulse mark = s.seekPulse mark := by
  obtain ⟨d, hd⟩ := Option.ne_none_iff_exists'.mp hmotor
  rw [State.pulse, h, hd]

theorem seekPulse_of_cut {s : State} (h : s.tray.cut = true) (mark : Bool) : s.seekPulse mark = (sought s).enterUnhomed :=
  if_pos h

theorem seekPulse_unmarked {s : State} (h : s.tray.cut = false) :
    s.seekPulse false =
      { sought s with tray :=
          if s.tray.seekCount < 100 then seekingTray s.mon.supply (sought s).tray else (sought s).tray } := by
  have hseek := boundary_seek (sought s)
  have hcut : ¬ (sought s).tray.cut = true := by rw [show (sought s).tray.cut = false from h]; exact Bool.false_ne_true
  refine (if_neg hcut).trans ((if_neg Bool.false_ne_true).trans ?_)
  by_cases hlast : s.tray.seekCount < 100
  · rw [if_pos hlast]
    refine (if_neg ?_).trans hseek
    show ¬ 101 ≤ min 101 (s.tray.seekCount + 1)
    omega
  · rw [if_neg hlast]
    refine if_pos ?_
    show 101 ≤ min 101 (s.tray.seekCount + 1)
    omega

theorem seekPulse_marked {s : State} (h : s.tray.cut = false) : s.seekPulse true = (sought s).homeFound := by
  have hcut : ¬ (sought s).tray.cut = true := by rw [show (sought s).tray.cut = false from h]; exact Bool.false_ne_true
  exact (if_neg hcut).trans (if_pos rfl)

/-! ## The home mark of a homing (R112, R126) -/

/-- The tray in RAISE of a homing, or suspended before it, the gate not up yet. -/
def raisingTray (supply : SupplyState) (t : Tray) : Tray :=
  { t with
    timer := 0, motor := none
    state := if supply = .critical then .suspended (.home .raise) else .homing .raise
    gate := if supply = .critical then t.gate else .up }

/-- RAISE of a homing, or its suspension. -/
def raising (s : State) : State := { s with tray := raisingTray s.mon.supply s.tray }

theorem boundary_raise {s : State} (hmotor : s.tray.motor = none)
    (hup : s.mon.supply = .critical ∨ s.tray.upSwitch = false) :
    s.boundary (.home .raise) State.beginHomeRaise = raising s := by
  unfold raising raisingTray
  by_cases hc : s.mon.supply = .critical
  · rw [boundary_of_critical hc, if_pos hc, if_pos hc]
  · rw [boundary_of_supplied hc, if_neg hc, if_neg hc, ← hmotor]
    refine if_neg ?_
    show ¬ s.tray.upSwitch = true
    rw [hup.resolve_left hc]
    exact Bool.false_ne_true

theorem raising_latch (s : State) (f : Flag) : raising (s.latch f) = (raising s).latch f := by
  have ht : raisingTray (s.latch f).mon.supply (s.latch f).tray = raisingTray s.mon.supply s.tray := by
    rw [State.latch_frame]
  rw [raising, ht]
  exact latch_withTray s f _

theorem boundary_raise_latch {s : State} (f : Flag) (hmotor : s.tray.motor = none)
    (hup : s.mon.supply = .critical ∨ s.tray.upSwitch = false) :
    (s.latch f).boundary (.home .raise) State.beginHomeRaise = (raising s).latch f := by
  rw [boundary_raise (by rw [latch_tray]; exact hmotor) (by rw [State.latch_frame]; exact hup), raising_latch]

/-- The position found, the motor stopped. -/
def located (s : State) : State :=
  { sought s with tray := { (sought s).tray with position := 0, valid := true, positionError := false, motor := none } }

theorem homeFound_of_agreeing {s : State} (h : s.senseAgrees = true) : (sought s).homeFound = (located s).carryOn :=
  if_pos h

/-- The homing given up at the mark, the carried action gone. -/
def disagreed (s : State) : State := { sought s with tray := { (sought s).tray with motor := none, carried := none } }

theorem homeFound_of_differing {s : State} (h : ¬ s.senseAgrees = true) :
    (sought s).homeFound =
      (if s.tray.carried = none then disagreed s else (disagreed s).latch .actionDiscarded).enterUnhomed :=
  (if_neg h).trans (congrArg State.enterUnhomed (latchIf_isSome (disagreed s) s.tray.carried .actionDiscarded))

theorem enterUnhomed_latch (s : State) (f : Flag) :
    (s.latch f).enterUnhomed = ((s.setTray (restingTray { s.tray with valid := false })).latch f).trayRests := by
  have h := latch_withTray s f { s.tray with valid := false }
  rw [State.enterUnhomed, State.setTray, latch_tray, h]
  exact endMotion_latch (s.setTray { s.tray with valid := false }) f

/-- No action carried, or none with a choice to make: RAISE follows. -/
theorem carryOn_plain {s : State}
    (h : s.tray.carried = none ∨ s.tray.carried = some .home ∨ ∃ close, s.tray.carried = some (.shutter close)) :
    s.carryOn = s.boundary (.home .raise) State.beginHomeRaise := by
  unfold State.carryOn
  rcases h with h | h | ⟨close, h⟩ <;> rw [h]

/-- The carried action no longer carried. -/
def uncarried (s : State) : State := { s with tray := { s.tray with carried := none } }

/-- An action with a choice to make makes it at the mark. -/
theorem carryOn_choice {s : State} {a : Action} (hc : s.tray.carried = some a) (hhome : a ≠ .home)
    (hshutter : ∀ close, a ≠ .shutter close) :
    s.carryOn =
      match s.tray.choose a with
      | .motion m =>
        if m.remaining = 0 then (uncarried s).boundary (.home .raise) State.beginHomeRaise
        else
          (s.setTray { s.tray with
            motion := some m, current := some a, carried := none, seekCount := 0, cut := false
            trayEmpty := false }).boundary (.change .index) State.beginIndex
      | c => ((uncarried s).reportChoice c).boundary (.home .raise) State.beginHomeRaise := by
  unfold State.carryOn
  rw [hc]
  split
  next close h => exact absurd (Option.some.inj h) (hshutter close)
  next h => exact absurd (Option.some.inj h) hhome
  next b _ _ h =>
    obtain rfl := Option.some.inj h
    rfl
  next h => cases h

theorem carryOn_still {s : State} {a : Action} (hc : s.tray.carried = some a) (hhome : a ≠ .home)
    (hshutter : ∀ close, a ≠ .shutter close)
    (h : s.tray.choose a = .none ∨ ∃ m, s.tray.choose a = .motion m ∧ m.remaining = 0) :
    s.carryOn = (uncarried s).boundary (.home .raise) State.beginHomeRaise := by
  rw [carryOn_choice hc hhome hshutter]
  rcases h with h | ⟨m, h, hr⟩
  · rw [h]; rfl
  · rw [h]; exact if_pos hr

theorem carryOn_empty {s : State} {a : Action} (hc : s.tray.carried = some a) (h : s.tray.choose a = .trayEmpty) :
    s.carryOn =
      (State.latch { uncarried s with tray := { (uncarried s).tray with trayEmpty := true } } .trayEmpty).boundary
        (.home .raise) State.beginHomeRaise := by
  obtain ⟨-, hhome, hshutter⟩ := chooser_of_choose (t := s.tray) (a := a) (by rw [h]; nofun)
  rw [carryOn_choice hc hhome hshutter, h]; rfl

theorem carryOn_noMark {s : State} {a : Action} (hc : s.tray.carried = some a) (h : s.tray.choose a = .noMark) :
    s.carryOn = ((uncarried s).latch .actionDiscarded).boundary (.home .raise) State.beginHomeRaise := by
  obtain ⟨-, hhome, hshutter⟩ := chooser_of_choose (t := s.tray) (a := a) (by rw [h]; nofun)
  rw [carryOn_choice hc hhome hshutter, h]; rfl

/-- The carried action begun as a change, before its INDEX. -/
def carriedOut (s : State) (a : Action) (m : Motion) : State :=
  { s with tray := { s.tray with
      motion := some m, current := some a, carried := none, seekCount := 0, cut := false, trayEmpty := false } }

theorem carryOn_motion {s : State} {a : Action} {m : Motion} (hc : s.tray.carried = some a)
    (h : s.tray.choose a = .motion m) (hr : m.remaining ≠ 0) :
    s.carryOn = (carriedOut s a m).boundary (.change .index) State.beginIndex := by
  obtain ⟨-, hhome, hshutter⟩ := chooser_of_choose (t := s.tray) (a := a) (by rw [h]; nofun)
  rw [carryOn_choice hc hhome hshutter, h]
  exact if_neg hr

theorem boundary_index {s : State} {m : Motion} (hm : s.tray.motion = some m) :
    s.boundary (.change .index) State.beginIndex = nextStep s m := by
  rw [nextStep, nextTray]
  by_cases hc : s.mon.supply = .critical
  · rw [boundary_of_critical hc, if_pos hc, if_pos hc]
  · rw [boundary_of_supplied hc, beginIndex_of_motion hm, if_neg hc, if_neg hc]

/-- A pulse with the home mark in a homing that goes on, the senses agreeing. -/
theorem pulse_located {s : State} (hs : s.Ready) (hst : s.tray.state = .homing .seek) (hmotor : s.tray.motor ≠ none)
    (hcut : s.tray.cut = false) (h : s.senseAgrees = true) : exec (.indexPulse true) s = .next (located s).carryOn := by
  rw [exec_pulse hs, pulse_of_seek hst hmotor, seekPulse_marked hcut, homeFound_of_agreeing h]

/-- The senses differing, the homing has ended. -/
def unhomed (s : State) : State :=
  (disagreed s).setTray (restingTray { (disagreed s).tray with valid := false })

theorem enterUnhomed_disagreed (s : State) :
    (if s.tray.carried = none then disagreed s else (disagreed s).latch .actionDiscarded).enterUnhomed =
      (if s.tray.carried = none then unhomed s else (unhomed s).latch .actionDiscarded).trayRests := by
  split
  · rfl
  · exact enterUnhomed_latch (disagreed s) _

/-! ## RAISE of a homing (R126) -/

theorem homeRaiseEnds_plain {s : State} (h : s.tray.carried = none ∨ s.tray.carried = some .home) (present : Bool) :
    s.homeRaiseEnds present = (recorded s present).endMotion := by
  have hr : (recorded s present).tray.carried = s.tray.carried := rfl
  rw [State.homeRaiseEnds, recordOccupancy_eq, ← recorded]
  rw [hr]
  rcases h with h | h <;> rw [h]

theorem homeRaiseEnds_shutter {s : State} {close : Bool} (h : s.tray.carried = some (.shutter close)) (present : Bool) :
    s.homeRaiseEnds present = ((recorded s present).shutterAction close).endMotion := by
  have hr : (recorded s present).tray.carried = s.tray.carried := rfl
  rw [State.homeRaiseEnds, recordOccupancy_eq, ← recorded]
  rw [hr, h]

/-- The tray of a homing that has ended in IDLE, the occupancy of its position recorded. -/
def homedTray (t : Tray) (present : Bool) : Tray :=
  { t with
    state := .idle, timer := 0, motion := none, seekCount := 0, current := none, carried := none, cut := false, motor := none
    slots := t.slots.setIfInBounds t.position { t.slot t.position with occupancy := if present then .present else .empty } }

theorem restingTray_homed {t : Tray} (hv : t.valid = true) (present hold shutter : Bool) :
    restingTray { t with slots := recordedSlots t present, holdDark := hold, shutterOpen := shutter } =
      { homedTray t present with holdDark := hold, shutterOpen := shutter } := by
  rw [restingTray, recordedSlots, if_pos hv, if_pos hv, homedTray]

/-- Settles O36, phase by phase: each goes on over `boundary`, and each end is a rest of the changer (`rests_of_endMotion`). -/
theorem homingFindsMark : Obligations.HomingFindsMark := by
  refine ⟨fun s hs => ⟨fun hst => ⟨fun hcut hc => ?closeSuspends, fun hcut hc => ?close, fun hcut =>
      restsInto_of_unhomed (s := closedMade s) ?closeCut hs.1⟩,
      fun hst => ⟨fun hcut => ?lower, fun hcut => restsInto_of_unhomed (s := downMade s) ?lowerCut hs.1⟩,
      fun hst hmotor => ⟨fun hcut => ?seek, fun hcut mark => restsInto_of_unhomed (s := sought s) ?seekCut hs.1⟩⟩,
    fun s hs hst hmotor hcut => ⟨fun ha hup => ⟨fun hplain => ?plain, fun a hca hkind hhome hshutter =>
        ⟨fun hch => ?still, fun hch => ?empty, fun hch => ?noMark⟩⟩,
      fun a m ha hca hch hr => ?change, fun ha => ?differ⟩,
    fun s present hs hst hv => ⟨fun hca => ?ends, fun close hca => ?shutter⟩⟩
  case closeSuspends =>
    rw [exec_closedSwitch hs, afterClosed_homing (t := closedMade s) hst,
      homePhaseEnds_of_uncut (s := closedMade s) hcut, State.homeCloseEnds, boundary_of_critical (s := closedMade s) hc]
    rfl
  case close =>
    rw [exec_closedSwitch hs, afterClosed_homing (t := closedMade s) hst,
      homePhaseEnds_of_uncut (s := closedMade s) hcut, State.homeCloseEnds, boundary_of_supplied (s := closedMade s) hc,
      beginHomeLower_eq]
    by_cases hdown : s.tray.downSwitch = true
    · rw [if_pos hdown]
      exact congrArg _ (if_pos hdown)
    · rw [if_neg hdown]
      exact congrArg _ (if_neg hdown)
  case closeCut =>
    rw [exec_closedSwitch hs, afterClosed_homing (t := closedMade s) hst, homePhaseEnds_of_cut (s := closedMade s) hcut]
  case lower =>
    rw [exec_downSwitch hs, afterDown_homing (t := downMade s) hst, homePhaseEnds_of_uncut (s := downMade s) hcut,
      State.homeLowerEnds, boundary_seek]
    rfl
  case lowerCut =>
    rw [exec_downSwitch hs, afterDown_homing (t := downMade s) hst, homePhaseEnds_of_cut (s := downMade s) hcut]
  case seek =>
    rw [exec_pulse hs, pulse_of_seek hst hmotor, seekPulse_unmarked hcut]
    rfl
  case seekCut => rw [exec_pulse hs, pulse_of_seek hst hmotor, seekPulse_of_cut hcut]
  case plain =>
    rw [pulse_located hs hst hmotor hcut ((senseAgrees_iff s).mpr ha), carryOn_plain (s := located s) hplain,
      boundary_raise (s := located s) rfl hup]
    rfl
  case still =>
    rw [pulse_located hs hst hmotor hcut ((senseAgrees_iff s).mpr ha),
      carryOn_still (s := located s) hca hhome hshutter hch, boundary_raise (s := uncarried (located s)) rfl hup]
    rfl
  case empty =>
    rw [pulse_located hs hst hmotor hcut ((senseAgrees_iff s).mpr ha), carryOn_empty (s := located s) hca hch,
      boundary_raise_latch (s := { uncarried (located s) with tray := { (uncarried (located s)).tray with trayEmpty := true } })
        .trayEmpty rfl hup]
    rfl
  case noMark =>
    rw [pulse_located hs hst hmotor hcut ((senseAgrees_iff s).mpr ha), carryOn_noMark (s := located s) hca hch,
      boundary_raise_latch (s := uncarried (located s)) .actionDiscarded rfl hup]
    rfl
  case change =>
    rw [pulse_located hs hst hmotor hcut ((senseAgrees_iff s).mpr ha), carryOn_motion (s := located s) hca hch hr,
      boundary_index (s := carriedOut (located s) a m) rfl]
    rfl
  case differ =>
    have ho : exec (.indexPulse true) s =
        .next (if s.tray.carried = none then unhomed s else (unhomed s).latch .actionDiscarded).trayRests := by
      rw [exec_pulse hs, pulse_of_seek hst hmotor, seekPulse_marked hcut,
        homeFound_of_differing (mt (senseAgrees_iff s).mp ha), enterUnhomed_disagreed]
    exact rests_of_latched (s := unhomed s) ho hs.1 rfl
  case ends =>
    have ho : exec (.gateUpSwitch true present) s = .next (recorded (upMade s present) present).endMotion := by
      rw [exec_upSwitch hs, afterUp_homing (t := upMade s present) hst, homeRaiseEnds_plain (s := upMade s present) hca]
    have hrests := rests_of_endMotion ho hs.1
    have htray : restingTray (recorded (upMade s present) present).tray = homedTray (upMade s present).tray present :=
      restingTray_homed (t := (upMade s present).tray) hv present s.tray.holdDark s.tray.shutterOpen
    rw [htray] at hrests
    exact hrests
  case shutter =>
    have ho : exec (.gateUpSwitch true present) s =
        .next ((recorded (upMade s present) present).shutterAction close).endMotion := by
      rw [exec_upSwitch hs, afterUp_homing (t := upMade s present) hst,
        homeRaiseEnds_shutter (s := upMade s present) hca]
    rw [shutterAction_eq] at ho
    obtain ⟨halone, hinto⟩ := rests_of_endMotion ho hs.1
    have htray := restingTray_homed (t := (upMade s present).tray) hv present
      (if close then s.tray.holdDark else false)
      (if close then false else if s.mon.thermal = .overheat then s.tray.shutterOpen else true)
    exact ⟨fun h => (halone h).trans (congrArg (fun x => Host.Outcome.next ((upMade s present).setTray x)) htray),
      (congrArg (fun x => State.RestsInto ((upMade s present).setTray x) (exec (.gateUpSwitch true present) s)) htray).mp
        hinto⟩

end Sys2Proof.Proofs.Homing
end

