-- ==== Sys2Proof/Proofs/Pages.lean ====
section
/-!
Jobs of the show store (spec/11 section 11.5): how a job goes on with its next page, and what a lamp write request makes of
an idle store.
-/

namespace Sys2Proof.Proofs.Pages

open Sys2Proof Sys2Proof.Machine Sys2Proof.Proofs.Commands Sys2Proof.Proofs.PowerOn

-- One declaration after another, so that the checks of many short proofs do not wait for each other in threads.
set_option Elab.async false

/-! ## Erases (R202) -/

theorem page_length (m : ShowMem) (p : Nat) : (m.page p).length = 32 := by
  rw [ShowMem.page, List.length_map, List.length_range]; rfl

/-- A page needs an erase exactly when some bit must rise. -/
theorem needsErase_iff {stored new : List Byte} (h : stored.length = 32) :
    needsErase stored new = true ↔ raisesBit stored new := by
  unfold needsErase raisesBit
  rw [List.any_eq_true]
  constructor
  · rintro ⟨x, hx, hbit⟩
    obtain ⟨i, hi, rfl⟩ := List.mem_iff_getElem.mp hx
    rw [List.length_zip, h] at hi
    refine ⟨i, by omega, ?_⟩
    rw [List.getD_eq_getElem _ _ (by omega : i < new.length), List.getD_eq_getElem _ _ (by omega : i < stored.length)]
    rw [List.getElem_zip] at hbit
    exact of_decide_eq_true hbit
  · rintro ⟨i, hi, hbit⟩
    have hnew : i < new.length := by
      by_contra hlen
      rw [List.getD_eq_default _ _ (by omega)] at hbit
      exact hbit (BitVec.zero_and ..)
    have hzip : i < (List.zip stored new).length := by rw [List.length_zip, h]; omega
    refine ⟨(List.zip stored new)[i], List.getElem_mem hzip, decide_eq_true ?_⟩
    rw [List.getElem_zip]
    rw [List.getD_eq_getElem _ _ hnew, List.getD_eq_getElem _ _ (by omega : i < stored.length)] at hbit
    exact hbit

/-- The first phase of a page's operation. -/
def firstPhase (stored new : List Byte) : PagePhase := if needsErase stored new then .erase else .program

theorem firstPhase_erase (m : ShowMem) (p : Nat) (new : List Byte) :
    firstPhase (m.page p) new = .erase ↔ raisesBit (m.page p) new := by
  rw [← needsErase_iff (page_length m p), firstPhase]
  by_cases h : needsErase (m.page p) new = true
  · rw [if_pos h]; exact ⟨fun _ => h, fun _ => rfl⟩
  · rw [if_neg h]; exact ⟨nofun, fun h' => absurd h' h⟩

/-! ## The next page of a job (R202, R203, R206) -/

theorem runPages_equal {s : State} {k : JobKind} {p : Nat} (h : jobContents s k p = s.store.mem.page p) (rest : List Nat) :
    runPages k (p :: rest) s = runPages k rest (s.mendPage p) := if_pos h

theorem runPages_critical {s : State} {k : JobKind} {p : Nat} (h : jobContents s k p ≠ s.store.mem.page p)
    (hc : s.mon.supply = .critical) (rest : List Nat) :
    runPages k (p :: rest) s = s.setJob (some { kind := k, pages := p :: rest, op := none }) :=
  (if_neg h).trans (if_pos hc)

theorem runPages_begins {s : State} {k : JobKind} {p : Nat} (h : jobContents s k p ≠ s.store.mem.page p)
    (hc : s.mon.supply ≠ .critical) (rest : List Nat) :
    runPages k (p :: rest) s =
      s.setJob (some { kind := k, pages := rest, op := some {
        page := p, contents := jobContents s k p
        phase := firstPhase (s.store.mem.page p) (jobContents s k p), stopped := false } }) :=
  (if_neg h).trans (if_neg hc)

/-! ## Pending lamp writes (R204) -/

theorem startPending_of_job (s : State) (j : Job) : (s.setJob (some j)).startPending = s.setJob (some j) :=
  if_neg (by simp [State.storeIdle, State.setJob])

theorem startPending_of_none_pending {s : State} (h0 : s.store.pendingLamp0 = false) (h1 : s.store.pendingLamp1 = false) :
    s.startPending = s :=
  if_neg (by simp [h0, h1])

/-! ## Lamp write requests at an idle store (R163, R204) -/

/-- The job that writes one lamp's record. -/
def lampKind (n : LampNo) : JobKind := .lampWrite (decide (n = .lamp0)) (decide (n = .lamp1))

theorem jobPages_lampKind (n : LampNo) : jobPages (lampKind n) = [lampPageOf n] := by
  cases n <;> rfl

theorem jobContents_lampKind (s : State) (n : LampNo) :
    jobContents s (lampKind n) (lampPageOf n) = lampPage (s.lamp.record n) := by
  cases n <;> rfl

theorem requestLampWrite_of_idle {s : State} (h : s.store.job = none) (n : LampNo) :
    s.requestLampWrite n = (runPages (lampKind n) [lampPageOf n] s).startPending := by
  unfold State.requestLampWrite
  have hi : s.storeIdle = true := by rw [State.storeIdle, h]; rfl
  rw [if_pos hi, State.startJob, ← lampKind, jobPages_lampKind]

theorem requestLampWrite_critical {s : State} {n : LampNo} (hj : s.store.job = none)
    (h : lampPage (s.lamp.record n) ≠ s.store.mem.page (lampPageOf n)) (hc : s.mon.supply = .critical) :
    s.requestLampWrite n = s.setJob (some { kind := lampKind n, pages := [lampPageOf n], op := none }) := by
  rw [requestLampWrite_of_idle hj, runPages_critical (by rw [jobContents_lampKind]; exact h) hc, startPending_of_job]

theorem requestLampWrite_begins {s : State} {n : LampNo} (hj : s.store.job = none)
    (h : lampPage (s.lamp.record n) ≠ s.store.mem.page (lampPageOf n)) (hc : s.mon.supply ≠ .critical) :
    s.requestLampWrite n =
      s.setJob (some { kind := lampKind n, pages := [], op := some {
        page := lampPageOf n, contents := lampPage (s.lamp.record n)
        phase := firstPhase (s.store.mem.page (lampPageOf n)) (lampPage (s.lamp.record n)), stopped := false } }) := by
  rw [requestLampWrite_of_idle hj, runPages_begins (by rw [jobContents_lampKind]; exact h) hc, jobContents_lampKind,
    startPending_of_job]

/-- A lamp write whose page holds the record already ends at once. -/
theorem requestLampWrite_equal {s : State} {n : LampNo} (hj : s.store.job = none)
    (h : lampPage (s.lamp.record n) = s.store.mem.page (lampPageOf n)) (h0 : s.store.pendingLamp0 = false)
    (h1 : s.store.pendingLamp1 = false) :
    s.requestLampWrite n =
      { s with store := { s.store with
          broken := s.store.broken.filter fun q => q != lampPageOf n
          errors := s.store.errors &&& (if n = .lamp0 then 0x5F else 0x3F) } } := by
  have hended : runPages (lampKind n) [lampPageOf n] s =
      { s with store := { s.store with
          broken := s.store.broken.filter fun q => q != lampPageOf n
          errors := s.store.errors &&& (if n = .lamp0 then 0x5F else 0x3F) } } := by
    rw [runPages_equal (by rw [jobContents_lampKind]; exact h)]
    calc
      runPages (lampKind n) [] (s.mendPage (lampPageOf n)) =
          { s with store := { s.store with
              job := none, broken := s.store.broken.filter fun q => q != lampPageOf n
              errors := s.store.errors &&& (if n = .lamp0 then 0x5F else 0x3F) } } := by cases n <;> rfl
      _ = _ := by rw [← hj]
  rw [requestLampWrite_of_idle hj, hended]
  exact startPending_of_none_pending h0 h1

/-! ## What a lamp write asks of the state -/

/-- Two states in which a lamp write comes to the same. -/
structure WritesAlike (s t : State) : Prop where
  store : t.store = s.store
  record0 : t.lamp.record0 = s.lamp.record0
  record1 : t.lamp.record1 = s.lamp.record1
  supply : t.mon.supply = s.mon.supply

/-- The store of both replaced. -/
theorem WritesAlike.withStore {s t : State} (h : WritesAlike s t) (x : Store) :
    WritesAlike { s with store := x } { t with store := x } :=
  ⟨rfl, h.record0, h.record1, h.supply⟩

theorem WritesAlike.contents {s t : State} (h : WritesAlike s t) (a b : Bool) (p : Nat) :
    jobContents t (.lampWrite a b) p = jobContents s (.lampWrite a b) p := by
  rw [jobContents, jobContents, h.record0, h.record1]

theorem WritesAlike.runPages {s t : State} (h : WritesAlike s t) (a b : Bool) (pages : List Nat) :
    WritesAlike (runPages (.lampWrite a b) pages s) (runPages (.lampWrite a b) pages t) := by
  induction pages generalizing s t with
  | nil =>
    have hstore := h.store
    exact ⟨by simp only [Machine.runPages, finishJob, State.setJob, State.clearErrors, hstore], h.record0, h.record1, h.supply⟩
  | cons p rest ih =>
    unfold Machine.runPages
    rw [h.contents, h.store, h.supply]
    dsimp only
    split
    · rw [State.mendPage, State.mendPage, h.store]
      exact ih (h.withStore _)
    · split <;> (rw [State.setJob, State.setJob, h.store]; exact h.withStore _)

theorem WritesAlike.startPending {s t : State} (h : WritesAlike s t) : WritesAlike s.startPending t.startPending := by
  unfold State.startPending State.storeIdle
  rw [h.store]
  split
  · exact (h.withStore _).runPages _ _ _
  · exact h

theorem WritesAlike.requestLampWrite {s t : State} (h : WritesAlike s t) (n : LampNo) :
    WritesAlike (s.requestLampWrite n) (t.requestLampWrite n) := by
  unfold State.requestLampWrite State.storeIdle
  rw [h.store]
  split
  · exact (h.runPages _ _ _).startPending
  · cases n <;> exact h.withStore _

end Sys2Proof.Proofs.Pages
end

