-- ==== Sys2Proof/Proofs/Fan.lean ====
section
/-!
The fan (spec/08 section 8.7).
-/

namespace Sys2Proof.Proofs.Fan

open Sys2Proof Sys2Proof.Machine Sys2Proof.Proofs.Commands Sys2Proof.Proofs.LampFall Sys2Proof.Proofs.Events

-- One declaration after another, so that the checks of many short proofs do not wait for each other in threads.
set_option Elab.async false

/-! ## The store after a fall (R163) -/

/-- What a fall makes of the store asks only for the level, the active lamp and the store before it. -/
theorem storeAfterFall_of {s u t : State} (h : u.storeAfterFall t) (hstore : u.store = s.store)
    (happlied : u.lamp.applied = s.lamp.applied) (hactive : u.lamp.active = s.lamp.active) : s.storeAfterFall t := by
  unfold State.storeAfterFall at h ⊢
  rw [hstore, happlied, hactive] at h
  exact h

/-! ## Dark lamps (R146) -/

theorem lampHeldDark_of_fan {s : State} (h : s.mon.fan.isRunning = false) : s.lampHeldDark = true := by
  rw [State.lampHeldDark, h]; rfl

theorem allowed_of_dark {s : State} (h : s.lampHeldDark = true) : s.allowed = 0 := by
  rw [State.allowed, if_pos h]

theorem allowed_le_computed (s : State) : s.allowed ≤ s.lamp.computed := by
  unfold State.allowed
  split
  · exact Nat.zero_le _
  · exact Nat.min_le_left _ _

/-- The lamp controller after an event that allows nothing any more. -/
theorem lampFall_dark_lamp {s : State} (h : s.allowed = 0) (before : Nat) :
    (s.lampFall before).lamp =
      { s.lamp with
        applied := 0
        held := if 0 < before ∨ 0 < s.lamp.applied then decide (0 < s.lamp.computed) else s.lamp.held } := by
  rw [State.lampFall_lamp, h, Nat.min_zero]

/-- The monitor after an event that allows nothing any more. -/
theorem lampFall_dark_mon {s : State} (h : s.allowed = 0) (before : Nat) :
    (s.lampFall before).mon =
      if 0 < s.lamp.applied then { s.mon with cooldown := 12000, fan := startedFan s.mon.fan } else s.mon := by
  rw [lampFall_mon, h]
  rfl

/-- An event that allows nothing any more leaves a dark lamp dark. -/
theorem lampFall_unlit {s : State} (h : s.allowed = 0) (hdark : s.lamp.applied = 0) (before : Nat) :
    s.lampFall before =
      { s with lamp := { s.lamp with held := if 0 < before then decide (0 < s.lamp.computed) else s.lamp.held } } := by
  unfold State.lampFall
  rw [h, hdark, Nat.min_self]
  by_cases hb : 0 < before
  · have hset := setApplied_same s
    rw [hdark] at hset
    rw [if_pos (.inl hb), if_pos hb, hset]
  · rw [if_neg (by omega), if_neg hb]

/-! ## The stall (R152, R153) -/

/-- The fan stalled and its flag latched, before the lamp follows. -/
def stalled (s : State) : State := State.latch { s with mon := { s.mon with fan := .stalled false } } .fanStall

theorem fanStalls_eq (s : State) : s.fanStalls = (stalled s).lampFall s.allowed := rfl

theorem stalled_frame (s : State) :
    stalled s =
      { s with
        mon := { s.mon with fan := .stalled false }, events := (stalled s).events, msg := (stalled s).msg } :=
  State.latch_frame _ _

theorem stalled_allowed (s : State) : (stalled s).allowed = 0 := by
  refine allowed_of_dark (lampHeldDark_of_fan ?_)
  rw [stalled_frame]
  rfl

/-- What a stall does. -/
theorem fanStalls_spec (s : State) :
    ∃ t, s.fanStalls = t ∧ t.latchedFlag .fanStall = true ∧
      t.lamp =
        { s.lamp with
          applied := 0
          held := if 0 < s.allowed ∨ 0 < s.lamp.applied then decide (0 < s.lamp.computed) else s.lamp.held } ∧
      t.mon =
        { s.mon with
          fan := .stalled false, cooldown := if 0 < s.lamp.applied then 12000 else s.mon.cooldown } ∧
      s.storeAfterFall t ∧
      t = { s with lamp := t.lamp, mon := t.mon, store := t.store, events := t.events, msg := t.msg } := by
  have hlamp : (stalled s).lamp = s.lamp := by rw [stalled_frame]
  have hmon : (stalled s).mon = { s.mon with fan := .stalled false } := by rw [stalled_frame]
  refine ⟨_, rfl, ?flag, ?lamp, ?mon, ?store, ?frame⟩
  case flag =>
    rw [fanStalls_eq, State.latchedFlag, State.lampFall_frame]
    show (stalled s).latchedFlag .fanStall = true
    rw [stalled, latchedFlag_latch, decide_eq_true rfl, Bool.or_true]
  case lamp => rw [fanStalls_eq, lampFall_dark_lamp (stalled_allowed s), hlamp]
  case mon =>
    rw [fanStalls_eq, lampFall_dark_mon (stalled_allowed s), hlamp, hmon]
    split <;> rfl
  case store =>
    refine storeAfterFall_of (State.lampFall_storeAfterFall (stalled s) s.allowed) ?_ ?_ ?_
    · rw [stalled_frame]
    · rw [hlamp]
    · rw [hlamp]
  case frame =>
    rw [fanStalls_eq, State.lampFall_frame]
    rw [stalled_frame]

theorem fanDuty_of_powered {s : State} (h : s.powered = true) :
    s.fanDuty =
      match s.mon.fan with
      | .starting _ => 100
      | .running _ =>
        if s.mon.thermal = .hot ∨ s.mon.thermal = .overheat then 100
        else if s.mon.thermal = .warm then 70
        else if 0 < s.lamp.applied ∨ 0 < s.mon.cooldown ∨ 180 ≤ s.mon.temperature then 40
        else 0
      | .off | .stalled _ | .resting _ => 0 := by
  rw [State.fanDuty, if_pos h, State.fanDrive]
  cases hf : s.mon.fan
  case running =>
    dsimp only [State.fanDemand]
    split_ifs <;> rfl
  all_goals rfl

theorem fanDemand_none {s : State} (hcool : s.mon.cooldown = 0) (hcold : s.mon.thermal = .cold)
    (hdark : s.lamp.applied = 0) (htemp : s.mon.temperature < 180) : s.fanDemand = none := by
  rw [State.fanDemand, hcold, hcool, hdark, if_neg (by simp), if_neg (by simp), if_neg (by omega)]

theorem reformDemand_of_none {s : State} (h : s.fanDemand = none) :
    s.reformDemand = { s with mon := { s.mon with fan := .off, fanAttempts := 0 } } := if_pos h

/-- Settles O45: the stall by `fanStalls_spec`, the rest by the fan's own state. -/
theorem fanSupervised : Obligations.FanSupervised := by
  refine fun s => ⟨fun hp => fanDuty_of_powered hp, fun n hs hf => ?starting, fun n hs hf => ?running,
    fun c n hp hc => ?stall, fun hp hf => ?rest, fun n hp hf hn => ?restEnd,
    fun hp hcool hcold hdark htemp hfan => ?cooldown⟩
  case starting =>
    rw [exec_fanTachPulse, whenSettled_of_ready hs, State.tachPulse, hf]
  case running =>
    rw [exec_fanTachPulse, whenSettled_of_ready hs, State.tachPulse, hf]
  case stall =>
    have hstalls : exec c s = .next s.fanStalls := by
      rcases hc with ⟨rfl, hf, hn⟩ | ⟨rfl, hf, hn⟩
      · rw [exec_fanStartTimeout, whenPowered_of_powered hp, State.fanStartTimeout, State.fanStartDue, hf]
        exact congrArg _ (if_pos (decide_eq_true hn))
      · rw [exec_fanSupervisionTimeout, whenPowered_of_powered hp, State.fanSupervisionTimeout, State.fanSilent, hf]
        exact congrArg _ (if_pos (decide_eq_true hn))
    obtain ⟨t, ht, hspec⟩ := fanStalls_spec s
    exact ⟨t, by rw [hstalls, ht], hspec⟩
  case rest =>
    rw [exec_fanRest, whenPowered_of_powered hp, State.fanRests, State.fanRestDue, hf]
    rfl
  case restEnd =>
    rw [exec_fanRestEnd, whenPowered_of_powered hp, State.fanRestEnds, State.fanRested, hf]
    exact congrArg _ (if_pos (decide_eq_true hn))
  case cooldown =>
    have hnone := fanDemand_none hcool hcold hdark htemp
    have hdue : s.cooldownDue = true := by
      rw [State.cooldownDue, hcool, hnone, decide_eq_true hfan]; rfl
    rw [exec_cooldownEnd, whenPowered_of_powered hp, State.cooldownEnds, if_pos hdue, reformDemand_of_none hnone]
    have hzero : ({ s with mon := { s.mon with fan := .off, fanAttempts := 0 } } : State).allowed = 0 :=
      allowed_of_dark (lampHeldDark_of_fan rfl)
    rw [lampFall_unlit hzero hdark]
    have hheld : (if 0 < s.allowed then decide (0 < s.lamp.computed) else s.lamp.held) =
        if 0 < s.allowed then true else s.lamp.held := by
      split
      next h => exact decide_eq_true (h.trans_le (allowed_le_computed s))
      · rfl
    exact congrArg (fun b => Host.Outcome.next
      ({ s with mon := { s.mon with fan := .off, fanAttempts := 0 }, lamp := { s.lamp with held := b } } : State)) hheld

end Sys2Proof.Proofs.Fan
end

