-- ==== Sys2Proof/Proofs/Lamps.lean ====
section
/-!
The lamps (spec/08 sections 8.9 to 8.11): lit minutes, the failure of the active lamp, and the ends of a swap.
-/

namespace Sys2Proof.Proofs.Lamps

open Sys2Proof Sys2Proof.Machine Sys2Proof.Proofs.Commands Sys2Proof.Proofs.LampFall Sys2Proof.Proofs.Events
open Sys2Proof.Proofs.Pages Sys2Proof.Proofs.PowerOn Sys2Proof.Proofs.Rests Sys2Proof.Proofs.Fan Sys2Proof.Proofs.Offers
open Sys2Proof.Proofs.Invariants

-- One declaration after another, so that the checks of many short proofs do not wait for each other in threads.
set_option Elab.async false

/-! ## Records -/

theorem setRecord_eq (l : Lamp) (n : LampNo) (r : LampRecord) :
    l.setRecord n r =
      { l with
        record0 := if n = .lamp0 then r else l.record0
        record1 := if n = .lamp1 then r else l.record1 } := by
  cases n <;> rfl

theorem record_setRecord (l : Lamp) (n : LampNo) (r : LampRecord) : (l.setRecord n r).record n = r := by
  cases n <;> rfl

theorem record_other_setRecord (l : Lamp) (n : LampNo) (r : LampRecord) :
    (l.setRecord n r).record n.other = l.record n.other := by
  cases n <;> rfl

/-- A record asks for nothing else of the lamp controller. -/
theorem record_congr {l k : Lamp} (h0 : k.record0 = l.record0) (h1 : k.record1 = l.record1) (n : LampNo) :
    k.record n = l.record n := by
  cases n
  · exact h0
  · exact h1

/-! ## Lit minutes (R162, R163) -/

/-- The active lamp's record with a lit minute more. -/
def grown (s : State) : LampRecord :=
  { s.lamp.record s.lamp.active with minutes := min 16777215 ((s.lamp.record s.lamp.active).minutes + 1) }

/-- A lit minute counted, and the count begun again. -/
def counted (s : State) : State :=
  { s with lamp := { s.lamp with
      record0 := if s.lamp.active = .lamp0 then grown s else s.lamp.record0
      record1 := if s.lamp.active = .lamp1 then grown s else s.lamp.record1
      litCount := 0 } }

theorem counted_record (s : State) : (counted s).lamp.record s.lamp.active = grown s := by
  have h : (counted s).lamp = { s.lamp.setRecord s.lamp.active (grown s) with litCount := 0 } := by
    rw [setRecord_eq, counted]
  rw [h]
  exact record_setRecord s.lamp s.lamp.active (grown s)

theorem addLitMinute_eq (s : State) :
    s.addLitMinute =
      if (grown s).minutes % 30 = 0 then (counted s).requestLampWrite s.lamp.active else counted s := by
  have hcounted : ({ s with lamp := { s.lamp.setRecord s.lamp.active (grown s) with litCount := 0 } } : State) = counted s := by
    rw [setRecord_eq, counted]
  unfold State.addLitMinute
  rw [← hcounted]
  rfl

theorem litMinute_of_due {s : State} (h : 6000 ≤ s.lamp.litCount) : s.litMinute = s.addLitMinute :=
  if_pos (decide_eq_true h)

/-- Settles O42: the lamp write of a 30th minute by the state of the store. -/
theorem dissolveDimmerAndLitMinute : Obligations.DissolveDimmerAndLitMinute := by
  refine ⟨fun s => ⟨fun d hp hd hover => ?dissolve, fun hs => ?dimmer⟩, fun s hp hlit => ?minute⟩
  case dissolve =>
    rw [exec_dissolveEnd, whenPowered_of_powered hp, State.dissolveEnds, State.dissolveDue, hd]
    exact congrArg _ (if_pos (decide_eq_true hover))
  case dimmer =>
    rw [exec_dimmerPeriodStart, whenSettled_of_ready hs]
    rfl
  case minute =>
    have hexec : exec .litMinute s = .next s.addLitMinute := by
      rw [exec_litMinute, whenPowered_of_powered hp, litMinute_of_due hlit]
    rw [hexec, addLitMinute_eq]
    refine ⟨fun hm => ?plain, fun hm => ?thirtieth⟩
    case plain => exact congrArg _ (if_neg hm)
    case thirtieth =>
      have hpage : lampPage ((counted s).lamp.record s.lamp.active) = lampPage (grown s) := by rw [counted_record]
      rw [if_pos (show (grown s).minutes % 30 = 0 from hm)]
      refine ⟨fun hj => ?behind, fun hj hne hc => ?waits, fun hj hne hc => ?begins, fun hj heq h0 h1 => ?ends⟩
      case behind => rw [State.requestLampWrite_of_job (s := counted s) hj]; rfl
      case waits =>
        rw [requestLampWrite_critical (s := counted s) hj (by rw [hpage]; exact hne) hc]
        rfl
      case begins =>
        refine ⟨_, firstPhase_erase s.store.mem (lampPageOf s.lamp.active) (lampPage (grown s)), ?_⟩
        rw [requestLampWrite_begins (s := counted s) hj (by rw [hpage]; exact hne) hc, hpage]
        rfl
      case ends =>
        rw [requestLampWrite_equal (s := counted s) hj (by rw [hpage]; exact heq) h0 h1]
        rfl

/-! ## The failure of the active lamp (R157, R158) -/

/-- The active lamp's record FAILED and LAMP_FAILED latched, before the level follows. -/
def failing (s : State) : State :=
  State.latch
    { s with lamp := { s.lamp.setRecord s.lamp.active { s.lamp.record s.lamp.active with status := .failed } with
        failCount := 0 } } .lampFailed

/-- The lamp dark, before a swap is asked for. -/
def darkened (s : State) : State := (failing s).lampFall s.allowed

/-- The lamp changer after a failure. -/
def changerAfterFailure (s : State) : LampChanger :=
  if s.paramNat .autoSwap ≠ 0 ∧ (s.lamp.record s.lamp.active.other).status = .ok ∧ s.lamp.changer = .idle then
    (if s.tray.state.busy then .waitChanger else .swapping 0)
  else s.lamp.changer

/-- The state after a failure. -/
def failedOut (s : State) : State :=
  { darkened s with
    lamp := { (darkened s).lamp with changer := changerAfterFailure s }
    tray := { (darkened s).tray with
      shutterOpen :=
        if s.lamp.changer = .idle ∧ changerAfterFailure s = .swapping 0 then false else s.tray.shutterOpen } }

theorem failing_frame (s : State) :
    failing s =
      { s with
        lamp := { s.lamp.setRecord s.lamp.active { s.lamp.record s.lamp.active with status := .failed } with failCount := 0 }
        events := (failing s).events, msg := (failing s).msg } :=
  State.latch_frame _ _

theorem failing_record (s : State) :
    (failing s).lamp.record s.lamp.active = { s.lamp.record s.lamp.active with status := .failed } := by
  rw [failing_frame]
  exact record_setRecord s.lamp s.lamp.active _

theorem failing_record_other (s : State) :
    (failing s).lamp.record s.lamp.active.other = s.lamp.record s.lamp.active.other := by
  rw [failing_frame]
  exact record_other_setRecord s.lamp s.lamp.active _

/-- A failure rewrites the records, the failure count and no more of the lamp controller. -/
theorem failing_lamp (s : State) :
    (failing s).lamp =
      { s.lamp with record0 := (failing s).lamp.record0, record1 := (failing s).lamp.record1, failCount := 0 } := by
  rw [failing_frame]
  dsimp only
  rw [setRecord_eq]

theorem failing_allowed (s : State) : (failing s).allowed = 0 := by
  refine allowed_of_failed ?_
  have hactive : (failing s).lamp.active = s.lamp.active := by rw [failing_lamp]
  rw [hactive, failing_record]

theorem darkened_lamp (s : State) :
    (darkened s).lamp =
      { s.lamp with
        record0 := (failing s).lamp.record0, record1 := (failing s).lamp.record1, applied := 0, failCount := 0
        held := if 0 < s.allowed ∨ 0 < s.lamp.applied then decide (0 < s.lamp.computed) else s.lamp.held } := by
  rw [darkened, lampFall_dark_lamp (failing_allowed s), failing_lamp]

theorem darkened_mon (s : State) :
    (darkened s).mon =
      if 0 < s.lamp.applied then { s.mon with cooldown := 12000, fan := startedFan s.mon.fan } else s.mon := by
  have hmon : (failing s).mon = s.mon := by rw [failing_frame]
  have happ : (failing s).lamp.applied = s.lamp.applied := by rw [failing_lamp]
  rw [darkened, lampFall_dark_mon (failing_allowed s), hmon, happ]

theorem darkened_frame (s : State) :
    darkened s =
      { s with
        lamp := (darkened s).lamp, mon := (darkened s).mon, store := (darkened s).store
        events := (failing s).events, msg := (failing s).msg } := by
  unfold darkened
  rw [State.lampFall_frame]
  rw [failing_frame]

theorem darkened_record (s : State) : (darkened s).lamp.record s.lamp.active = (failing s).lamp.record s.lamp.active :=
  record_congr (by rw [darkened_lamp]) (by rw [darkened_lamp]) _

theorem darkened_record_other (s : State) :
    (darkened s).lamp.record s.lamp.active.other = s.lamp.record s.lamp.active.other := by
  rw [← failing_record_other]
  exact record_congr (by rw [darkened_lamp]) (by rw [darkened_lamp]) _

/-- A failure, and the swap it asks for. -/
theorem lampFails_eq (s : State) : s.lampFails = failedOut s := by
  have htray : (darkened s).tray = s.tray := by rw [darkened_frame]
  have hchanger : (darkened s).lamp.changer = s.lamp.changer := by rw [darkened_lamp]
  have hactive : (darkened s).lamp.active = s.lamp.active := by rw [darkened_lamp]
  have hparam : (darkened s).paramOn .autoSwap = s.paramOn .autoSwap := by rw [darkened_frame]; rfl
  have hasks : s.lampFails = if s.paramNat .autoSwap ≠ 0 ∧ (s.lamp.record s.lamp.active.other).status = .ok
      then (darkened s).requestSwap else darkened s := by
    have hrec : (darkened s).lamp.record (darkened s).lamp.active.other = s.lamp.record s.lamp.active.other := by
      rw [hactive, darkened_record_other]
    show (if ((darkened s).paramOn .autoSwap &&
        decide (((darkened s).lamp.record (darkened s).lamp.active.other).status = .ok)) = true
      then (darkened s).requestSwap else darkened s) = _
    rw [hparam, hrec]
    simp only [State.paramOn, Bool.and_eq_true, decide_eq_true_eq]
  have hstays (h : changerAfterFailure s = s.lamp.changer) (hne : ¬ (s.lamp.changer = .idle ∧ changerAfterFailure s = .swapping 0)) :
      failedOut s = darkened s := by
    rw [failedOut, if_neg hne, h, ← htray, ← hchanger]
  rw [hasks]
  by_cases hask : s.paramNat .autoSwap ≠ 0 ∧ (s.lamp.record s.lamp.active.other).status = .ok
  · rw [if_pos hask, State.requestSwap, hchanger, htray]
    by_cases hi : s.lamp.changer = .idle
    · rw [if_pos hi]
      have hc : changerAfterFailure s = if s.tray.state.busy then .waitChanger else .swapping 0 :=
        if_pos ⟨hask.1, hask.2, hi⟩
      by_cases hb : s.tray.state.busy = true
      · rw [if_pos hb] at hc ⊢
        rw [failedOut, hc, if_neg (fun h => nomatch h.2), ← htray]
      · rw [if_neg hb] at hc ⊢
        have hfailed : ((darkened s).lamp.record (darkened s).lamp.active).status = .failed := by
          rw [hactive, darkened_record, failing_record]
        have hcount : (darkened s).lamp.failCount = 0 := by rw [darkened_lamp]
        rw [startSwap_of_failed_dark hfailed (by rw [darkened_lamp]), failedOut, hc, if_pos ⟨hi, rfl⟩, ← hcount]
    · rw [if_neg hi]
      have hc : changerAfterFailure s = s.lamp.changer := if_neg fun h => hi h.2.2
      exact (hstays hc fun h => hi h.1).symm
  · rw [if_neg hask]
    have hc : changerAfterFailure s = s.lamp.changer := if_neg fun h => hask ⟨h.1, h.2.1⟩
    exact (hstays hc fun h => by rw [hc, h.1] at h; cases h.2).symm

/-- What a fall makes of the store asks only for what a lamp write asks for, and the level. -/
theorem storeAfterFall_alike {s u t : State} (h : s.storeAfterFall u) (alike : WritesAlike u t)
    (happlied : t.lamp.applied = u.lamp.applied) : s.storeAfterFall t := by
  have hwrite := (alike.withStore s.store).requestLampWrite s.lamp.active
  obtain ⟨hmem, hstays, hfalls, hjob⟩ := h
  unfold State.storeAfterFall
  rw [alike.store, happlied]
  exact ⟨hmem, hstays, fun hf => (hfalls hf).trans hwrite.store.symm, hjob⟩

theorem darkened_storeAfterFall (s : State) : s.storeAfterFall (darkened s) := by
  refine storeAfterFall_of (State.lampFall_storeAfterFall (failing s) s.allowed) ?_ ?_ ?_
  · rw [failing_frame]
  · rw [failing_lamp]
  · rw [failing_lamp]

/-! ## The ends of a swap (R160, R164) -/

/-- The queue offers its head, as the statement speaks of it. -/
theorem offers_of_offer {t : State} {o : Host.Outcome State Fault Refusal} (ho : o = .next t.offer)
    (hp : t.powered = true) (hswap : t.lamp.changer.isSwapping = false) (hw : t.lamp.changer ≠ .waitChanger) :
    t.lampMotor = false ∧ (t.queue.entries = [] ∨ t.queue.pause ≠ none → o = .next t) ∧
      (t.queue.pause = none → o = exec .pauseExpiry t.offering) := by
  refine ⟨by rw [State.lampMotor, hswap, Bool.and_false], fun h => ?_, fun h => ?_⟩
  · rw [ho]
    rcases h with h | h
    · rw [offer_of_no_entries h, moveSwap_of_noSwap hw]
    · rw [offer_of_paused h, moveSwap_of_noSwap hw]
  · rw [ho, exec_pauseExpiry_offering hp h]

theorem offers_of_latch_offer {u : State} {f : Flag} {o : Host.Outcome State Fault Refusal}
    (ho : o = .next (u.latch f).offer) (hp : u.powered = true) (hswap : u.lamp.changer.isSwapping = false)
    (hw : u.lamp.changer ≠ .waitChanger) :
    (u.latch f).lampMotor = false ∧ (u.queue.entries = [] ∨ u.queue.pause ≠ none → o = .next (u.latch f)) ∧
      (u.queue.pause = none → o = exec .pauseExpiry (u.latch f).offering) := by
  have hqueue : (u.latch f).queue = u.queue := by rw [State.latch_frame]
  have hlamp : (u.latch f).lamp = u.lamp := by rw [State.latch_frame]
  have h := offers_of_offer ho (by rw [State.latch_frame]; exact hp) (by rw [hlamp]; exact hswap) (by rw [hlamp]; exact hw)
  rw [hqueue] at h
  exact h

/-- Settles O43: a failure by `lampFails_eq`, the ends of a swap as offers of the queue. -/
theorem lampFailureAndSwap : Obligations.LampFailureAndSwap := by
  refine ⟨fun s hp hcount => ⟨failedOut s, ?exec, ?applied, ?failCount, ?status, ?minutes, ?other, ?flag, ?lamp, ?mon,
    ?store, rfl, ?shutter, ?motor, ?frame⟩,
    fun s n hp hc => ⟨?driven, fun hs hopen => ?switch, fun hn => ?timeout⟩⟩
  case exec =>
    rw [exec_lampFailure, whenPowered_of_powered hp, State.lampFailure, State.failureDue, decide_eq_true hcount,
      lampFails_eq]
    rfl
  case applied => rw [failedOut, darkened_lamp]
  case failCount => rw [failedOut, darkened_lamp]
  case status =>
    show ((darkened s).lamp.record s.lamp.active).status = _
    rw [darkened_record, failing_record]
  case minutes =>
    show ((darkened s).lamp.record s.lamp.active).minutes = _
    rw [darkened_record, failing_record]
  case other => exact darkened_record_other s
  case flag =>
    have h : (failedOut s).latchedFlag .lampFailed = (failing s).latchedFlag .lampFailed := by
      rw [failedOut, darkened_frame]; rfl
    rw [h, failing, latchedFlag_latch, decide_eq_true rfl, Bool.or_true]
  case lamp => rw [failedOut, darkened_lamp]
  case mon => exact darkened_mon s
  case store => exact storeAfterFall_alike (darkened_storeAfterFall s) ⟨rfl, rfl, rfl, rfl⟩ rfl
  case shutter => rfl
  case motor =>
    have h : (failedOut s).powered = true := by rw [failedOut, darkened_frame]; exact hp
    rw [State.lampMotor, h, Bool.true_and]
  case frame =>
    rw [failedOut, darkened_frame]
  case driven => rw [State.lampMotor, hp, hc]; rfl
  case switch =>
    have ho : exec (.swapSwitch true) s =
        .next (State.offer (State.swapSucceeds { s with lamp := { s.lamp with swapSwitch := true } })) := by
      rw [exec_swapSwitch, whenSettled_of_ready hs, State.swapSwitch, hopen, hc]
      rfl
    exact offers_of_latch_offer ho hp rfl nofun
  case timeout =>
    have ho : exec .swapTimeout s = .next s.swapJams.offer := by
      rw [exec_swapTimeout, whenPowered_of_powered hp, State.swapTimeout, State.swapDue, hc]
      exact congrArg _ (if_pos (decide_eq_true hn))
    exact offers_of_latch_offer ho hp rfl nofun

end Sys2Proof.Proofs.Lamps
end

