-- ==== Sys2Proof/Proofs/Lasting.lean ====
section
/-!
What a rest of the changer leaves alone, whatever the queue then offers: the temperature, the thermal state and the supply
state, the stored bytes, and the flags that have latched.
-/

namespace Sys2Proof.Proofs.Lasting

open Sys2Proof Sys2Proof.Machine Sys2Proof.Proofs.Events

-- One declaration after another, so that the checks of many short proofs do not wait for each other in threads.
set_option Elab.async false

/-- The reply queue gained NOTICEs alone, and none without an attention mask. -/
def Noticed (s t : State) : Prop :=
  ∃ ns, t.msg.replies = s.msg.replies ++ ns ∧ (s.events.attention = 0 → ns = [])

theorem Noticed.refl {s t : State} (h : t.msg.replies = s.msg.replies) : Noticed s t :=
  ⟨[], by rw [h, List.append_nil], fun _ => rfl⟩

theorem Noticed.trans {s t u : State} (h : Noticed s t) (ha : t.events.attention = s.events.attention)
    (k : Noticed t u) : Noticed s u := by
  obtain ⟨ns, hns, hnone⟩ := h
  obtain ⟨ms, hms, hnone'⟩ := k
  refine ⟨ns ++ ms, by rw [hms, hns, List.append_assoc], fun h0 => ?_⟩
  rw [hnone h0, hnone' (ha.trans h0), List.append_nil]

theorem noticed_latch (s : State) (f : Flag) : Noticed s (s.latch f) := by
  cases hf : s.latchedFlag f with
  | true => rw [latch_of_latched hf]; exact .refl rfl
  | false =>
    rw [latch_of_clear hf]
    split
    case isTrue h =>
      refine ⟨_, rfl, fun h0 => ?_⟩
      rw [h0] at h
      exact absurd h.1 (by simp)
    case isFalse => exact .refl rfl

/-- The fan's own fields left open, a later state has the same monitor, the same bytes stored, no flag unlatched,
TX_GIVEUP as it was, the same link, and a message unit that gained NOTICEs at most. A field that is left out holds
because the update does not touch what it reads. -/
structure Through (s t : State) : Prop where
  mon : t.mon = { s.mon with
    fan := t.mon.fan, fanAttempts := t.mon.fanAttempts, cooldown := t.mon.cooldown } := by rfl
  mem : t.store.mem = s.store.mem := by rfl
  latched : ∀ f, s.latchedFlag f = true → t.latchedFlag f = true := by exact fun _ h => h
  link : t.link = s.link := by rfl
  attention : t.events.attention = s.events.attention := by rfl
  noticed : Noticed s t := by exact .refl rfl
  msg : t.msg = { s.msg with replies := t.msg.replies } := by rfl
  retries : t.paramNat .retryLimit = s.paramNat .retryLimit := by rfl
  giveup : t.latchedFlag .txGiveup = s.latchedFlag .txGiveup := by rfl

theorem Through.refl (s : State) : Through s s := {}

theorem Through.trans {s t u : State} (h : Through s t) (k : Through t u) : Through s u where
  mon := by rw [k.mon, h.mon]
  mem := k.mem.trans h.mem
  latched f := k.latched f ∘ h.latched f
  link := k.link.trans h.link
  attention := k.attention.trans h.attention
  noticed := h.noticed.trans h.attention k.noticed
  msg := by rw [k.msg, h.msg]
  retries := k.retries.trans h.retries
  giveup := k.giveup.trans h.giveup

/-- A step that is made only under a condition. -/
theorem Through.ite {s t u : State} {c : Prop} [Decidable c] (h : c → Through s t) (k : ¬ c → Through s u) :
    Through s (if c then t else u) := by
  split
  · exact h ‹_›
  · exact k ‹_›

/-- A begun phase whose switch is already made ends at once. -/
theorem Through.switched {s t : State} {c : Bool} {next : State} (h : Through s t) (k : Through t next) :
    Through s (if c then next else t) := .ite (fun _ => h.trans k) fun _ => h

theorem through_latch (s : State) (f : Flag) (hf : f ≠ .txGiveup := by decide) : Through s (s.latch f) := by
  have hframe := s.latch_frame f
  refine { mon := by rw [hframe], mem := by rw [hframe], latched := fun g h => ?_, link := by rw [hframe]
           attention := by rw [s.latch_events f], noticed := noticed_latch s f, msg := ?_, retries := by rw [hframe]; rfl
           giveup := by rw [latchedFlag_latch, decide_eq_false hf.symm, Bool.or_false] }
  · rw [latchedFlag_latch, h, Bool.true_or]
  · rcases s.latch_msg f with h | ⟨-, -, h⟩ <;> rw [h]

theorem through_latchIf (s : State) (c : Bool) (f : Flag) (hf : f ≠ .txGiveup := by decide) : Through s (s.latchIf c f) := by
  cases c
  · exact .refl s
  · exact through_latch s f hf

theorem through_setTray (s : State) (t : Tray) : Through s (s.setTray t) := {}

/-! ## Lamp and fan -/

theorem through_reformDemand (s : State) : Through s s.reformDemand := by
  rw [State.reformDemand_frame]
  exact {}

theorem through_requestLampWrite (s : State) (n : LampNo) : Through s (s.requestLampWrite n) := by
  have hmem := s.requestLampWrite_mem n
  rw [State.requestLampWrite_frame] at hmem ⊢
  exact { mem := hmem }

theorem through_setApplied (s : State) (a : Nat) : Through s (s.setApplied a) := by
  unfold State.setApplied
  refine .ite (fun _ => Through.trans ?_ (through_requestLampWrite _ _)) fun _ => .ite (fun _ => {}) fun _ => ?_
  · refine Through.trans ?_ (through_reformDemand _)
    exact {}
  · refine Through.trans ?_ (through_reformDemand _)
    exact {}

theorem through_lampFall (s : State) (before : Nat) : Through s (s.lampFall before) :=
  .ite (fun _ => through_setApplied s _) fun _ => .refl s

theorem through_startSwap (s : State) : Through s s.startSwap :=
  Through.trans (t := { s with lamp := { s.lamp with changer := .swapping 0, failCount := 0 } }) {}
    ((through_lampFall _ _).trans {})

theorem through_swapMovesOn (s : State) : Through s s.swapMovesOn :=
  .ite (fun _ => through_startSwap s) fun _ => {}

theorem through_raceSwap (s : State) : Through s s.raceSwap :=
  .ite (fun _ => .ite (fun _ => Through.trans (t := s.draw) {} (through_swapMovesOn _)) fun _ => {}) fun _ => .refl s

theorem through_moveSwap (s : State) : Through s s.moveSwap :=
  .ite (fun _ => through_swapMovesOn s) fun _ => .refl s

/-! ## The changer -/

theorem through_boundary (s : State) (r : Resume) {begin : State → State} (h : Through s (begin s)) :
    Through s (s.boundary r begin) := .ite (fun _ => {}) fun _ => h

theorem through_beginIndex (s : State) : Through s s.beginIndex := by
  unfold State.beginIndex
  split
  · exact through_setTray s _
  · exact .refl s

theorem through_recordOccupancy (s : State) (present : Bool) : Through s (s.recordOccupancy present) :=
  .ite (fun _ => {}) fun _ => .refl s

theorem through_reportTrayEmpty (s : State) : Through s s.reportTrayEmpty :=
  Through.trans (t := s.setTray { s.tray with trayEmpty := true }) {} (through_latch _ _)

theorem through_beginExtraLower (s : State) : Through s s.beginExtraLower :=
  Through.switched (through_setTray s _) (through_boundary _ _ (through_beginIndex _))

theorem through_settle (s : State) : Through s (s.boundary (.change .settle) State.beginSettle) :=
  through_boundary s _ (through_setTray s _)

theorem through_raiseEnds (s : State) (present : Bool) : Through s (s.raiseEnds present) := by
  refine (through_recordOccupancy s present).trans ?_
  unfold State.raiseEnds
  dsimp only
  generalize s.recordOccupancy present = u
  split
  · refine .ite (fun _ => .ite (fun _ => ?_) fun _ => ?_) fun _ => through_settle u
    · exact (through_setTray u _).trans (through_boundary _ _ (through_beginExtraLower _))
    · exact ((through_setTray u _).trans (through_reportTrayEmpty _)).trans (through_settle _)
  · exact through_settle u

theorem through_beginRaise (s : State) : Through s s.beginRaise :=
  Through.switched (through_setTray s _) (through_raiseEnds _ _)

theorem through_lowerEnds (s : State) : Through s s.lowerEnds :=
  through_boundary s _ (.ite (fun _ => through_beginRaise s) fun _ => through_beginIndex s)

theorem through_beginLower (s : State) : Through s s.beginLower :=
  Through.switched (through_setTray s _) (through_lowerEnds _)

theorem through_closeEnds (s : State) : Through s s.closeEnds := through_boundary s _ (through_beginLower s)

theorem through_beginClose (s : State) : Through s s.beginClose :=
  Through.switched (through_setTray s _) (through_closeEnds _)

theorem through_beginChange (s : State) (a : Action) (m : Motion) : Through s (s.beginChange a m) :=
  (through_setTray s _).trans (through_beginClose _)

theorem through_homeLowerEnds (s : State) : Through s s.homeLowerEnds := through_boundary s _ (through_setTray s _)

theorem through_beginHomeLower (s : State) : Through s s.beginHomeLower :=
  Through.switched (through_setTray s _) (through_homeLowerEnds _)

theorem through_beginHomeClose (s : State) : Through s s.beginHomeClose :=
  Through.switched (through_setTray s _) (through_boundary _ _ (through_beginHomeLower _))

theorem through_beginHoming (s : State) (a : Action) : Through s (s.beginHoming a) :=
  (through_setTray s _).trans (through_beginHomeClose _)

theorem through_shutterAction (s : State) (close : Bool) : Through s (s.shutterAction close) :=
  .ite (fun _ => {}) fun _ => .ite (fun _ => {}) fun _ => {}

theorem through_reportChoice (s : State) (c : Choice) : Through s (s.reportChoice c) := by
  cases c with
  | motion m => exact .refl s
  | none => exact .refl s
  | trayEmpty => exact through_reportTrayEmpty s
  | noMark => exact through_latch s _

theorem through_trayTake (s : State) (a : Action) : Through s (s.trayTake a) := by
  unfold State.trayTake
  refine .ite (fun _ => through_beginHoming s a) fun _ => ?_
  split
  · exact through_beginHoming s _
  · exact through_shutterAction s _
  · split
    · exact through_beginChange s _ _
    · exact through_reportChoice s _

/-! ## Immediate actions and the offer -/

theorem through_setTrims (s : State) (x : Trims) : Through s (s.setTrims x) := by
  rw [Tables.setTrims_eq]
  exact { retries := by simp [State.paramNat, State.param, Vector.getD, Param.id] }

theorem through_calibrationEnds (s : State) : Through s s.calibrationEnds := by
  unfold State.calibrationEnds
  split
  · refine .ite (fun _ => .ite (fun _ => {}) fun _ => ?_) fun _ => .refl s
    exact Through.trans (t := { s with tape := { s.tape with calibration := none } }) {} (through_setTrims _ _)
  · exact .refl s

theorem through_tapeAction (s : State) (c : TapeCommand) : Through s (s.tapeAction c) := by
  unfold State.tapeAction
  refine .ite (fun _ => ?_) fun _ => .refl s
  have stops (b : Prop) [Decidable b] :
      Through s (if b then { s.calibrationEnds with tape := { s.calibrationEnds.tape with calibration := none } } else s) :=
    .ite (fun _ => (through_calibrationEnds s).trans {}) fun _ => .refl s
  have ends (t : State) : Through t t.enterTapeEnd := Through.trans (t := t.setTape _) {} (through_latch _ _)
  exact .ite (fun _ => (stops _).trans (ends _)) fun _ => (stops _).trans {}

theorem through_setLamp (s : State) (level : Nat) : Through s (s.setLamp level) :=
  Through.trans (t := { s with lamp := { s.lamp with target := level, computed := level, dissolve := none } }) {}
    (through_lampFall _ _)

theorem through_handImmediate (s : State) (a : Action) : Through s (s.handImmediate a) := by
  unfold State.handImmediate
  split
  · exact through_setLamp s _
  · exact .ite (fun _ => through_setLamp s _) fun _ => {}
  · exact {}
  · exact {}
  · exact through_tapeAction s _
  · exact Through.trans (t := { s with events := { s.events with lastMark := _ } }) {} (through_latch _ _)
  · exact .refl s

theorem through_offerEntries (entries : List QueueEntry) (s : State) : Through s (offerEntries entries s) := by
  induction entries generalizing s with
  | nil => exact .refl s
  | cons e rest ih =>
    have takes : Through s (s.takeHead rest) := {}
    have goesOn {t : State} (k : Through (s.takeHead rest) t) : Through s (offerEntries rest t) :=
      (takes.trans k).trans (ih t)
    unfold offerEntries
    refine .ite (fun _ => .ite (fun _ => goesOn (through_latch _ _)) fun _ => .ite (fun _ => ?_) fun _ => .refl s)
      fun _ => ?_
    · exact goesOn ((through_trayTake _ _).trans (through_raceSwap _))
    · split
      · exact .ite (fun _ => goesOn (.refl _)) fun _ => takes.trans {}
      · exact goesOn (through_handImmediate _ _)

theorem through_offer (s : State) : Through s s.offer :=
  Through.trans (.ite (fun _ => .refl s) fun _ => through_offerEntries _ s) (through_moveSwap _)

theorem through_trayRests (s : State) : Through s s.trayRests := (through_raceSwap s).trans (through_offer _)

theorem through_endMotion (s : State) : Through s s.endMotion := (through_setTray s _).trans (through_trayRests _)

end Sys2Proof.Proofs.Lasting
end

