-- ==== Sys2Proof/Proofs/Conversions.lean ====
section
/-!
The temperature conversion (spec/08 sections 8.4, 8.6 and 8.7): the state it forms, and the level, the fan and the changer
that follow it.
-/

namespace Sys2Proof.Proofs.Conversions

open Sys2Proof Sys2Proof.Machine Sys2Proof.Proofs.Commands Sys2Proof.Proofs.LampFall Sys2Proof.Proofs.Events
open Sys2Proof.Proofs.Fan Sys2Proof.Proofs.Lasting Sys2Proof.Proofs.Invariants

-- One declaration after another, so that the checks of many short proofs do not wait for each other in threads.
set_option Elab.async false

/-! ## The state formed (R148, R149) -/

theorem trimmedTemperature_cast (s : State) (code : BitVec 10) :
    (s.trimmedTemperature code : Int) = max 0 (min 1023 ((code.toNat : Int) + s.paramInt .tempTrim)) := by
  unfold State.trimmedTemperature clampInt
  omega

/-- The state formed, before the lamp, the fan and the changer follow. -/
def formed (s : State) (code : BitVec 10) : State :=
  { s with mon := { s.mon with
      temperature := s.trimmedTemperature code, sinceConversion := 0
      thermal := nextThermal s.mon.thermal (s.trimmedTemperature code) } }

/-- A state reached by its entry threshold, or by its stay threshold while it is not above the present one. -/
def reached (present : ThermalState) (q : Int) (rank : Nat) (entry stay : Int) : Prop :=
  entry ≤ q ∨ rank ≤ thermalRank present ∧ stay ≤ q

theorem thermalReached_overheat (present : ThermalState) (t : Nat) :
    thermalReached present .overheat t = true ↔ reached present t 3 400 380 := by
  show (decide (400 ≤ t) || (decide (3 ≤ thermalRank present) && decide (380 ≤ t))) = true ↔ _
  simp only [reached, Bool.or_eq_true, Bool.and_eq_true, decide_eq_true_eq]
  omega

theorem thermalReached_hot (present : ThermalState) (t : Nat) :
    thermalReached present .hot t = true ↔ reached present t 2 340 320 := by
  show (decide (340 ≤ t) || (decide (2 ≤ thermalRank present) && decide (320 ≤ t))) = true ↔ _
  simp only [reached, Bool.or_eq_true, Bool.and_eq_true, decide_eq_true_eq]
  omega

theorem thermalReached_warm (present : ThermalState) (t : Nat) :
    thermalReached present .warm t = true ↔ reached present t 1 240 220 := by
  show (decide (240 ≤ t) || (decide (1 ≤ thermalRank present) && decide (220 ≤ t))) = true ↔ _
  simp only [reached, Bool.or_eq_true, Bool.and_eq_true, decide_eq_true_eq]
  omega

/-- The state formed is the highest one reached. -/
theorem nextThermal_iff (present : ThermalState) (t : Nat) :
    (nextThermal present t = .overheat ↔ reached present t 3 400 380) ∧
      (nextThermal present t = .hot ↔ reached present t 2 340 320 ∧ ¬ reached present t 3 400 380) ∧
      (nextThermal present t = .warm ↔
        reached present t 1 240 220 ∧ ¬ reached present t 2 340 320 ∧ ¬ reached present t 3 400 380) := by
  rw [← thermalReached_overheat, ← thermalReached_hot, ← thermalReached_warm]
  unfold nextThermal
  split_ifs with h3 h2 h1 <;> simp [*]

/-! ## What follows it (R146, R150, R151) -/

/-- The level and the fan after a conversion. -/
def converted (s : State) (code : BitVec 10) : State := (formed s code).reformDemand.lampFall s.allowed

theorem convertTemperature_eq {s : State} (code : BitVec 10) (h : 10 ≤ s.mon.sinceConversion) :
    s.convertTemperature code =
      if nextThermal s.mon.thermal (s.trimmedTemperature code) = .overheat ∧ s.mon.thermal ≠ .overheat then
        ((converted s code).latch .overheat).changerOverheats
      else converted s code :=
  if_neg (by omega)

/-- There is demand: for cooling by its state, by the lamp, by the timer or by the housing. -/
theorem fanDemand_iff (s : State) :
    s.fanDemand ≠ none ↔
      s.mon.thermal ≠ .cold ∨ 0 < s.lamp.applied ∨ 0 < s.mon.cooldown ∨ 180 ≤ s.mon.temperature := by
  unfold State.fanDemand
  cases h : s.mon.thermal
  case cold =>
    rw [if_neg (by simp), if_neg (by simp)]
    split
    next hd => exact ⟨fun _ => .inr hd, fun _ => nofun⟩
    next hd => exact ⟨fun hn => absurd rfl hn, fun h => absurd h (by simpa using hd)⟩
  all_goals simp

/-- The monitor with the fan following its demand. -/
theorem reformDemand_mon (s : State) :
    s.reformDemand.mon =
      { s.mon with
        fan := if s.fanDemand = none then .off else startedFan s.mon.fan
        fanAttempts := if s.fanDemand = none then 0 else s.mon.fanAttempts } := by
  by_cases h : s.fanDemand = none
  · rw [reformDemand_of_none h, if_pos h, if_pos h]
  · rw [reformDemand_of_demand h, if_neg h, if_neg h]

theorem startedFan_startedFan (f : FanState) : startedFan (startedFan f) = startedFan f := by
  unfold startedFan
  split <;> rfl

theorem converted_frame (s : State) (code : BitVec 10) :
    converted s code =
      { s with lamp := (converted s code).lamp, mon := (converted s code).mon, store := (converted s code).store } := by
  unfold converted
  rw [State.lampFall_frame]
  rw [State.reformDemand_frame]
  rfl

theorem reformed_lamp (s : State) (code : BitVec 10) : (formed s code).reformDemand.lamp = s.lamp := by
  rw [State.reformDemand_frame]; rfl

theorem converted_lamp (s : State) (code : BitVec 10) :
    (converted s code).lamp =
      { s.lamp with
        applied := min s.lamp.applied (converted s code).allowed
        held :=
          if (converted s code).allowed < s.allowed ∨ (converted s code).allowed < s.lamp.applied then
            decide ((converted s code).lamp.applied < s.lamp.computed)
          else s.lamp.held } := by
  have hallowed : (converted s code).allowed = (formed s code).reformDemand.allowed := lampFall_allowed _ _
  rw [hallowed, converted, State.lampFall_lamp, reformed_lamp]

/-- There is no demand where the lamp is to fall. -/
theorem converted_mon (s : State) (code : BitVec 10) :
    (converted s code).mon =
      { (formed s code).mon with
        fan := if (formed s code).fanDemand = none then .off else startedFan s.mon.fan
        fanAttempts := if (formed s code).fanDemand = none then 0 else s.mon.fanAttempts
        cooldown :=
          if (converted s code).lamp.applied = 0 ∧ 0 < s.lamp.applied then 12000 else s.mon.cooldown } := by
  have happlied : (converted s code).lamp.applied = min s.lamp.applied (formed s code).reformDemand.allowed := by
    rw [converted, State.lampFall_applied, reformed_lamp]
  rw [happlied, converted, lampFall_mon, reformed_lamp, reformDemand_mon]
  by_cases hfalls : (formed s code).reformDemand.allowed < s.lamp.applied
  · have hdemand : (formed s code).fanDemand ≠ none := fanDemand_ne_none (.inl (Nat.zero_lt_of_lt hfalls))
    rw [if_pos hfalls, if_neg hdemand, if_neg hdemand, if_neg hdemand, if_neg hdemand, startedFan_startedFan, Nat.min_eq_right (Nat.le_of_lt hfalls)]
    have hlit : 0 < s.lamp.applied := Nat.zero_lt_of_lt hfalls
    simp only [hlit, and_true]
    rfl
  · have hstays : ¬ (min s.lamp.applied (formed s code).reformDemand.allowed = 0 ∧ 0 < s.lamp.applied) := by omega
    rw [if_neg hfalls, if_neg hstays]
    rfl

theorem converted_storeAfterFall (s : State) (code : BitVec 10) : s.storeAfterFall (converted s code) := by
  refine storeAfterFall_of (State.lampFall_storeAfterFall (formed s code).reformDemand s.allowed) ?_ ?_ ?_
  · rw [State.reformDemand_frame]; rfl
  · rw [reformed_lamp]
  · rw [reformed_lamp]

theorem through_converted (s : State) (code : BitVec 10) : Through (formed s code) (converted s code) :=
  (through_reformDemand _).trans (through_lampFall _ _)

/-! ## OVERHEAT (R128, R134) -/

/-- OVERHEAT latched and the shutter driven closed. -/
def overheated (s : State) (code : BitVec 10) : State := ((converted s code).latch .overheat).driveShutter false

theorem through_overheated (s : State) (code : BitVec 10) : Through (converted s code) (overheated s code) :=
  (through_latch _ .overheat).trans {}

theorem through_changerOverheats (s : State) (code : BitVec 10) :
    Through (overheated s code) ((converted s code).latch .overheat).changerOverheats :=
  .ite (fun _ => through_endMotion (overheated s code)) fun _ => .refl (overheated s code)

theorem overheated_lampSafe (s : State) (code : BitVec 10) : (overheated s code).lampSafe := by
  have h : (converted s code).lampSafe := lampSafe_lampFall _ _
  unfold overheated
  rw [State.latch_frame]
  exact h

/-- OVERHEAT leaves the lamp safe and the shutter closed, whatever a rest of the changer brings. -/
theorem changerOverheats_safe (s : State) (code : BitVec 10) :
    (((converted s code).latch .overheat).changerOverheats).lampSafe ∧
      (((converted s code).latch .overheat).changerOverheats).shutterHeld := by
  have hshut (t : Tray) (h : t.shutterOpen = false) : ((overheated s code).setTray t).shutterHeld := fun _ => h
  unfold State.changerOverheats
  dsimp only
  split
  · have rests := keeps_trayRests ((overheated s code).setTray (restingTray (overheated s code).tray))
    refine ⟨rests.lamp (overheated_lampSafe s code), rests.shut (fun h => ?_) (hshut _ rfl)⟩
    exact absurd h.1 (by rw [State.setTray_tray, (restingTray_state _).1]; exact Bool.false_ne_true)
  · exact ⟨overheated_lampSafe s code, hshut _ rfl⟩

/-- Settles O44: the state formed by `nextThermal_iff`; under an entry into OVERHEAT what the statement says outlasts the
offer that a rest of the changer brings. -/
theorem conversionFormsThermalState : Obligations.ConversionFormsThermalState := by
  intro s code hs hdue
  have hexec : exec (.tempConversion code) s = .next (s.convertTemperature code) := by
    rw [exec_tempConversion, whenSettled_of_ready hs]
  rw [hexec, convertTemperature_eq code hdue]
  have hq := trimmedTemperature_cast s code
  obtain ⟨hover, hhot, hwarm⟩ := nextThermal_iff s.mon.thermal (s.trimmedTemperature code)
  rw [hq] at hover hhot hwarm
  split
  next hheat =>
    have hthrough : Through (formed s code) ((converted s code).latch .overheat).changerOverheats :=
      ((through_converted s code).trans (through_overheated s code)).trans (through_changerOverheats s code)
    obtain ⟨hlamp, hshut⟩ := changerOverheats_safe s code
    have hthermal : (((converted s code).latch .overheat).changerOverheats).mon.thermal =
        nextThermal s.mon.thermal (s.trimmedTemperature code) := by rw [hthrough.mon]; rfl
    refine ⟨_, rfl, ?_, ?_, hthermal ▸ hover, hthermal ▸ hhot, hthermal ▸ hwarm, hlamp.1, fun h _ => ⟨?_, ?_⟩,
      hthrough.mem, fun h => ?_⟩
    · rw [hthrough.mon]; exact hq
    · rw [hthrough.mon]; rfl
    · refine (through_changerOverheats s code).latched .overheat ?_
      show ((converted s code).latch .overheat).latchedFlag .overheat = true
      rw [latchedFlag_latch, decide_eq_true rfl, Bool.or_true]
    · exact hshut (.inr (.inr (.inl h)))
    · exact (h.elim (fun h => h (hthermal.trans hheat.1)) hheat.2).elim
  next hcool =>
    have hthrough := through_converted s code
    have hthermal : (converted s code).mon.thermal = nextThermal s.mon.thermal (s.trimmedTemperature code) := by
      rw [hthrough.mon]; rfl
    have hlamp : (converted s code).lampSafe := lampSafe_lampFall _ _
    refine ⟨_, rfl, ?_, ?_, hthermal ▸ hover, hthermal ▸ hhot, hthermal ▸ hwarm, hlamp.1, fun h h' => ?_, hthrough.mem,
      fun _ => ⟨converted_lamp s code, ?_, converted_storeAfterFall s code, converted_frame s code⟩⟩
    · rw [hthrough.mon]; exact hq
    · rw [hthrough.mon]; rfl
    · exact absurd ⟨hthermal ▸ h, h'⟩ hcool
    · have htemp : (converted s code).mon.temperature = s.trimmedTemperature code := by rw [hthrough.mon]; rfl
      have hdemand : (formed s code).fanDemand ≠ none ↔
          nextThermal s.mon.thermal (s.trimmedTemperature code) ≠ .cold ∨ 0 < s.lamp.applied ∨ 0 < s.mon.cooldown ∨
            180 ≤ s.trimmedTemperature code := fanDemand_iff (formed s code)
      rw [htemp, hthermal]
      refine (converted_mon s code).trans ?_
      by_cases hd : (formed s code).fanDemand = none
      · rw [if_pos hd, if_pos hd, if_neg (mt hdemand.mpr (not_not_intro hd)), if_neg (mt hdemand.mpr (not_not_intro hd))]
        rfl
      · rw [if_neg hd, if_neg hd, if_pos (hdemand.mp hd), if_pos (hdemand.mp hd)]
        rfl

end Sys2Proof.Proofs.Conversions
end

