-- ==== Sys2Proof/Proofs/Ticks.lean ====
section
/-!
The tick of the local timebase (spec/08 section 8.4): the counts of every block with a timer, then the lamp controller's
work.
-/

namespace Sys2Proof.Proofs.Ticks

open Sys2Proof Sys2Proof.Machine Sys2Proof.Proofs.Commands Sys2Proof.Proofs.LampFall Sys2Proof.Proofs.Fan
open Sys2Proof.Proofs.Lamps Sys2Proof.Proofs.Pages

-- One declaration after another, so that the checks of many short proofs do not wait for each other in threads.
set_option Elab.async false

/-! ## The counts -/

/-- The lamp changer after a tick of the swap timer. -/
def swapTicked : LampChanger → LampChanger
  | .swapping n => .swapping (min 300 (n + 1))
  | c => c

/-- The state after the counts of a tick. -/
def counts (s : State) : State :=
  { s with
    link := { s.link with
      showSafeCount :=
        if s.inLoss = true ∧ s.link.showSafe = false then min 200 (s.link.showSafeCount + 1) else s.link.showSafeCount }
    queue := { s.queue with pause := s.queue.pause.map fun p => { p with elapsed := min p.duration (p.elapsed + 1) } }
    tray := if s.tray.state.inMotion then { s.tray with timer := min 40 (s.tray.timer + 1) } else s.tray
    lamp := { s.lamp with changer := swapTicked s.lamp.changer }
    mon := { s.mon with
      sinceConversion := min 10 (s.mon.sinceConversion + 1), fan := s.mon.fan.tick, cooldown := s.mon.cooldown - 1 }
    remote := { s.remote with
      hold := s.remote.hold.map Hold.tick
      relayWait := s.remote.relayWait.map fun w => { w with ticks := min 100 (w.ticks + 1) } } }

theorem tickLink_eq (s : State) :
    s.tickLink =
      { s with link := { s.link with
          showSafeCount :=
            if s.inLoss = true ∧ s.link.showSafe = false then min 200 (s.link.showSafeCount + 1)
            else s.link.showSafeCount } } := by
  unfold State.tickLink
  by_cases h : s.inLoss = true ∧ s.link.showSafe = false
  · rw [if_pos (by simpa using h), if_pos h]; rfl
  · rw [if_neg (by simpa using h), if_neg h]

theorem tickTray_eq (s : State) :
    s.tickTray =
      { s with tray := if s.tray.state.inMotion then { s.tray with timer := min 40 (s.tray.timer + 1) } else s.tray } := by
  unfold State.tickTray
  split <;> rfl

theorem tickSwap_eq (s : State) : s.tickSwap = { s with lamp := { s.lamp with changer := swapTicked s.lamp.changer } } := by
  unfold State.tickSwap
  split
  next n h => rw [h]; rfl
  next h =>
    have hsame : swapTicked s.lamp.changer = s.lamp.changer := by
      unfold swapTicked
      split
      next n hn => exact absurd hn (h n)
      · rfl
    rw [hsame]

theorem tick_eq (s : State) (present : Bool) : s.tick present = (counts s).lampTickWork present := by
  unfold State.tick
  rw [tickLink_eq, State.tickPause, tickTray_eq, tickSwap_eq]
  rfl

/-! ## The dissolve step and the level (R141, R146) -/

/-- The computed level after a tick. -/
def dissolved (l : Lamp) : Nat :=
  match l.dissolve with
  | some d => if d.elapsed < d.duration then l.dissolveLevel { d with elapsed := d.elapsed + 1 } else l.computed
  | none => l.computed

theorem dissolved_of_none {l : Lamp} (h : l.dissolve = none) : dissolved l = l.computed := by
  rw [dissolved, h]

theorem dissolved_of_running {l : Lamp} {d : Dissolve} (h : l.dissolve = some d) (hd : d.elapsed < d.duration) :
    dissolved l = l.dissolveLevel { d with elapsed := d.elapsed + 1 } := by
  rw [dissolved, h]
  exact if_pos hd

theorem dissolveStep_of_none {l : Lamp} (h : l.dissolve = none) : l.dissolveStep = l := by
  rw [Lamp.dissolveStep, h]

theorem dissolveStep_of_running {l : Lamp} {d : Dissolve} (h : l.dissolve = some d) (hd : d.elapsed < d.duration) :
    l.dissolveStep =
      { l with
        computed := l.dissolveLevel { d with elapsed := d.elapsed + 1 }
        dissolve := some { d with elapsed := d.elapsed + 1 } } := by
  rw [Lamp.dissolveStep, h]
  exact if_pos hd

theorem dissolveStep_eq {l : Lamp} (h : ∀ d, l.dissolve = some d → d.elapsed < d.duration) :
    l.dissolveStep =
      { l with computed := dissolved l, dissolve := l.dissolve.map fun d => { d with elapsed := d.elapsed + 1 } } := by
  rcases Option.eq_none_or_eq_some l.dissolve with hd | ⟨d, hd⟩
  · have hmap : (l.dissolve.map fun d => { d with elapsed := d.elapsed + 1 }) = l.dissolve := by rw [hd]; rfl
    rw [dissolveStep_of_none hd, dissolved_of_none hd, hmap]
  · have hmap : (l.dissolve.map fun d => { d with elapsed := d.elapsed + 1 }) = some { d with elapsed := d.elapsed + 1 } := by
      rw [hd]; rfl
    rw [dissolveStep_of_running hd (h d hd), dissolved_of_running hd (h d hd), hmap]

/-- The counts made and the dissolve's step taken. -/
def stepped (s : State) : State :=
  { counts s with lamp := { (counts s).lamp with
      computed := dissolved s.lamp, dissolve := s.lamp.dissolve.map fun d => { d with elapsed := d.elapsed + 1 } } }

theorem allowed_eq (s : State) :
    s.allowed =
      if s.mon.fan.isRunning = false ∨ s.lamp.changer.isSwapping = true ∨ s.lamp.changer = .jammed ∨
          (s.lamp.record s.lamp.active).status = .failed then 0
      else min s.lamp.computed (min (thermalCap s.mon.thermal) (supplyCap s.mon.supply)) := by
  unfold State.allowed State.lampHeldDark State.lampCap
  simp only [Bool.or_eq_true, Bool.not_eq_true', decide_eq_true_eq, or_assoc]

theorem tick_isRunning (f : FanState) : f.tick.isRunning = f.isRunning := by cases f <;> rfl

theorem swapTicked_isSwapping (c : LampChanger) : (swapTicked c).isSwapping = c.isSwapping := by cases c <;> rfl

theorem swapTicked_jammed (c : LampChanger) : swapTicked c = .jammed ↔ c = .jammed := by
  cases c <;> simp [swapTicked]

/-- What is allowed after the counts and the dissolve's step. -/
theorem stepped_allowed (s : State) :
    (stepped s).allowed =
      if s.mon.fan.isRunning = false ∨ s.lamp.changer.isSwapping = true ∨ s.lamp.changer = .jammed ∨
          (s.lamp.record s.lamp.active).status = .failed then 0
      else min (dissolved s.lamp) (min (thermalCap s.mon.thermal) (supplyCap s.mon.supply)) := by
  rw [allowed_eq]
  show (if s.mon.fan.tick.isRunning = false ∨ (swapTicked s.lamp.changer).isSwapping = true ∨
      swapTicked s.lamp.changer = .jammed ∨ (s.lamp.record s.lamp.active).status = .failed then 0
    else min (dissolved s.lamp) (min (thermalCap s.mon.thermal) (supplyCap s.mon.supply))) = _
  simp only [tick_isRunning, swapTicked_isSwapping, swapTicked_jammed]

/-- The level set. -/
def levelled (s : State) : State := (stepped s).setApplied (stepped s).tickLevel

/-- The state after a tick. -/
def ticked (s : State) (present : Bool) : State :=
  { levelled s with lamp := { (levelled s).lamp with
      failCount := if 32 ≤ (stepped s).tickLevel ∧ present = false then s.lamp.failCount + 1 else 0
      litCount := if 0 < (stepped s).tickLevel then s.lamp.litCount + 1 else s.lamp.litCount } }

theorem levelled_lamp (s : State) :
    (levelled s).lamp =
      { (stepped s).lamp with
        applied := (stepped s).tickLevel, held := decide ((stepped s).tickLevel < dissolved s.lamp) } :=
  State.setApplied_lamp _ _

theorem lampTickWork_counts {s : State} (h : ∀ d, s.lamp.dissolve = some d → d.elapsed < d.duration) (present : Bool) :
    (counts s).lampTickWork present = ticked s present := by
  have hstep : (counts s).lamp.dissolveStep = (stepped s).lamp := dissolveStep_eq (l := (counts s).lamp) h
  have happ : (levelled s).lamp.applied = (stepped s).tickLevel := by rw [levelled_lamp]
  have hfail : (levelled s).lamp.failCount = s.lamp.failCount := by rw [levelled_lamp]; rfl
  have hlit : (levelled s).lamp.litCount = s.lamp.litCount := by rw [levelled_lamp]; rfl
  unfold State.lampTickWork
  rw [hstep, ticked, ← happ, ← hfail, ← hlit]
  rfl

theorem undissolved_of_quiet {s : State} (h : s.quiet = true) :
    ∀ d, s.lamp.dissolve = some d → d.elapsed < d.duration := by
  intro d hd
  simp only [State.quiet, Bool.and_eq_true, Bool.not_eq_true', and_assoc] at h
  obtain ⟨-, -, -, -, -, -, -, -, -, h, -⟩ := h
  rw [State.dissolveDue, hd] at h
  exact Nat.lt_of_not_le (of_decide_eq_false h)

theorem levelled_frame (s : State) :
    levelled s =
      { stepped s with lamp := (levelled s).lamp, mon := (levelled s).mon, store := (levelled s).store } :=
  State.setApplied_frame _ _

theorem ticked_storeAfterFall (s : State) (present : Bool) : s.storeAfterFall (ticked s present) := by
  have h : s.storeAfterFall (levelled s) := storeAfterFall_of ((stepped s).setApplied_storeAfterFall _) rfl rfl rfl
  exact storeAfterFall_alike h ⟨rfl, rfl, rfl, rfl⟩ rfl

theorem hold_tick_eq (h : Hold) :
    h.tick =
      let n := min 65535 (h.ticks + 1)
      let f := if h.source = .ir then min 15 (h.frameTicks + 1) else h.frameTicks
      { h with
        ticks := n, frameTicks := f
        repeatDue := decide (h.ticks < 65535 ∧ 50 ≤ n ∧ (n - 50) % 20 = 0 ∧ ¬ (h.source = .ir ∧ 15 ≤ f)) } := by
  have hdue (a b c d e : Prop) [Decidable a] [Decidable b] [Decidable c] [Decidable d] [Decidable e] :
      (decide a && (decide b && decide c) && !(decide d && decide e)) = decide (a ∧ b ∧ c ∧ ¬ (d ∧ e)) := by
    rw [Bool.eq_iff_iff]
    simp only [Bool.and_eq_true, Bool.not_eq_true', decide_eq_true_eq, Bool.and_eq_false_iff, decide_eq_false_iff_not,
      not_and_or, and_assoc]
  exact congrArg (fun b => { h with
    ticks := min 65535 (h.ticks + 1)
    frameTicks := if h.source = KeySource.ir then min 15 (h.frameTicks + 1) else h.frameTicks
    repeatDue := b })
    (hdue (h.ticks < 65535) (50 ≤ min 65535 (h.ticks + 1)) ((min 65535 (h.ticks + 1) - 50) % 20 = 0) (h.source = .ir)
      (15 ≤ if h.source = KeySource.ir then min 15 (h.frameTicks + 1) else h.frameTicks))

/-- The fan after a tick with a level, by the level before it. -/
def tickedFan (f : FanState) (level before : Nat) : FanState :=
  match f with
  | .off => if level = before then .off else .starting 0
  | .starting n => .starting (min 100 (n + 1))
  | .running n => .running (min 50 (n + 1))
  | .stalled _ => .stalled true
  | .resting n => .resting (min 100 (n + 1))

theorem tickedFan_same (f : FanState) (a : Nat) : tickedFan f a a = f.tick := by
  cases f
  case off => exact if_pos rfl
  all_goals rfl

theorem tickedFan_changed (f : FanState) {a b : Nat} (h : a ≠ b) : tickedFan f a b = startedFan f.tick := by
  cases f
  case off => exact if_neg h
  all_goals rfl

/-- The monitor after a tick with a level. -/
def tickedMon (s : State) (level : Nat) : Monitor :=
  { s.mon with
    sinceConversion := min 10 (s.mon.sinceConversion + 1), fan := tickedFan s.mon.fan level s.lamp.applied
    cooldown := if level = 0 ∧ 0 < s.lamp.applied then 12000 else s.mon.cooldown - 1 }

theorem levelled_mon (s : State) : (levelled s).mon = tickedMon s (stepped s).tickLevel := by
  rw [levelled, setApplied_mon_eq]
  generalize (stepped s).tickLevel = a
  by_cases ha : a = s.lamp.applied
  · have hstays : ¬ (a = 0 ∧ 0 < s.lamp.applied) := by omega
    rw [if_pos (show a = (stepped s).lamp.applied from ha), tickedMon, if_neg hstays, ha, tickedFan_same]
    rfl
  · rw [if_neg (show ¬ a = (stepped s).lamp.applied from ha), tickedMon, tickedFan_changed _ ha]
    by_cases hz : a = 0
    · rw [if_pos hz, if_pos ⟨hz, by omega⟩]; rfl
    · rw [if_neg hz, if_neg fun h => hz h.1]; rfl

/-- Settles O41: the counts (`tick_eq`), then the level (`lampTickWork_counts`). -/
theorem tickMovesLampAndTimers : Obligations.TickMovesLampAndTimers := by
  intro s present hs
  have hexec : exec (.lampTick present) s = .next (ticked s present) := by
    rw [exec_lampTick, whenSettled_of_ready hs, tick_eq, lampTickWork_counts (undissolved_of_quiet hs.2)]
  have hlevel : (stepped s).tickLevel = _ := congrArg
    (fun a => if a < s.lamp.applied then a else if s.lamp.held = true then min a (s.lamp.applied + 8) else a)
    (stepped_allowed s)
  refine ⟨ticked s present, hexec, ?lamp, ?mon, ticked_storeAfterFall s present, ?pause, ?tray, ?safe, ?relay, ?hold, ?frame⟩
  case lamp =>
    rw [ticked, levelled_lamp, hlevel]
    rfl
  case mon =>
    refine (levelled_mon s).trans ?_
    rw [hlevel]
    rfl
  case pause => rw [ticked, levelled_frame]; rfl
  case tray => rw [ticked, levelled_frame]; rfl
  case safe => rw [ticked, levelled_frame]; rfl
  case relay => rw [ticked, levelled_frame]; rfl
  case hold =>
    rw [ticked, levelled_frame]
    exact congrArg (fun f => s.remote.hold.map f) (funext hold_tick_eq)
  case frame =>
    rw [ticked, levelled_frame]
    rfl

end Sys2Proof.Proofs.Ticks
end

