-- ==== Sys2Proof/Proofs/Supply.lean ====
section
/-!
The supply sample (spec/08 section 8.8): the state it forms, what the entry into LOW and CRITICAL caps and stops, and what
goes on as CRITICAL is left.
-/

namespace Sys2Proof.Proofs.Supply

open Sys2Proof Sys2Proof.Machine Sys2Proof.Proofs.Commands Sys2Proof.Proofs.LampFall Sys2Proof.Proofs.Events
open Sys2Proof.Proofs.Fan Sys2Proof.Proofs.Lasting Sys2Proof.Proofs.Rests Sys2Proof.Proofs.Offers Sys2Proof.Proofs.Pages
open Sys2Proof.Proofs.Lamps Sys2Proof.Proofs.Changes Sys2Proof.Proofs.ChangePhases Sys2Proof.Proofs.Homing
open Sys2Proof.Proofs.Ticks

-- One declaration after another, so that the checks of many short proofs do not wait for each other in threads.
set_option Elab.async false

/-! ## The state formed (R155) -/

/-- The threshold of LOW by SUPPLY_PRESET. -/
def lowThreshold (preset : Nat) : Nat :=
  if preset = 0 then 420 else if preset = 1 then 440 else if preset = 2 then 450 else 460

/-- The state a sample forms by the threshold of LOW. -/
def formedSupply (base : Nat) (present : SupplyState) (n : Nat) : SupplyState :=
  if n < base - 40 then .critical
  else if present = .critical ∧ n < base - 30 then .critical
  else if n < base then .low
  else if present ≠ .normal ∧ n < base + 10 then .low
  else .normal

theorem nextSupply_eq (preset : Nat) (present : SupplyState) (n : Nat) :
    nextSupply preset present n = formedSupply (lowThreshold preset) present n := by
  match preset with
  | 0 | 1 | 2 => rfl
  | _ + 3 => rfl

/-! ## The level and the flags (R146, R156) -/

/-- The supply state formed, before anything follows. -/
def sampled (s : State) (x : SupplyState) : State := { s with mon := { s.mon with supply := x } }

/-- The lamp under the new cap. -/
def capped (s : State) (x : SupplyState) : State := (sampled s x).lampFall s.allowed

/-- The flags of an entry into LOW or CRITICAL latched. -/
def flagged (s : State) (x : SupplyState) : State :=
  ((capped s x).latchIf (decide (s.mon.supply = .normal) && decide (x ≠ .normal)) .supplyLow).latchIf
    (decide (s.mon.supply ≠ .critical) && decide (x = .critical)) .supplyCritical

theorem exec_supplySample_eq {s : State} (hs : s.Ready) {r : BitVec 10} {x : SupplyState}
    (hx : nextSupply (s.paramNat .supplyPreset) s.mon.supply r.toNat = x) :
    exec (.supplySample r) s =
      .next
        (if x = .critical ∧ s.mon.supply ≠ .critical then storeSuspend (flagged s x)
          else if x ≠ .critical ∧ s.mon.supply = .critical then (storeResume (flagged s x).resumeChanger).offer
          else flagged s x) := by
  rw [exec_supplySample, whenSettled_of_ready hs, State.sampleSupply, hx]
  rfl

theorem flagged_frame (s : State) (x : SupplyState) :
    flagged s x =
      { s with
        lamp := (capped s x).lamp, mon := (capped s x).mon, store := (capped s x).store
        events := (flagged s x).events, msg := (flagged s x).msg } := by
  have h : flagged s x = { capped s x with events := (flagged s x).events, msg := (flagged s x).msg } := by
    rw [flagged, State.latchIf_frame, State.latchIf_frame (capped s x)]
  refine h.trans ?_
  rw [capped, State.lampFall_frame]
  rfl

theorem latchedFlag_latchIf (s : State) (c : Bool) (f : Flag) (h : c = true) : (s.latchIf c f).latchedFlag f = true := by
  rw [h]
  show (s.latch f).latchedFlag f = true
  rw [latchedFlag_latch, decide_eq_true rfl, Bool.or_true]

theorem flagged_low {s : State} {x : SupplyState} (h : s.mon.supply = .normal) (hx : x ≠ .normal) :
    (flagged s x).latchedFlag .supplyLow = true :=
  (through_latchIf _ _ _).latched _ (latchedFlag_latchIf _ _ _ (by rw [decide_eq_true h, decide_eq_true hx]; rfl))

theorem flagged_critical {s : State} {x : SupplyState} (h : s.mon.supply ≠ .critical) (hx : x = .critical) :
    (flagged s x).latchedFlag .supplyCritical = true :=
  latchedFlag_latchIf _ _ _ (by rw [decide_eq_true h, decide_eq_true hx]; rfl)

theorem through_flagged (s : State) (x : SupplyState) : Through (sampled s x) (flagged s x) :=
  ((through_lampFall _ _).trans (through_latchIf _ _ _)).trans (through_latchIf _ _ _)

theorem allowed_congr {s t : State} (hl : t.lamp = s.lamp) (hm : t.mon = s.mon) : t.allowed = s.allowed := by
  rw [allowed_eq, allowed_eq, hl, hm]

theorem flagged_lamp (s : State) (x : SupplyState) : (flagged s x).lamp = (capped s x).lamp := by rw [flagged_frame]

theorem flagged_mon (s : State) (x : SupplyState) : (flagged s x).mon = (capped s x).mon := by rw [flagged_frame]

theorem capped_storeAfterFall (s : State) (x : SupplyState) : s.storeAfterFall (flagged s x) := by
  have h : s.storeAfterFall (capped s x) :=
    storeAfterFall_of ((sampled s x).lampFall_storeAfterFall s.allowed) rfl rfl rfl
  refine storeAfterFall_alike h ?_ (by rw [flagged_lamp])
  have hl := flagged_lamp s x
  exact ⟨by rw [flagged_frame], by rw [hl], by rw [hl], by rw [flagged_mon]⟩

/-- The monitor after a sample that does not leave CRITICAL. -/
theorem capped_mon (s : State) (x : SupplyState) :
    (capped s x).mon =
      { s.mon with
        supply := x
        fan := if min s.lamp.applied (sampled s x).allowed ≠ s.lamp.applied ∧ s.mon.fan = .off then .starting 0 else s.mon.fan
        cooldown :=
          if min s.lamp.applied (sampled s x).allowed = 0 ∧ 0 < s.lamp.applied then 12000 else s.mon.cooldown } := by
  rw [capped, lampFall_mon]
  generalize (sampled s x).allowed = a
  show (if a < s.lamp.applied then _ else (sampled s x).mon) = _
  by_cases h : a < s.lamp.applied
  · have hne : a ≠ s.lamp.applied := Nat.ne_of_lt h
    have hlit : 0 < s.lamp.applied := Nat.zero_lt_of_lt h
    rw [if_pos h, Nat.min_eq_right (Nat.le_of_lt h)]
    simp only [hne, hlit, and_true, ne_eq, not_false_eq_true, true_and]
    rfl
  · have hmin : min s.lamp.applied a = s.lamp.applied := Nat.min_eq_left (by omega)
    have hstays : ¬ (s.lamp.applied = 0 ∧ 0 < s.lamp.applied) := by omega
    rw [if_neg h, hmin, if_neg hstays, if_neg fun h => h.1 rfl]
    rfl

/-! ## The store as CRITICAL is entered (R206) -/

/-- No page operation is in progress or stopped. -/
def NoOperation (s : State) : Prop := ∀ k pages op, s.store.job ≠ some ⟨k, pages, some op⟩

theorem noOperation_runPages (a b : Bool) (pages : List Nat) {s : State} (hc : s.mon.supply = .critical) :
    NoOperation (runPages (.lampWrite a b) pages s) := by
  induction pages generalizing s with
  | nil => exact fun _ _ _ => nofun
  | cons p rest ih =>
    by_cases h : jobContents s (.lampWrite a b) p = s.store.mem.page p
    · rw [runPages_equal h]
      exact ih hc
    · rw [runPages_critical h hc]
      intro k pages op hj
      cases (Option.some.inj hj)

theorem noOperation_startPending {s : State} (hc : s.mon.supply = .critical) (h : NoOperation s) :
    NoOperation s.startPending := by
  unfold State.startPending
  split
  · exact noOperation_runPages _ _ _ hc
  · exact h

/-- A lamp write request under a CRITICAL supply begins no page operation. -/
theorem noOperation_requestLampWrite {s : State} (hc : s.mon.supply = .critical) (h : NoOperation s) (n : LampNo) :
    NoOperation (s.requestLampWrite n) := by
  unfold State.requestLampWrite State.startJob
  split
  · refine noOperation_startPending ?_ (noOperation_runPages _ _ _ hc)
    rw [runPages_lampWrite_frame]
    exact hc
  · cases n <;> exact h

theorem noOperation_flagged {s : State} {x : SupplyState} (hx : x = .critical) (h : NoOperation s) :
    NoOperation (flagged s x) := by
  obtain ⟨-, hstays, hfalls, -⟩ := capped_storeAfterFall s x
  unfold NoOperation
  by_cases hf : (flagged s x).lamp.applied = 0 ∧ 0 < s.lamp.applied
  · have hsupply : (flagged s x).mon.supply = .critical := by rw [flagged_mon, capped_mon]; exact hx
    rw [hfalls hf]
    exact noOperation_requestLampWrite (s := { flagged s x with store := s.store }) hsupply h _
  · rw [hstays hf]
    exact h

/-- Behind a job in flight the store changes by the pending set alone. -/
theorem flagged_store_of_job {s : State} (x : SupplyState) (hj : s.store.job ≠ none) :
    (flagged s x).store =
      { s.store with
        pendingLamp0 :=
          if (flagged s x).lamp.applied = 0 ∧ 0 < s.lamp.applied ∧ s.lamp.active = .lamp0 then true
          else s.store.pendingLamp0
        pendingLamp1 :=
          if (flagged s x).lamp.applied = 0 ∧ 0 < s.lamp.applied ∧ s.lamp.active = .lamp1 then true
          else s.store.pendingLamp1 } := by
  obtain ⟨-, hstays, -, hjob⟩ := capped_storeAfterFall s x
  by_cases hf : (flagged s x).lamp.applied = 0 ∧ 0 < s.lamp.applied
  · rw [hjob hf hj]
    simp only [hf.1, hf.2, true_and]
  · rw [hstays hf, if_neg fun h => hf ⟨h.1, h.2.1⟩, if_neg fun h => hf ⟨h.1, h.2.1⟩]

/-- The state after a sample that does not leave CRITICAL. -/
def capping (s : State) (x : SupplyState) : State :=
  if x = .critical ∧ s.mon.supply ≠ .critical then storeSuspend (flagged s x) else flagged s x

/-- The stop of the page operation in progress, or the store left alone. -/
theorem capping_cases (s : State) (x : SupplyState) :
    (∃ k pages op, (s.mon.supply ≠ .critical ∧ x = .critical ∧ s.store.job = some ⟨k, pages, some op⟩) ∧
        capping s x =
          ((flagged s x).spoilPage op.page).setJob (some ⟨k, pages, some { op with stopped := true }⟩)) ∨
      ((∀ op, ¬ (s.mon.supply ≠ .critical ∧ x = .critical ∧ ∃ k pages, s.store.job = some ⟨k, pages, some op⟩)) ∧
        capping s x = flagged s x) := by
  unfold capping
  by_cases henters : x = .critical ∧ s.mon.supply ≠ .critical
  · rw [if_pos henters]
    by_cases hop : NoOperation s
    · refine .inr ⟨fun op ⟨_, _, k, pages, hj⟩ => hop k pages op hj, ?_⟩
      rcases storeSuspend_cases (flagged s x) with ⟨k, pages, op, hj, -⟩ | ⟨-, hsame⟩
      · exact absurd hj (noOperation_flagged henters.1 hop k pages op)
      · exact hsame
    · simp only [NoOperation, not_forall, ne_eq, not_not] at hop
      obtain ⟨k, pages, op, hj⟩ := hop
      have hjob : (flagged s x).store.job = some ⟨k, pages, some op⟩ := by
        rw [flagged_store_of_job x (by rw [hj]; nofun)]; exact hj
      refine .inl ⟨k, pages, op, ⟨henters.2, henters.1, hj⟩, ?_⟩
      unfold storeSuspend
      rw [hjob]
  · rw [if_neg henters]
    exact .inr ⟨fun op ⟨hs, hx, _⟩ => henters ⟨hx, hs⟩, rfl⟩

/-- A stop changes the store and the count of free values alone. -/
theorem capping_frame (s : State) (x : SupplyState) :
    capping s x = { flagged s x with store := (capping s x).store, drawn := (capping s x).drawn } := by
  rcases capping_cases s x with ⟨k, pages, op, -, h⟩ | ⟨-, h⟩
  · rw [h]; rfl
  · rw [h]

theorem capping_whole (s : State) (x : SupplyState) :
    capping s x =
      { s with
        lamp := (capping s x).lamp, mon := (capping s x).mon, store := (capping s x).store
        events := (capping s x).events, msg := (capping s x).msg, drawn := (capping s x).drawn } := by
  rw [capping_frame, flagged_frame]

/-! ## CRITICAL is left (R133, R206) -/

theorem through_takeDeferredActive (s : State) : Through s s.takeDeferredActive := .ite (fun _ => {}) fun _ => .refl s

theorem through_takePendingTrims (s : State) : Through s s.takePendingTrims := by
  unfold State.takePendingTrims
  split
  · rw [Tables.setTrims_eq]
    exact { retries := by simp [State.paramNat, State.param, Vector.getD, Param.id] }
  · exact .refl s

theorem through_finishJob (k : JobKind) (s : State) : Through s (finishJob k s) := by
  have hlatch (w : BitVec 7) : Through s (((s.setJob none).clearErrors w).latch .storeDone) :=
    Through.trans (t := (s.setJob none).clearErrors w) {} (through_latch _ _)
  cases k with
  | save r =>
    cases r with
    | settings => exact ((hlatch _).trans (through_takeDeferredActive _)).trans (through_takePendingTrims _)
    | cues => exact (hlatch _).trans {}
    | keys => exact hlatch _
    | slots => exact hlatch _
    | curve => exact hlatch _
  | lampWrite a b => exact {}
  | protect set => exact Through.trans (t := s.setJob none) {} (through_latch _ _)

theorem through_runPages (k : JobKind) (pages : List Nat) (s : State) : Through s (runPages k pages s) := by
  induction pages generalizing s with
  | nil => exact through_finishJob k s
  | cons p rest ih =>
    exact .ite (fun _ => Through.trans (t := s.mendPage p) {} (ih _)) fun _ => .ite (fun _ => {}) fun _ => {}

theorem through_startPending (s : State) : Through s s.startPending :=
  .ite (fun _ => Through.trans (t := { s with store := { s.store with pendingLamp0 := false, pendingLamp1 := false } }) {}
    (through_runPages _ _ _)) fun _ => .refl s

theorem through_storeResume (s : State) : Through s (storeResume s) := by
  unfold storeResume
  split
  · exact .ite (fun _ => {}) fun _ => .refl s
  · exact (Through.trans (t := s.setJob none) {} (through_runPages _ _ _)).trans (through_startPending _)
  · exact .refl s

theorem through_homeRaiseEnds (s : State) (present : Bool) : Through s (s.homeRaiseEnds present) := by
  refine (through_recordOccupancy s present).trans ?_
  unfold State.homeRaiseEnds
  dsimp only
  split
  · exact (through_shutterAction _ _).trans (through_endMotion _)
  · exact through_endMotion _

theorem through_beginResumed (s : State) (r : Resume) : Through s (s.beginResumed r) := by
  cases r with
  | change p =>
    cases p with
    | shutterClose => exact through_beginClose s
    | lower => exact through_beginLower s
    | index => exact .ite (fun _ => through_beginRaise s) fun _ => through_beginIndex s
    | raise => exact through_beginRaise s
    | settle => exact through_setTray s _
    | shutterOpen =>
      exact .ite (fun _ => through_endMotion s) fun _ => Through.switched (through_setTray s _) (through_endMotion _)
  | home p =>
    cases p with
    | shutterClose => exact through_beginHomeClose s
    | lower => exact through_beginHomeLower s
    | seek => exact through_setTray s _
    | raise => exact Through.switched (through_setTray s _) (through_homeRaiseEnds _ _)

theorem through_resumeChanger (s : State) : Through s s.resumeChanger := by
  unfold State.resumeChanger
  split
  · exact through_beginResumed s _
  · exact .refl s

/-- A dark lamp as CRITICAL is left: nothing but the supply state has changed. -/
theorem flagged_of_leaving {s : State} {x : SupplyState} (h : s.mon.supply = .critical) (hdark : s.lamp.applied = 0) :
    flagged s x = sampled s x := by
  have hcap : s.lampCap = 0 := by rw [State.lampCap, h, supplyCap, Nat.min_zero]
  have hzero : s.allowed = 0 := by rw [State.allowed, hcap, Nat.min_zero, ite_self]
  have hcapped : capped s x = sampled s x := by
    rw [capped, hzero]
    exact if_neg (by rw [show (sampled s x).lamp.applied = 0 from hdark]; omega)
  rw [flagged, hcapped, h]
  rfl

theorem resumeChanger_of_suspended {s : State} {r : Resume} (h : s.tray.state = .suspended r) :
    s.resumeChanger = s.beginResumed r := by
  rw [State.resumeChanger, h]

theorem resumeChanger_of_not_suspended {s : State} (h : ∀ r, s.tray.state ≠ .suspended r) : s.resumeChanger = s := by
  unfold State.resumeChanger
  split
  next r hr => exact absurd hr (h r)
  · rfl

theorem storeResume_of_idle {s : State} (h : s.store.job = none) : storeResume s = s := by
  rw [storeResume, h]

theorem offer_of_nothingWaits {s : State} (h : s.NothingWaits) : s.offer = s := by
  rw [offer_of_no_entries h.1, moveSwap_of_noSwap h.2]

/-- The switch of a resumed phase is open, and the phase has something to do. -/
def opensPhase (s : State) : Resume → Prop
  | .change .shutterClose | .home .shutterClose => s.tray.closedSwitch = false
  | .change .lower | .home .lower => s.tray.downSwitch = false
  | .change .raise | .home .raise => s.tray.upSwitch = false
  | .change .index => ∃ m, s.tray.motion = some m ∧ m.remaining ≠ 0
  | .change .shutterOpen => s.tray.openSwitch = false ∧ s.endsDark = false
  | .change .settle | .home .seek => True

/-- The tray in the phase resumed. -/
def resumedTray (t : Tray) : Resume → Tray
  | .change .shutterClose => { t with state := .changing .shutterClose, shutterOpen := false }
  | .change .lower => { t with state := .changing .lower, gate := .down }
  | .change .index =>
    { t with state := .changing .index, motor := t.motion.map fun m => motorFor t.sense m.direction }
  | .change .raise => { t with state := .changing .raise, gate := .up }
  | .change .settle => { t with state := .changing .settle }
  | .change .shutterOpen => { t with state := .changing .shutterOpen, shutterOpen := true }
  | .home .shutterClose => { t with state := .homing .shutterClose, shutterOpen := false }
  | .home .lower => { t with state := .homing .lower, gate := .down }
  | .home .seek => { t with state := .homing .seek, motor := some (motorFor t.sense .forward) }
  | .home .raise => { t with state := .homing .raise, gate := .up }

theorem beginResumed_eq {s : State} {r : Resume} (h : opensPhase s r) :
    s.beginResumed r = { s with tray := { resumedTray s.tray r with timer := 0 } } := by
  cases r with
  | change p =>
    cases p with
    | shutterClose => exact if_neg (ne_true_of_eq_false h)
    | lower => exact beginLower_of_up h
    | index =>
      obtain ⟨m, hm, hr⟩ := h
      show s.beginIndexOrRaise = _
      have hmotor : (s.tray.motion.map fun m => motorFor s.tray.sense m.direction) =
          some (motorFor s.tray.sense m.direction) := by rw [hm]; rfl
      rw [beginIndexOrRaise_index hm hr, beginIndex_of_motion hm, resumedTray, hmotor]
    | raise => exact beginRaise_of_down h
    | settle => rfl
    | shutterOpen =>
      obtain ⟨hopen, hdark⟩ := h
      refine (if_neg ?_).trans (beginShutterOpen_of_closed hopen)
      rw [hdark]; exact Bool.false_ne_true
  | home p =>
    cases p with
    | shutterClose => exact if_neg (ne_true_of_eq_false h)
    | lower => exact if_neg (ne_true_of_eq_false h)
    | seek => rfl
    | raise => exact if_neg (ne_true_of_eq_false h)

/-- CRITICAL left with a phase to go on with. -/
def resumed (s : State) (x : SupplyState) (q : Resume) : State :=
  { sampled s x with tray := { resumedTray s.tray q with timer := 0 } }

/-- A stopped page starts again at its erase. -/
theorem storeResume_of_stopped {s : State} {k : JobKind} {pages : List Nat} {op : PageOp}
    (hj : s.store.job = some ⟨k, pages, some op⟩) (hstop : op.stopped = true) :
    storeResume s =
      { s with store := { s.store with
          job := some ⟨k, pages, some { op with contents := restartContents s k op, phase := .erase, stopped := false }⟩ } } := by
  rw [storeResume, hj]
  exact if_pos hstop

/-- A page not begun is begun. -/
theorem storeResume_of_waiting {s : State} {k : JobKind} {p : Nat} {rest : List Nat}
    (hj : s.store.job = some ⟨k, p :: rest, none⟩) (hne : jobContents s k p ≠ s.store.mem.page p)
    (hc : s.mon.supply ≠ .critical) (hcontents : jobContents (s.setJob none) k p = jobContents s k p) :
    storeResume s =
      s.setJob (some { kind := k, pages := rest, op := some {
        page := p, contents := jobContents s k p
        phase := firstPhase (s.store.mem.page p) (jobContents s k p), stopped := false } }) := by
  rw [storeResume, hj]
  dsimp only
  rw [runPages_begins (s := s.setJob none) (by rw [hcontents]; exact hne) hc, hcontents, startPending_of_job]
  rfl

/-- Settles O46: the level and the store by `capping`, the phase, page and offer that go on by `resumed` and the laws of
`storeResume`. -/
theorem supplySampled : Obligations.SupplySampled := by
  intro s r hs base n new
  have hnew : nextSupply (s.paramNat .supplyPreset) s.mon.supply r.toNat = new := nextSupply_eq _ _ _
  clear_value new
  have hexec := exec_supplySample_eq hs hnew
  refine ⟨?formed, fun hcrit hleft hdark => ?leaves⟩
  case formed =>
    by_cases hleaves : new ≠ .critical ∧ s.mon.supply = .critical
    · have hthrough : Through (sampled s new) (storeResume (flagged s new).resumeChanger).offer :=
        (((through_flagged s new).trans (through_resumeChanger _)).trans (through_storeResume _)).trans (through_offer _)
      refine ⟨_, (hexec.trans (congrArg _ ((if_neg fun h => hleaves.1 h.1).trans (if_pos hleaves)))), ?_,
        fun h => ?_, fun h => absurd hleaves.2 h, fun h => ?_⟩
      · rw [hthrough.mon]; rfl
      · rw [hleaves.2] at h; cases h
      · exact (h.elim (fun h => h hleaves.2) hleaves.1).elim
    · have hcapping : exec (.supplySample r) s = .next (capping s new) := by
        rw [hexec, if_neg hleaves, capping]
      have hlamp : (capping s new).lamp = (capped s new).lamp := by rw [capping_frame, flagged_lamp]
      have hmon : (capping s new).mon = (capped s new).mon := by rw [capping_frame, flagged_mon]
      have hevents : (capping s new).events = (flagged s new).events := by rw [capping_frame]
      have hallowed : (capping s new).allowed = (sampled s new).allowed :=
        (allowed_congr hlamp hmon).trans (lampFall_allowed (sampled s new) s.allowed)
      have happlied : (capping s new).lamp.applied = min s.lamp.applied (sampled s new).allowed := by
        rw [hlamp, capped, State.lampFall_applied]; rfl
      have hflagged : (capping s new).lamp.applied = (flagged s new).lamp.applied := by rw [hlamp, flagged_lamp]
      refine ⟨capping s new, hcapping, ?supply, fun h hx => ?low, fun h hx => ?critical, fun _ => ⟨?applied, ?held,
        fun hwf a ha => ?bytes, fun hno => ?stays, fun k pages op hj hstop => ⟨fun p => ?broken, ?stopped⟩, ?mon, ?frame⟩⟩
      case supply => rw [hmon, capped_mon]
      case low =>
        rw [State.latchedFlag, hevents]
        exact flagged_low h hx
      case critical =>
        rw [State.latchedFlag, hevents]
        exact flagged_critical h hx
      case applied => rw [hallowed, happlied]
      case held =>
        rw [hallowed, happlied, hlamp, capped, State.lampFall_lamp]
        rfl
      case bytes =>
        have hmem : (flagged s new).store.mem = s.store.mem := (through_flagged s new).mem
        rcases capping_cases s new with ⟨k, pages, op, ⟨hn, hx, hj⟩, h⟩ | ⟨-, h⟩
        · rw [h, ← hmem]
          exact State.spoilPage_read (s := flagged s new) (by rw [hmem]; exact hwf) (ha op ⟨hn, hx, k, pages, hj⟩)
        · rw [h, hmem]
      case stays =>
        rcases capping_cases s new with ⟨k, pages, op, ⟨hn, hx, hj⟩, -⟩ | ⟨-, h⟩
        · exact absurd ⟨hn, hx, k, pages, hj⟩ (hno op)
        · rw [h]
          exact ⟨capped_storeAfterFall s new, by rw [flagged_frame]⟩
      case broken =>
        rcases capping_cases s new with ⟨k', pages', op', ⟨-, -, hj'⟩, h⟩ | ⟨hno, -⟩
        · cases (Option.some.inj (hj.symm.trans hj'))
          have hstore := flagged_store_of_job new (s := s) (by rw [hj]; nofun)
          rw [h]
          show p ∈ op.page :: (flagged s new).store.broken.filter (fun q => q != op.page) ↔ _
          rw [hstore, List.mem_cons, List.mem_filter]
          by_cases hp : p = op.page <;> simp [hp]
        · exact absurd hstop (hno op)
      case stopped =>
        rcases capping_cases s new with ⟨k', pages', op', ⟨-, -, hj'⟩, h⟩ | ⟨hno, -⟩
        · cases (Option.some.inj (hj.symm.trans hj'))
          have hstore := flagged_store_of_job new (s := s) (by rw [hj]; nofun)
          rw [hflagged, h, State.setJob, State.spoilPage]
          dsimp only
          rw [hstore]
        · exact absurd hstop (hno op)
      case mon => rw [hmon, capped_mon, happlied]
      case frame =>
        have hfields : (capping s new).lamp =
            { s.lamp with applied := (capping s new).lamp.applied, held := (capping s new).lamp.held } := by
          rw [hlamp, capped, State.lampFall_lamp]
          rfl
        rw [← hfields]
        exact capping_whole s new
  case leaves =>
    have hflagged := flagged_of_leaving (x := new) hcrit hdark
    have hresumed : exec (.supplySample r) s = .next (storeResume (sampled s new).resumeChanger).offer := by
      rw [hexec, if_neg fun h => hleft h.1, if_pos ⟨hleft, hcrit⟩, hflagged]
    refine ⟨fun hw hj => ⟨fun q hq hopen => ?resumes, fun hno => ?nothing⟩, fun hno hj hpause => ?offers,
      fun source hq hpause hidle hlamp hj => ?shutter, fun hno hw => ⟨fun k pages op hj hstop => ?stopped, fun set hj hne => ?begins⟩⟩
    case resumes =>
      have hresume : (sampled s new).resumeChanger = resumed s new q :=
        (resumeChanger_of_suspended (s := sampled s new) hq).trans (beginResumed_eq (s := sampled s new) hopen)
      rw [hresumed, hresume, storeResume_of_idle (s := resumed s new q) hj,
        offer_of_nothingWaits (s := resumed s new q) hw]
      cases q <;> rfl
    case nothing =>
      rw [hresumed, resumeChanger_of_not_suspended (s := sampled s new) hno, storeResume_of_idle (s := sampled s new) hj,
        offer_of_nothingWaits (s := sampled s new) hw]
      rfl
    case offers =>
      rw [hresumed, resumeChanger_of_not_suspended (s := sampled s new) hno, storeResume_of_idle (s := sampled s new) hj]
      exact (exec_pauseExpiry_offering (s := sampled s new) hs.1 hpause).symm
    case shutter =>
      have hover : PauseOver (sampled s new).offering :=
        ⟨hs.1, ⟨_, rfl, Nat.le_refl 0⟩, fun h => by rw [show s.lamp.changer = .waitChanger from h] at hlamp; cases hlamp⟩
      have hfree : (sampled s new).changerFree = true :=
        changerFree_of_rest (.inl hidle) (by rw [show (sampled s new).lamp.changer = .idle from hlamp]; rfl) hleft
      have htake : (loneTaken (sampled s new).offering).trayTake (.shutter true) =
          (loneTaken (sampled s new).offering).driveShutter false := if_neg (by rw [loneTaken]; exact hidle ▸ nofun)
      have htaken := exec_pauseExpiry_of_lone_changer_head hover (a := .shutter true) (source := source) hq rfl
        (not_jammed_of_rest (s := sampled s new) (.inl hidle)) hfree
        (by rw [htake]; show s.lamp.changer ≠ _; rw [hlamp]; nofun)
      have hqueue : ({ s.queue with pause := none, entries := [], taken := s.queue.taken + 1 } : ActionQueue) =
          { s.queue with entries := [], taken := s.queue.taken + 1 } := by rw [← hpause]
      have hno : ∀ q, (sampled s new).tray.state ≠ .suspended q := fun q h => by
        rw [show (sampled s new).tray.state = .idle from hidle] at h; cases h
      rw [hresumed, resumeChanger_of_not_suspended (s := sampled s new) hno, storeResume_of_idle (s := sampled s new) hj,
        ← exec_pauseExpiry_offering (s := sampled s new) hs.1 hpause, htaken, htake, ← hqueue]
      rfl
    case stopped =>
      rw [hresumed, resumeChanger_of_not_suspended (s := sampled s new) hno,
        storeResume_of_stopped (s := sampled s new) hj hstop, offer_of_nothingWaits (by exact hw)]
      cases k <;> rfl
    case begins =>
      refine ⟨_, firstPhase_erase s.store.mem 255 (protectionPage set), ?_⟩
      rw [hresumed, resumeChanger_of_not_suspended (s := sampled s new) hno,
        storeResume_of_waiting (s := sampled s new) hj hne hleft rfl, offer_of_nothingWaits (by exact hw)]
      rfl

end Sys2Proof.Proofs.Supply
end

