-- ==== Sys2Proof/Proofs/StoreCommands.lean ====
section
/-!
The commands of the show store (spec/03 section 3.6): SAVE and PROTECT, STORE_READ and LAMP_REPLACED, and the commands
refused while a SAVE is in flight.
-/

namespace Sys2Proof.Proofs.StoreCommands

open Sys2Proof Sys2Proof.Machine Sys2Proof.Proofs.Commands Sys2Proof.Proofs.Handler Sys2Proof.Proofs.Records
open Sys2Proof.Proofs.Pages Sys2Proof.Proofs.Events Sys2Proof.Proofs.Load Sys2Proof.Proofs.PowerOn Sys2Proof.Proofs.Rests

-- One declaration after another, so that the checks of many short proofs do not wait for each other in threads.
set_option Elab.async false

/-! ## Refusals (R38, R41) -/

/-- A command whose work refuses it changes nothing but its answer. -/
theorem exec_refused {s : State} {m : Message} {rest : List Message} (hs : s.Ready) (ho : s.Oldest m rest) {c : Instr}
    {test : Message → Bool} {work : Message → State → Answer × State}
    (hc : exec c s = whenSettled s fun t => t.serve test work) (ht : test m = true) (r : ReplyStatus)
    (hw : work m (s.taking m rest) = (.refusal r, s.taking m rest)) :
    exec c s = .next (s.served rest (replies m r.code [])) := exec_answers hs ho hc ht hw

theorem regionOfCode_byteOf (r : Region) : regionOfCode (byteOf (regionCode r)).toNat = some r := by cases r <;> rfl

theorem storeIdle_of_none {s : State} (h : s.store.job = none) : s.storeIdle = true := by rw [State.storeIdle, h]; rfl

theorem storeIdle_of_job {s : State} (h : s.store.job ≠ none) : s.storeIdle = false := by
  unfold State.storeIdle
  exact Option.isNone_eq_false_iff.mpr (Option.isSome_iff_ne_none.mpr h)

theorem saveCommand_eq {m : Message} {s : State} {r : Region} (hp : m.payload = [byteOf (regionCode r)]) :
    saveCommand m s =
      if s.store.protection.getLsbD (regionCode r) then (.refusal .protect, s)
      else if s.storeIdle then (.good [byteOf (regionCode r)], s.startJob (.save r))
      else (.refusal .busy, s) := by
  rw [saveCommand, hp]
  simp only [regionOfCode_byteOf]

theorem saveCommand_accepted {m : Message} {s : State} {r : Region} (hp : m.payload = [byteOf (regionCode r)])
    (hprot : s.store.protection.getLsbD (regionCode r) = false) (hj : s.store.job = none) :
    saveCommand m s = (.good [byteOf (regionCode r)], s.startJob (.save r)) := by
  rw [saveCommand_eq hp, if_neg (ne_true_of_eq_false hprot), if_pos (storeIdle_of_none hj)]

theorem saveCommand_busy {m : Message} {s : State} {r : Region} (hp : m.payload = [byteOf (regionCode r)])
    (hprot : s.store.protection.getLsbD (regionCode r) = false) (hj : s.store.job ≠ none) :
    saveCommand m s = (.refusal .busy, s) := by
  rw [saveCommand_eq hp, if_neg (ne_true_of_eq_false hprot), if_neg (ne_true_of_eq_false (storeIdle_of_job hj))]

theorem protectCommand_eq {m : Message} {s : State} {set : Byte} (hp : m.payload = [set]) (hset : set.toNat < 32) :
    protectCommand m s =
      if s.storeIdle then (.good [set], s.startJob (.protect set)) else (.refusal .busy, s) := by
  rw [protectCommand, hp]
  exact if_pos hset

theorem protectCommand_accepted {m : Message} {s : State} {set : Byte} (hp : m.payload = [set]) (hset : set.toNat < 32)
    (hj : s.store.job = none) : protectCommand m s = (.good [set], s.startJob (.protect set)) := by
  rw [protectCommand_eq hp hset, if_pos (storeIdle_of_none hj)]

theorem protectCommand_busy {m : Message} {s : State} {set : Byte} (hp : m.payload = [set]) (hset : set.toNat < 32)
    (hj : s.store.job ≠ none) : protectCommand m s = (.refusal .busy, s) := by
  rw [protectCommand_eq hp hset, if_neg (ne_true_of_eq_false (storeIdle_of_job hj))]

/-! ## Jobs begun (R202, R203, R205, R206) -/

/-- A job as it begins with its first page. -/
def begunJob (s : State) (k : JobKind) (p : Nat) (rest : List Nat) : Job :=
  if s.mon.supply = .critical then { kind := k, pages := p :: rest, op := none }
  else
    { kind := k, pages := rest, op := some {
        page := p, contents := jobContents s k p
        phase := firstPhase (s.store.mem.page p) (jobContents s k p), stopped := false } }

theorem startJob_begins {s : State} {k : JobKind} {p : Nat} {rest : List Nat} (hpages : jobPages k = p :: rest)
    (hne : jobContents s k p ≠ s.store.mem.page p) : s.startJob k = s.setJob (some (begunJob s k p rest)) := by
  rw [State.startJob, hpages, begunJob]
  by_cases hc : s.mon.supply = .critical
  · rw [runPages_critical hne hc, startPending_of_job, if_pos hc]
  · rw [runPages_begins hne hc, startPending_of_job, if_neg hc]

theorem jobPages_save (r : Region) : jobPages (.save r) = (regionPages r).1 :: (jobPages (.save r)).tail := by
  cases r <;> rfl

theorem jobContents_first (s : State) (r : Region) : jobContents s (.save r) (regionPages r).1 = regionPage s r 0 := by
  cases r <;> rfl

/-- A mended page asks for the same contents. -/
theorem jobContents_mendPage (s : State) (k : JobKind) (p q : Nat) : jobContents (s.mendPage q) k p = jobContents s k p := by
  cases k with
  | save r => cases r <;> rfl
  | lampWrite a b => rfl
  | protect set => rfl

theorem jobContents_taking (s : State) (m : Message) (rest : List Message) (k : JobKind) (p : Nat) :
    jobContents (s.taking m rest) k p = jobContents s k p := by
  cases k with
  | save r => cases r <;> rfl
  | lampWrite a b => rfl
  | protect set => rfl

/-- Pages that all compare equal leave a job that ends, some pages mended. -/
theorem runPages_all_equal {k : JobKind} {pages : List Nat} {s : State}
    (h : ∀ q ∈ pages, jobContents s k q = s.store.mem.page q) :
    ∃ broken, runPages k pages s = finishJob k { s with store := { s.store with broken := broken } } := by
  induction pages generalizing s with
  | nil => exact ⟨s.store.broken, rfl⟩
  | cons p rest ih =>
    rw [runPages_equal (h p List.mem_cons_self)]
    obtain ⟨broken, hb⟩ := ih (s := s.mendPage p) fun q hq => by
      rw [jobContents_mendPage]; exact h q (List.mem_cons_of_mem _ hq)
    exact ⟨broken, hb⟩

/-- What waited for a SAVE of SETTINGS leaves the store and the flags as they are. -/
theorem takeDeferred_frame (s : State) :
    s.takeDeferredActive.takePendingTrims.store = s.store ∧ s.takeDeferredActive.takePendingTrims.events = s.events := by
  have hactive : s.takeDeferredActive.store = s.store ∧ s.takeDeferredActive.events = s.events := by
    unfold State.takeDeferredActive
    split <;> exact ⟨rfl, rfl⟩
  unfold State.takePendingTrims
  split <;> exact hactive

/-- The end of a SAVE: STORE_DONE latched and the region out of the store-error set. -/
theorem finishSave_spec (s : State) (r : Region) :
    (finishJob (.save r) s).store =
        { s.store with job := none, errors := s.store.errors &&& ~~~ regionError r } ∧
      (finishJob (.save r) s).latchedFlag .storeDone = true := by
  have hstore : (State.latch ((s.setJob none).clearErrors (regionError r)) .storeDone).store =
      { s.store with job := none, errors := s.store.errors &&& ~~~ regionError r } := by rw [State.latch_frame]; rfl
  have hflag : (State.latch ((s.setJob none).clearErrors (regionError r)) .storeDone).latchedFlag .storeDone = true := by
    rw [latchedFlag_latch, decide_eq_true rfl, Bool.or_true]
  cases r
  case settings =>
    obtain ⟨hs, he⟩ := takeDeferred_frame (State.latch ((s.setJob none).clearErrors (regionError .settings)) .storeDone)
    exact ⟨hs.trans hstore, (congrArg (fun e => e.latched.getLsbD Flag.storeDone.place) he).trans hflag⟩
  all_goals exact ⟨hstore, hflag⟩

theorem not_regionError_code (r : Region) : (~~~ regionError r).getLsbD (regionCode r) = false := by cases r <;> decide

/-! ## Loads refused while their region is under SAVE (R41) -/

theorem loadCue_busy {m : Message} {s : State} {i : Fin 64} {e : CueEntry} (he : e.inRange)
    (hp : m.payload = byteOf i :: cueBytes e) (h : s.saving .cues = true) : loadCue m s = (.refusal .busy, s) := by
  have hi : (byteOf i).toNat ≤ 63 := by rw [toNat_byteOf (by omega)]; omega
  have hlen : [10, 14, 18, 22].contains (cueBytes e).length = true := by
    rw [length_cueBytes he]
    obtain ⟨-, -, -, -, h1, h4, -⟩ := he
    simp; omega
  rw [loadCue, hp]
  simp only [hlen, hi, decide_true, Bool.and_self, if_true, cueOfBytes_cueBytes he, h]

theorem loadKey_busy {m : Message} {s : State} {i : Fin 16} {e : KeyEntry} (he : e.action.inRange)
    (hp : m.payload = byteOf i :: keyBytes e) (h : s.saving .keys = true) : loadKey m s = (.refusal .busy, s) := by
  have hi : (byteOf i).toNat ≤ 15 := by rw [toNat_byteOf (by omega)]; omega
  rw [loadKey, hp]
  simp only [hi, if_true, keyOfBytes_keyBytes he, h]

theorem loadSlot_busy {m : Message} {s : State} {p : Nat} {b : Byte} (hp : m.payload = [byteOf p, b]) (h99 : p ≤ 99)
    (hb : b.getLsbD 6 = false) (h : s.saving .slots = true) : loadSlot m s = (.refusal .busy, s) := by
  have hi : (byteOf p).toNat = p := toNat_byteOf (by omega)
  rw [loadSlot, hp]
  simp only [hi, h, hb, List.length_singleton, List.all_cons, List.all_nil]
  exact if_pos ⟨by omega, by omega, h99, by omega, rfl⟩

theorem loadCurve_busy {m : Message} {s : State} {seg : Nat} {bytes : List Byte} (hp : m.payload = byteOf seg :: bytes)
    (hseg : seg ≤ 4) (hlen : bytes.length = 16) (h : s.saving .curve = true) :
    loadCurve m s = (.refusal .busy, s) := by
  have hi : (byteOf seg).toNat = seg := toNat_byteOf (by omega)
  rw [loadCurve, hp]
  simp only [hi, h, hlen, hseg, and_self, if_true]

theorem setParam_busy {m : Message} {s : State} {p : Param} {w : BitVec 32}
    (hp : m.payload = byteOf p.id :: bytesOf 4 w.toNat) (h : s.saving .settings = true) :
    setParamCommand m s = (.refusal .busy, s) := by
  obtain ⟨a, b, c, d, hb⟩ : ∃ a b c d, bytesOf 4 w.toNat = [a, b, c, d] := ⟨_, _, _, _, rfl⟩
  rw [hb] at hp
  rw [setParamCommand, hp]
  simp only [paramOfId, h, if_true]

theorem setGroups_busy {m : Message} {s : State} {g : Byte} (hp : m.payload = [g]) (h : s.saving .settings = true) :
    setGroups m s = (.refusal .busy, s) := by
  rw [setGroups, hp]
  exact if_pos h

/-- The first phase of a job's first page, as the statements speak of it. -/
theorem begunJob_phase (s : State) (k : JobKind) (p : Nat) (rest : List Nat) {new : List Byte}
    (h : jobContents s k p = new) :
    begunJob s k p rest =
      if s.mon.supply = .critical then { kind := k, pages := p :: rest, op := none }
      else
        { kind := k, pages := rest, op := some {
            page := p, contents := new, phase := firstPhase (s.store.mem.page p) new, stopped := false } } := by
  rw [begunJob, h]

/-- Settles O22: the jobs by `startJob_begins` and `runPages_all_equal`, the refusals by their works. -/
theorem saveAndProtect : Obligations.SaveAndProtect := by
  refine ⟨fun s m rest hs ho hj => ⟨fun r hk hp hprot => ⟨fun hne => ?saves, fun heq h0 h1 => ?equal⟩,
      fun set hk hp hset hne => ?protects⟩,
    fun s m rest hs ho => ⟨fun r hk hp hprot => ?refused, fun r hk hp hprot hj => ?saveBusy,
      fun set hk hp hset hj => ?protectBusy,
      fun i e he hk hp h => exec_refused hs ho (exec_loadCue s) (isKind_of_kind hk) .busy (loadCue_busy he hp h),
      fun i e he hk hp h => exec_refused hs ho (exec_loadKey s) (isKind_of_kind hk) .busy (loadKey_busy he hp h),
      fun p b hk hp h99 hb h => exec_refused hs ho (exec_loadSlot s) (isKind_of_kind hk) .busy (loadSlot_busy hp h99 hb h),
      fun seg bytes hk hp h4 hlen h =>
        exec_refused hs ho (exec_loadCurve s) (isKind_of_kind hk) .busy (loadCurve_busy hp h4 hlen h),
      fun p w hk hp h => exec_refused hs ho (exec_setParam s) (isKind_of_kind hk) .busy (setParam_busy hp h),
      fun g hk hp h => exec_refused hs ho (exec_setGroups s) (isKind_of_kind hk) .busy (setGroups_busy hp h)⟩⟩
  case saves =>
    have hwork : saveCommand m (s.taking m rest) =
        (.good [byteOf (regionCode r)], (s.taking m rest).startJob (.save r)) :=
      saveCommand_accepted (s := s.taking m rest) hp hprot hj
    have hfirst : jobContents (s.taking m rest) (.save r) (regionPages r).1 = regionPage s r 0 :=
      jobContents_first (s.taking m rest) r
    refine ⟨_, firstPhase_erase s.store.mem (regionPages r).1 (regionPage s r 0), ?_⟩
    rw [exec_good hs ho (exec_save s) (isKind_of_kind hk) hwork,
      startJob_begins (s := s.taking m rest) (jobPages_save r) (by rw [hfirst]; exact hne),
      begunJob_phase _ _ _ _ hfirst, ← jobPages_save]
    rfl
  case equal =>
    have hwork : saveCommand m (s.taking m rest) =
        (.good [byteOf (regionCode r)], (s.taking m rest).startJob (.save r)) :=
      saveCommand_accepted (s := s.taking m rest) hp hprot hj
    obtain ⟨broken, hended⟩ := runPages_all_equal (s := s.taking m rest) (k := .save r) fun q hq =>
      (jobContents_taking s m rest (.save r) q).trans (heq q hq)
    obtain ⟨hstore, hflag⟩ := finishSave_spec
      { s.taking m rest with store := { (s.taking m rest).store with broken := broken } } r
    rw [← hended] at hstore hflag
    have hstart : (s.taking m rest).startJob (.save r) = runPages (.save r) (jobPages (.save r)) (s.taking m rest) :=
      startPending_of_none_pending (by rw [hstore]; exact h0) (by rw [hstore]; exact h1)
    refine ⟨_, exec_good hs ho (exec_save s) (isKind_of_kind hk) (hwork.trans (congrArg _ hstart)), ?_, ?_, hflag, ?_⟩
    · show (runPages (.save r) (jobPages (.save r)) (s.taking m rest)).store.job = none
      rw [hstore]
    · show (runPages (.save r) (jobPages (.save r)) (s.taking m rest)).store.mem = s.store.mem
      rw [hstore]
      rfl
    · show (runPages (.save r) (jobPages (.save r)) (s.taking m rest)).store.errors.getLsbD (regionCode r) = false
      rw [hstore, BitVec.getLsbD_and, not_regionError_code, Bool.and_false]
  case protects =>
    have hwork : protectCommand m (s.taking m rest) = (.good [set], (s.taking m rest).startJob (.protect set)) :=
      protectCommand_accepted (s := s.taking m rest) hp hset hj
    refine ⟨_, firstPhase_erase s.store.mem 255 (protectionPage set), ?_⟩
    rw [exec_good hs ho (exec_protect s) (isKind_of_kind hk) hwork,
      startJob_begins (s := s.taking m rest) (k := .protect set) (p := 255) (rest := []) rfl hne]
    rfl
  case refused =>
    exact exec_refused hs ho (exec_save s) (isKind_of_kind hk) .protect (by rw [saveCommand_eq hp]; exact if_pos hprot)
  case saveBusy =>
    exact exec_refused hs ho (exec_save s) (isKind_of_kind hk) .busy (saveCommand_busy (s := s.taking m rest) hp hprot hj)
  case protectBusy =>
    exact exec_refused hs ho (exec_protect s) (isKind_of_kind hk) .busy
      (protectCommand_busy (s := s.taking m rest) hp hset hj)

end Sys2Proof.Proofs.StoreCommands
end

