-- ==== Sys2Proof/Proofs/StoreReading.lean ====
section
/-!
STORE_READ and LAMP_REPLACED (spec/03 section 3.6, spec/08 section 8.10).
-/

namespace Sys2Proof.Proofs.StoreReading

open Sys2Proof Sys2Proof.Machine Sys2Proof.Proofs.Commands Sys2Proof.Proofs.Handler Sys2Proof.Proofs.Pages
open Sys2Proof.Proofs.PowerOn Sys2Proof.Proofs.Rests Sys2Proof.Proofs.Lamps

-- One declaration after another, so that the checks of many short proofs do not wait for each other in threads.
set_option Elab.async false

/-! ## STORE_READ (R57, R202, R205) -/

/-- The new contents of a page being written. -/
def written (s : State) (p : Nat) : Option (List Byte) :=
  match s.store.job with
  | some ⟨_, _, some op⟩ => if op.page = p then some op.contents else none
  | _ => none

theorem readPage_eq (s : State) (p : Nat) : s.readPage p = (written s p).getD (s.store.mem.page p) := by
  unfold State.readPage written
  rcases s.store.job with - | ⟨k, pages, - | op⟩
  · rfl
  · rfl
  · by_cases h : op.page = p
    · simp only [h, if_true, Option.getD_some]
    · simp only [h, if_false, Option.getD_none]

theorem protectionBroken_eq (s : State) :
    s.protectionBroken = decide (written s 255 = none ∧ 255 ∈ s.store.broken) := by
  unfold State.protectionBroken written
  rcases s.store.job with - | ⟨k, pages, - | op⟩
  · simp
  · simp
  · by_cases h : op.page = 255
    · simp [h]
    · simp [h]

theorem activateProtection_eq (s : State) :
    s.activateProtection (s.readPage 255) s.protectionBroken =
      { s with store := { s.store with
          protection :=
            if written s 255 = none ∧ 255 ∈ s.store.broken then 0
            else protectionOf ((written s 255).getD (s.store.mem.page 255)) } } := by
  rw [State.activateProtection, readPage_eq, protectionBroken_eq]
  simp only [decide_eq_true_eq]

/-! ## LAMP_REPLACED (R57, R161) -/

/-- A new lamp's record. -/
def fresh : LampRecord := { status := .ok, minutes := 0 }

/-- The replaced lamp asks for a swap: it is not the active one, whose record is FAILED, with AUTO_SWAP on and the lamp
changer IDLE. -/
abbrev swaps (s : State) (n : LampNo) : Prop :=
  n ≠ s.lamp.active ∧ (s.lamp.record s.lamp.active).status = .failed ∧ s.paramNat .autoSwap ≠ 0 ∧ s.lamp.changer = .idle

/-- The swap starts at once. -/
abbrev starts (s : State) (n : LampNo) : Prop := swaps s n ∧ s.tray.state.busy = false

/-- The record replaced. -/
def renewed (s : State) (n : LampNo) : State := { s with lamp := s.lamp.setRecord n fresh }

theorem setRecord_active_record {l : Lamp} {n : LampNo} (h : n ≠ l.active) (r : LampRecord) :
    (l.setRecord n r).record l.active = l.record l.active := by
  have hother : l.active = n.other := by cases n <;> cases h' : l.active <;> simp_all [LampNo.other]
  rw [hother, record_other_setRecord]

/-- The state before the lamp's write is requested. -/
def exchanged (s : State) (n : LampNo) : State :=
  { renewed s n with
    lamp := { (renewed s n).lamp with
      failCount := if n = s.lamp.active ∨ starts s n then 0 else s.lamp.failCount
      changer := if starts s n then .swapping 0 else if swaps s n then .waitChanger else s.lamp.changer }
    tray := { s.tray with shutterOpen := if starts s n then false else s.tray.shutterOpen } }

theorem renewed_lamp (s : State) (n : LampNo) :
    (renewed s n).lamp.active = s.lamp.active ∧ (renewed s n).lamp.changer = s.lamp.changer ∧
      (renewed s n).lamp.applied = s.lamp.applied ∧ (renewed s n).lamp.failCount = s.lamp.failCount := by
  cases n <;> exact ⟨rfl, rfl, rfl, rfl⟩

/-- Where no swap is asked for. -/
theorem exchanged_of_no_swap {s : State} {n : LampNo} (h : ¬ swaps s n) :
    exchanged s n =
      { renewed s n with lamp := { (renewed s n).lamp with
          failCount := if n = s.lamp.active then 0 else s.lamp.failCount } } := by
  have hstarts : ¬ starts s n := fun hs => h hs.1
  have hchanger : (renewed s n).lamp.changer = s.lamp.changer := (renewed_lamp s n).2.1
  rw [exchanged]
  simp only [hstarts, h, or_false, if_false, ← hchanger]
  rfl

/-- A swap that waits for the tray changer. -/
theorem exchanged_of_wait {s : State} {n : LampNo} (h : swaps s n) (hb : s.tray.state.busy = true) :
    exchanged s n = { renewed s n with lamp := { (renewed s n).lamp with changer := .waitChanger } } := by
  have hstarts : ¬ starts s n := fun hs => by rw [hs.2] at hb; cases hb
  have hcount : (renewed s n).lamp.failCount = s.lamp.failCount := (renewed_lamp s n).2.2.2
  rw [exchanged]
  simp only [hstarts, h.1, or_false, if_false, ← hcount]
  rw [if_pos h]
  rfl

/-- A swap that starts. -/
theorem exchanged_of_start {s : State} {n : LampNo} (h : starts s n) :
    exchanged s n =
      { renewed s n with
        lamp := { (renewed s n).lamp with failCount := 0, changer := .swapping 0 }
        tray := { s.tray with shutterOpen := false } } := by
  have hcount : n = s.lamp.active ∨ starts s n := .inr h
  rw [exchanged, if_pos hcount, if_pos h, if_pos h]

/-- What a swap request of a replaced lamp makes of the state. -/
theorem renewed_requestSwap {s : State} {n : LampNo} (hn : n ≠ s.lamp.active)
    (hfailed : (s.lamp.record s.lamp.active).status = .failed) (hauto : s.paramNat .autoSwap ≠ 0)
    (hdark : swaps s n → s.lamp.applied = 0) : (renewed s n).requestSwap = exchanged s n := by
  obtain ⟨hactive, hchanger, happlied, hcount⟩ := renewed_lamp s n
  have hrec : (renewed s n).lamp.record (renewed s n).lamp.active = s.lamp.record s.lamp.active := by
    rw [hactive]; exact setRecord_active_record hn fresh
  rw [State.requestSwap, hchanger]
  by_cases hi : s.lamp.changer = .idle
  · have hswaps : swaps s n := ⟨hn, hfailed, hauto, hi⟩
    rw [if_pos hi]
    by_cases hb : s.tray.state.busy = true
    · rw [if_pos (show (renewed s n).tray.state.busy = true from hb), exchanged_of_wait hswaps hb]
    · rw [if_neg (show ¬ (renewed s n).tray.state.busy = true from hb),
        startSwap_of_failed_dark (by rw [hrec]; exact hfailed) (happlied.trans (hdark hswaps)),
        exchanged_of_start ⟨hswaps, Bool.eq_false_iff.mpr hb⟩]
      rfl
  · rw [if_neg hi, exchanged_of_no_swap fun h => hi h.2.2.2, if_neg hn, ← hcount]

theorem replaceLamp_eq {s : State} {n : LampNo} (hdark : swaps s n → s.lamp.applied = 0) :
    s.replaceLamp n = (exchanged s n).requestLampWrite n := by
  obtain ⟨hactive, -, -, hcount⟩ := renewed_lamp s n
  refine congrArg (fun u : State => u.requestLampWrite n) ?_
  show (if n = (renewed s n).lamp.active then { renewed s n with lamp := { (renewed s n).lamp with failCount := 0 } }
    else if ((renewed s n).lamp.record (renewed s n).lamp.active).status = .failed ∧ (renewed s n).paramOn .autoSwap = true
      then (renewed s n).requestSwap else renewed s n) = _
  rw [hactive]
  by_cases hn : n = s.lamp.active
  · rw [if_pos hn, exchanged_of_no_swap fun h => h.1 hn, if_pos hn]
  · have hrec : (renewed s n).lamp.record s.lamp.active = s.lamp.record s.lamp.active := setRecord_active_record hn fresh
    have hauto : (renewed s n).paramOn .autoSwap = true ↔ s.paramNat .autoSwap ≠ 0 := decide_eq_true_iff
    rw [if_neg hn, hrec]
    by_cases hask : (s.lamp.record s.lamp.active).status = .failed ∧ (renewed s n).paramOn .autoSwap = true
    · rw [if_pos hask, renewed_requestSwap hn hask.1 (hauto.mp hask.2) hdark]
    · rw [if_neg hask, exchanged_of_no_swap fun h => hask ⟨h.2.1, hauto.mpr h.2.2.1⟩, if_neg hn, ← hcount]

theorem exchanged_record (s : State) (n : LampNo) : (exchanged s n).lamp.record n = fresh := by
  refine (record_congr (l := (renewed s n).lamp) ?_ ?_ n).trans (record_setRecord s.lamp n fresh) <;> rfl

theorem lampReplaced_eq {m : Message} {s : State} {n : LampNo} (hp : m.payload = [lampCode n]) :
    lampReplaced m s = (.good [lampCode n], s.replaceLamp n) := by
  rw [lampReplaced, hp]
  cases n <;> rfl

/-- Settles O23: STORE_READ by what is written, LAMP_REPLACED by `replaceLamp_eq` and the store's answer to the request. -/
theorem storeReadAndLampReplaced : Obligations.StoreReadAndLampReplaced := by
  refine ⟨fun s m rest page half hs ho hk hp hhalf => ?read,
    fun s m rest n hs ho hk hp hdark => ⟨fun hj => ?behind, fun hj hc hne => ?begins⟩⟩
  case read =>
    have hwork : storeRead m (s.taking m rest) =
        (.good ([page, half] ++ (((s.taking m rest).readPage page.toNat).drop (16 * half.toNat)).take 16),
          if page = 0xFF then
            (s.taking m rest).activateProtection ((s.taking m rest).readPage page.toNat) (s.taking m rest).protectionBroken
          else s.taking m rest) := by
      rw [storeRead, hp]
      exact if_pos hhalf
    rw [exec_good hs ho (exec_storeRead s) (isKind_of_kind hk) hwork]
    by_cases hpage : page = 0xFF
    · subst hpage
      have h255 : (0xFF : Byte).toNat = 255 := rfl
      rw [if_pos rfl, h255, activateProtection_eq, readPage_eq]
      rfl
    · simp only [if_neg hpage, readPage_eq]
      rfl
  case behind =>
    rw [exec_good hs ho (exec_lampReplaced s) (isKind_of_kind hk) (lampReplaced_eq hp),
      replaceLamp_eq (s := s.taking m rest) hdark, State.requestLampWrite_of_job (s := exchanged (s.taking m rest) n) hj]
    rw [exchanged, renewed, setRecord_eq]
    rfl
  case begins =>
    refine ⟨_, firstPhase_erase s.store.mem (lampPageOf n) (lampPage fresh), ?_⟩
    have hrec := exchanged_record (s.taking m rest) n
    rw [exec_good hs ho (exec_lampReplaced s) (isKind_of_kind hk) (lampReplaced_eq hp),
      replaceLamp_eq (s := s.taking m rest) hdark,
      requestLampWrite_begins (s := exchanged (s.taking m rest) n) hj (by rw [hrec]; exact hne) hc, hrec]
    rw [exchanged, renewed, setRecord_eq]
    rfl

end Sys2Proof.Proofs.StoreReading
end

