-- ==== Sys2Proof/Proofs/PageOps.lean ====
section
/-!
Page operations of the show store (spec/11 section 11.5): the page written, how its job goes on, and what a job's end brings.
-/

namespace Sys2Proof.Proofs.PageOps

open Sys2Proof Sys2Proof.Machine Sys2Proof.Proofs.Commands Sys2Proof.Proofs.Handler Sys2Proof.Proofs.Pages
open Sys2Proof.Proofs.Tables Sys2Proof.Proofs.Lasting Sys2Proof.Proofs.Supply Sys2Proof.Proofs.Load Sys2Proof.Proofs.StoreCommands

-- One declaration after another, so that the checks of many short proofs do not wait for each other in threads.
set_option Elab.async false

/-! ## The bytes of a page (R201, R202) -/

theorem padPage_getD (bs : List Byte) {i : Nat} (hi : i < 32) (d : Byte) : (padPage bs).getD i d = bs.getD i 0xFF := by
  have hlen : i < (padPage bs).length := by rw [padPage_length]; exact hi
  rw [List.getD_eq_getElem _ _ hlen]
  simp only [padPage, List.getElem_take]
  by_cases h : i < bs.length
  · rw [List.getElem_append_left h, List.getD_eq_getElem _ _ h]
  · rw [List.getElem_append_right (by omega), List.getElem_replicate, List.getD_eq_default _ _ (by omega)]
    rfl

theorem read_writePage_inside {m : ShowMem} (hm : m.wf = true) (p : Nat) (c : List Byte) {i : Nat} (hi : i < 32) :
    (m.writePage p c).read (32 * p + i) = c.getD i 0xFF := by
  have hl : (padPage c).length = 32 := padPage_length c
  rw [ShowMem.writePage, ShowMem.read_writeList hm, hl, if_pos (by simp only [pageBytes]; omega), ← padPage_getD c hi erasedByte]
  congr 1
  simp only [pageBytes]
  omega

/-! ## A page operation's end (R202) -/

/-- The state with an operation's contents written and the page known again. -/
def programmed (s : State) (op : PageOp) : State :=
  { s with store := { s.store with
      mem := s.store.mem.writePage op.page op.contents, broken := s.store.broken.filter fun q => q != op.page } }

theorem programmed_mem (s : State) (op : PageOp) :
    (programmed s op).store.mem = s.store.mem.writePage op.page op.contents := by rw [programmed]

theorem setJob_programmed (s : State) (op : PageOp) (j : Option Job) :
    (programmed s op).setJob j =
      { s with store := { s.store with
          mem := s.store.mem.writePage op.page op.contents, broken := s.store.broken.filter fun q => q != op.page
          job := j } } := by
  rw [State.setJob, programmed]

theorem pageOperationEnds_erase {s : State} {job : Job} {op : PageOp} (hj : s.store.job = some job) (ho : job.op = some op)
    (hstop : op.stopped = false) (h : op.phase = .erase) :
    pageOperationEnds s =
      { s with store := { s.store with
          mem := s.store.mem.writePage op.page [], job := some { job with op := some { op with phase := .program } } } } := by
  obtain ⟨k, pages, o⟩ := job
  obtain rfl : o = some op := ho
  rw [pageOperationEnds, hj]
  dsimp only
  rw [if_neg (ne_true_of_eq_false hstop), h]
  dsimp only [State.storePage, State.setJob]

theorem pageOperationEnds_program {s : State} {job : Job} {op : PageOp} (hj : s.store.job = some job)
    (ho : job.op = some op) (hstop : op.stopped = false) (h : op.phase = .program) :
    pageOperationEnds s = (runPages job.kind job.pages (programmed s op)).startPending := by
  obtain ⟨k, pages, o⟩ := job
  obtain rfl : o = some op := ho
  rw [pageOperationEnds, hj]
  dsimp only
  have hwritten : (s.storePage op.page op.contents).mendPage op.page = programmed s op := rfl
  rw [if_neg (ne_true_of_eq_false hstop), h, hwritten]

theorem through_programmed (s : State) (op : PageOp) (k : JobKind) (pages : List Nat) :
    Through (programmed s op) (runPages k pages (programmed s op)).startPending :=
  (through_runPages _ _ _).trans (through_startPending _)

/-! ## The end of a job (R93, R164, R185, R203) -/

theorem finishJob_save (s : State) (r : Region) (hr : r = .keys ∨ r = .slots ∨ r = .curve) :
    finishJob (.save r) s = ((s.setJob none).clearErrors (regionError r)).latch .storeDone := by
  rcases hr with rfl | rfl | rfl <;> rfl

theorem takeDeferredActive_eq (s : State) :
    s.takeDeferredActive =
      { s with lamp :=
          if s.lamp.activeWaits then { s.lamp with savedActive := s.lamp.active, activeWaits := false } else s.lamp } := by
  unfold State.takeDeferredActive
  split <;> rfl

/-- The trims after a SAVE of SETTINGS. -/
def settledParams (s : State) : Vector (BitVec 32) 21 :=
  match s.tape.pendingTrims with
  | some x =>
    ((s.params.set 16 (BitVec.ofInt 32 x.left)).set 17 (BitVec.ofInt 32 x.right)).set 18 (BitVec.ofInt 32 x.cue)
  | none => s.params

theorem takePendingTrims_eq (s : State) :
    s.takePendingTrims = { s with tape := { s.tape with pendingTrims := none }, params := settledParams s } := by
  have hparams : s.tape.pendingTrims = none → settledParams s = s.params := fun h => by rw [settledParams, h]
  unfold State.takePendingTrims
  split
  next x hx =>
    rw [setTrims_eq, settledParams, hx]
  next hx =>
    rw [hparams hx, ← hx]

theorem disable_table (c : CueEngine) (n : Nat) (i : Fin 64) :
    (c.disable n).table[i] = if i.val = n then { c.table[i] with enabled := false } else c.table[i] := by
  by_cases h : i.val = n
  · subst h
    rw [if_pos rfl]
    simp [CueEngine.disable, Vector.getD]
  · rw [if_neg h]
    simp [CueEngine.disable, Ne.symm h]

/-- The entries named become disabled, and nothing else of the engine changes. -/
theorem foldl_disable (clears : List Nat) (c : CueEngine) :
    clears.foldl CueEngine.disable c = { c with table := (clears.foldl CueEngine.disable c).table } ∧
      ∀ i : Fin 64, (clears.foldl CueEngine.disable c).table[i] =
        if i.val ∈ clears then { c.table[i] with enabled := false } else c.table[i] := by
  induction clears generalizing c with
  | nil => exact ⟨rfl, fun i => rfl⟩
  | cons n rest ih =>
    obtain ⟨hframe, htable⟩ := ih (c.disable n)
    refine ⟨hframe, fun i => ?_⟩
    rw [List.foldl_cons, htable i, disable_table]
    by_cases hn : i.val = n <;> by_cases hr : i.val ∈ rest <;> simp [hn, hr]

/-! ## The checks page (R201, R203) -/

theorem padPage_eq {bs : List Byte} (h : bs.length ≤ 32) :
    padPage bs = bs ++ List.replicate (32 - bs.length) erasedByte := by
  rw [padPage, List.take_append, List.take_of_length_le (by exact h), List.take_replicate, Nat.min_eq_left]
  · rfl
  · exact Nat.sub_le _ _

/-- The five checks as stored. -/
def storedChecks (s : State) : List Byte := (s.store.mem.page 254).take 10

theorem length_storedChecks (s : State) : (storedChecks s).length = 10 := by
  rw [storedChecks, List.length_take, page_length]; rfl

theorem storedChecks_getD (s : State) {i : Nat} (hi : i < 10) (d : Byte) :
    (storedChecks s).getD i d = s.store.mem.read (32 * 254 + i) := by
  rw [List.getD_eq_getElem _ _ (by rw [length_storedChecks]; exact hi)]
  simp only [storedChecks, List.getElem_take, ShowMem.page, List.getElem_map, List.getElem_range, pageBytes]

/-- The checks before a region's, its own, and those after it. -/
theorem checksPage_eq (s : State) (r : Region) :
    checksPage s r =
      padPage ((storedChecks s).take (2 * regionCode r) ++ (bytesOf 2 (crc16 (regionContents s r)).toNat ++
        (storedChecks s).drop (2 * regionCode r + 2))) := by
  rw [← List.append_assoc]
  rfl

theorem checksPage_getD (s : State) (r : Region) {i : Nat} (hi : i < 32) (hne : i / 2 ≠ regionCode r) :
    (checksPage s r).getD i 0 = if i < 10 then s.store.mem.read (32 * 254 + i) else 0xFF := by
  have hlen := length_storedChecks s
  have hc := regionCode_lt r
  have htake : ((storedChecks s).take (2 * regionCode r)).length = 2 * regionCode r := by
    rw [List.length_take, hlen]; omega
  have hcheck : (bytesOf 2 (crc16 (regionContents s r)).toNat).length = 2 := length_bytesOf _ _
  rw [checksPage_eq, padPage_getD _ hi]
  by_cases hlow : i < 2 * regionCode r
  · rw [List.getD_append _ _ _ _ (by omega), if_pos (by omega), ← storedChecks_getD s (by omega) 0xFF]
    rw [List.getD_eq_getElem _ _ (by omega), List.getD_eq_getElem _ _ (by omega), List.getElem_take]
  · rw [List.getD_append_right _ _ _ _ (by omega), List.getD_append_right _ _ _ _ (by omega), htake, hcheck]
    by_cases hin : i < 10
    · rw [if_pos hin, ← storedChecks_getD s hin 0xFF, List.getD_eq_getElem _ _ (by rw [List.length_drop]; omega),
        List.getD_eq_getElem _ _ (by omega), List.getElem_drop]
      congr 1
      omega
    · rw [if_neg hin, List.getD_eq_default _ _ (by rw [List.length_drop]; omega)]

theorem checksPage_check (s : State) (r : Region) :
    natOf (((checksPage s r).drop (2 * regionCode r)).take 2) = (crc16 (regionContents s r)).toNat := by
  have hlen := length_storedChecks s
  have hc := regionCode_lt r
  have htake : ((storedChecks s).take (2 * regionCode r)).length = 2 * regionCode r := by
    rw [List.length_take, hlen]; omega
  have hcheck : (bytesOf 2 (crc16 (regionContents s r)).toNat).length = 2 := length_bytesOf _ _
  have hfits : ((storedChecks s).take (2 * regionCode r) ++ (bytesOf 2 (crc16 (regionContents s r)).toNat ++
      (storedChecks s).drop (2 * regionCode r + 2))).length ≤ 32 := by
    rw [List.length_append, List.length_append, htake, hcheck, List.length_drop]; omega
  rw [checksPage_eq, padPage_eq hfits, List.append_assoc, List.append_assoc, List.drop_left' htake,
    List.take_left' hcheck, natOf_bytesOf_two]

/-! ## The job after its program -/

theorem programmed_read {s : State} (hm : s.store.mem.wf = true) (op : PageOp) {a : Nat}
    (h : a < 32 * op.page ∨ 32 * op.page + 32 ≤ a) (c : List Byte) :
    (s.store.mem.writePage op.page c).read a = s.store.mem.read a :=
  ShowMem.read_writePage_outside hm (by simp only [pageBytes]; omega) c

/-- The end of a SAVE, its region out of the store errors, before what waited for it takes effect. -/
def saved (s : State) (r : Region) : State :=
  State.latch
    { s with store := { s.store with job := none, errors := s.store.errors &&& ~~~ ((1 : BitVec 7) <<< regionCode r) } }
    .storeDone

theorem finishJob_settings (s : State) :
    finishJob (.save .settings) s =
      { saved s .settings with
        lamp := if s.lamp.activeWaits then { s.lamp with savedActive := s.lamp.active, activeWaits := false } else s.lamp
        tape := { s.tape with pendingTrims := none }
        params := settledParams s } := by
  have hlamp : (saved s .settings).lamp = s.lamp := by rw [saved, State.latch_frame]
  have htape : (saved s .settings).tape = s.tape := by rw [saved, State.latch_frame]
  have hparams : settledParams (saved s .settings) = settledParams s := by rw [saved, State.latch_frame]; rfl
  show (saved s .settings).takeDeferredActive.takePendingTrims = _
  rw [takePendingTrims_eq, takeDeferredActive_eq, hlamp]
  exact congrArg₂ (fun t p => ({ saved s .settings with
    lamp := if s.lamp.activeWaits then { s.lamp with savedActive := s.lamp.active, activeWaits := false } else s.lamp
    tape := { t with pendingTrims := none }, params := p } : State)) htape hparams

theorem finishJob_cues (s : State) :
    finishJob (.save .cues) s =
      { saved s .cues with cue := { s.cue with
          table := (s.cue.pendingClears.foldl CueEngine.disable s.cue).table, pendingClears := [] } } := by
  have hcue : (saved s .cues).cue = s.cue := by rw [saved, State.latch_frame]
  show (saved s .cues).takePendingClears = _
  rw [State.takePendingClears, hcue]
  exact congrArg (fun c : CueEngine => ({ saved s .cues with cue := { c with pendingClears := [] } } : State))
    (foldl_disable s.cue.pendingClears s.cue).1

/-- The state with a page erased and its program to follow. -/
def erased (s : State) (job : Job) (op : PageOp) : State :=
  { s with store := { s.store with
      mem := s.store.mem.writePage op.page [], job := some { job with op := some { op with phase := .program } } } }

theorem finishJob_lampWrite (s : State) (a b : Bool) :
    finishJob (.lampWrite a b) s =
      { s with store := { s.store with
          job := none, errors := s.store.errors &&& ~~~ ((if a then 0x20 else 0) ||| (if b then 0x40 else 0)) } } := rfl

theorem finishJob_pending (k : JobKind) (s : State) :
    (finishJob k s).store.pendingLamp0 = s.store.pendingLamp0 ∧
      (finishJob k s).store.pendingLamp1 = s.store.pendingLamp1 := by
  cases k with
  | save r => exact ⟨by rw [(finishSave_spec s r).1], by rw [(finishSave_spec s r).1]⟩
  | lampWrite a b => exact ⟨rfl, rfl⟩
  | protect set =>
    have hstore : (finishJob (.protect set) s).store = (s.setJob none).store := by
      rw [finishJob, State.latch_frame]
    rw [hstore]
    exact ⟨rfl, rfl⟩

/-- With no page left and no lamp write pending, the last page operation ends the job. -/
theorem pageOperationEnds_last {s : State} {job : Job} {op : PageOp} (hj : s.store.job = some job) (ho : job.op = some op)
    (hstop : op.stopped = false) (h : op.phase = .program) (hpages : job.pages = []) (h0 : s.store.pendingLamp0 = false)
    (h1 : s.store.pendingLamp1 = false) : pageOperationEnds s = finishJob job.kind (programmed s op) := by
  obtain ⟨hp0, hp1⟩ := finishJob_pending job.kind (programmed s op)
  rw [pageOperationEnds_program hj ho hstop h, hpages, runPages]
  exact startPending_of_none_pending (hp0.trans h0) (hp1.trans h1)

/-- The first lamp's record, pending while the store is idle, is written by a job that begins with its page. -/
theorem startPending_lamp0 {s : State} (hj : s.store.job = none) (h0 : s.store.pendingLamp0 = true)
    (h1 : s.store.pendingLamp1 = false) (hc : s.mon.supply ≠ .critical)
    (hne : lampPage s.lamp.record0 ≠ s.store.mem.page 82) :
    s.startPending =
      { s with store := { s.store with
          pendingLamp0 := false, pendingLamp1 := false
          job := some { kind := .lampWrite true false, pages := [], op := some {
            page := 82, contents := lampPage s.lamp.record0
            phase := firstPhase (s.store.mem.page 82) (lampPage s.lamp.record0), stopped := false } } } } := by
  have hbegins := runPages_begins (k := .lampWrite true false)
    (s := { s with store := { s.store with pendingLamp0 := false, pendingLamp1 := false } }) (p := 82) hne hc []
  unfold State.startPending
  rw [if_pos (by simp [State.storeIdle, hj, h0]), h0, h1]
  exact hbegins

/-- Settles O56: a page operation writes its own page; its job then begins a page, waits or ends by its kind. -/
theorem pageOperationsWritePages : Obligations.PageOperationsWritePages := by
  refine ⟨fun s job op hs hj ho hstop hlen hwf => ?operation,
    fun s r => ⟨padPage_length _, checksPage_check s r, fun i hi hne => checksPage_getD s r hi hne⟩⟩
  case operation =>
    have hexec : exec .pageOperationDone s = .next (pageOperationEnds s) := by
      rw [exec_pageOperationDone, whenSettled_of_ready hs]
    cases hphase : op.phase with
    | erase =>
      have hends : pageOperationEnds s = erased s job op := pageOperationEnds_erase hj ho hstop hphase
      have hmem : (erased s job op).store.mem = s.store.mem.writePage op.page [] := by simp only [erased]
      refine ⟨erased s job op, by rw [hexec, hends], fun a ha => ?outside, fun i hi => ?inside, fun _ => ?frame,
        fun h => PagePhase.noConfusion h⟩
      case outside => rw [hmem]; exact programmed_read hwf op ha []
      case frame => rw [hmem, erased]
      case inside => rw [hmem, if_pos rfl]; exact read_writePage_inside hwf op.page [] hi
    | program =>
      have hends := pageOperationEnds_program hj ho hstop hphase
      have hmem : (pageOperationEnds s).store.mem = s.store.mem.writePage op.page op.contents := by
        rw [hends, (through_programmed s op _ _).mem, programmed]
      refine ⟨pageOperationEnds s, hexec, fun a ha => ?outside, fun i hi => ?inside,
        fun h => PagePhase.noConfusion h, fun _ => ?goesOn⟩
      case outside => rw [hmem]; exact programmed_read hwf op ha op.contents
      case inside =>
        rw [hmem, if_neg (fun h => PagePhase.noConfusion h)]
        exact read_writePage_inside hwf op.page op.contents hi
      case goesOn =>
        rw [hmem]
        have hwritten : ({ s with store := { s.store with
            mem := s.store.mem.writePage op.page op.contents,
            broken := s.store.broken.filter fun q => q != op.page } } : State) = programmed s op := by rw [programmed]
        refine ⟨fun p rest hpages hne => ⟨fun hc => ?waits, fun hc => ?begins⟩, fun hpages h0 h1 => ?ends,
          fun hpages h0 h1 hc hkind hne => ?pending⟩
        case waits =>
          have hne' : jobContents (programmed s op) job.kind p ≠ (programmed s op).store.mem.page p := by
            rw [← hwritten]; exact hne
          rw [hends, hpages, runPages_critical hne' hc, startPending_of_job, setJob_programmed]
        case begins =>
          have hne' : jobContents (programmed s op) job.kind p ≠ (programmed s op).store.mem.page p := by
            rw [← hwritten]; exact hne
          refine ⟨_, firstPhase_erase _ p _, ?_⟩
          rw [hends, hpages, runPages_begins hne' hc, startPending_of_job, setJob_programmed, hwritten]
          rw [programmed_mem]
        case ends =>
          have hlast := pageOperationEnds_last hj ho hstop hphase hpages h0 h1
          refine ⟨fun set hk => ?protects, fun a b hk => ?writesLamps, fun r hk => ⟨fun hr => ?plain, ?settings, ?cues⟩⟩
          case protects => rw [hlast, hk, finishJob, setJob_programmed]
          case writesLamps => rw [hlast, hk, finishJob_lampWrite, programmed]
          case plain => rw [hlast, hk, finishJob_save _ _ hr, setJob_programmed]; rfl
          case settings =>
            rintro rfl
            rw [hlast, hk, finishJob_settings, saved, settledParams, programmed] <;> rfl
          case cues =>
            rintro rfl
            have htable : (pageOperationEnds s).cue.table = (s.cue.pendingClears.foldl CueEngine.disable s.cue).table := by
              rw [hlast, hk, finishJob_cues, programmed]
            refine ⟨?_, fun i => ?_⟩
            · rw [htable, hlast, hk, finishJob_cues, saved, programmed]
            · simp only [htable]
              exact (foldl_disable s.cue.pendingClears s.cue).2 i
        case pending =>
          obtain ⟨a, b, hk⟩ := hkind
          have hmem' : (finishJob (.lampWrite a b) (programmed s op)).store.mem =
              s.store.mem.writePage op.page op.contents := by rw [finishJob_lampWrite, programmed]
          have hlamp : (finishJob (.lampWrite a b) (programmed s op)).lamp = s.lamp := rfl
          have hstarts := startPending_lamp0 (s := finishJob (.lampWrite a b) (programmed s op)) rfl h0 h1 hc
            (by rw [hmem', hlamp]; exact hne)
          rw [hmem', hlamp] at hstarts
          rw [hends, hpages, hk, runPages, hstarts]
          exact ⟨rfl, _, firstPhase_erase _ 82 _, rfl⟩

end Sys2Proof.Proofs.PageOps
end

