-- ==== Sys2Proof/Proofs/Output.lean ====
section
/-!
One output sample (spec/09 sections 9.3 to 9.7): the read by the FIFO's level, the gain, the output, and the flush of a delay change.
-/

namespace Sys2Proof.Proofs.Output

open Sys2Proof Sys2Proof.Machine Sys2Proof.Proofs.Commands Sys2Proof.Proofs.Events

-- One declaration after another, so that the checks of many short proofs do not wait for each other in threads.
set_option Elab.async false

/-! ## The read (R169, R170) -/

theorem readPair_of_filling {s : State} (h : s.sound.reader = .filling) : s.readPair = ((0, 0), s) := by
  rw [State.readPair, Sound.readKind, h]

theorem readPair_of_empty {s : State} (h : s.sound.reader = .playing) (he : s.sound.fifo = []) :
    s.readPair = ((0, 0), s.setSound { s.sound with
      reader := .filling, holdoff := s.sound.holdoff - 1, reasons := { s.sound.reasons with underflow := true } }) := by
  have hkind : s.sound.readKind = .underflow := by simp only [Sound.readKind, h, he, List.length_nil, if_true]
  rw [State.readPair, hkind]

/-- Inside the window, or under the holdoff, the oldest pair is read. -/
theorem readPair_of_in_window {s : State} {p : Pair} {rest : List Pair} (h : s.sound.reader = .playing)
    (hf : s.sound.fifo = p :: rest)
    (hw : s.sound.holdoff ≠ 0 ∨
      s.sound.delay ≤ s.sound.fifo.length + 64 ∧ s.sound.fifo.length ≤ s.sound.delay + 64) :
    s.readPair = (p, s.setSound { s.sound with fifo := rest, lastRead := p, holdoff := s.sound.holdoff - 1 }) := by
  have hheld : s.sound.fifo.length ≠ 0 := by rw [hf]; exact Nat.succ_ne_zero _
  have hkind : s.sound.readKind = .normal := by
    simp only [Sound.readKind, h]
    rw [if_neg hheld, if_neg (by omega), if_neg (by omega)]
  rw [State.readPair, hkind]
  dsimp only
  rw [hf]

/-- Above the window one pair is dropped. -/
theorem readPair_of_above {s : State} {p q : Pair} {rest : List Pair} (h : s.sound.reader = .playing)
    (hf : s.sound.fifo = p :: q :: rest) (h0 : s.sound.holdoff = 0) (ha : s.sound.delay + 64 < s.sound.fifo.length) :
    s.readPair = (q, (s.setSound { s.sound with fifo := rest, lastRead := q, holdoff := 160 }).slip) := by
  have hkind : s.sound.readKind = .drop := by
    simp only [Sound.readKind, h]
    rw [if_neg (by omega), if_pos ⟨h0, ha⟩]
  rw [State.readPair, hkind]
  dsimp only
  rw [hf]

/-- Below the window the last pair is repeated. -/
theorem readPair_of_below {s : State} (h : s.sound.reader = .playing) (hf : s.sound.fifo ≠ [])
    (h0 : s.sound.holdoff = 0) (hb : s.sound.fifo.length + 64 < s.sound.delay) :
    s.readPair = (s.sound.lastRead, (s.setSound { s.sound with holdoff := 160 }).slip) := by
  have hheld : s.sound.fifo.length ≠ 0 := fun hz => hf (List.length_eq_zero_iff.mp hz)
  have hkind : s.sound.readKind = .repeated := by
    simp only [Sound.readKind, h]
    rw [if_neg hheld, if_neg (by omega), if_pos ⟨h0, hb⟩]
  rw [State.readPair, hkind]

theorem slip_sound (s : State) : s.slip.sound = { s.sound with slips := s.sound.slips + 1 } := by
  rw [State.slip, State.latch_frame]; rfl

theorem slip_frame (s : State) : s.slip = { s with sound := s.slip.sound, events := s.slip.events, msg := s.slip.msg } := by
  rw [State.slip, State.latch_frame]; rfl

theorem slip_latches (s : State) : s.slip.latchedFlag .audioSlip = true := by
  rw [State.slip, latchedFlag_latch, decide_eq_true rfl, Bool.or_true]

/-- The mute reasons after the read of an output sample: an underflow raises its reason. -/
abbrev readReasons (s : State) : MuteReasons :=
  if s.sound.reader = .playing ∧ s.sound.fifo = [] then { s.sound.reasons with underflow := true }
  else s.sound.reasons

/-- What a read leaves as it was, the mute reasons but for an underflow's. -/
structure ReadFrom (s u : State) : Prop where
  step : u.sound.step = s.sound.step
  rampCount : u.sound.rampCount = s.sound.rampCount
  showLevel : u.sound.showLevel = s.sound.showLevel
  delay : u.sound.delay = s.sound.delay
  pendingDelay : u.sound.pendingDelay = s.sound.pendingDelay
  reasons : u.sound.reasons = readReasons s
  frame : u = { s with sound := u.sound, events := u.events, msg := u.msg }

theorem readFrom_slip {s u : State} (h : ReadFrom s u) : ReadFrom s u.slip := by
  have hs := slip_sound u
  constructor
  case frame =>
    have hover : ∀ a e m, ({ u with sound := a, events := e, msg := m } : State) =
        { s with sound := a, events := e, msg := m } := fun a e m => by rw [h.frame]
    exact (slip_frame u).trans (hover _ _ _)
  all_goals rw [hs]
  · exact h.step
  · exact h.rampCount
  · exact h.showLevel
  · exact h.delay
  · exact h.pendingDelay
  · exact h.reasons

theorem readReasons_of_held {s : State} (h : s.sound.fifo ≠ []) : readReasons s = s.sound.reasons :=
  if_neg fun hr => h hr.2

theorem readReasons_of_filling {s : State} (h : s.sound.reader = .filling) : readReasons s = s.sound.reasons :=
  if_neg fun hr => by rw [h] at hr; exact nomatch hr.1

/-- Every read, by its kind. -/
theorem readPair_readFrom (s : State) : ReadFrom s s.readPair.2 := by
  cases hreader : s.sound.reader with
  | filling =>
    rw [readPair_of_filling hreader]
    exact ⟨rfl, rfl, rfl, rfl, rfl, (readReasons_of_filling hreader).symm, rfl⟩
  | playing =>
    by_cases hempty : s.sound.fifo = []
    · rw [readPair_of_empty hreader hempty]
      exact ⟨rfl, rfl, rfl, rfl, rfl, (if_pos ⟨hreader, hempty⟩).symm, rfl⟩
    have hreasons := (readReasons_of_held hempty).symm
    by_cases habove : s.sound.holdoff = 0 ∧ s.sound.delay + 64 < s.sound.fifo.length
    · obtain ⟨h0, ha⟩ := habove
      match hf : s.sound.fifo with
      | [] => exact absurd hf hempty
      | [p] => rw [hf, List.length_singleton] at ha; omega
      | p :: q :: rest =>
        rw [readPair_of_above hreader hf h0 ha]
        exact readFrom_slip ⟨rfl, rfl, rfl, rfl, rfl, hreasons, rfl⟩
    by_cases hbelow : s.sound.holdoff = 0 ∧ s.sound.fifo.length + 64 < s.sound.delay
    · obtain ⟨h0, hb⟩ := hbelow
      rw [readPair_of_below hreader hempty h0 hb]
      exact readFrom_slip ⟨rfl, rfl, rfl, rfl, rfl, hreasons, rfl⟩
    obtain ⟨p, rest, hf⟩ := List.exists_cons_of_ne_nil hempty
    rw [readPair_of_in_window hreader hf (by omega)]
    exact ⟨rfl, rfl, rfl, rfl, rfl, hreasons, rfl⟩

/-! ## The gain, the output and the flush (R173 to R178) -/

/-- The gain target under mute reasons. -/
abbrev gainGoal (s : State) (r : MuteReasons) : Nat :=
  let mask := s.param .muteMask
  if r.command || r.fill || r.delayChange || (r.link && mask.getLsbD 0) || (r.badRun && mask.getLsbD 1) ||
      (r.silent && mask.getLsbD 2) || (r.underflow && mask.getLsbD 3) then 97
  else s.sound.showLevel

/-- The gain step moves at this output sample. -/
abbrev gainMoves (s : State) : Prop :=
  s.sound.step ≠ gainGoal s (readReasons s) ∧ s.paramNat .rampInterval ≤ min 255 (s.sound.rampCount + 1)

/-- The gain step after an output sample. -/
abbrev gainAfter (s : State) : Nat :=
  if gainMoves s then stepToward s.sound.step (gainGoal s (readReasons s)) else s.sound.step

/-- A delay change is flushed at this output sample. -/
abbrev Flushed (s : State) : Prop := s.sound.pendingDelay ≠ none ∧ gainAfter s = 97

/-- The sound path after the read, with its gain and output. -/
def drivenSound (s u : State) (p : Pair) : Sound :=
  { u.sound with
    step := gainAfter s
    rampCount := if gainMoves s then 0 else min 255 (s.sound.rampCount + 1)
    output := if s.paramNat .soundOut ≠ 0 then (scaleSample (gainAfter s) p.1, scaleSample (gainAfter s) p.2) else (0, 0) }

/-- A sound path flushed into a new delay. -/
def flushedSound (a : Sound) (d : Nat) : Sound :=
  { a with
    fifo := [], delay := d, pendingDelay := none, lastRead := (0, 0), holdoff := 0, reader := .filling,
    reasons := { a.reasons with delayChange := false, underflow := false, fill := true } }

/-- The sound path after an output sample. -/
def soundAfter (s : State) : Sound :=
  if gainAfter s = 97 then
    match s.sound.pendingDelay with
    | some d => flushedSound (drivenSound s s.readPair.2 s.readPair.1) d
    | none => drivenSound s s.readPair.2 s.readPair.1
  else drivenSound s s.readPair.2 s.readPair.1

theorem soundAfter_of_not_flushed {s : State} (h : ¬ Flushed s) :
    soundAfter s = drivenSound s s.readPair.2 s.readPair.1 := by
  unfold soundAfter
  by_cases hoff : gainAfter s = 97
  · have hnone : s.sound.pendingDelay = none := Classical.not_not.mp fun hp => h ⟨hp, hoff⟩
    rw [if_pos hoff, hnone]
  · rw [if_neg hoff]

theorem soundAfter_of_flushed {s : State} {d : Nat} (hd : s.sound.pendingDelay = some d) (h : Flushed s) :
    soundAfter s = flushedSound (drivenSound s s.readPair.2 s.readPair.1) d := by
  unfold soundAfter
  rw [if_pos h.2, hd]

theorem gainTarget_readFrom {s u : State} (h : ReadFrom s u) : u.gainTarget = gainGoal s (readReasons s) := by
  have hparams : u.params = s.params := by rw [h.frame]
  rw [State.gainTarget, State.muted, h.reasons, h.showLevel]
  simp only [State.param, hparams, Config.offStep]
  rfl

theorem rampGain_readFrom {s u : State} (h : ReadFrom s u) :
    u.rampGain = u.setSound { u.sound with
      step := gainAfter s, rampCount := if gainMoves s then 0 else min 255 (s.sound.rampCount + 1) } := by
  have hinterval : u.paramNat .rampInterval = s.paramNat .rampInterval := by
    rw [h.frame]; rfl
  unfold State.rampGain
  dsimp only
  rw [gainTarget_readFrom h, hinterval, h.step, h.rampCount]
  by_cases hmoves : gainMoves s
  · refine (if_pos hmoves).trans ?_
    rw [gainAfter, if_pos hmoves, if_pos hmoves]
  · refine (if_neg hmoves).trans ?_
    rw [gainAfter, if_neg hmoves, if_neg hmoves, ← h.step]
    rfl

theorem driveOutput_rampGain {s u : State} (h : ReadFrom s u) (p : Pair) :
    u.rampGain.driveOutput p = u.setSound (drivenSound s u p) := by
  have hout : u.paramOn .soundOut = decide (s.paramNat .soundOut ≠ 0) := by rw [h.frame]; rfl
  have hif : ∀ x y : Pair, (if decide (s.paramNat .soundOut ≠ 0) = true then x else y) =
      if s.paramNat .soundOut ≠ 0 then x else y := fun x y => by simp only [decide_eq_true_eq]
  rw [rampGain_readFrom h, State.driveOutput]
  show u.setSound { u.sound with
    step := gainAfter s, rampCount := if gainMoves s then 0 else min 255 (s.sound.rampCount + 1)
    output := if u.paramOn .soundOut = true then _ else _ } = _
  rw [hout, hif]
  rfl

theorem outputSampleWork_eq (s : State) : s.outputSampleWork = s.readPair.2.setSound (soundAfter s) := by
  have h := readPair_readFrom s
  have hpending : (s.readPair.2.setSound (drivenSound s s.readPair.2 s.readPair.1)).sound.pendingDelay =
      s.sound.pendingDelay := h.pendingDelay
  rw [State.outputSampleWork, driveOutput_rampGain h, State.flushIfOff, State.flushDelay, hpending, soundAfter]
  by_cases hoff : gainAfter s = 97
  · refine (if_pos hoff).trans ?_
    rw [if_pos hoff]
    cases s.sound.pendingDelay <;> rfl
  · exact (if_neg hoff).trans (by rw [if_neg hoff])

theorem soundAfter_step (s : State) : (soundAfter s).step = gainAfter s := by
  by_cases h : Flushed s
  · obtain ⟨d, hd⟩ := Option.ne_none_iff_exists'.mp h.1
    rw [soundAfter_of_flushed hd h]; rfl
  · rw [soundAfter_of_not_flushed h]; rfl

/-- What an output sample does to the sound path whether or not it flushes. -/
theorem soundAfter_always (s : State) (a : Sound) (ha : a = drivenSound s s.readPair.2 s.readPair.1) :
    (soundAfter s).rampCount = a.rampCount ∧ (soundAfter s).output = a.output ∧ (soundAfter s).slips = a.slips ∧
      (soundAfter s).showLevel = a.showLevel := by
  by_cases h : Flushed s
  · obtain ⟨d, hd⟩ := Option.ne_none_iff_exists'.mp h.1
    rw [soundAfter_of_flushed hd h, ha]
    exact ⟨rfl, rfl, rfl, rfl⟩
  · rw [soundAfter_of_not_flushed h, ha]
    exact ⟨rfl, rfl, rfl, rfl⟩

/-- What an output sample does to the FIFO where it does not flush. -/
theorem soundAfter_kept {s : State} (h : ¬ Flushed s) :
    (soundAfter s).fifo = s.readPair.2.sound.fifo ∧ (soundAfter s).reader = s.readPair.2.sound.reader ∧
      (soundAfter s).lastRead = s.readPair.2.sound.lastRead ∧ (soundAfter s).holdoff = s.readPair.2.sound.holdoff := by
  rw [soundAfter_of_not_flushed h]
  exact ⟨rfl, rfl, rfl, rfl⟩

theorem scaleSample_zero (k : Nat) : scaleSample k 0 = 0 := by
  simp [scaleSample]

theorem drivenSound_output (s u : State) (p : Pair) :
    (drivenSound s u p).output =
      if s.paramNat .soundOut ≠ 0 then (scaleSample (soundAfter s).step p.1, scaleSample (soundAfter s).step p.2)
      else (0, 0) := by
  rw [soundAfter_step]; rfl

/-- A silent pair is put out as silence. -/
theorem drivenSound_silent (s u : State) : (drivenSound s u (0, 0)).output = (0, 0) := by
  show (if _ then (scaleSample (gainAfter s) 0, scaleSample (gainAfter s) 0) else ((0, 0) : Pair)) = (0, 0)
  rw [scaleSample_zero, ite_self]

/-- Settles O49: the read by its level, and after any read the gain, the output and the flush. -/
theorem outputSampleReads : Obligations.OutputSampleReads := by
  intro s hs
  have hread := readPair_readFrom s
  have hstep : (soundAfter s).step = gainAfter s := soundAfter_step s
  obtain ⟨hcount, hout, hslips, hshow⟩ := soundAfter_always s _ rfl
  have hwork : exec .outputSample s = .next s.outputSampleWork := by
    rw [exec_outputSample, whenSettled_of_ready hs]
  rw [outputSampleWork_eq] at hwork
  refine ⟨_, hwork, hstep, hcount, fun hr => ?filling, fun hr he => ?empty, fun p rest hr hf hw => ?reads,
    fun p q rest hr hf h0 ha => ?drops, fun hr hf h0 hb => ?repeats, fun hn => ?kept, fun d hd hfl => ?flushes,
    hshow.trans hread.showLevel, ?frame⟩
  case filling =>
    have hpair := readPair_of_filling hr
    rw [hpair] at hout hslips ⊢
    refine ⟨hout.trans (drivenSound_silent s s), hslips, fun hn => ?_⟩
    obtain ⟨hfifo, hreader, -, hhold⟩ := soundAfter_kept hn
    rw [hpair] at hfifo hreader hhold
    exact ⟨hfifo, hreader.trans hr, hhold⟩
  case empty =>
    have hpair := readPair_of_empty hr he
    rw [hpair] at hout hslips ⊢
    refine ⟨hout.trans (drivenSound_silent s _), hslips, fun hn => ?_⟩
    obtain ⟨hfifo, hreader, -, hhold⟩ := soundAfter_kept hn
    rw [hpair] at hfifo hreader hhold
    exact ⟨hfifo.trans he, hreader, hhold⟩
  case reads =>
    have hpair := readPair_of_in_window hr hf hw
    rw [hpair] at hout hslips ⊢
    refine ⟨hslips, hout.trans (drivenSound_output s _ _), fun hn => ?_⟩
    obtain ⟨hfifo, hreader, hlast, hhold⟩ := soundAfter_kept hn
    rw [hpair] at hfifo hreader hlast hhold
    exact ⟨hfifo, hreader.trans hr, hlast, hhold⟩
  case drops =>
    have hpair := readPair_of_above hr hf h0 ha
    rw [hpair] at hout hslips ⊢
    refine ⟨hslips.trans (by rw [drivenSound, slip_sound]; rfl), slip_latches _,
      hout.trans (drivenSound_output s _ _), fun hn => ?_⟩
    obtain ⟨hfifo, hreader, hlast, hhold⟩ := soundAfter_kept hn
    rw [hpair] at hfifo hreader hlast hhold
    simp only [slip_sound] at hfifo hreader hlast hhold
    exact ⟨hfifo, hreader.trans hr, hlast, hhold⟩
  case repeats =>
    have hpair := readPair_of_below hr hf h0 hb
    rw [hpair] at hout hslips ⊢
    refine ⟨hslips.trans (by rw [drivenSound, slip_sound]; rfl), slip_latches _,
      hout.trans (drivenSound_output s _ _), fun hn => ?_⟩
    obtain ⟨hfifo, hreader, hlast, hhold⟩ := soundAfter_kept hn
    rw [hpair] at hfifo hreader hlast hhold
    simp only [slip_sound] at hfifo hreader hlast hhold
    exact ⟨hfifo, hreader.trans hr, hlast, hhold⟩
  case kept =>
    rw [soundAfter_of_not_flushed hn]
    exact ⟨hread.delay, hread.pendingDelay, hread.reasons⟩
  case flushes =>
    rw [soundAfter_of_flushed hd hfl]
    refine ⟨rfl, rfl, rfl, rfl, rfl, rfl, ?_⟩
    show ({ s.readPair.2.sound.reasons with delayChange := false, underflow := false, fill := true } : MuteReasons) = _
    rw [hread.reasons]
  case frame =>
    have hover : ∀ a, ({ s.readPair.2 with sound := a } : State) =
        { s with sound := a, events := s.readPair.2.events, msg := s.readPair.2.msg } := fun a => by rw [hread.frame]
    exact hover _

end Sys2Proof.Proofs.Output
end

