-- ==== Sys2Proof/Proofs/Keys.lean ====
section
/-!
Remote keys (spec/11 sections 11.1 to 11.3): the entry of a key, where its action goes, and what an infrared frame brings.
-/

namespace Sys2Proof.Proofs.Keys

open Sys2Proof Sys2Proof.Machine Sys2Proof.Proofs.Commands Sys2Proof.Proofs.Rests Sys2Proof.Proofs.ActionCommands

-- One declaration after another, so that the checks of many short proofs do not wait for each other in threads.
set_option Elab.async false

/-! ## The first of the entries that match (R89, R193) -/

theorem find?_toList_of_first {α : Type} {n : Nat} (v : Vector α n) (p : α → Bool) (i : Fin n) (hp : p v[i] = true)
    (hfirst : ∀ j : Fin n, j < i → p v[j] = false) : v.toList.find? p = some v[i] := by
  refine List.find?_eq_some_iff_getElem.mpr ⟨hp, i.val, by rw [Vector.length_toList]; exact i.isLt, ?_, ?_⟩
  · rw [Vector.getElem_toList]; rfl
  · intro j hj
    rw [Vector.getElem_toList, Bool.not_eq_true', ← hfirst ⟨j, hj.trans i.isLt⟩ hj]
    rfl

theorem keyEntry_of_first {s : State} {code : Byte} (i : Fin 16) (he : s.remote.keys[i].enabled = true)
    (hc : s.remote.keys[i].code = code)
    (hfirst : ∀ j : Fin 16, j < i → s.remote.keys[j].enabled = true → s.remote.keys[j].code ≠ code) :
    s.keyEntry code = some s.remote.keys[i] := by
  refine find?_toList_of_first s.remote.keys _ i ?_ fun j hj => ?_
  · rw [Bool.and_eq_true, decide_eq_true_eq]; exact ⟨he, hc⟩
  · rw [Bool.and_eq_false_iff, decide_eq_false_iff_not]
    cases h : s.remote.keys[j].enabled with
    | false => exact .inl rfl
    | true => exact .inr (hfirst j hj h)

theorem keyEntry_of_none {s : State} {code : Byte}
    (h : ∀ e ∈ s.remote.keys.toList, e.enabled = true → e.code ≠ code) : s.keyEntry code = none := by
  refine List.find?_eq_none.mpr fun e he hm => ?_
  rw [Bool.and_eq_true, decide_eq_true_eq] at hm
  exact h e he hm.1 hm.2

/-! ## The placement of a key's action (R97, R98, R100) -/

/-- The state with an action placed behind the entries that wait. -/
def placed (s : State) (a : Action) (source : ActionSource) : State :=
  { s with queue := { s.queue with
      entries := s.queue.entries ++ [{ action := a, source := source }], accepted := s.queue.accepted + 1 } }

theorem placeOrDiscard_of_room {s : State} (a : Action) (source : ActionSource) (h : s.queue.entries.length < 16) :
    s.placeOrDiscard a source = s.place [a] source := if_pos (queueRoom_pos h)

theorem placeOrDiscard_waiting {s : State} (a : Action) (source : ActionSource) (hne : s.queue.entries ≠ [])
    (h : s.queue.entries.length < 16) : s.placeOrDiscard a source = placed s a source :=
  (placeOrDiscard_of_room a source h).trans (if_neg hne)

theorem placeOrDiscard_first {s : State} (a : Action) (source : ActionSource) (he : s.queue.entries = []) :
    s.placeOrDiscard a source = (placed s a source).offer :=
  (placeOrDiscard_of_room a source (by rw [he]; decide)).trans (if_pos he)

theorem placeOrDiscard_full {s : State} (a : Action) (source : ActionSource) (h : s.queue.entries.length = 16) :
    s.placeOrDiscard a source = s.latch .actionDiscarded :=
  if_neg (by rw [State.queueRoom, h]; decide)

/-- The offer at a placement is that of a PAUSE's expiry. -/
theorem exec_pauseExpiry_placed {s : State} {a : Action} {source : ActionSource} (hp : s.powered = true)
    (hpause : s.queue.pause = none) :
    exec .pauseExpiry (placed s a source).offering = .next (placed s a source).offer :=
  exec_pauseExpiry_offering (s := placed s a source) hp hpause

/-! ## The bits of a code frame (R191) -/

theorem natOfBits_append (xs ys : List Bool) :
    natOfBits (xs ++ ys) = natOfBits xs * 2 ^ ys.length + natOfBits ys := by
  induction ys using List.reverseRecOn with
  | nil => simp [natOfBits]
  | append_singleton ys b ih =>
    have hsnoc : ∀ zs : List Bool, natOfBits (zs ++ [b]) = 2 * natOfBits zs + (if b then 1 else 0) := fun zs => by
      simp [natOfBits]
    rw [← List.append_assoc, hsnoc, ih, hsnoc, List.length_append, List.length_singleton, pow_succ]
    ring

theorem length_bitsOf (w n : Nat) : (bitsOf w n).length = w := by simp [bitsOf]

theorem bitsOf_succ (w n : Nat) : bitsOf (w + 1) n = n.testBit w :: bitsOf w n := by
  simp [bitsOf, List.range_succ]

theorem natOfBits_bitsOf (w n : Nat) : natOfBits (bitsOf w n) = n % 2 ^ w := by
  induction w with
  | zero => simp [bitsOf, natOfBits, Nat.mod_one]
  | succ w ih =>
    have hcons : natOfBits [n.testBit w] = n / 2 ^ w % 2 := by
      rw [Nat.testBit_eq_decide_div_mod_eq]
      rcases Nat.mod_two_eq_zero_or_one (n / 2 ^ w) with h | h <;> simp [natOfBits, h]
    rw [bitsOf_succ, ← List.singleton_append, natOfBits_append, length_bitsOf, ih, hcons, Nat.pow_succ, Nat.mod_mul]
    ring

theorem codeFields_codeBits {channel key : Nat} (hc : channel < 2 ^ 4) (hk : key < 2 ^ 8) :
    codeFields (codeBits channel key) = (channel, key, channel ^^^ key / 16 ^^^ key % 16) := by
  have hcheck : channel ^^^ key / 16 ^^^ key % 16 < 2 ^ 4 :=
    Nat.xor_lt_two_pow (Nat.xor_lt_two_pow hc (by omega)) (by omega)
  have hhead : (codeBits channel key).take 4 = bitsOf 4 channel := by
    rw [codeBits, List.append_assoc, List.take_left' (length_bitsOf _ _)]
  have hmiddle : ((codeBits channel key).drop 4).take 8 = bitsOf 8 key := by
    rw [codeBits, List.append_assoc, List.drop_left' (length_bitsOf _ _), List.take_left' (length_bitsOf _ _)]
  have htail : (codeBits channel key).drop 12 = bitsOf 4 (channel ^^^ key / 16 ^^^ key % 16) := by
    rw [codeBits, List.drop_left' (by rw [List.length_append, length_bitsOf, length_bitsOf])]
  rw [codeFields, hhead, hmiddle, htail, natOfBits_bitsOf, natOfBits_bitsOf, natOfBits_bitsOf, Nat.mod_eq_of_lt hc,
    Nat.mod_eq_of_lt hk, Nat.mod_eq_of_lt hcheck]

theorem codeAccepted_codeBits {channel key own : Nat} (hc : channel < 16) (hk : key < 256) :
    codeAccepted own (codeBits channel key) = decide (channel = own) := by
  rw [codeAccepted, codeFields_codeBits hc hk]
  simp

/-! ## Elements at the receiver (R191) -/

/-- The state with its receiver in a state. -/
def receiving (s : State) (ir : IrState) : State := s.setRemote { s.remote with ir := ir }

theorem receiving_self {s : State} {ir : IrState} (h : s.remote.ir = ir) : receiving s ir = s := by
  rw [← h]; rfl

theorem irElement_receiving {s : State} {st next : IrState} {e : IrElement} (h : irTake st e = .goesOn next) :
    (receiving s st).irElement e = receiving s next := by
  show (match irTake st e with
    | .goesOn n => (receiving s st).setRemote { (receiving s st).remote with ir := n }
    | .repeatFrame => _
    | .codeFrame _ => _) = _
  rw [h]
  rfl

/-- The burst and the space of a bit. -/
theorem irElements_bit {s : State} {g : List Bool} (b : Bool) (h : g.length < 16) :
    (receiving s (.bits g false)).irElements [.burst 500, .space (if b then 1500 else 500)] =
      receiving s (.bits (g ++ [b]) false) := by
  have hburst : irTake (.bits g false) (.burst 500) = .goesOn (.bits g true) := by
    rw [irTake, if_pos (by decide), if_neg (by omega)]
  have hspace : irTake (.bits g true) (.space (if b then 1500 else 500)) = .goesOn (.bits (g ++ [b]) false) := by
    cases b <;> rw [irTake, if_neg (by simp [endsFrame])] <;> rfl
  rw [State.irElements, List.foldl_cons, List.foldl_cons, List.foldl_nil, irElement_receiving hburst,
    irElement_receiving hspace]

theorem irElements_append (s : State) (xs ys : List IrElement) :
    s.irElements (xs ++ ys) = (s.irElements xs).irElements ys := List.foldl_append

theorem irElements_bits {s : State} (bits g : List Bool) (h : g.length + bits.length ≤ 16) :
    (receiving s (.bits g false)).irElements (bits.flatMap fun b => [.burst 500, .space (if b then 1500 else 500)]) =
      receiving s (.bits (g ++ bits) false) := by
  induction bits generalizing g with
  | nil => rw [List.append_nil]; rfl
  | cons b rest ih =>
    rw [List.length_cons] at h
    rw [List.flatMap_cons, irElements_append, irElements_bit b (by omega),
      ih (g ++ [b]) (by rw [List.length_append, List.length_singleton]; omega), List.append_assoc, List.singleton_append]

theorem irElements_leader {s : State} (h : s.remote.ir = .waitLeader) :
    s.irElements [.burst 4000, .space 2000] = receiving s (.bits [] false) := by
  have hburst : irTake .waitLeader (.burst 4000) = .goesOn .leaderSpace := by
    rw [irTake, if_pos (by decide)]
  have hspace : irTake .leaderSpace (.space 2000) = .goesOn (.bits [] false) := by
    rw [irTake, if_pos (by decide)]
  rw [State.irElements, List.foldl_cons, List.foldl_cons, List.foldl_nil, ← receiving_self h,
    irElement_receiving hburst, irElement_receiving hspace]
  rfl

/-- The stop burst and the space after it complete a code frame of 16 bits. -/
theorem irElements_stop {s : State} {bits : List Bool} {after : Nat} (h : bits.length = 16) (ha : 2500 < after)
    (hs : s.remote.ir = .waitLeader) :
    (receiving s (.bits bits false)).irElements [.burst 500, .space after] =
      if codeAccepted (s.paramNat .remoteChannel) bits then s.press (byteOf (codeFields bits).2.1) .ir else s := by
  have hburst : irTake (.bits bits false) (.burst 500) = .goesOn (.stop bits) := by
    rw [irTake, if_pos (by decide), if_pos h]
  have hspace : irTake (.stop bits) (.space after) = .codeFrame bits := if_pos (decide_eq_true ha)
  have hdone : (receiving s (.stop bits)).irElement (.space after) =
      if codeAccepted (s.paramNat .remoteChannel) bits then (receiving s .waitLeader).press (byteOf (codeFields bits).2.1) .ir
      else receiving s .waitLeader := by
    show (match irTake (.stop bits) (.space after) with
      | .goesOn n => _
      | .repeatFrame => _
      | .codeFrame b => _) = _
    rw [hspace]
    rfl
  rw [State.irElements, List.foldl_cons, List.foldl_cons, List.foldl_nil, irElement_receiving hburst, hdone,
    receiving_self hs]

/-- A code frame at nominal lengths is a press of its key when it is for the unit's channel, and otherwise nothing. -/
theorem irElements_code {s : State} {channel key after : Nat} (hs : s.remote.ir = .waitLeader) (hc : channel < 16)
    (hk : key < 256) (ha : 2500 < after) :
    s.irElements (codeElements (codeBits channel key) after) =
      if channel = s.paramNat .remoteChannel then s.press (byteOf key) .ir else s := by
  have hlen : (codeBits channel key).length = 16 := by
    rw [codeBits, List.length_append, List.length_append, length_bitsOf, length_bitsOf, length_bitsOf]
  rw [codeElements, irElements_append, irElements_append, irElements_leader hs,
    irElements_bits _ _ (by rw [hlen]; decide), List.nil_append, irElements_stop hlen ha hs,
    codeAccepted_codeBits hc hk, codeFields_codeBits hc hk]
  simp only [decide_eq_true_eq]

/-- The leader and the first burst of a frame. -/
theorem irElements_began {s : State} (h : s.remote.ir = .waitLeader) (e : IrElement) :
    s.irElements [.burst 4000, .space 2000, .burst 500, e] = (receiving s (.bits [] true)).irElement e := by
  have hburst : irTake (.bits [] false) (.burst 500) = .goesOn (.bits [] true) := by
    rw [irTake, if_pos (by decide), if_neg (by decide)]
  have hcut : ([.burst 4000, .space 2000, .burst 500, e] : List IrElement) =
      [.burst 4000, .space 2000] ++ [.burst 500, e] := rfl
  rw [hcut, irElements_append, irElements_leader h, State.irElements, List.foldl_cons, List.foldl_cons, List.foldl_nil,
    irElement_receiving hburst]

theorem irElements_repeat {s : State} {after : Nat} (h : s.remote.ir = .waitLeader) (ha : 2500 < after) :
    s.irElements [.burst 4000, .space 2000, .burst 500, .space after] = s.keepHold := by
  have hspace : irTake (.bits [] true) (.space after) = .repeatFrame := if_pos (by simp [endsFrame, ha])
  have hdone : (receiving s (.bits [] true)).irElement (.space after) = (receiving s .waitLeader).keepHold := by
    show (match irTake (.bits [] true) (.space after) with
      | .goesOn n => _
      | .repeatFrame => _
      | .codeFrame b => _) = _
    rw [hspace]
    rfl
  rw [irElements_began h, hdone, receiving_self h]

/-- A bit space outside both tolerances discards the frame. -/
theorem irElements_discarded {s : State} {n : Nat} (h : s.remote.ir = .waitLeader)
    (hn : 625 < n ∧ n < 1125 ∨ 1875 < n ∧ n ≤ 2500 ∨ n < 375) :
    s.irElements [.burst 4000, .space 2000, .burst 500, .space n] = s := by
  have hbit : bitOfSpace n = none := by
    rw [bitOfSpace, if_neg (by simp [nearNominal]; omega), if_neg (by simp [nearNominal]; omega)]
  have hspace : irTake (.bits [] true) (.space n) = .goesOn .waitLeader := by
    rw [irTake, if_neg (by simp [endsFrame]; omega), hbit]
    rfl
  rw [irElements_began h, irElement_receiving hspace, receiving_self h]

/-! ## Presses (R106, R193, R195) -/

/-- The state with a hold begun. -/
def holding (s : State) (code : Byte) (source : KeySource) : State :=
  { s with remote := { s.remote with
      hold := some { code := code, source := source, ticks := 0, frameTicks := 0, repeatDue := false } } }

/-- The stop key goes dark at a changer at rest. -/
theorem stopAll_resting {s : State} (h : s.tray.state.busy = false) :
    s.stopAll = { s.purge with tray := { s.tray with holdDark := true, shutterOpen := false } } := by
  rcases changerStop_cases s.purge with ⟨he, -⟩ | ⟨-, hbusy, -⟩
  · refine he.trans ?_
    unfold stoppedTray
    dsimp only [State.purge]
    cases hst : s.tray.state with
    | idle | unhomed | jammed => rfl
    | _ => rw [hst] at h; cases h
  · exact absurd (h.symm.trans hbusy) Bool.false_ne_true

theorem press_of_entry {s : State} {code : Byte} {source : KeySource} {e : KeyEntry}
    (hcode : ¬ (code = 0x00 ∧ source = .ir)) (he : s.keyEntry code = some e) :
    s.press code source = (holding s code source).useKey e := by
  rw [State.press, if_neg hcode, he]
  rfl

theorem press_of_no_entry {s : State} {code : Byte} {source : KeySource}
    (hcode : ¬ (code = 0x00 ∧ source = .ir)) (he : s.keyEntry code = none) :
    s.press code source = holding s code source := by
  rw [State.press, if_neg hcode, he]
  rfl

theorem useKey_locked {s : State} {e : KeyEntry} (h : s.showRunning = true) (he : e.duringShow = false) :
    s.useKey e = { s with remote := { s.remote with ignored := min 65535 (s.remote.ignored + 1) } } :=
  if_pos (by rw [h, he]; rfl)

theorem useKey_used {s : State} {e : KeyEntry} (h : s.showRunning = false ∨ e.duringShow = true) :
    s.useKey e = s.keyScope (s.keyAction e.action) e.scope :=
  if_neg (by rcases h with h | h <;> simp [h])

theorem byteOf_ne_zero {key : Nat} (hk : key < 256) (h0 : key ≠ 0) : byteOf key ≠ 0x00 := fun h =>
  h0 (by
    have := congrArg BitVec.toNat h
    rwa [byteOf, BitVec.toNat_ofNat, Nat.mod_eq_of_lt hk] at this)

/-- Settles O52: a code frame is a press (`irElements_code`), a repeat frame keeps the hold, a discarded frame nothing. -/
theorem infraredFrames : Obligations.InfraredFrames := by
  refine ⟨fun s channel key after hs hir hc hk ha => ⟨fun hother => ?other, fun hown h0 hrest => ?stopKey,
    fun hown h0 hnone => ?noEntry, fun i hown h0 he hcode hfirst => ?used⟩,
    fun s hs hir => ⟨fun after h ha hh hsource => ?repeats, fun after ha hnone => ?noHold, fun n hn => ?discarded⟩⟩
  case other =>
    rw [exec_irCodeFrame, whenSettled_of_ready hs, irElements_code hir hc hk ha, if_neg hother]
  case stopKey =>
    subst h0
    rw [exec_irCodeFrame, whenSettled_of_ready hs, irElements_code hir hc hk ha, if_pos hown, State.press,
      if_pos ⟨rfl, rfl⟩, stopAll_resting hrest]
    rfl
  case noEntry =>
    rw [exec_irCodeFrame, whenSettled_of_ready hs, irElements_code hir hc hk ha, if_pos hown,
      press_of_no_entry (fun h => byteOf_ne_zero hk h0 h.1) (keyEntry_of_none hnone)]
    rfl
  case used =>
    have hexec : exec (.irCodeFrame (codeElements (codeBits channel key) after)) s =
        .next ((holding s (byteOf key) .ir).useKey s.remote.keys[i]) := by
      rw [exec_irCodeFrame, whenSettled_of_ready hs, irElements_code hir hc hk ha, if_pos hown,
        press_of_entry (fun h => byteOf_ne_zero hk h0 h.1) (keyEntry_of_first i he hcode hfirst)]
    refine ⟨fun hshow hlock => ?_, fun hshow hscope => ⟨fun hne hroom => ?_, fun hempty hpause => ?_, fun hfull => ?_⟩⟩
    · rw [hexec, useKey_locked (s := holding s (byteOf key) .ir) hshow hlock]
      rfl
    all_goals rw [hexec, useKey_used (s := holding s (byteOf key) .ir) hshow, hscope, State.keyScope]
    · rw [placeOrDiscard_waiting (s := holding s (byteOf key) .ir) _ _ hne hroom]
      generalize s.remote.keys[i].action = a
      cases a <;> rfl
    · rw [placeOrDiscard_first (s := holding s (byteOf key) .ir) _ _ hempty]
      have hexp := exec_pauseExpiry_placed (s := holding s (byteOf key) .ir)
        (a := (holding s (byteOf key) .ir).keyAction s.remote.keys[i].action) (source := .key) hs.1 hpause
      rw [← hexp, placed, show (holding s (byteOf key) .ir).queue.entries = [] from hempty]
      generalize s.remote.keys[i].action = a
      cases a <;> rfl
    · rw [placeOrDiscard_full (s := holding s (byteOf key) .ir) _ _ hfull]
      rfl
  case repeats =>
    rw [exec_irRepeatFrame, whenSettled_of_ready hs, irElements_repeat hir ha, State.keepHold, hh]
    exact congrArg _ (if_pos hsource)
  case noHold =>
    rw [exec_irRepeatFrame, whenSettled_of_ready hs, irElements_repeat hir ha, State.keepHold, hnone]
  case discarded =>
    rw [exec_irFrameDiscarded, whenSettled_of_ready hs, irElements_discarded hir hn]

end Sys2Proof.Proofs.Keys
end

