-- ==== Sys2Proof/Proofs/Relays.lean ====
section
/-!
Buttons, holds, repeats and the relay of keys (spec/11 sections 11.1 to 11.3).
-/

namespace Sys2Proof.Proofs.Relays

open Sys2Proof Sys2Proof.Machine Sys2Proof.Proofs.Commands Sys2Proof.Proofs.Handler Sys2Proof.Proofs.Keys
open Sys2Proof.Proofs.Rests Sys2Proof.Proofs.Offers Sys2Proof.Proofs.Records

-- One declaration after another, so that the checks of many short proofs do not wait for each other in threads.
set_option Elab.async false

/-! ## Buttons (R192) -/

theorem setButton_keys (r : Remote) (b : Fin 3) (d : Bool) : (r.setButton b d).keys = r.keys := by
  match b with
  | 0 => rfl
  | 1 => rfl
  | 2 => rfl

theorem setButton_relayWait (r : Remote) (b : Fin 3) (d : Bool) : (r.setButton b d).relayWait = r.relayWait := by
  match b with
  | 0 => rfl
  | 1 => rfl
  | 2 => rfl

theorem setButton_ignored (r : Remote) (b : Fin 3) (d : Bool) : (r.setButton b d).ignored = r.ignored := by
  match b with
  | 0 => rfl
  | 1 => rfl
  | 2 => rfl

theorem setButton_hold (r : Remote) (b : Fin 3) (d : Bool) : (r.setButton b d).hold = r.hold := by
  match b with
  | 0 => rfl
  | 1 => rfl
  | 2 => rfl

/-- The state with a button's pressed state replaced. -/
def buttonSet (s : State) (b : Fin 3) (down : Bool) : State := { s with remote := s.remote.setButton b down }

/-- The state with a button down and its hold begun. -/
def pressed (s : State) (b : Fin 3) : State := holding (buttonSet s b true) (byteOf (0xF0 + b.val)) .button

theorem buttonDown_of_up {s : State} {b : Fin 3} (h : s.remote.button b = false) :
    s.buttonDown b true true = (buttonSet s b true).press (byteOf (0xF0 + b.val)) .button := by
  rw [State.buttonDown, h]
  rfl

theorem buttonDown_of_differing {s : State} {b : Fin 3} {before now : Bool} (h : before ≠ now) :
    s.buttonDown b before now = s := by
  refine if_neg ?_
  cases before <;> cases now <;> simp_all

theorem buttonUp_of_differing {s : State} {b : Fin 3} {before now : Bool} (h : before ≠ now) :
    s.buttonUp b before now = s := by
  refine if_neg ?_
  cases before <;> cases now <;> simp_all

/-- A released button ends a hold of its code. -/
theorem buttonUp_of_down {s : State} {b : Fin 3} {h : Hold} (hdown : s.remote.button b = true)
    (hh : s.remote.hold = some h) :
    s.buttonUp b false false =
      { s with remote := { s.remote.setButton b false with
          hold := if h.code = byteOf (0xF0 + b.val) then none else some h } } := by
  have hhold : (buttonSet s b false).remote.hold = some h := (setButton_hold _ _ _).trans hh
  have hany : ((buttonSet s b false).remote.hold.any fun x => decide (x.code = buttonCode b)) =
      decide (h.code = byteOf (0xF0 + b.val)) := by rw [hhold]; rfl
  have hup : s.buttonUp b false false =
      if (buttonSet s b false).remote.hold.any fun x => decide (x.code = buttonCode b) then
        { s with remote := { s.remote.setButton b false with hold := none } }
      else buttonSet s b false := if_pos (by rw [hdown]; rfl)
  rw [hup, hany]
  by_cases hcode : h.code = byteOf (0xF0 + b.val)
  · rw [if_pos (decide_eq_true hcode), if_pos hcode]
  · rw [if_neg (by simpa using hcode), if_neg hcode, ← hhold]
    rfl

/-! ## The relay (R195) -/

/-- The state with a REMOTE_RELAY placed in the reply queue and its wait begun. -/
def relaySent (s : State) (a : Action) (scope : KeyScope) : State :=
  { s with
    msg := { s.msg with
      replies := s.msg.replies ++ [{ kind := 0x82, dest := 0x00, payload := [0x00, s.sourceByte] ++ recordOf a }] }
    remote := { s.remote with relayWait := some { action := a, scope := scope, ticks := 0 }, lapsed := none } }

theorem sendRelay_of_room {s : State} (a : Action) (scope : KeyScope) (h : s.placesUsed < 4) :
    s.sendRelay a scope = relaySent s a scope := if_pos (decide_eq_true h)

theorem sendRelay_of_full {s : State} (a : Action) (scope : KeyScope) (h : 4 ≤ s.placesUsed) :
    s.sendRelay a scope = s.latch .relayLost :=
  if_neg (ne_true_of_eq_false (decide_eq_false (Nat.not_lt.mpr h)))

/-- The remote decoder and the link are as they were. -/
def RemoteStays (s t : State) : Prop := t.remote = s.remote ∧ t.link = s.link

/-- What a REMOTE_RELAY of a state with a unit's decoder and link brings. -/
theorem sendRelay_stays {s u : State} (h : RemoteStays s u) (a : Action) (scope : KeyScope) (hroom : u.placesUsed < 4) :
    u.sendRelay a scope =
      { u with
        msg := { u.msg with
          replies := u.msg.replies ++ [{ kind := 0x82, dest := 0x00, payload := [0x00, s.sourceByte] ++ recordOf a }] }
        remote := { s.remote with relayWait := some { action := a, scope := scope, ticks := 0 }, lapsed := none } } := by
  obtain ⟨hremote, hlink⟩ := h
  rw [sendRelay_of_room a scope hroom, relaySent, hremote]
  simp only [State.sourceByte, hlink]

theorem keyScope_waiting {s : State} (a : Action) {scope : KeyScope} (hscope : scope ≠ .here)
    (h : s.remote.relayWait ≠ none) :
    s.keyScope a scope = { s with remote := { s.remote with ignored := min 65535 (s.remote.ignored + 1) } } := by
  have hw : s.remote.relayWait.isSome = true := Option.isSome_iff_ne_none.mpr h
  cases scope with
  | here => exact absurd rfl hscope
  | relay => exact if_pos hw
  | both => exact if_pos hw

theorem keyScope_relay {s : State} (a : Action) (h : s.remote.relayWait = none) :
    s.keyScope a .relay = s.sendRelay a .relay := if_neg (by rw [h]; exact Bool.false_ne_true)

theorem keyScope_both {s : State} (a : Action) (h : s.remote.relayWait = none) :
    s.keyScope a .both = (s.placeOrDiscard a .key).sendRelay a .both := if_neg (by rw [h]; exact Bool.false_ne_true)

/-! ## A MARK taken at once -/

theorem remoteStays_lampFall (s : State) (level : Nat) : RemoteStays s (s.lampFall level) := by
  rw [State.lampFall_frame]; exact ⟨rfl, rfl⟩

theorem remoteStays_moveSwap (s : State) : RemoteStays s s.moveSwap := by
  unfold State.moveSwap State.swapMovesOn
  split
  · split
    · obtain ⟨hremote, hlink⟩ := remoteStays_lampFall
        { s with lamp := { s.lamp with changer := .swapping 0, failCount := 0 } } s.allowed
      exact ⟨hremote, hlink⟩
    · exact ⟨rfl, rfl⟩
  · exact ⟨rfl, rfl⟩

/-- A MARK offered alone. -/
theorem remoteStays_offer_mark {s : State} {n : Byte} {source : ActionSource} (hpause : s.queue.pause = none)
    (hq : s.queue.entries = [{ action := .mark n, source := source }]) : RemoteStays s s.offer := by
  have htaken : offerEntries s.queue.entries s = (s.takeHead []).markAction n := by
    rw [hq, offerEntries_immediate rfl fun _ h => by cases h]
    rfl
  have hmark : RemoteStays s ((s.takeHead []).markAction n) := by
    rw [State.markAction, State.latch_frame]; exact ⟨rfl, rfl⟩
  obtain ⟨hremote, hlink⟩ := remoteStays_moveSwap ((s.takeHead []).markAction n)
  rw [State.offer, hpause, htaken]
  exact ⟨hremote.trans hmark.1, hlink.trans hmark.2⟩

/-! ## A button with an entry (R193, R195) -/

/-- A pressed button's entry with a MARK, outside the show lockout, goes by its scope. -/
theorem exec_buttonPress_mark {s : State} {b : Fin 3} {i : Fin 16} {n : Byte} (hs : s.Ready)
    (hup : s.remote.button b = false) (he : s.remote.keys[i].enabled = true)
    (hc : s.remote.keys[i].code = byteOf (0xF0 + b.val))
    (hfirst : ∀ j : Fin 16, j < i → s.remote.keys[j].enabled = true → s.remote.keys[j].code ≠ byteOf (0xF0 + b.val))
    (haction : s.remote.keys[i].action = .mark n) (hshow : s.showRunning = false ∨ s.remote.keys[i].duringShow = true) :
    exec (.buttonPress b true true) s = .next ((pressed s b).keyScope (.mark n) s.remote.keys[i].scope) := by
  have hkeys : (buttonSet s b true).remote.keys = s.remote.keys := setButton_keys _ _ _
  have hentry : (buttonSet s b true).keyEntry (byteOf (0xF0 + b.val)) = some s.remote.keys[i] := by
    rw [State.keyEntry, hkeys]
    exact keyEntry_of_first i he hc hfirst
  rw [exec_buttonPress, whenSettled_of_ready hs, buttonDown_of_up hup,
    press_of_entry (by simp) hentry, ← pressed, useKey_used (s := pressed s b) hshow, haction]
  rfl

/-- The state with a due repeat taken. -/
def repeated (s : State) (h : Hold) : State :=
  { s with remote := { s.remote with hold := some { h with repeatDue := false } } }

theorem keyRepeats_of_entry {s : State} {h : Hold} {e : KeyEntry} (hh : s.remote.hold = some h)
    (hdue : h.repeatDue = true) (h0 : h.code ≠ 0) (he : (repeated s h).keyEntry h.code = some e) :
    s.keyRepeats = if e.repeats then (repeated s h).useKey e else repeated s h := by
  rw [State.keyRepeats, hh]
  dsimp only
  rw [if_pos hdue, if_neg fun hc => h0 hc.1]
  show (match (repeated s h).keyEntry h.code with
    | some e => if e.repeats = true then (repeated s h).useKey e else repeated s h
    | none => repeated s h) = _
  rw [he]

/-- Settles O53: a button is a press by its entry's scope; a hold ends, repeats, and a relay wait runs out. -/
theorem buttonsHoldsAndRelayWaits : Obligations.ButtonsHoldsAndRelayWaits := by
  refine ⟨fun s b before now hs => ⟨fun hup hb hn hnone => ?noEntry,
      fun i n hup hb hn he hc hfirst haction hshow hscope => ⟨fun hwait => ?waiting,
        fun hwait => ⟨fun hrelay => ?relay, fun hboth hne hroom => ?both, fun hboth hempty hpause => ?bothFirst⟩⟩,
      fun h hdown hb hn hh => ?release, fun hne => ⟨?differsDown, ?differsUp⟩⟩,
    fun s hp => ⟨fun h hh hsource hf => ?holdEnds, fun h i n hh hdue h0 he hc hscope haction hduring hfirst hroom => ?repeats,
      fun w hw hover => ?expires⟩⟩
  case noEntry =>
    subst hb hn
    have hkeys : (buttonSet s b true).remote.keys = s.remote.keys := setButton_keys _ _ _
    have hentry : (buttonSet s b true).keyEntry (byteOf (0xF0 + b.val)) = none := by
      rw [State.keyEntry, hkeys]
      exact keyEntry_of_none hnone
    rw [exec_buttonPress, whenSettled_of_ready hs, buttonDown_of_up hup, press_of_no_entry (by simp) hentry]
    rfl
  case waiting =>
    subst hb hn
    have hwait' : (pressed s b).remote.relayWait ≠ none := by
      rw [show (pressed s b).remote.relayWait = s.remote.relayWait from setButton_relayWait _ _ _]; exact hwait
    have hignored : (pressed s b).remote.ignored = s.remote.ignored := setButton_ignored _ _ _
    rw [exec_buttonPress_mark hs hup he hc hfirst haction hshow, keyScope_waiting _ hscope hwait', hignored]
    rfl
  case relay =>
    subst hb hn
    have hwait' : (pressed s b).remote.relayWait = none := (setButton_relayWait _ _ _).trans hwait
    have hexec := exec_buttonPress_mark hs hup he hc hfirst haction hshow
    rw [hrelay, keyScope_relay _ hwait'] at hexec
    refine ⟨fun hroom => ?_, fun hfull => ?_⟩
    · rw [hexec, sendRelay_stays (s := pressed s b) ⟨rfl, rfl⟩ _ _ hroom, hrelay]
      rfl
    · rw [hexec, sendRelay_of_full (s := pressed s b) _ _ hfull]
      rfl
  case both =>
    subst hb hn
    have hwait' : (pressed s b).remote.relayWait = none := (setButton_relayWait _ _ _).trans hwait
    have hexec := exec_buttonPress_mark hs hup he hc hfirst haction hshow
    rw [hboth, keyScope_both _ hwait', placeOrDiscard_waiting (s := pressed s b) _ _ hne hroom] at hexec
    refine ⟨fun hroom => ?_, fun hfull => ?_⟩
    · rw [hexec, sendRelay_stays (s := pressed s b) (u := placed (pressed s b) (.mark n) .key) ⟨rfl, rfl⟩ _ _ hroom, hboth]
      rfl
    · rw [hexec, sendRelay_of_full (s := placed (pressed s b) _ _) _ _ hfull]
      rfl
  case bothFirst =>
    subst hb hn
    have hwait' : (pressed s b).remote.relayWait = none := (setButton_relayWait _ _ _).trans hwait
    have hexec := exec_buttonPress_mark hs hup he hc hfirst haction hshow
    rw [hboth, keyScope_both _ hwait', placeOrDiscard_first (s := pressed s b) _ _ hempty] at hexec
    have hoffered := exec_pauseExpiry_placed (s := pressed s b) (a := .mark n) (source := .key) hs.1 hpause
    have hstays : RemoteStays (pressed s b) (placed (pressed s b) (.mark n) .key).offer :=
      remoteStays_offer_mark (s := placed (pressed s b) (.mark n) .key) (n := n) (source := .key) hpause
        (congrArg (· ++ _) hempty)
    refine ⟨_, hoffered, fun hroom => ?_, fun hfull => ?_⟩
    · rw [hexec, sendRelay_stays hstays _ _ hroom, hboth]
      rfl
    · rw [hexec, sendRelay_of_full _ _ hfull]
  case release =>
    subst hb hn
    rw [exec_buttonRelease, whenSettled_of_ready hs, buttonUp_of_down hdown hh]
  case differsDown => rw [exec_buttonPress, whenSettled_of_ready hs, buttonDown_of_differing hne]
  case differsUp => rw [exec_buttonRelease, whenSettled_of_ready hs, buttonUp_of_differing hne]
  case holdEnds =>
    rw [exec_holdEnd, whenPowered_of_powered hp, State.endHold, if_pos (by simp [State.holdOver, hh, hsource, hf])]
    rfl
  case repeats =>
    have hentry : (repeated s h).keyEntry h.code = some s.remote.keys[i] :=
      keyEntry_of_first (s := repeated s h) i he hc hfirst
    have hexec : exec .keyRepeat s = .next
        (if s.remote.keys[i].repeats then (repeated s h).placeOrDiscard (.mark n) .key else repeated s h) := by
      rw [exec_keyRepeat, whenPowered_of_powered hp, keyRepeats_of_entry hh hdue h0 hentry,
        useKey_used (s := repeated s h) (.inr hduring), hscope, haction]
      rfl
    refine ⟨fun hwaits => ?_, fun hempty hpause hrep => ?_⟩
    · cases hrep : s.remote.keys[i].repeats with
      | false => rw [hexec, hrep]; rfl
      | true =>
        have hne : s.queue.entries ≠ [] := hwaits.resolve_right fun h => absurd (hrep.symm.trans h) nofun
        rw [hexec, hrep, if_pos rfl, placeOrDiscard_waiting (s := repeated s h) _ _ hne hroom]
        rfl
    · have hoffered := exec_pauseExpiry_placed (s := repeated s h) (a := .mark n) (source := .key) hp hpause
      rw [hexec, hrep, if_pos rfl, placeOrDiscard_first (s := repeated s h) _ _ hempty, ← hoffered]
      rfl
  case expires =>
    rw [exec_relayWaitExpiry, whenPowered_of_powered hp, State.relayExpires, hw]
    exact congrArg _ (if_pos hover)

/-! ## A relayed copy at the handler (R196) -/

/-- The state with a record of the remote decoder. -/
def withRemote (s : State) (r : Remote) : State := { s with remote := r }

theorem offerRelayed_recordOf (s : State) {a : Action} (ha : a.inRange) :
    s.offerRelayed (recordOf a) = s.placeOrDiscard a .relay := by
  rw [State.offerRelayed, actionOfBytes_recordOf ha]

/-- A relayed copy's command goes to the remote decoder, and needs no reply. -/
theorem exec_relayCopy {s : State} {m : Message} {rest : List Message} {origin : Byte} {a : Action} (hs : s.Ready)
    (ho : s.Oldest m rest) (hk : m.kind = 0x82) (hp : m.payload = [0x01, origin] ++ recordOf a) :
    exec .remoteRelay s = .next (((s.taking m rest).relayCopy origin (recordOf a)).answered []) := by
  have hnone : m.needsReply = false := by simp [Message.needsReply, hk]
  have hwork : relayCommand m (s.taking m rest) = (.good [], (s.taking m rest).relayCopy origin (recordOf a)) := by
    rw [relayCommand, hp]; rfl
  rw [exec_good hs ho (exec_remoteRelay s) (isKind_of_kind hk) hwork, replies_of_not_needsReply hnone]

/-- A copy handed to the queue is placed, and offered at once in an empty one. -/
theorem relayed_places {s u : State} {a : Action} (hp : u.powered = true)
    (hexec : exec .remoteRelay s = .next ((u.placeOrDiscard a .relay).answered []))
    (hroom : u.queue.entries.length < 16) :
    (u.queue.entries ≠ [] → exec .remoteRelay s = .next ((placed u a .relay).answered [])) ∧
      (u.queue.entries = [] → u.queue.pause = none →
        ∃ t, exec .pauseExpiry (placed u a .relay).offering = .next t ∧
          exec .remoteRelay s = .next (t.answered [])) := by
  refine ⟨fun hne => ?_, fun hempty hpause => ⟨_, exec_pauseExpiry_placed hp hpause, ?_⟩⟩
  · rw [hexec, placeOrDiscard_waiting a .relay hne hroom]
  · rw [hexec, placeOrDiscard_first a .relay hempty]

theorem copyMatches_of_mine {s : State} {origin : Byte} (a : Action) (h : origin = s.sourceByte) :
    s.copyMatches origin (recordOf a) a = true := by
  rw [State.copyMatches, decide_eq_true h, decide_eq_true rfl]; rfl

theorem copyMatches_of_other {s : State} {origin : Byte} {a b : Action}
    (h : recordOf b ≠ recordOf a ∨ decide (origin = s.sourceByte) = false) :
    s.copyMatches origin (recordOf a) b = false := by
  rw [State.copyMatches]
  rcases h with h | h
  · rw [decide_eq_false (p := recordOf a = recordOf b) fun hr => h hr.symm, Bool.and_false]
  · rw [h, Bool.false_and]

/-- Settles O54: by the pending relay, the lapsed one, or neither. -/
theorem relayedCopyTaken : Obligations.RelayedCopyTaken := by
  intro s m rest origin a hs ho hk hp ha hroom
  have hexec := exec_relayCopy hs ho hk hp
  refine ⟨fun w hw hwa hmine => ⟨fun hboth => ?ended, fun hscope => ?awaited⟩, fun hw hl hmine => ?lapsed,
    fun hw hother => ?noWait, fun w hw hother => ?otherWait⟩
  case ended =>
    have hcopy : (s.taking m rest).relayCopy origin (recordOf a) =
        withRemote (s.taking m rest) { s.remote with relayWait := none } := by
      rw [State.relayCopy, show (s.taking m rest).remote.relayWait = some w from hw]
      dsimp only
      rw [hwa, copyMatches_of_mine (s := s.taking m rest) a (of_decide_eq_true hmine), if_pos rfl, if_pos hboth]
      rfl
    rw [hexec, hcopy]
    rfl
  case awaited =>
    have hcopy : (s.taking m rest).relayCopy origin (recordOf a) =
        (withRemote (s.taking m rest) { s.remote with relayWait := none }).placeOrDiscard a .relay := by
      rw [State.relayCopy, show (s.taking m rest).remote.relayWait = some w from hw]
      dsimp only
      rw [hwa, copyMatches_of_mine (s := s.taking m rest) a (of_decide_eq_true hmine), if_pos rfl, if_neg hscope, offerRelayed_recordOf _ ha]
      rfl
    rw [hcopy] at hexec
    exact relayed_places (u := withRemote (s.taking m rest) { s.remote with relayWait := none }) hs.1 hexec hroom
  case lapsed =>
    have hcopy : (s.taking m rest).relayCopy origin (recordOf a) =
        withRemote (s.taking m rest) { s.remote with lapsed := none } := by
      rw [State.relayCopy, show (s.taking m rest).remote.relayWait = none from hw,
        show (s.taking m rest).remote.lapsed = some a from hl]
      dsimp only
      rw [copyMatches_of_mine (s := s.taking m rest) a (of_decide_eq_true hmine), if_pos rfl]
      rfl
    rw [hexec, hcopy]
    rfl
  case noWait =>
    have hcopy : (s.taking m rest).relayCopy origin (recordOf a) = (s.taking m rest).placeOrDiscard a .relay := by
      rw [State.relayCopy, show (s.taking m rest).remote.relayWait = none from hw,
        show (s.taking m rest).remote.lapsed = s.remote.lapsed from rfl]
      cases hl : s.remote.lapsed with
      | none => exact offerRelayed_recordOf _ ha
      | some x =>
        dsimp only
        rw [copyMatches_of_other (s := s.taking m rest) (hother x hl), if_neg Bool.false_ne_true, offerRelayed_recordOf _ ha]
    rw [hcopy] at hexec
    exact relayed_places (u := s.taking m rest) hs.1 hexec hroom
  case otherWait =>
    have hcopy : (s.taking m rest).relayCopy origin (recordOf a) = (s.taking m rest).placeOrDiscard a .relay := by
      rw [State.relayCopy, show (s.taking m rest).remote.relayWait = some w from hw]
      dsimp only
      rw [copyMatches_of_other (s := s.taking m rest) hother, if_neg Bool.false_ne_true, offerRelayed_recordOf _ ha]
    rw [hcopy] at hexec
    exact relayed_places (u := s.taking m rest) hs.1 hexec hroom

end Sys2Proof.Proofs.Relays
end

