-- ==== Sys2Proof/Proofs/Words.lean ====
section
/-!
The cue engine's words (spec/05): runs become symbols, and a word that completes is looked up in the cue table.
-/

namespace Sys2Proof.Proofs.Words

open Sys2Proof Sys2Proof.Machine Sys2Proof.Proofs.Commands Sys2Proof.Proofs.Handler Sys2Proof.Proofs.Rests
open Sys2Proof.Proofs.Records

-- One declaration after another, so that the checks of many short proofs do not wait for each other in threads.
set_option Elab.async false

/-! ## Lookup (R89, R90) -/

/-- An entry meets the conditions of a lookup of the engine's word. -/
abbrev Meets (s : State) (i : Fin 64) : Prop :=
  s.cue.table[i].enabled = true ∧ i.val ∉ s.cue.pendingClears ∧ s.cue.table[i].symbols = s.cue.word ∧
    (∀ g, s.cue.table[i].group = some g → s.link.groups.getLsbD g = true) ∧
    (∀ r, s.cue.table[i].range = some r → s.tray.valid = true ∧ r.1 ≤ s.tray.position ∧ s.tray.position ≤ r.2)

theorem entry_eq (s : State) (i : Fin 64) : s.cue.table.getD i.val CueEntry.default = s.cue.table[i] :=
  getD_of_lt _ i.isLt _

/-- The test of the lookup at an entry. -/
abbrev looks (s : State) (i : Nat) : Bool :=
  !s.cue.passedOver i && s.cueMatches s.cue.word (s.cue.table.getD i CueEntry.default)

theorem looks_iff (s : State) (i : Fin 64) : looks s i.val = true ↔ Meets s i := by
  rw [looks, CueEngine.passedOver, State.cueMatches, entry_eq]
  simp only [Meets, Option.all_eq_true, State.inGroup, Bool.and_eq_true, Bool.not_eq_true', Bool.or_eq_false_iff,
    Bool.not_eq_false', decide_eq_true_eq, List.contains_eq_mem, decide_eq_false_iff_not, and_assoc]

theorem cueLookup_of_none {s : State} (h : ∀ i, ¬ Meets s i) : s.cueLookup s.cue.word = none :=
  List.find?_range_eq_none.mpr fun i hi => by
    rw [Bool.not_eq_true']
    exact Bool.eq_false_iff.mpr fun hl => h ⟨i, hi⟩ ((looks_iff s ⟨i, hi⟩).mp hl)

theorem cueLookup_of_first {s : State} {i : Fin 64} (h : Meets s i) (hfirst : ∀ j, j < i → ¬ Meets s j) :
    s.cueLookup s.cue.word = some i.val :=
  List.find?_range_eq_some.mpr ⟨(looks_iff s i).mpr h, List.mem_range.mpr i.isLt, fun j hj => by
    rw [Bool.not_eq_true']
    exact Bool.eq_false_iff.mpr fun hl =>
      hfirst ⟨j, hj.trans i.isLt⟩ hj ((looks_iff s ⟨j, hj.trans i.isLt⟩).mp hl)⟩

/-! ## Firing (R91, R92, R94) -/

/-- The engine with its word recorded and counted. -/
def recorded (c : CueEngine) : CueEngine :=
  { c with
    state := .ready, word := [], discarding := false, gap := 0, completion := .none
    lastWord := c.word, wordCounter := c.wordCounter + 1 }

/-- The state with its word recorded and counted. -/
def recordedState (s : State) : State := { s with cue := recorded s.cue }

/-- The table after an entry has fired. -/
def firedTable (s : State) (i : Fin 64) : Vector CueEntry 64 :=
  if s.cue.table[i].once then s.cue.table.set i { s.cue.table[i] with enabled := false } else s.cue.table

theorem wordCompletes_of_due {s : State} (h : s.cue.completion = .due) : s.wordCompletes = s.completeWord := by
  rw [State.wordCompletes, h]

theorem completeWord_of_handed_on {s : State} (h : s.cue.discarding = false) :
    s.completeWord = (recordedState s).lookUp s.cue.word :=
  if_neg (ne_true_of_eq_false h)

theorem clearOnce_recorded {s : State} (h : s.saving .cues = false) (i : Fin 64) :
    (recordedState s).clearOnce i.val =
      { s with cue := { recorded s.cue with table := firedTable s i } } := by
  have hentry : (recordedState s).cue.table.getD i.val CueEntry.default = s.cue.table[i] := entry_eq s i
  have hsaving : (recordedState s).saving .cues = false := h
  rw [State.clearOnce, hentry, hsaving, firedTable]
  cases honce : s.cue.table[i].once with
  | false => rfl
  | true =>
    rw [if_pos rfl, if_neg Bool.false_ne_true, if_pos rfl, CueEngine.disable, hentry, setIfInBounds_of_lt _ i.isLt]
    rfl

theorem lookUp_of_some {s : State} {w : List Symbol} {i : Nat} (h : s.cueLookup w = some i) : s.lookUp w = s.cueFire i := by
  rw [State.lookUp, h]

theorem lookUp_of_none {s : State} {w : List Symbol} (h : s.cueLookup w = none) :
    s.lookUp w = (s.setLookup true false).latch .cueUnmatched := by
  rw [State.lookUp, h]

/-- The state with an entry fired, before its actions are placed. -/
def fired (s : State) (i : Fin 64) (dropped : Bool) : State :=
  { s with cue := { recorded s.cue with table := firedTable s i, unmatched := false, dropped := dropped } }

theorem cueFire_of_room {s : State} (h : s.saving .cues = false) (i : Fin 64) (hq : s.queue.entries.length ≤ 16)
    (hroom : s.queue.entries.length + s.cue.table[i].actions.length ≤ 16) :
    (recordedState s).cueFire i.val = (fired s i false).place s.cue.table[i].actions .cue := by
  have hentry : (recordedState s).cue.table.getD i.val CueEntry.default = s.cue.table[i] := entry_eq s i
  rw [State.cueFire, hentry, clearOnce_recorded h]
  exact if_pos (by show _ ≤ 16 - s.queue.entries.length; omega)

theorem cueFire_of_full {s : State} (h : s.saving .cues = false) (i : Fin 64)
    (hq : s.queue.entries.length ≤ 16) (hfull : 16 < s.queue.entries.length + s.cue.table[i].actions.length) :
    (recordedState s).cueFire i.val = (fired s i true).latch .cueDropped := by
  have hentry : (recordedState s).cue.table.getD i.val CueEntry.default = s.cue.table[i] := entry_eq s i
  rw [State.cueFire, hentry, clearOnce_recorded h]
  exact if_neg (by show ¬ _ ≤ 16 - s.queue.entries.length; omega)

/-- The state with a fired entry's actions placed. -/
def firedPlaced (s : State) (i : Fin 64) : State :=
  { fired s i false with queue := { s.queue with
      entries := s.queue.entries ++ s.cue.table[i].actions.map fun a => { action := a, source := .cue }
      accepted := s.queue.accepted + BitVec.ofNat 32 s.cue.table[i].actions.length } }

/-- Settles O29: discarded under the mark, otherwise looked up (`cueLookup_of_none`, `cueLookup_of_first`) and fired. -/
theorem wordLookedUp : Obligations.WordLookedUp := by
  intro s hp hdue hsave hq
  have hexec : exec .wordComplete s = .next s.completeWord := by
    rw [exec_wordComplete, whenPowered_of_powered hp, wordCompletes_of_due hdue]
  refine ⟨fun hdisc => ?discarded, fun hdisc hnone => ?unmatched, fun i hdisc hmeets hfirst => ?fires⟩
  case discarded =>
    rw [hexec]
    exact congrArg _ (if_pos hdisc)
  all_goals rw [completeWord_of_handed_on hdisc] at hexec
  case unmatched =>
    have hlookup : (recordedState s).cueLookup s.cue.word = none := cueLookup_of_none (s := s) hnone
    rw [hexec, lookUp_of_none hlookup]
    rfl
  case fires =>
    have hlookup : (recordedState s).cueLookup s.cue.word = some i.val := cueLookup_of_first (s := s) hmeets hfirst
    rw [lookUp_of_some hlookup] at hexec
    refine ⟨fun hroom => ⟨fun hne => ?_, fun hempty hpause => ?_⟩, fun hfull => ?_⟩
    · rw [hexec, cueFire_of_room hsave i hq hroom]
      exact congrArg _ (if_neg hne)
    · have hoffered := exec_pauseExpiry_offering (s := firedPlaced s i) hp hpause
      rw [hexec, cueFire_of_room hsave i hq hroom]
      exact (congrArg _ (if_pos hempty)).trans hoffered.symm
    · rw [hexec, cueFire_of_full hsave i hq hfull]
      rfl

/-! ## Runs, glitches and gaps (R79 to R84) -/

theorem verdict_of_ready_absent {c : CueEngine} {wordGap : Nat} (h : c.state = .ready) :
    c.verdict wordGap none = c := by
  unfold CueEngine.verdict
  rw [h]

theorem verdict_of_ready_tone {c : CueEngine} {wordGap : Nat} (h : c.state = .ready) (y : Tone) :
    c.verdict wordGap (some y) = { c with state := .run y 1 } := by
  unfold CueEngine.verdict
  rw [h]

theorem verdict_of_run_same {c : CueEngine} {wordGap n : Nat} {x : Tone} (h : c.state = .run x n) :
    c.verdict wordGap (some x) = { c with state := .run x (n + 1) } := by
  unfold CueEngine.verdict
  rw [h]
  exact if_pos rfl

theorem verdict_of_run_end {c : CueEngine} {wordGap n : Nat} {x : Tone} {v : Verdict} (h : c.state = .run x n)
    (hv : v ≠ some x) : c.verdict wordGap v = c.endRun wordGap x n v := by
  unfold CueEngine.verdict
  rw [h]
  exact if_neg hv

theorem verdict_of_gap_absent {c : CueEngine} {wordGap : Nat} (h : c.state = .gap) :
    c.verdict wordGap none = c.absentInGap wordGap := by
  unfold CueEngine.verdict
  rw [h]

theorem verdict_of_gap_tone {c : CueEngine} {wordGap : Nat} (h : c.state = .gap) (y : Tone) :
    c.verdict wordGap (some y) =
      if wordGap ≤ c.gap then { c with completion := .dueThen (some y) } else { c with state := .run y 1 } := by
  unfold CueEngine.verdict
  rw [h]

/-- An ABSENT verdict in a gap. -/
theorem absentInGap_eq {c : CueEngine} (wordGap : Nat) (h : c.completion = .none) :
    c.absentInGap wordGap =
      { c with
        state := .gap, gap := min 20 (c.gap + 1)
        completion := if wordGap ≤ min 20 (c.gap + 1) then .due else .none } := by
  unfold CueEngine.absentInGap
  by_cases hdue : wordGap ≤ min 20 (c.gap + 1)
  · exact (if_pos hdue).trans (by rw [if_pos hdue]; rfl)
  · exact (if_neg hdue).trans (by rw [if_neg hdue, ← h]; rfl)

/-- The word, the mark and the glitch count with a symbol more (R81, R83). -/
theorem addSymbol_eq {c : CueEngine} (x : Symbol) (h : c.word.length ≤ 3) :
    c.addSymbol x =
      { c with
        word := if c.discarding then c.word else if c.word.length = 3 then [] else c.word ++ [x]
        discarding := c.discarding || decide (c.word.length = 3)
        glitches := if c.discarding = false ∧ c.word.length = 3 then min 65535 (c.glitches + 1) else c.glitches
        gap := 0 } := by
  obtain ⟨state, word, discarding, gap, stuckCount, completion, lastWord, wordCounter, glitches, pendingClears, table,
    unmatched, dropped⟩ := c
  cases discarding with
  | true => simp [CueEngine.addSymbol]
  | false =>
    by_cases hl : word.length = 3
    · simp [CueEngine.addSymbol, CueEngine.countGlitch, satAdd, hl]
    · have hroom : word.length < 3 := by
        have : word.length ≤ 3 := h
        omega
      simp [CueEngine.addSymbol, hl, hroom]

theorem holdsWord_iff (c : CueEngine) : c.holdsWord = true ↔ c.word ≠ [] ∨ c.discarding = true := by
  simp [CueEngine.holdsWord]

/-- The silence after a run begins or goes on with a gap where a word is held, and otherwise the engine is READY. -/
theorem afterRun_absent_of_word {c : CueEngine} (wordGap : Nat) (h : c.word ≠ [] ∨ c.discarding = true) :
    c.afterRun wordGap none = c.absentInGap wordGap := if_pos ((holdsWord_iff c).mpr h)

theorem afterRun_absent_of_none {c : CueEngine} (wordGap : Nat) (h : ¬ (c.word ≠ [] ∨ c.discarding = true)) :
    c.afterRun wordGap none = { c with state := .ready } := if_neg fun hh => h ((holdsWord_iff c).mp hh)

/-- The engine with a run's symbol taken. -/
def symbolTaken (c : CueEngine) (x : Tone) (n : Nat) : CueEngine :=
  { c with
    word := if c.discarding then c.word else if c.word.length = 3 then [] else c.word ++ [{ tone := x, long := decide (6 ≤ n) }]
    discarding := c.discarding || decide (c.word.length = 3)
    glitches := if c.discarding = false ∧ c.word.length = 3 then min 65535 (c.glitches + 1) else c.glitches
    gap := 0 }

/-- A run's symbol leaves a word or the mark. -/
theorem symbolTaken_holds (c : CueEngine) (x : Tone) (n : Nat) :
    (symbolTaken c x n).word ≠ [] ∨ (symbolTaken c x n).discarding = true := by
  cases hd : c.discarding with
  | true => exact .inr (by simp [symbolTaken, hd])
  | false =>
    by_cases hl : c.word.length = 3
    · exact .inr (by simp [symbolTaken, hl])
    · exact .inl (by simp [symbolTaken, hd, hl])

theorem endRun_of_symbol {c : CueEngine} {wordGap n : Nat} (x : Tone) (v : Verdict) (hn : 2 ≤ n) (hw : c.word.length ≤ 3) :
    c.endRun wordGap x n v = (symbolTaken c x n).afterRun wordGap v := by
  rw [CueEngine.endRun, if_neg (by omega), addSymbol_eq _ hw]
  rfl

/-- A run of 2 to 15 ends (R80, R81, R83). -/
theorem verdict_ends_run {c : CueEngine} {wordGap n : Nat} {x : Tone} {v : Verdict} (h : c.state = .run x n)
    (hc : c.completion = .none) (hgap : 2 ≤ wordGap) (hw : c.word.length ≤ 3) (hv : v ≠ some x) (hn : 2 ≤ n) :
    c.verdict wordGap v =
      { symbolTaken c x n with
        state := match v with | none => .gap | some y => .run y 1
        gap := if v = none then 1 else 0 } := by
  rw [verdict_of_run_end h hv, endRun_of_symbol x v hn hw]
  cases v with
  | none =>
    rw [afterRun_absent_of_word _ (symbolTaken_holds c x n),
      absentInGap_eq wordGap (c := symbolTaken c x n) hc]
    have hone : min 20 ((symbolTaken c x n).gap + 1) = 1 := rfl
    rw [hone, if_neg (by omega), if_pos rfl, ← hc]
    rfl
  | some y => rfl

/-- A run of 1 is a glitch (R82). -/
theorem verdict_glitch_without_word {c : CueEngine} {wordGap : Nat} {x : Tone} {v : Verdict} (h : c.state = .run x 1)
    (hv : v ≠ some x) (hnone : c.word = [] ∧ c.discarding = false) :
    c.verdict wordGap v =
      { c with
        glitches := min 65535 (c.glitches + 1), state := match v with | none => .ready | some y => .run y 1 } := by
  have hholds : ¬ (c.countGlitch.word ≠ [] ∨ c.countGlitch.discarding = true) := by
    show ¬ (c.word ≠ [] ∨ c.discarding = true)
    rw [hnone.1, hnone.2]; simp
  rw [verdict_of_run_end h hv, CueEngine.endRun, if_pos rfl]
  have hafter : c.afterGlitch wordGap v = c.countGlitch.afterRun wordGap v :=
    if_neg fun hh => hholds ((holdsWord_iff _).mp hh)
  rw [hafter]
  cases v with
  | none => exact afterRun_absent_of_none _ hholds
  | some y => rfl

/-- The engine with a glitch counted, its block in the gap. -/
def glitchInGap (c : CueEngine) : CueEngine :=
  { c with glitches := min 65535 (c.glitches + 1), gap := min 20 (c.gap + 1) }

theorem verdict_glitch_in_word {c : CueEngine} {wordGap : Nat} {x : Tone} {v : Verdict} (h : c.state = .run x 1)
    (hv : v ≠ some x) (hword : c.word ≠ [] ∨ c.discarding = true) :
    c.verdict wordGap v =
      if wordGap ≤ min 20 (c.gap + 1) then { glitchInGap c with state := .gap, completion := .dueThen v }
      else (glitchInGap c).afterRun wordGap v := by
  rw [verdict_of_run_end h hv, CueEngine.endRun, if_pos rfl]
  exact if_pos ((holdsWord_iff c.countGlitch).mpr hword)

/-! ## A run and its gap, verdict by verdict -/

/-- The verdicts of a run, taken one after another. -/
theorem foldl_run {c : CueEngine} {wordGap m : Nat} {x : Tone} (h : c.state = .run x m) (n : Nat) :
    (List.replicate n (some x)).foldl (fun (d : CueEngine) v => d.verdict wordGap v) c =
      { c with state := .run x (m + n) } := by
  induction n generalizing c m with
  | zero => rw [Nat.add_zero, ← h]; rfl
  | succ n ih =>
    rw [List.replicate_succ, List.foldl_cons, verdict_of_run_same h, ih rfl, Nat.add_assoc, Nat.add_comm 1 n]

/-- The silence of a gap short of WORD_GAP, and up to it. -/
theorem foldl_gap {c : CueEngine} {wordGap : Nat} (h : c.state = .gap) (hc : c.completion = .none) (hg : wordGap ≤ 20)
    (k : Nat) (hk : c.gap + k ≤ wordGap) (hlt : c.gap < wordGap) :
    (List.replicate k none).foldl (fun (d : CueEngine) v => d.verdict wordGap v) c =
      { c with gap := c.gap + k, completion := if c.gap + k = wordGap then .due else .none } := by
  induction k generalizing c with
  | zero => rw [Nat.add_zero, if_neg (by omega), ← hc]; rfl
  | succ k ih =>
    have hnext : min 20 (c.gap + 1) = c.gap + 1 := by omega
    rw [List.replicate_succ, List.foldl_cons, verdict_of_gap_absent h, absentInGap_eq wordGap hc, hnext]
    by_cases hdue : c.gap + 1 = wordGap
    · obtain rfl : k = 0 := by omega
      rw [if_pos (by omega), if_pos (by omega), ← h]
      rfl
    · rw [if_neg (by omega), ih rfl rfl (by show c.gap + 1 + k ≤ wordGap; omega) (by show c.gap + 1 < wordGap; omega), ← h]
      show ({ c with gap := c.gap + 1 + k, completion := _ } : CueEngine) = _
      rw [Nat.add_assoc, Nat.add_comm 1 k]

/-- A tone begins a run from READY, or from a gap short of WORD_GAP. -/
theorem verdict_begins_run {c : CueEngine} {wordGap : Nat} (h : c.state = .ready ∨ c.state = .gap ∧ c.gap < wordGap)
    (y : Tone) : c.verdict wordGap (some y) = { c with state := .run y 1 } := by
  rcases h with h | ⟨h, hlt⟩
  · exact verdict_of_ready_tone h y
  · rw [verdict_of_gap_tone h, if_neg (by omega)]

/-- A run of a tone and the silence after it append a symbol. -/
theorem foldl_symbol {c : CueEngine} {wordGap n k : Nat} {x : Tone}
    (h : c.state = .ready ∨ c.state = .gap ∧ c.gap < wordGap) (hw : c.word.length ≤ 2) (hd : c.discarding = false)
    (hc : c.completion = .none) (hg : 3 ≤ wordGap) (hg' : wordGap ≤ 20) (hn : 2 ≤ n) (hk : 1 ≤ k) (hk' : k ≤ wordGap) :
    (List.replicate n (some x) ++ List.replicate k none).foldl (fun (d : CueEngine) v => d.verdict wordGap v) c =
      { c with
        state := .gap, word := c.word ++ [{ tone := x, long := decide (6 ≤ n) }], gap := k
        completion := if k = wordGap then .due else .none } := by
  obtain ⟨n, rfl⟩ := Nat.exists_eq_add_of_le' (Nat.le_trans (by decide : 1 ≤ 2) hn)
  obtain ⟨k, rfl⟩ := Nat.exists_eq_add_of_le' hk
  have hrun : (List.replicate (n + 1) (some x)).foldl (fun (d : CueEngine) v => d.verdict wordGap v) c =
      { c with state := .run x (n + 1) } := by
    rw [List.replicate_succ, List.foldl_cons, verdict_begins_run h, foldl_run rfl, Nat.add_comm 1 n]
  have hended : CueEngine.verdict wordGap { c with state := .run x (n + 1) } none =
      { c with state := .gap, word := c.word ++ [{ tone := x, long := decide (6 ≤ n + 1) }], gap := 1 } := by
    rw [verdict_ends_run (c := { c with state := .run x (n + 1) }) rfl hc (by omega) (by show c.word.length ≤ 3; omega)
      (Option.some_ne_none x).symm hn, symbolTaken]
    simp [hd, show c.word.length ≠ 3 by omega]
  rw [List.foldl_append, hrun, List.replicate_succ, List.foldl_cons, hended,
    foldl_gap (c := { c with state := .gap, word := c.word ++ [{ tone := x, long := decide (6 ≤ n + 1) }], gap := 1 })
      rfl hc hg' k (by show 1 + k ≤ wordGap; omega) (by show 1 < wordGap; omega)]
  show ({ c with state := .gap, word := _, gap := 1 + k, completion := if 1 + k = wordGap then _ else _ } : CueEngine) = _
  rw [Nat.add_comm 1 k]

/-- Settles O27: whole symbols by `foldl_symbol`, single verdicts by the state they meet. -/
theorem runBecomesSymbol : Obligations.RunBecomesSymbol := by
  refine ⟨fun c wordGap n k x hstate hd hc hg hg' hn _ hk hk' => ?symbol,
    fun c wordGap n x v hrun hc hg hg' hw => ⟨fun hv => ?same, fun hv hn _ => ?ends, fun hv hn hnone => ?glitch,
      fun hv hn hword => ⟨fun hdue => ?glitchDue, fun hlt => ⟨fun y hy => ?glitchTone, fun hy => ?glitchSilence⟩⟩⟩,
    fun c wordGap hc hg => ⟨fun hready => ⟨verdict_of_ready_absent hready, verdict_of_ready_tone hready⟩,
      fun hgap => ⟨fun y hy => ?due, fun y hy => verdict_begins_run (.inr ⟨hgap, hy⟩) y, ?silence⟩⟩⟩
  case symbol =>
    refine foldl_symbol (hstate.imp (·.1) fun ⟨h, _, hlt⟩ => ⟨h, hlt⟩) ?_ hd hc hg hg' hn hk hk'
    rcases hstate with ⟨-, hword, -⟩ | ⟨-, hlen, -⟩
    · rw [hword]; exact Nat.zero_le _
    · exact hlen
  case same => rw [hv, verdict_of_run_same hrun]
  case ends =>
    rw [verdict_ends_run hrun hc (by omega) hw hv hn]
    cases v <;> rfl
  case glitch =>
    subst hn
    rw [verdict_glitch_without_word hrun hv hnone]
    cases v <;> rfl
  case glitchDue =>
    subst hn
    rw [verdict_glitch_in_word hrun hv hword, if_pos hdue]
    rfl
  case glitchTone =>
    subst hn hy
    rw [verdict_glitch_in_word hrun hv hword, if_neg (by omega)]
    rfl
  case glitchSilence =>
    subst hn hy
    have hnext : min 20 ((glitchInGap c).gap + 1) = min 20 (c.gap + 1) + 1 := by
      show min 20 (min 20 (c.gap + 1) + 1) = _
      omega
    rw [verdict_glitch_in_word hrun hv hword, if_neg (by omega), afterRun_absent_of_word (c := glitchInGap c) _ hword,
      absentInGap_eq wordGap (c := glitchInGap c) hc, hnext]
    by_cases hdue : min 20 (c.gap + 1) + 1 = wordGap
    · rw [if_pos (by omega), if_pos hdue]; rfl
    · rw [if_neg (by omega), if_neg hdue]; rfl
  case due => rw [verdict_of_gap_tone hgap, if_pos hy]
  case silence => rw [verdict_of_gap_absent hgap, absentInGap_eq wordGap hc, ← hgap]

end Sys2Proof.Proofs.Words
end

