-- ==== Sys2Proof/Proofs/Detection.lean ====
section
/-!
The cue detector (spec/04): what a frame handed to it does while nothing is due in the engine.
-/

namespace Sys2Proof.Proofs.Detection

open Sys2Proof Sys2Proof.Machine

-- One declaration after another, so that the checks of many short proofs do not wait for each other in threads.
set_option Elab.async false

/-! ## Samples and powers (R64 to R68) -/

theorem filterOver_eq (x : Int) : filterOver x = decide (2147483647 < x.natAbs) := by
  rw [filterOver, ← Bool.decide_or]
  refine decide_eq_decide.mpr ?_
  simp only [Config.filterLimit]
  omega

theorem takeSample_eq (d : Detector) (x : Sample) :
    d.takeSample x =
      let u : Int := x.toInt / 16
      let formed (c : Int) (f : Filter) : Int := c * f.latest / 16384 + u - f.before
      let kept (c : Int) (f : Filter) : Filter :=
        { latest := max (-2147483647) (min 2147483647 (formed c f)), before := f.latest }
      let exceeds (c : Int) (f : Filter) : Bool := decide (2147483647 < (formed c f).natAbs)
      { d with
        filterL := kept 30274 d.filterL, filterM := kept 27939 d.filterM, filterH := kept 21281 d.filterH
        filterT := kept 12540 d.filterT, energy := d.energy + (u * u).toNat, count := d.count + 1
        overload := d.overload || exceeds 30274 d.filterL || exceeds 27939 d.filterM || exceeds 21281 d.filterH ||
          exceeds 12540 d.filterT } := by
  unfold Detector.takeSample
  simp only [filterOver_eq]
  rfl

/-! ## The end of a block (R61, R70 to R73) -/

/-- The verdict a state's block ends with, for a detector. -/
def verdictFor (s : State) (d : Detector) : Verdict := (s.setDet d).blockVerdict

/-- The state with a block ended. -/
def blockEnded (s : State) (d : Detector) : State :=
  { s with
    det := { d with state := .boundary, prevVerdict := verdictFor s d, prevDamaged := d.damaged }
    cue := s.cue.verdict (s.paramNat .wordGap) (verdictFor s d) }

/-- The state with a sample taken into the block, its end at the remainder 159. -/
def sampled (s : State) (n : Nat) (d : Detector) : State := if n % 160 = 159 then blockEnded s d else { s with det := d }

theorem takeVerdict_calm {s : State} (h : s.cue.calm = true) (v : Verdict) :
    s.takeVerdict v = { s with cue := s.cue.verdict (s.paramNat .wordGap) v } := by
  rw [State.takeVerdict, State.engineDue_of_calm h]
  rfl

theorem endBlock_calm {s : State} (h : s.cue.calm = true) (d : Detector) : (s.setDet d).endBlock = blockEnded s d :=
  takeVerdict_calm (s := s.setDet { d with
    state := .boundary, prevVerdict := verdictFor s d, prevDamaged := d.damaged }) h _

theorem takeFrame_calm {s : State} (h : s.cue.calm = true) (d : Detector) (n : Nat) (x : Sample) :
    (s.setDet d).takeFrame n x = sampled s n (d.takeSample x) := by
  unfold State.takeFrame sampled
  by_cases hn : n % 160 = 159
  · rw [if_pos hn]
    exact (if_pos hn).trans (endBlock_calm h (d.takeSample x))
  · rw [if_neg hn]
    exact if_neg hn

/-! ## A frame at the detector (R60, R62, R72) -/

/-- A detector with a block begun. -/
def begun (d : Detector) (n : Nat) (damaged : Bool) : Detector := d.beginBlock (n / 160) damaged

theorem handFrame_waiting {s : State} (h : s.det.state = .waiting) {n : Nat} (hn : n % 160 ≠ 0) (x : Sample)
    (bad broke : Bool) : s.handFrame n x bad broke = s := by
  rw [State.handFrame, h]
  exact if_neg hn

theorem handFrame_begins {s : State} (hc : s.cue.calm = true) (h : s.det.state = .waiting) {n : Nat} (hn : n % 160 = 0)
    (x : Sample) (bad broke : Bool) :
    s.handFrame n x bad broke = sampled s n ((begun s.det n bad).takeSample x) := by
  rw [State.handFrame, h]
  exact (if_pos hn).trans (takeFrame_calm hc _ n x)

theorem handFrame_boundary {s : State} (hc : s.cue.calm = true) (h : s.det.state = .boundary) (n : Nat) (x : Sample)
    (bad broke : Bool) :
    s.handFrame n x bad broke = sampled s n ((begun s.det n (bad || broke)).takeSample x) := by
  rw [State.handFrame, h]
  exact takeFrame_calm hc _ n x

theorem handFrame_joins {s : State} {b : Nat} (hc : s.cue.calm = true) (h : s.det.state = .inBlock b) {n : Nat}
    {broke : Bool} (hb : broke = false ∨ n / 160 = b) (x : Sample) (bad : Bool) :
    s.handFrame n x bad broke =
      sampled s n ({ s.det with damaged := s.det.damaged || bad || broke }.takeSample x) := by
  rw [State.handFrame, h]
  refine (if_neg ?_).trans (takeFrame_calm hc _ n x)
  rw [Bool.and_eq_true, decide_eq_true_eq]
  rintro ⟨hbroke, hne⟩
  rcases hb with hb | hb
  · exact Bool.false_ne_true (hb.symm.trans hbroke)
  · exact hne hb

/-- A break into another block: the block in progress ends damaged and a damaged one begins. -/
theorem handFrame_breaks {s : State} {b n : Nat} (hc : s.cue.calm = true) (h : s.det.state = .inBlock b)
    (hb : n / 160 ≠ b) (hn : n % 160 ≠ 159) (x : Sample) (bad : Bool) :
    s.handFrame n x bad true =
      { blockEnded s { s.det with damaged := true } with
        det := (begun (blockEnded s { s.det with damaged := true }).det n true).takeSample x } := by
  rw [State.handFrame, h]
  refine (if_pos (by rw [decide_eq_true (p := n / Config.blockFrames ≠ b) hb]; rfl)).trans ?_
  rw [endBlock_calm hc]
  exact if_neg hn

/-! ## Only the detector, the engine and the parameters matter -/

/-- What a frame handed to the detector depends on. -/
def SameDetection (s u : State) : Prop := u.det = s.det ∧ u.cue = s.cue ∧ u.params = s.params

theorem verdictFor_congr {s u : State} (h : SameDetection s u) (d : Detector) : verdictFor u d = verdictFor s d := by
  unfold verdictFor State.blockVerdict State.paramNat State.param
  dsimp only [State.setDet]
  rw [h.2.2]

theorem wordGap_congr {s u : State} (h : SameDetection s u) : u.paramNat .wordGap = s.paramNat .wordGap := by
  rw [State.paramNat, State.param, h.2.2]; rfl

theorem blockEnded_congr {s u : State} (h : SameDetection s u) (d : Detector) :
    (blockEnded u d).det = (blockEnded s d).det ∧ (blockEnded u d).cue = (blockEnded s d).cue := by
  simp only [blockEnded, verdictFor_congr h, wordGap_congr h, h.2.1, and_self]

theorem sampled_congr {s u : State} (h : SameDetection s u) (n : Nat) (d : Detector) :
    (sampled u n d).det = (sampled s n d).det ∧ (sampled u n d).cue = (sampled s n d).cue := by
  unfold sampled
  split
  · exact blockEnded_congr h d
  · exact ⟨rfl, h.2.1⟩

/-- A frame handed to the detector does the same where detector, engine and parameters are the same. -/
theorem handFrame_congr {s u : State} (h : SameDetection s u) (hc : s.cue.calm = true) (n : Nat) (x : Sample)
    (bad broke : Bool) (hn : broke = true → n % 160 ≠ 159) :
    (u.handFrame n x bad broke).det = (s.handFrame n x bad broke).det ∧
      (u.handFrame n x bad broke).cue = (s.handFrame n x bad broke).cue := by
  have hcu : u.cue.calm = true := by rw [h.2.1]; exact hc
  cases hs : s.det.state with
  | waiting =>
    have hu : u.det.state = .waiting := by rw [h.1]; exact hs
    by_cases h0 : n % 160 = 0
    · rw [handFrame_begins hc hs h0, handFrame_begins hcu hu h0, h.1]
      exact sampled_congr h n _
    · rw [handFrame_waiting hs h0, handFrame_waiting hu h0]
      exact ⟨h.1, h.2.1⟩
  | boundary =>
    have hu : u.det.state = .boundary := by rw [h.1]; exact hs
    rw [handFrame_boundary hc hs, handFrame_boundary hcu hu, h.1]
    exact sampled_congr h n _
  | inBlock b =>
    have hu : u.det.state = .inBlock b := by rw [h.1]; exact hs
    by_cases hb : broke = false ∨ n / 160 = b
    · rw [handFrame_joins hc hs hb, handFrame_joins hcu hu hb, h.1]
      exact sampled_congr h n _
    · obtain ⟨hbroke, hne⟩ := not_or.mp hb
      obtain rfl : broke = true := Bool.not_eq_false _ |>.mp hbroke
      obtain ⟨hdet, hcue⟩ := blockEnded_congr h { s.det with damaged := true }
      rw [handFrame_breaks hc hs hne (hn rfl), handFrame_breaks hcu hu hne (hn rfl), h.1]
      exact ⟨by rw [hdet], hcue⟩

end Sys2Proof.Proofs.Detection
end

