-- ==== Sys2Proof/Proofs/Frames.lean ====
section
/-!
Frames at the receiver (spec/01): what every step of a frame leaves alone before its slot is read, what reading a slot leaves
alone, and what is forwarded.
-/

namespace Sys2Proof.Proofs.Frames

open Sys2Proof Sys2Proof.Machine Sys2Proof.Proofs.Events Sys2Proof.Proofs.Detection Sys2Proof.Proofs.Lasting

-- One declaration after another, so that the checks of many short proofs do not wait for each other in threads.
set_option Elab.async false

/-! ## The engine and the detector -/

theorem through_clearOnce (s : State) (i : Nat) : Through s (s.clearOnce i) :=
  .ite (fun _ => .ite (fun _ => {}) fun _ => {}) fun _ => .refl s

theorem through_place (s : State) (actions : List Action) (source : ActionSource) : Through s (s.place actions source) := by
  unfold State.place
  exact .ite (fun _ => Through.trans {} (through_offer _)) fun _ => {}

theorem through_cueFire (s : State) (i : Nat) : Through s (s.cueFire i) := by
  unfold State.cueFire
  exact .ite (fun _ => ((through_clearOnce s i).trans {}).trans (through_place _ _ _))
    fun _ => ((through_clearOnce s i).trans {}).trans (through_latch _ _)

theorem through_lookUp (s : State) (w : List Symbol) : Through s (s.lookUp w) := by
  unfold State.lookUp
  split
  · exact through_cueFire s _
  · exact Through.trans (t := s.setLookup true false) {} (through_latch _ _)

theorem through_completeWord (s : State) : Through s s.completeWord :=
  .ite (fun _ => {}) fun _ => Through.trans {} (through_lookUp _ _)

theorem through_wordCompletes (s : State) : Through s s.wordCompletes := by
  unfold State.wordCompletes
  split
  · exact .refl s
  · exact through_completeWord s
  · exact (through_completeWord s).trans {}

theorem through_enterStuck (s : State) : Through s s.enterStuck := Through.trans {} (through_latch _ _)

theorem through_engineDue (s : State) : Through s s.engineDue :=
  .ite (fun _ => through_enterStuck s) fun _ => .ite (fun _ => {}) fun _ => through_wordCompletes s

theorem through_takeVerdict (s : State) (v : Verdict) : Through s (s.takeVerdict v) := (through_engineDue s).trans {}

theorem through_endBlock (s : State) : Through s s.endBlock := Through.trans {} (through_takeVerdict _ _)

theorem through_takeFrame (s : State) (n : Nat) (x : Sample) : Through s (s.takeFrame n x) :=
  .ite (fun _ => Through.trans {} (through_endBlock _)) fun _ => {}

theorem through_openBlock (s : State) (n : Nat) (x : Sample) (d : Bool) : Through s (s.openBlock n x d) :=
  Through.trans {} (through_takeFrame _ _ _)

theorem through_handFrame (s : State) (n : Nat) (x : Sample) (bad broke : Bool) :
    Through s (s.handFrame n x bad broke) := by
  unfold State.handFrame
  split
  · exact .ite (fun _ => through_openBlock s _ _ _) fun _ => .refl s
  · exact through_openBlock s _ _ _
  · exact .ite (fun _ => (Through.trans {} (through_endBlock _)).trans (through_openBlock _ _ _ _))
      fun _ => Through.trans {} (through_takeFrame _ _ _)

/-! ## Before the slot is read -/

/-- A frame's slot is still unread: the message unit is as it was but for NOTICEs that join the reply queue, the link keeps
role, address, groups, tracking and output, and no flag unlatches. A field that is left out holds because the update does
not touch what it reads. -/
structure Unread (s t : State) : Prop where
  noticed : Noticed s t := by exact .refl rfl
  msg : t.msg = { s.msg with replies := t.msg.replies } := by rfl
  attention : t.events.attention = s.events.attention := by rfl
  latched : ∀ f, s.latchedFlag f = true → t.latchedFlag f = true := by exact fun _ h => h
  retries : t.paramNat .retryLimit = s.paramNat .retryLimit := by rfl
  giveup : t.latchedFlag .txGiveup = s.latchedFlag .txGiveup := by rfl
  role : t.link.role = s.link.role := by rfl
  address : t.link.address = s.link.address := by rfl
  groups : t.link.groups = s.link.groups := by rfl
  tracking : t.link.tracking = s.link.tracking := by rfl
  output : t.link.output = s.link.output := by rfl

theorem Unread.refl (s : State) : Unread s s := {}

theorem Unread.trans {s t u : State} (h : Unread s t) (k : Unread t u) : Unread s u where
  noticed := h.noticed.trans h.attention k.noticed
  msg := by rw [k.msg, h.msg]
  attention := k.attention.trans h.attention
  latched f := k.latched f ∘ h.latched f
  retries := k.retries.trans h.retries
  giveup := k.giveup.trans h.giveup
  role := k.role.trans h.role
  address := k.address.trans h.address
  groups := k.groups.trans h.groups
  tracking := k.tracking.trans h.tracking
  output := k.output.trans h.output

theorem Unread.of_through {s t : State} (h : Through s t) : Unread s t where
  noticed := h.noticed
  msg := h.msg
  attention := h.attention
  latched := h.latched
  retries := h.retries
  giveup := h.giveup
  role := by rw [h.link]
  address := by rw [h.link]
  groups := by rw [h.link]
  tracking := by rw [h.link]
  output := by rw [h.link]

/-- A step that is made only under a condition. -/
theorem Unread.ite {s t u : State} {c : Prop} [Decidable c] (h : c → Unread s t) (k : ¬ c → Unread s u) :
    Unread s (if c then t else u) := by
  split
  · exact h ‹_›
  · exact k ‹_›

theorem unread_latch (s : State) (f : Flag) (hf : f ≠ .txGiveup := by decide) : Unread s (s.latch f) :=
  .of_through (through_latch s f hf)

theorem unread_latchIf (s : State) (c : Bool) (f : Flag) (hf : f ≠ .txGiveup := by decide) : Unread s (s.latchIf c f) :=
  .of_through (through_latchIf s c f hf)

theorem unread_writePair (s : State) (p : Pair) : Unread s (s.writePair p) :=
  .ite (fun _ => Unread.trans (t := s.setSound { s.sound with slips := s.sound.slips + 1 }) {} (unread_latch _ _))
    fun _ => .ite (fun _ => {}) fun _ => {}

theorem unread_handFrame (s : State) (n : Nat) (x : Sample) (bad broke : Bool) :
    Unread s (s.handFrame n x bad broke) := .of_through (through_handFrame s n x bad broke)

theorem unread_countGood (s : State) (n sync : Nat) : Unread s (s.countGood n sync) := by
  unfold State.countGood
  dsimp only
  exact Unread.trans (.ite (fun _ => {}) fun _ => {}) (unread_latchIf _ _ _)

theorem unread_countBad (s : State) : Unread s s.countBad := by
  unfold State.countBad
  dsimp only
  exact .ite (fun _ => Unread.trans (.ite (fun _ => {}) fun _ => {}) (unread_latch _ _)) fun _ => {}

theorem unread_beginLoss (s : State) : Unread s s.beginLoss := Unread.trans {} (unread_latch _ _)

theorem unread_enterLink (s : State) (new : LinkState) : Unread s (s.enterLink new) := by
  unfold State.enterLink
  dsimp only
  exact .ite (fun _ => ((Unread.of_through (through_engineDue s)).trans {}).trans (unread_beginLoss _))
    fun _ => .ite (fun _ => {}) fun _ => {}

theorem unread_handOn (s : State) (f : LinkFrame) (jump : Bool) : Unread s (s.handOn f jump) := by
  unfold State.handOn
  dsimp only
  exact ((Unread.trans {} (unread_writePair _ _)).trans (unread_latchIf _ _ _)).trans (unread_handFrame _ _ _ _ _)

theorem unread_handOnBad (s : State) (expected : Option Nat) : Unread s (s.handOnBad expected) := by
  unfold State.handOnBad
  split
  · exact (unread_writePair s _).trans (unread_handFrame _ _ _ _ _)
  · exact unread_writePair s _

/-! ## The slot read (R24) -/

/-- A slot has been read: of the message unit the assembly, its errors and the receive buffers are open, and the reply queue
gained NOTICEs alone. -/
structure SlotRead (s t : State) : Prop where
  noticed : Noticed s t := by exact .refl rfl
  msg : t.msg = { s.msg with
    assembly := t.msg.assembly, assemblyErrors := t.msg.assemblyErrors, rx := t.msg.rx, replies := t.msg.replies } := by rfl
  attention : t.events.attention = s.events.attention := by rfl
  latched : ∀ f, s.latchedFlag f = true → t.latchedFlag f = true := by exact fun _ h => h
  retries : t.paramNat .retryLimit = s.paramNat .retryLimit := by rfl
  giveup : t.latchedFlag .txGiveup = s.latchedFlag .txGiveup := by rfl
  role : t.link.role = s.link.role := by rfl
  tracking : t.link.tracking = s.link.tracking := by rfl
  output : t.link.output = s.link.output := by rfl

theorem SlotRead.refl (s : State) : SlotRead s s := {}

theorem SlotRead.trans {s t u : State} (h : SlotRead s t) (k : SlotRead t u) : SlotRead s u where
  noticed := h.noticed.trans h.attention k.noticed
  msg := by rw [k.msg, h.msg]
  attention := k.attention.trans h.attention
  latched f := k.latched f ∘ h.latched f
  retries := k.retries.trans h.retries
  giveup := k.giveup.trans h.giveup
  role := k.role.trans h.role
  tracking := k.tracking.trans h.tracking
  output := k.output.trans h.output

theorem SlotRead.of_unread {s t : State} (h : Unread s t) : SlotRead s t where
  noticed := h.noticed
  msg := by rw [h.msg]
  attention := h.attention
  latched := h.latched
  retries := h.retries
  giveup := h.giveup
  role := h.role
  tracking := h.tracking
  output := h.output

/-- A step that is made only under a condition. -/
theorem SlotRead.ite {s t u : State} {c : Prop} [Decidable c] (h : c → SlotRead s t) (k : ¬ c → SlotRead s u) :
    SlotRead s (if c then t else u) := by
  split
  · exact h ‹_›
  · exact k ‹_›

theorem slotRead_abandon (s : State) : SlotRead s s.abandon := .ite (fun _ => {}) fun _ => {}

theorem slotRead_placeRx (s : State) (m : Message) : SlotRead s (s.placeRx m) :=
  .ite (fun _ => {}) fun _ => .of_unread (unread_latch s _)

theorem slotRead_deliverRelay {s : State} (h : s.link.role = .follower) (m : Message) : SlotRead s (s.deliverRelay m) := by
  unfold State.deliverRelay
  split
  · refine .ite (fun _ => .ite (fun hmaster => ?_) fun _ => .refl s) fun _ =>
      .ite (fun _ => slotRead_placeRx s m) fun _ => .refl s
    have hno : s.isMaster = false := by rw [State.isMaster, h]; rfl
    rw [hno] at hmaster
    cases hmaster
  · exact .refl s

theorem slotRead_deliverEnumerate (s : State) (m : Message) : SlotRead s (s.deliverEnumerate m) := by
  unfold State.deliverEnumerate
  split
  · exact .refl s
  · exact .ite (fun _ => SlotRead.trans {} (slotRead_placeRx _ _)) fun _ => slotRead_placeRx s m

theorem slotRead_deliver {s : State} (h : s.link.role = .follower) (m : Message) : SlotRead s (s.deliver m) :=
  .ite (fun _ => .refl s) fun _ => .ite (fun _ => slotRead_deliverRelay h m) fun _ =>
    .ite (fun _ => slotRead_deliverEnumerate s m) fun _ => slotRead_placeRx s m

theorem slotRead_judgeMessage {s : State} (h : s.link.role = .follower) (bytes : List Byte) (check : Byte) :
    SlotRead s (s.judgeMessage bytes check) := by
  unfold State.judgeMessage
  split
  · exact .ite (fun _ => .ite (fun _ => SlotRead.trans {} (slotRead_deliver (s := s.setMsg { s.msg with assembly := none }) h _)) fun _ => {})
      fun _ => slotRead_abandon s
  · exact slotRead_abandon s

theorem takeSlot_idle (s : State) (b : Byte) : s.takeSlot .idle b = s.abandon := rfl

theorem takeSlot_start (s : State) (b : Byte) :
    s.takeSlot .start b = s.abandon.setMsg { s.abandon.msg with assembly := some [b] } := rfl

theorem takeSlot_body {s : State} {bytes more : List Byte} {b : Byte} (h : s.msg.assembly = some bytes)
    (ha : appendBody bytes b = some more) : s.takeSlot .body b = s.setMsg { s.msg with assembly := some more } := by
  simp only [State.takeSlot, h, ha]

theorem takeSlot_body_of_excess {s : State} {bytes : List Byte} {b : Byte} (h : s.msg.assembly = some bytes)
    (ha : appendBody bytes b = none) : s.takeSlot .body b = s.abandon := by
  simp only [State.takeSlot, h, ha]

theorem takeSlot_body_of_none {s : State} (h : s.msg.assembly = none) (b : Byte) : s.takeSlot .body b = s := by
  rw [State.takeSlot, h]

theorem takeSlot_done {s : State} {bytes : List Byte} (h : s.msg.assembly = some bytes) (b : Byte) :
    s.takeSlot .done b = s.judgeMessage bytes b := by
  rw [State.takeSlot, h]

theorem takeSlot_done_of_none {s : State} (h : s.msg.assembly = none) (b : Byte) : s.takeSlot .done b = s := by
  rw [State.takeSlot, h]

/-- A slot read by a follower. -/
theorem slotRead_takeSlot {s : State} (h : s.link.role = .follower) (tag : SlotTag) (b : Byte) :
    SlotRead s (s.takeSlot tag b) := by
  cases tag with
  | idle => exact slotRead_abandon s
  | start => exact (slotRead_abandon s).trans {}
  | body =>
    cases ha : s.msg.assembly with
    | none => rw [takeSlot_body_of_none ha]; exact .refl s
    | some bytes =>
      cases happ : appendBody bytes b with
      | some more => rw [takeSlot_body ha happ]; exact {}
      | none => rw [takeSlot_body_of_excess ha happ]; exact slotRead_abandon s
  | done =>
    cases ha : s.msg.assembly with
    | none => rw [takeSlot_done_of_none ha]; exact .refl s
    | some bytes => rw [takeSlot_done ha]; exact slotRead_judgeMessage h _ _

end Sys2Proof.Proofs.Frames
end

