-- ==== Sys2Proof/Proofs/Slots.lean ====
section
/-!
What the message unit writes into a slot (spec/02 section 2.4), and the frame a follower forwards (spec/01 section 1.4).
-/

namespace Sys2Proof.Proofs.Slots

open Sys2Proof Sys2Proof.Machine Sys2Proof.Proofs.Lasting Sys2Proof.Proofs.Frames

-- One declaration after another, so that the checks of many short proofs do not wait for each other in threads.
set_option Elab.async false

/-! ## Attempts (R30, R31, R34) -/

/-- The payload a message goes out with, a NOTICE's fixed now. -/
abbrev outPayload (s : State) (m : OutMsg) : List Byte :=
  if m.kind = 0x81 then bytesOf 4 s.events.latched.toNat else m.payload

/-- The bytes of a message after its kind, its source fixed now. -/
abbrev bodyBytes (s : State) (m : OutMsg) : List Byte :=
  [m.dest, s.sourceByte, byteOf (outPayload s m).length] ++ outPayload s m

/-- The attempt that follows the START of a message. -/
abbrev following (s : State) (m : OutMsg) : Attempt :=
  { slots := (bodyBytes s m).map (fun b => (SlotTag.body, b)) ++ [(.done, messageCheck 0x00 (m.kind :: bodyBytes s m))]
    enumerate := false }

theorem fixedBytes_eq (s : State) (m : OutMsg) : s.fixedBytes m = m.kind :: bodyBytes s m := by
  rw [State.fixedBytes, bodyBytes, outPayload]
  by_cases h : m.kind = 0x81
  · rw [if_pos h, if_pos h]; rfl
  · rw [if_neg h, if_neg h]; rfl

theorem newAttempt_eq {s : State} {m : OutMsg} {rest : List OutMsg} (h : s.msg.replies = m :: rest) :
    s.newAttempt = some { slots := (.start, m.kind) :: (following s m).slots, enumerate := false } := by
  rw [State.newAttempt, h]
  show some ({ slots := slotsOf (s.fixedBytes m), enumerate := false } : Attempt) = _
  rw [fixedBytes_eq]
  rfl

theorem writeSlot_more (s : State) (x : SlotTag × Byte) {more : List (SlotTag × Byte)} (h : more ≠ []) (e : Bool) :
    s.writeSlot { slots := x :: more, enumerate := e } =
      (x, s.setMsg { s.msg with attempt := some { slots := more, enumerate := e } }) := by
  cases more with
  | nil => exact absurd rfl h
  | cons y rest => rfl

/-! ## The slot supplied (R30, R31) -/

theorem supplySlot_attempt {s : State} {a : Attempt} (h : s.msg.attempt = some a) (mayBegin : Bool) :
    s.supplySlot mayBegin = (some (s.writeSlot a).1, (s.writeSlot a).2) := by
  rw [State.supplySlot, h]

/-- Nothing is supplied without an attempt where none may begin, a wait runs, or nothing is queued. -/
theorem supplySlot_quiet {s : State} {mayBegin : Bool} (h : s.msg.attempt = none)
    (hq : mayBegin = false ∨ s.msg.wait ≠ none ∨ s.msg.replies = []) : s.supplySlot mayBegin = (none, s) := by
  have hnew : (mayBegin && s.msg.wait.isNone) = true → s.newAttempt = none := fun hm => by
    rw [Bool.and_eq_true, Option.isNone_iff_eq_none] at hm
    rcases hq with hq | hq | hq
    · exact absurd (hq.symm.trans hm.1) Bool.false_ne_true
    · exact absurd hm.2 hq
    · rw [State.newAttempt, hq]
  rw [State.supplySlot, h]
  by_cases hm : (mayBegin && s.msg.wait.isNone) = true
  · exact (if_pos hm).trans (by rw [hnew hm])
  · exact if_neg hm

/-- The head of the reply queue begins. -/
theorem supplySlot_begins {s : State} {m : OutMsg} {rest : List OutMsg} (h : s.msg.attempt = none)
    (hw : s.msg.wait = none) (hr : s.msg.replies = m :: rest) :
    s.supplySlot true = (some (.start, m.kind), s.setMsg { s.msg with attempt := some (following s m) }) := by
  rw [State.supplySlot, h]
  refine (if_pos (by rw [hw]; rfl)).trans ?_
  rw [newAttempt_eq hr]
  rfl

/-! ## Attempts lost and waits (R31, R32) -/

theorem loseAttempt_of_none {s : State} (h : s.msg.attempt = none) : s.loseAttempt = s := by
  rw [State.loseAttempt, if_pos (by rw [h]; rfl)]

theorem loseAttempt_link (s : State) : s.loseAttempt.link = s.link := by rw [State.loseAttempt_frame]

theorem countWait_link (s : State) : s.countWait.link = s.link := by rw [State.countWait_frame]

theorem countWait_of_wait {s : State} {w : RetryWait} (h : s.msg.wait = some w) :
    s.countWait = s.setMsg { s.msg with wait := some { w with elapsed := min w.total (w.elapsed + 1) } } := by
  rw [State.countWait, h]

theorem countWait_of_none {s : State} (h : s.msg.wait = none) : s.countWait = s := by
  rw [State.countWait, h]

/-- Counting a wait changes the wait alone. -/
theorem countWait_msg (s : State) : s.countWait.msg = { s.msg with wait := s.countWait.msg.wait } := by
  cases h : s.msg.wait with
  | none => rw [countWait_of_none h]
  | some w => rw [countWait_of_wait h]; rfl

/-! ## The frame forwarded (R9, R10, R17) -/

theorem sealFrame_of_good {f : LinkFrame} (h : frameGood f = true) : sealFrame f = f := by
  rw [frameGood, Bool.and_eq_true, decide_eq_true_eq] at h
  rw [sealFrame, ← h.1]

theorem forward_taken (s : State) {f : LinkFrame} (h : f.tag ≠ .idle) :
    s.forward f = s.loseAttempt.setLink { s.link with
      output := some (sealFrame { f with byte := (trackSlot s.link.tracking f.tag f.byte).2 })
      tracking := (trackSlot s.link.tracking f.tag f.byte).1 } := by
  have hlink := loseAttempt_link s
  unfold State.forward
  cases htag : f.tag with
  | idle => exact absurd htag h
  | start | body | done => rw [← hlink]

/-- The frame that leaves with what the message unit supplies. -/
def filled (f : LinkFrame) : Option (SlotTag × Byte) → LinkFrame
  | some x => { f with tag := x.1, byte := x.2 }
  | none => f

theorem supplySlot_link (s : State) (mayBegin : Bool) : (s.supplySlot mayBegin).2.link = s.link := by
  rw [State.supplySlot_frame]

theorem forward_idle (s : State) {f : LinkFrame} (h : f.tag = .idle) :
    s.forward f = (s.supplySlot s.msg.slotFree).2.setLink { s.link with
      output := some (sealFrame (filled f (s.supplySlot s.msg.slotFree).1)), tracking := none } := by
  have hlink := supplySlot_link s s.msg.slotFree
  unfold State.forward
  rw [h]
  dsimp only
  rw [hlink]
  cases (s.supplySlot s.msg.slotFree).1 <;> rfl

end Sys2Proof.Proofs.Slots
end

