-- ==== Sys2Proof/Proofs/Forwarding.lean ====
section
/-!
The frames a follower forwards and originates (spec/01 sections 1.4, 1.5 and 1.7, spec/02 section 2.4).
-/

namespace Sys2Proof.Proofs.Forwarding

open Sys2Proof Sys2Proof.Machine Sys2Proof.Proofs.Commands Sys2Proof.Proofs.Handler Sys2Proof.Proofs.Events
open Sys2Proof.Proofs.Lasting Sys2Proof.Proofs.Frames Sys2Proof.Proofs.Slots

-- One declaration after another, so that the checks of many short proofs do not wait for each other in threads.
set_option Elab.async false

theorem not_master {s : State} (h : s.link.role = .follower) : s.isMaster = false := by rw [State.isMaster, h]; rfl

theorem is_follower {s : State} (h : s.link.role = .follower) : s.isFollower = true := by rw [State.isFollower, h]; rfl

/-! ## A frame originated (R14) -/

/-- A follower's own slot changes its message unit alone. -/
theorem supplySlot_follower {s : State} (h : s.link.role = .follower) (he : s.enumeratesAsMaster) (mayBegin : Bool) :
    (s.supplySlot mayBegin).2 = { s with msg := (s.supplySlot mayBegin).2.msg } := by
  have hwrite : ∀ a : Attempt, a.enumerate = false → (s.writeSlot a).2.tape = s.tape := fun a ha => by
    obtain ⟨slots, e⟩ := a
    obtain rfl : e = false := ha
    match slots with
    | [] => rfl
    | [x] => rfl
    | x :: y :: rest => rfl
  have htape : (s.supplySlot mayBegin).2.tape = s.tape := by
    cases ha : s.msg.attempt with
    | some a => rw [supplySlot_attempt ha]; exact hwrite a (he h a ha)
    | none =>
      by_cases hq : mayBegin = false ∨ s.msg.wait ≠ none ∨ s.msg.replies = []
      · rw [supplySlot_quiet ha hq]
      · simp only [not_or, Bool.not_eq_false, not_not] at hq
        obtain ⟨rfl, hw, hr⟩ := hq
        obtain ⟨m, rest, hr⟩ := List.exists_cons_of_ne_nil hr
        rw [supplySlot_begins ha hw hr]; rfl
  have hframe := s.supplySlot_frame mayBegin
  rw [htape] at hframe
  exact hframe

theorem frameGood_originated {n : Nat} (h : n < 64000) (slot : SlotTag × Byte) :
    frameGood (originatedFrame n slot) = true ∧ (originatedFrame n slot).number.toNat = n := by
  have hnumber : (originatedFrame n slot).number.toNat = n := by
    show (BitVec.ofNat 16 n).toNat = n
    rw [BitVec.toNat_ofNat]
    exact Nat.mod_eq_of_lt (by omega)
  refine ⟨?_, hnumber⟩
  rw [frameGood, hnumber, decide_eq_true (p := n < Config.frameNumbers) h, Bool.and_true, decide_eq_true_eq]
  rfl

theorem nextFrameNumber_eq {n : Nat} (h : n < 64000) : nextFrameNumber n = if n = 63999 then 0 else n + 1 := by
  unfold nextFrameNumber
  by_cases hn : n = 63999
  · rw [if_pos hn]; exact if_neg (by show ¬ n + 1 < 64000; omega)
  · rw [if_neg hn]; exact if_pos (by show n + 1 < 64000; omega)

/-- Settles O8: what the message unit supplies (`supplySlot_attempt`, `supplySlot_quiet`, `supplySlot_begins`). -/
theorem originatedFrameSent : Obligations.OriginatedFrameSent := by
  intro s hs hrole hstate he hexpected
  have hn : s.link.expected.getD 0 < 64000 := by
    cases h : s.link.expected with
    | none => decide
    | some n => exact hexpected n h
  obtain ⟨hgood, hnumber⟩ := frameGood_originated hn ((s.supplySlot true).1.getD (.idle, 0x00))
  have hwork : exec .originatedFrame s = .next ((s.supplySlot true).2.setLink { (s.supplySlot true).2.link with
      expected := some (nextFrameNumber (s.link.expected.getD 0))
      output := some (originatedFrame (s.link.expected.getD 0) ((s.supplySlot true).1.getD (.idle, 0x00))) }) := by
    rw [exec_originatedFrame, whenSettled_of_ready hs, State.originate,
      if_pos (by rw [is_follower hrole, hstate]; rfl)]
  rw [supplySlot_link, nextFrameNumber_eq hn] at hwork
  refine ⟨_, _, hwork, hgood, hnumber, rfl, rfl, rfl, rfl, rfl, rfl, rfl, ?frame, fun ha hq => ?quiet,
    fun m rest ha hw hr => ?begins, fun x more ha => ?goesOn⟩
  case frame =>
    have hmsg := supplySlot_follower hrole he true
    exact congrArg (fun t : State => t.setLink { s.link with
      expected := some (if s.link.expected.getD 0 = 63999 then 0 else s.link.expected.getD 0 + 1)
      output := some (originatedFrame (s.link.expected.getD 0) ((s.supplySlot true).1.getD (.idle, 0x00))) }) hmsg
  case quiet =>
    rw [supplySlot_quiet ha (.inr (hq.symm))]
    exact ⟨rfl, rfl, rfl⟩
  case begins =>
    rw [supplySlot_begins ha hw hr]
    exact ⟨rfl, rfl, rfl⟩
  case goesOn =>
    rw [supplySlot_attempt ha]
    by_cases hm : more = []
    · subst hm
      exact ⟨rfl, rfl, fun h => absurd rfl h, fun _ => rfl⟩
    · rw [writeSlot_more s x hm]
      exact ⟨rfl, rfl, fun _ => rfl, fun h => absurd h hm⟩

/-! ## A good frame at a follower (R4, R5, R9 to R12) -/

/-- A good frame numbered and handed on, its slot still unread. -/
def heard (s : State) (f : LinkFrame) (sync : Nat) : State :=
  if f.broken then ((s.countGood f.number.toNat sync).enterLink .lostForwarding).keepBroken f
  else ((s.countGood f.number.toNat sync).enterLink .linked).handOn f (s.link.jumps f.number.toNat)

theorem unread_heard (s : State) (f : LinkFrame) (sync : Nat) : Unread s (heard s f sync) :=
  .ite (fun _ => ((unread_countGood s _ _).trans (unread_enterLink _ _)).trans {})
    fun _ => ((unread_countGood s _ _).trans (unread_enterLink _ _)).trans (unread_handOn _ _ _)

/-- A good frame with its slot read. -/
def listened (s : State) (f : LinkFrame) (sync : Nat) : State := (heard s f sync).takeSlot f.tag f.byte

theorem slotRead_listened {s : State} (h : s.link.role = .follower) (f : LinkFrame) (sync : Nat) :
    SlotRead s (listened s f sync) :=
  (SlotRead.of_unread (unread_heard s f sync)).trans (slotRead_takeSlot ((unread_heard s f sync).role.trans h) _ _)

theorem followerGood_eq {s : State} (h : s.link.state ≠ .lostOriginating) (f : LinkFrame) (sync : Nat) :
    s.followerGood f sync = (((listened s f sync).forward f).noteSlot (freesNext f.tag)).countWait := by
  unfold State.followerGood listened heard
  simp only [decide_eq_false h, Bool.false_eq_true, if_false, Bool.false_and]
  cases f.broken <;> rfl

theorem exec_frameReceived_good {s : State} {f : LinkFrame} {sync : Nat} (hs : s.Ready) (hrole : s.link.role = .follower)
    (hf : frameGood f = true) (hsync : s.syncLate sync = false) :
    exec (.frameReceived f sync) s = .next (s.followerGood f sync) := by
  rw [exec_frameReceived, whenSettled_of_ready hs, State.frameArrives_of_in_window hsync, State.receive,
    not_master hrole, if_neg Bool.false_ne_true, if_pos hf]

/-- What a forwarded frame leaves on the link. -/
theorem followerGood_link {s : State} (h : s.link.state ≠ .lostOriginating) (f : LinkFrame) (sync : Nat) :
    (s.followerGood f sync).link = ((listened s f sync).forward f).link := by
  rw [followerGood_eq h, countWait_link]
  rfl

/-! ## ENUMERATE rewritten (R17) -/

theorem forward_taken_link (s : State) {f : LinkFrame} (h : f.tag ≠ .idle) :
    (s.forward f).link = { s.link with
      output := some (sealFrame { f with byte := (trackSlot s.link.tracking f.tag f.byte).2 })
      tracking := (trackSlot s.link.tracking f.tag f.byte).1 } := by
  rw [forward_taken s h]; rfl

theorem forward_idle_link (s : State) {f : LinkFrame} (h : f.tag = .idle) :
    (s.forward f).link = { s.link with
      output := some (sealFrame (filled f (s.supplySlot s.msg.slotFree).1)), tracking := none } := by
  rw [forward_idle s h]; rfl

theorem messageCheck_append (start : Byte) (xs ys : List Byte) :
    messageCheck start (xs ++ ys) = messageCheck (messageCheck start xs) ys := List.foldl_append

/-- The bytes after the count go through unchanged, and the check is mended by what the count changed. -/
theorem forwardedBytes_tail (xs : List Byte) (check : Byte) (e : EnumTrack) (ho : 5 ≤ e.offset)
    (hl : e.offset + xs.length ≤ 4 + e.length) :
    forwardedBytes (some e) (xs.map (fun b => (SlotTag.body, b)) ++ [(.done, check)]) =
      xs ++ [messageCheck e.checkOut xs ^^^ (check ^^^ messageCheck e.checkIn xs)] := by
  induction xs generalizing e with
  | nil => rfl
  | cons b rest ih =>
    rw [List.length_cons] at hl
    have hkeep : e.body b =
        (some { e with
          offset := e.offset + 1, checkIn := messageCheck e.checkIn [b], checkOut := messageCheck e.checkOut [b] }, b) := by
      unfold EnumTrack.body
      split
      case h_1 h => omega
      case h_2 h => omega
      case h_3 h => omega
      case h_4 h => omega
      case h_5 => exact if_neg (by omega)
    have hgoes := ih { e with
      offset := e.offset + 1, checkIn := messageCheck e.checkIn [b], checkOut := messageCheck e.checkOut [b] }
      (by show 5 ≤ e.offset + 1; omega) (by show e.offset + 1 + rest.length ≤ 4 + e.length; omega)
    rw [List.map_cons, List.cons_append, forwardedBytes]
    show (e.body b).2 :: forwardedBytes (e.body b).1 _ = _
    rw [hkeep, hgoes]
    rfl

theorem forwardedBytes_cons (t : Option EnumTrack) (x : SlotTag × Byte) (rest : List (SlotTag × Byte)) :
    forwardedBytes t (x :: rest) = (trackSlot t x.1 x.2).2 :: forwardedBytes (trackSlot t x.1 x.2).1 rest := rfl

/-- An ENUMERATE with bytes tracked so far: those that came, and those sent in their place. -/
def tracked (offset length : Nat) (came sent : List Byte) : EnumTrack :=
  { offset := offset, length := length, checkIn := messageCheck 0x00 came, checkOut := messageCheck 0x00 sent }

theorem trackSlot_start : trackSlot none .start 0x01 = (some (tracked 1 0 [0x01] [0x01]), 0x01) := by
  rw [trackSlot, if_pos rfl, tracked]

theorem trackSlot_destination (came sent : List Byte) :
    trackSlot (some (tracked 1 0 came sent)) .body 0xFF =
      (some (tracked 2 0 (came ++ [0xFF]) (sent ++ [0xFF])), 0xFF) := by
  rw [tracked, tracked, messageCheck_append, messageCheck_append]
  exact congrArg (·, (0xFF : Byte)) (if_pos rfl)

theorem trackSlot_source (came sent : List Byte) (b : Byte) :
    trackSlot (some (tracked 2 0 came sent)) .body b = (some (tracked 3 0 (came ++ [b]) (sent ++ [b])), b) := by
  rw [tracked, tracked, messageCheck_append, messageCheck_append]
  rfl

theorem trackSlot_length (came sent : List Byte) {b : Byte} (h : b ≠ 0) :
    trackSlot (some (tracked 3 0 came sent)) .body b = (some (tracked 4 b.toNat (came ++ [b]) (sent ++ [b])), b) := by
  rw [tracked, tracked, messageCheck_append, messageCheck_append]
  exact congrArg (·, b) (if_neg h)

theorem trackSlot_count (length : Nat) (came sent : List Byte) (b : Byte) :
    trackSlot (some (tracked 4 length came sent)) .body b =
      (some (tracked 5 length (came ++ [b]) (sent ++ [nextCount b])), nextCount b) := by
  rw [tracked, tracked, messageCheck_append, messageCheck_append]
  rfl

/-- An ENUMERATE to all, its count rewritten and its check mended. -/
theorem forwardedBytes_enumerate (source c check : Byte) (rest : List Byte) (h : rest.length ≤ 23) :
    forwardedBytes none
        ([(.start, 0x01), (.body, 0xFF), (.body, source), (.body, byteOf (rest.length + 1)), (.body, c)] ++
          rest.map (fun b => (.body, b)) ++ [(.done, check)]) =
      [0x01, 0xFF, source, byteOf (rest.length + 1), nextCount c] ++ rest ++
        [messageCheck 0x00 ([0x01, 0xFF, source, byteOf (rest.length + 1), nextCount c] ++ rest) ^^^
          (check ^^^ messageCheck 0x00 ([0x01, 0xFF, source, byteOf (rest.length + 1), c] ++ rest))] := by
  have hlen : (byteOf (rest.length + 1)).toNat = rest.length + 1 := toNat_byteOf (by omega)
  have hnz : byteOf (rest.length + 1) ≠ 0 := fun h0 => by
    rw [h0] at hlen
    exact absurd hlen (by simp)
  have htail := forwardedBytes_tail rest check
    (tracked 5 (rest.length + 1) [0x01, 0xFF, source, byteOf (rest.length + 1), c]
      [0x01, 0xFF, source, byteOf (rest.length + 1), nextCount c]) (Nat.le_refl 5)
    (by show 5 + rest.length ≤ 4 + (rest.length + 1); omega)
  rw [messageCheck_append, messageCheck_append, List.append_assoc, List.append_assoc]
  simp only [List.cons_append, List.nil_append, forwardedBytes_cons, trackSlot_start, trackSlot_destination,
    trackSlot_source, trackSlot_length _ _ hnz, trackSlot_count, hlen]
  rw [htail]
  rfl

/-- Settles O9: the tracking of a frame forwarded, and the bytes of a whole ENUMERATE. -/
theorem enumerateRewritten : Obligations.EnumerateRewritten := by
  refine ⟨fun s f sync hs hrole hstate hf hsync => ?forwarded, fun source c check rest h => ?whole⟩
  case forwarded =>
    have hstate' : s.link.state ≠ .lostOriginating := by rcases hstate with h | h <;> rw [h] <;> decide
    have htracking := (slotRead_listened hrole f sync).tracking
    refine ⟨_, exec_frameReceived_good hs hrole hf hsync, fun htag => ?_, fun htag => ?_⟩
    · rw [followerGood_link hstate', forward_taken_link _ htag, htracking]
      exact ⟨rfl, rfl⟩
    · rw [followerGood_link hstate', forward_idle_link _ htag]
  case whole => exact forwardedBytes_enumerate source c check rest h

/-! ## Slots forwarded with a message (R9, R10, R30, R31) -/

/-- What counting a frame time of a wait leaves of a message unit's attempt. -/
theorem finished_msg (s : State) (free : Bool) :
    (s.noteSlot free).countWait.msg =
      { s.msg with slotFree := free, wait := (s.noteSlot free).countWait.msg.wait } := countWait_msg _

theorem finished_events (s : State) (free : Bool) : (s.noteSlot free).countWait.events = s.events := by
  rw [State.countWait_frame]; rfl

/-- In an IDLE slot the message unit finds its attempt, its wait and the slot before as they were. -/
theorem listened_msg {s : State} (h : s.link.role = .follower) (f : LinkFrame) (sync : Nat) :
    (listened s f sync).msg.attempt = s.msg.attempt ∧ (listened s f sync).msg.wait = s.msg.wait ∧
      (listened s f sync).msg.slotFree = s.msg.slotFree := by
  have hmsg := (slotRead_listened h f sync).msg
  rw [hmsg]
  exact ⟨rfl, rfl, rfl⟩

/-- An IDLE slot leaves the unit's address. -/
theorem listened_idle_source {s : State} {f : LinkFrame} (htag : f.tag = .idle) (sync : Nat) :
    (listened s f sync).sourceByte = s.sourceByte := by
  have hlink : (listened s f sync).link = (heard s f sync).link := by
    rw [listened, htag, takeSlot_idle, State.abandon_frame]
  rw [State.sourceByte, State.sourceByte, hlink, (unread_heard s f sync).address]

/-- A frame whose slot came taken goes out as it came, with no enumeration being rewritten. -/
theorem forward_output {s : State} {f : LinkFrame} (hf : frameGood f = true) (htag : f.tag ≠ .idle)
    (htrack : s.link.tracking = none) (hbyte : f.tag = .start → f.byte ≠ 0x01) :
    (s.forward f).link.output = some f := by
  have hsame : (trackSlot none f.tag f.byte).2 = f.byte := by
    cases ht : f.tag with
    | idle => rfl
    | start => exact congrArg Prod.snd (if_neg (hbyte ht))
    | body => rfl
    | done => rfl
  rw [forward_taken_link s htag, htrack]
  show some (sealFrame { f with byte := (trackSlot none f.tag f.byte).2 }) = some f
  rw [hsame]
  exact congrArg some (sealFrame_of_good hf)

/-- Settles O4: a taken slot by its tracking, an IDLE slot by what the message unit supplies. -/
theorem goodFrameForwarded : Obligations.GoodFrameForwarded := by
  intro s f sync hs hrole hstate hf hsync
  have hstate' : s.link.state ≠ .lostOriginating := by rcases hstate with h | h | h <;> rw [h] <;> decide
  have hread := slotRead_listened hrole f sync
  obtain ⟨hattempt, hwait, hfree⟩ := listened_msg hrole f sync
  obtain ⟨ns, hreplies, hnone⟩ := hread.noticed
  have hmsg : (s.followerGood f sync).msg =
      { ((listened s f sync).forward f).msg with
        slotFree := freesNext f.tag, wait := (s.followerGood f sync).msg.wait } := by
    rw [followerGood_eq hstate']; exact finished_msg _ _
  have hidle (htag : f.tag = .idle) : (s.followerGood f sync).link.output =
      some (sealFrame (filled f ((listened s f sync).supplySlot s.msg.slotFree).1)) := by
    rw [followerGood_link hstate', forward_idle_link _ htag, hfree]
  have hidle' (htag : f.tag = .idle) : (s.followerGood f sync).msg.attempt =
      ((listened s f sync).supplySlot s.msg.slotFree).2.msg.attempt := by
    rw [hmsg, forward_idle _ htag, hfree]; rfl
  have quiet (htag : f.tag = .idle) (ha : s.msg.attempt = none)
      (hq : s.msg.slotFree = false ∨ s.msg.wait ≠ none ∨ (listened s f sync).msg.replies = []) :
      (s.followerGood f sync).link.output = some f ∧ (s.followerGood f sync).msg.attempt = none := by
    have hsupply : (listened s f sync).supplySlot s.msg.slotFree = (none, listened s f sync) :=
      supplySlot_quiet (hattempt.trans ha) (by rw [hwait]; exact hq)
    rw [hidle htag, hidle' htag, hsupply]
    exact ⟨congrArg some (sealFrame_of_good hf), hattempt.trans ha⟩
  have begins (htag : f.tag = .idle) (ha : s.msg.attempt = none) (hw : s.msg.wait = none) (hfr : s.msg.slotFree = true)
      {m : OutMsg} {rest : List OutMsg} (hr : (listened s f sync).msg.replies = m :: rest) :
      (s.followerGood f sync).link.output = some (sealFrame { f with tag := .start, byte := m.kind }) ∧
        (s.followerGood f sync).msg.attempt = some (following (listened s f sync) m) := by
    have hsupply := supplySlot_begins (hattempt.trans ha) (hwait.trans hw) hr
    rw [hidle htag, hidle' htag, hfr, hsupply]
    exact ⟨rfl, rfl⟩
  refine ⟨_, exec_frameReceived_good hs hrole hf hsync, fun htag htrack hbyte => ?taken, fun htag ha hq => ?held,
    fun htag ha hr => ?empty, fun m rest htag hfr ha hw hr => ?first, fun x more htag ha => ?next⟩
  case taken =>
    rw [followerGood_link hstate']
    exact forward_output hf htag (hread.tracking.trans htrack) hbyte
  case held => exact quiet htag ha (hq.imp_right .inl)
  case empty =>
    rw [hr, List.nil_append] at hreplies
    refine ⟨fun h0 => (quiet htag ha (.inr (.inr (hreplies.trans (hnone h0))))).2, fun hend => ?_⟩
    by_cases hq : s.msg.slotFree = false ∨ s.msg.wait ≠ none ∨ (listened s f sync).msg.replies = []
    · exact (quiet htag ha hq).1
    · simp only [not_or, Bool.not_eq_false, not_not] at hq
      obtain ⟨hfr, hw, hne⟩ := hq
      obtain ⟨m, rest, hm⟩ := List.exists_cons_of_ne_nil hne
      have hbegun := (begins htag ha hw hfr hm).2
      rw [hend] at hbegun
      cases hbegun
  case first =>
    have hbegun := begins htag ha hw hfr (m := m) (rest := rest ++ ns) (by rw [hreplies, hr]; rfl)
    have hevents : (s.followerGood f sync).events = (listened s f sync).events := by
      rw [followerGood_eq hstate', finished_events, forward_idle _ htag]
      show ((listened s f sync).supplySlot _).2.events = _
      rw [State.supplySlot_frame]
    refine ⟨hbegun.1, hbegun.2.trans ?_⟩
    rw [hevents, ← listened_idle_source htag sync]
  case next =>
    have hsupply := supplySlot_attempt (hattempt.trans ha) s.msg.slotFree
    rw [hidle htag, hidle' htag, hsupply]
    by_cases hm : more = []
    · subst hm
      refine ⟨rfl, fun h => absurd rfl h, fun _ => ⟨rfl, ?_, ?_⟩⟩
      · rw [hmsg, forward_idle _ htag, hfree, hsupply]
        rfl
      · have htail : (s.followerGood f sync).msg.replies = (listened s f sync).msg.replies.tail := by
          rw [hmsg, forward_idle _ htag, hfree, hsupply]
          rfl
        rw [htail, hreplies]
        cases s.msg.replies with
        | nil => exact List.nil_prefix
        | cons m rest => exact List.prefix_append rest ns
    · rw [writeSlot_more _ x hm]
      exact ⟨rfl, fun _ => rfl, fun h => absurd h hm⟩

end Sys2Proof.Proofs.Forwarding
end

