-- ==== Sys2Proof/Proofs/Retries.lean ====
section
/-!
Bad and missing frames at a follower (spec/01 section 1.3), and lost attempts and their waits (spec/02 section 2.4).
-/

namespace Sys2Proof.Proofs.Retries

open Sys2Proof Sys2Proof.Machine Sys2Proof.Proofs.Commands Sys2Proof.Proofs.Events Sys2Proof.Proofs.Lasting
open Sys2Proof.Proofs.Frames Sys2Proof.Proofs.Slots Sys2Proof.Proofs.Forwarding

-- One declaration after another, so that the checks of many short proofs do not wait for each other in threads.
set_option Elab.async false

/-! ## Latches beside the link and the assembly -/

theorem latch_withLink (s : State) {l : LinkRx} (h : l.role = s.link.role) (f : Flag) :
    ({ s with link := l } : State).latch f = { s.latch f with link := l } := by
  cases hf : s.latchedFlag f with
  | true => rw [latch_of_latched hf, latch_of_latched (s := { s with link := l }) hf]
  | false =>
    rw [latch_of_clear hf, latch_of_clear (s := { s with link := l }) hf]
    show (if _ ∧ l.role = .follower ∧ _ then _ else _) = _
    rw [h]
    by_cases hn : s.events.attention.getLsbD f.place = true ∧ s.link.role = .follower ∧
        (∀ m ∈ s.msg.replies, m.kind ≠ 0x81) ∧ s.placesUsed < 4
    · rw [if_pos hn]; exact if_pos hn
    · rw [if_neg hn]; exact if_neg hn

/-- The receive side of a message unit replaced. -/
def slotSide (s : State) (assembly : Option (List Byte)) (errors : Nat) (free : Bool) : State :=
  { s with msg := { s.msg with assembly := assembly, assemblyErrors := errors, slotFree := free } }

theorem latch_slotSide (s : State) (assembly : Option (List Byte)) (errors : Nat) (free : Bool) (f : Flag) :
    (slotSide s assembly errors free).latch f = slotSide (s.latch f) assembly errors free := by
  cases hf : s.latchedFlag f with
  | true => rw [latch_of_latched hf, latch_of_latched (s := slotSide s assembly errors free) hf]
  | false =>
    rw [latch_of_clear hf, latch_of_clear (s := slotSide s assembly errors free) hf]
    by_cases hn : s.events.attention.getLsbD f.place = true ∧ s.link.role = .follower ∧
        (∀ m ∈ s.msg.replies, m.kind ≠ 0x81) ∧ s.placesUsed < 4
    · rw [if_pos hn]; exact if_pos hn
    · rw [if_neg hn]; exact if_neg hn

/-! ## Lost attempts (R31, R32, R35) -/

theorem loseAttempt_gives_up {s : State} (ha : s.msg.attempt ≠ none) (h : s.paramNat .retryLimit ≤ s.msg.attempts + 1) :
    s.loseAttempt = (s.setMsg s.msg.dropHead).latch .txGiveup := by
  rw [State.loseAttempt, if_neg (by simpa using ha), if_pos h]

theorem loseAttempt_last {s : State} (ha : s.msg.attempt ≠ none) (h : s.msg.attempts + 1 < s.paramNat .retryLimit)
    (hl : s.msg.lastTry = true) : s.loseAttempt = s.setMsg s.msg.dropHead := by
  rw [State.loseAttempt, if_neg (by simpa using ha), if_neg (Nat.not_le.mpr h), if_pos hl]

theorem loseAttempt_waits {s : State} (ha : s.msg.attempt ≠ none) (h : s.msg.attempts + 1 < s.paramNat .retryLimit)
    (hl : s.msg.lastTry = false) :
    s.loseAttempt = s.setMsg { s.msg with
      attempt := none, attempts := s.msg.attempts + 1
      wait := some { elapsed := 0, total := 8 * s.link.address.getD 33 } } := by
  rw [State.loseAttempt, if_neg (by simpa using ha), if_neg (Nat.not_le.mpr h), if_neg (ne_true_of_eq_false hl)]
  rfl

/-- A latch leaves the message unit as it is but for the reply queue. -/
theorem latch_msg_eq (s : State) (f : Flag) : (s.latch f).msg = { s.msg with replies := (s.latch f).msg.replies } := by
  rcases s.latch_msg f with h | ⟨-, -, h⟩ <;> rw [h]

theorem loseAttempt_attempt (s : State) : s.loseAttempt.msg.attempt = none := by
  by_cases ha : s.msg.attempt = none
  · rw [loseAttempt_of_none ha]; exact ha
  by_cases hlimit : s.paramNat .retryLimit ≤ s.msg.attempts + 1
  · rw [loseAttempt_gives_up ha hlimit, latch_msg_eq]; rfl
  cases hl : s.msg.lastTry with
  | true => rw [loseAttempt_last ha (Nat.not_le.mp hlimit) hl]; rfl
  | false => rw [loseAttempt_waits ha (Nat.not_le.mp hlimit) hl]; rfl

/-! ## Bad and missing frames counted (R4, R7) -/

/-- The link after a bad or missing frame has been counted, the expected number going on. -/
abbrev countedLink (s : State) : LinkRx :=
  { s.link with
    expected := s.link.expected.map fun n => if n + 1 < 64000 then n + 1 else 0
    runCount := min 255 (s.link.runCount + 1), sinceGood := min 32 (s.link.sinceGood + 1) }

/-- The state with a bad frame's numbers and, in a follower at the 16th in a row, its mute reason. -/
def badCounted (s : State) : State :=
  let t := s.setLink (countedLink s)
  if min 255 (s.link.runCount + 1) = 16 then
    (if s.isFollower then t.setReasons { t.sound.reasons with badRun := true } else t).latch .badFrames
  else t

theorem countBad_eq {s : State} (h : s.link.role = .master ∨ s.link.state ≠ .lostOriginating) :
    s.countBad = badCounted s := by
  have horiginating : (s.isFollower && decide (s.link.state = .lostOriginating)) = false := by
    rcases h with h | h
    · rw [State.isFollower, h]; rfl
    · rw [decide_eq_false h, Bool.and_false]
  unfold State.countBad
  rw [horiginating]
  rfl

theorem badCounted_of_ne {s : State} (h : s.link.runCount ≠ 15) : badCounted s = s.setLink (countedLink s) :=
  if_neg (by omega)

theorem abandon_eq (s : State) :
    s.abandon = s.setMsg { s.msg with
      assembly := none
      assemblyErrors :=
        if s.msg.assembly.isSome then min 255 (s.msg.assemblyErrors + 1) else s.msg.assemblyErrors } := by
  unfold State.abandon
  cases h : s.msg.assembly with
  | none =>
    simp only [Option.isSome_none, Bool.false_eq_true, if_false]
    rw [← h]; rfl
  | some bytes => rfl

/-- A bad or missing frame's end: its slot is lost, the tracking ends, and a wait counts. -/
def frameLost (s : State) : State :=
  let v := s.abandon
  ((v.setLink { v.link with tracking := none }).noteSlot false).countWait

theorem followerBad_lostForwarding {s : State} (h : s.link.state = .lostForwarding) (f : Option LinkFrame) (sync : Nat) :
    s.followerBad f sync =
      frameLost (s.countBad.loseAttempt.setLink
        { s.countBad.loseAttempt.link.windowPast (f.map fun _ => sync) with output := f }) := by
  rw [State.followerBad, h]
  rfl

theorem followerBad_linked {s : State} (h : s.link.state = .linked) (f : Option LinkFrame) (sync : Nat) :
    s.followerBad f sync =
      frameLost ((s.countBad.handOnBad s.link.expected).loseAttempt.setLink
        { (s.countBad.handOnBad s.link.expected).loseAttempt.link.windowPast (f.map fun _ => sync) with output := f }) := by
  rw [State.followerBad, h]
  rfl

theorem followerBad_elsewhere {s : State} (h : s.link.state = .acquiring ∨ s.link.state = .lostOriginating)
    (f : Option LinkFrame) (sync : Nat) : s.followerBad f sync = frameLost s.countBad := by
  rcases h with h | h <;> rw [State.followerBad, h] <;> rfl

theorem exec_missingFrame_follower {s : State} (hs : s.Ready) (h : s.link.role = .follower) :
    exec .missingFrame s = .next (s.followerBad none 0) := by
  rw [exec_missingFrame, whenSettled_of_ready hs, State.miss, not_master h, if_neg Bool.false_ne_true]

/-- The assembly errors after a slot has been lost. -/
abbrev lostErrors (s : State) : Nat :=
  if s.msg.assembly.isSome then min 255 (s.msg.assemblyErrors + 1) else s.msg.assemblyErrors

theorem lostErrors_congr {s t : State} (ha : t.msg.assembly = s.msg.assembly)
    (he : t.msg.assemblyErrors = s.msg.assemblyErrors) : lostErrors t = lostErrors s := by
  rw [lostErrors, ha, he]

theorem frameLost_eq (s : State) :
    frameLost s = (slotSide { s with link := { s.link with tracking := none } } none (lostErrors s) false).countWait := by
  rw [frameLost, abandon_eq]
  rfl

/-- The link after a missing frame outside ACQUIRING and LOST_ORIGINATING. -/
abbrev missedLink (s : State) : LinkRx := { countedLink s with output := none, tracking := none, windowClosed := true }

/-- The message unit with its head dropped and the missing frame's slot lost. -/
abbrev droppedMsg (s : State) : MsgUnit :=
  { s.msg with
    assembly := none, assemblyErrors := lostErrors s, attempt := none, slotFree := false
    replies := s.msg.replies.tail, attempts := 0, lastTry := false }

theorem frameLost_gives_up {s : State} (hw : s.msg.wait = none) :
    frameLost (((s.setLink (countedLink s)).setMsg s.msg.dropHead).latch .txGiveup |>.setLink
        { countedLink s with output := none, windowClosed := true }) =
      State.latch { s with link := missedLink s, msg := droppedMsg s } .txGiveup := by
  have hlink := latch_withLink ((s.setLink (countedLink s)).setMsg s.msg.dropHead) (l := missedLink s) rfl .txGiveup
  have hslots := latch_slotSide { (s.setLink (countedLink s)).setMsg s.msg.dropHead with link := missedLink s } none
    (lostErrors s) false .txGiveup
  rw [hlink] at hslots
  have hmsg : ((s.setLink (countedLink s)).setMsg s.msg.dropHead |>.latch .txGiveup).msg =
      { s.msg.dropHead with
        replies := ((s.setLink (countedLink s)).setMsg s.msg.dropHead |>.latch .txGiveup).msg.replies } := by
    rcases State.latch_msg ((s.setLink (countedLink s)).setMsg s.msg.dropHead) .txGiveup with h | ⟨-, -, h⟩ <;> rw [h] <;> rfl
  refine Eq.trans ?_ hslots.symm
  rw [frameLost_eq]
  have hassembly : ((s.setLink (countedLink s)).setMsg s.msg.dropHead |>.latch .txGiveup).msg.assembly = s.msg.assembly := by
    rw [hmsg]; rfl
  have herrs : ((s.setLink (countedLink s)).setMsg s.msg.dropHead |>.latch .txGiveup).msg.assemblyErrors =
      s.msg.assemblyErrors := by rw [hmsg]; rfl
  have herrors : lostErrors (((s.setLink (countedLink s)).setMsg s.msg.dropHead).latch .txGiveup |>.setLink
      { countedLink s with output := none, windowClosed := true }) = lostErrors s :=
    lostErrors_congr hassembly herrs
  rw [herrors]
  refine countWait_of_none ?_
  show ((s.setLink (countedLink s)).setMsg s.msg.dropHead |>.latch .txGiveup).msg.wait = none
  rw [hmsg]
  exact hw

/-- A missing frame in LOST_FORWARDING interrupts an attempt. -/
theorem exec_missingFrame_interrupts {s : State} {a : Attempt} (hs : s.Ready) (hrole : s.link.role = .follower)
    (hstate : s.link.state = .lostForwarding) (hcount : s.link.runCount ≠ 15) (ha : s.msg.attempt = some a)
    (hw : s.msg.wait = none) :
    exec .missingFrame s =
      .next
        (if s.paramNat .retryLimit ≤ s.msg.attempts + 1 then
          State.latch { s with link := missedLink s, msg := droppedMsg s } .txGiveup
        else if s.msg.lastTry then { s with link := missedLink s, msg := droppedMsg s }
        else
          { s with
            link := missedLink s
            msg := { s.msg with
              assembly := none, assemblyErrors := lostErrors s, attempt := none, slotFree := false
              attempts := s.msg.attempts + 1
              wait := some { elapsed := min (8 * s.link.address.getD 33) 1, total := 8 * s.link.address.getD 33 } } }) := by
  have hbad : s.countBad = s.setLink (countedLink s) := by
    rw [countBad_eq (.inr (by rw [hstate]; decide)), badCounted_of_ne hcount]
  have hattempt : (s.setLink (countedLink s)).msg.attempt ≠ none := by
    show s.msg.attempt ≠ none
    rw [ha]; exact Option.some_ne_none a
  rw [exec_missingFrame_follower hs hrole, followerBad_lostForwarding hstate, hbad, loseAttempt_link]
  by_cases hlimit : s.paramNat .retryLimit ≤ s.msg.attempts + 1
  · rw [if_pos hlimit, loseAttempt_gives_up (s := s.setLink (countedLink s)) hattempt hlimit, ← frameLost_gives_up hw]
    rfl
  rw [if_neg hlimit]
  cases hlast : s.msg.lastTry with
  | true =>
    rw [loseAttempt_last (s := s.setLink (countedLink s)) hattempt (Nat.not_le.mp hlimit) hlast, if_pos rfl, frameLost_eq,
      countWait_of_none]
    · rfl
    · exact hw
  | false =>
    rw [loseAttempt_waits (s := s.setLink (countedLink s)) hattempt (Nat.not_le.mp hlimit) hlast,
      if_neg Bool.false_ne_true, frameLost_eq, countWait_of_wait rfl, ← hlast]
    rfl

/-! ## An attempt that meets a foreign byte (R31, R32) -/

/-- A message unit with a frame time of its wait counted. -/
def waitCounted (m : MsgUnit) : MsgUnit :=
  { m with wait := m.wait.map fun w => { w with elapsed := min w.total (w.elapsed + 1) } }

theorem countWait_msg_eq (s : State) : s.countWait.msg = waitCounted s.msg := by
  cases h : s.msg.wait with
  | none => rw [countWait_of_none h, waitCounted, h, Option.map_none, ← h]
  | some w => rw [countWait_of_wait h, waitCounted, h, Option.map_some]; rfl

/-- What a taken slot's frame leaves of the message unit: the attempt is lost. -/
theorem followerGood_taken_msg {s : State} (h : s.link.state ≠ .lostOriginating) {f : LinkFrame} (htag : f.tag ≠ .idle)
    (sync : Nat) :
    (s.followerGood f sync).msg =
      waitCounted { (listened s f sync).loseAttempt.msg with slotFree := freesNext f.tag } := by
  rw [followerGood_eq h, countWait_msg_eq, forward_taken _ htag]
  rfl

/-- What an IDLE slot's frame leaves of the message unit: what it supplies has left. -/
theorem followerGood_idle_msg {s : State} (h : s.link.state ≠ .lostOriginating) {f : LinkFrame} (htag : f.tag = .idle)
    (sync : Nat) :
    (s.followerGood f sync).msg =
      waitCounted { ((listened s f sync).supplySlot (listened s f sync).msg.slotFree).2.msg with
        slotFree := freesNext f.tag } := by
  rw [followerGood_eq h, countWait_msg_eq, forward_idle _ htag]
  rfl

theorem followerGood_latched {s : State} (h : s.link.state ≠ .lostOriginating) {f : LinkFrame} (htag : f.tag ≠ .idle)
    (sync : Nat) (x : Flag) :
    (s.followerGood f sync).latchedFlag x = (listened s f sync).loseAttempt.latchedFlag x := by
  rw [followerGood_eq h, State.latchedFlag, finished_events, forward_taken _ htag]
  rfl

theorem followerGood_taken_address {s : State} (h : s.link.state ≠ .lostOriginating) {f : LinkFrame}
    (htag : f.tag ≠ .idle) (sync : Nat) : (s.followerGood f sync).link.address = (listened s f sync).link.address := by
  rw [followerGood_link h, forward_taken_link _ htag]

/-- Dropping the head of a queue that grew keeps what stood behind it. -/
theorem prefix_tail_append {rest : List OutMsg} {m : OutMsg} {queue ns : List OutMsg} (h : queue = m :: rest) :
    rest <+: (queue ++ ns).tail := by
  rw [h]
  exact List.prefix_append rest ns

theorem supplySlot_wait (s : State) (mayBegin : Bool) : (s.supplySlot mayBegin).2.msg.wait = s.msg.wait := by
  have hwrite : ∀ a : Attempt, (s.writeSlot a).2.msg.wait = s.msg.wait := fun a => by
    obtain ⟨slots, e⟩ := a
    match slots with
    | [] => rfl
    | [x] => cases e <;> rfl
    | x :: y :: rest => rfl
  cases ha : s.msg.attempt with
  | some a => rw [supplySlot_attempt ha]; exact hwrite a
  | none =>
    by_cases hq : mayBegin = false ∨ s.msg.wait ≠ none ∨ s.msg.replies = []
    · rw [supplySlot_quiet ha hq]
    · simp only [not_or, Bool.not_eq_false, not_not] at hq
      obtain ⟨rfl, hw, hr⟩ := hq
      obtain ⟨m, rest, hr⟩ := List.exists_cons_of_ne_nil hr
      rw [supplySlot_begins ha hw hr]; rfl

theorem frameLost_wait (s : State) :
    (frameLost s).msg.wait = s.msg.wait.map fun w => { w with elapsed := min w.total (w.elapsed + 1) } := by
  rw [frameLost_eq, countWait_msg_eq]
  rfl

/-- Settles O11: the interruption by a missing frame, the loss at a foreign byte, and the wait's frame times. -/
theorem lostAttemptWaits : Obligations.LostAttemptWaits := by
  refine ⟨fun s a hs hrole hstate hcount ha hw => exec_missingFrame_interrupts hs hrole hstate hcount ha hw,
    fun s f sync hs hrole hstate hf hsync => ?good, fun s w => ⟨fun hs hrole ha hw => ?missing, fun hp hw hover => ?ends⟩⟩
  case good =>
    have hstate' : s.link.state ≠ .lostOriginating := by rcases hstate with h | h <;> rw [h] <;> decide
    have hread := slotRead_listened hrole f sync
    obtain ⟨hattempt, hwait, -⟩ := listened_msg hrole f sync
    have hattempts : (listened s f sync).msg.attempts = s.msg.attempts := by rw [hread.msg]
    have hlast : (listened s f sync).msg.lastTry = s.msg.lastTry := by rw [hread.msg]
    obtain ⟨ns, hreplies, -⟩ := hread.noticed
    refine ⟨_, exec_frameReceived_good hs hrole hf hsync, fun a htag ha hw => ?lost, fun w ha hw => ?counts⟩
    case lost =>
      have hne : (listened s f sync).msg.attempt ≠ none := by rw [hattempt, ha]; exact Option.some_ne_none a
      have hmsg := followerGood_taken_msg hstate' htag sync
      have hlatched := followerGood_latched hstate' htag sync .txGiveup
      rw [followerGood_taken_address hstate' htag]
      refine ⟨?_, ?_, fun hlimit => ?_, fun hlimit hl => ?_, fun hlimit hl => ?_⟩
      · rw [hmsg]; exact loseAttempt_attempt _
      · rw [followerGood_link hstate', forward_taken_link _ htag]
        rfl
      · have hlose := loseAttempt_gives_up hne (by rw [hattempts, hread.retries]; exact hlimit)
        obtain ⟨ms, hmore, -⟩ := noticed_latch ((listened s f sync).setMsg (listened s f sync).msg.dropHead) .txGiveup
        have hleft := latch_msg_eq ((listened s f sync).setMsg (listened s f sync).msg.dropHead) .txGiveup
        rw [hmsg, hlatched, hlose, hleft]
        refine ⟨rfl, ?_, ?_, fun m rest hr => ?_⟩
        · show (listened s f sync).msg.wait.map _ = none
          rw [hwait, hw]
          rfl
        · rw [latchedFlag_latch, decide_eq_true rfl, Bool.or_true]
        · show rest <+: (State.latch _ _).msg.replies
          rw [hmore]
          exact (prefix_tail_append hr).trans (by rw [← hreplies]; exact List.prefix_append _ ms)
      · have hlose := loseAttempt_last hne (by rw [hattempts, hread.retries]; exact hlimit) (hlast.trans hl)
        rw [hmsg, hlatched, hlose]
        refine ⟨rfl, ?_, hread.giveup, fun m rest hr => ?_⟩
        · show (listened s f sync).msg.wait.map _ = none
          rw [hwait, hw]
          rfl
        · show rest <+: (listened s f sync).msg.replies.tail
          rw [hreplies]
          exact prefix_tail_append hr
      · have hlose := loseAttempt_waits hne (by rw [hattempts, hread.retries]; exact hlimit) (hlast.trans hl)
        rw [hmsg, hlose]
        exact ⟨congrArg (· + 1) hattempts, ⟨ns, hreplies.symm⟩, rfl⟩
    case counts =>
      have hnone := hattempt.trans ha
      have hwait' : (s.followerGood f sync).msg.wait =
          (s.msg.wait.map fun w => { w with elapsed := min w.total (w.elapsed + 1) }) := by
        by_cases htag : f.tag = .idle
        · rw [followerGood_idle_msg hstate' htag, ← hwait, ← supplySlot_wait _ (listened s f sync).msg.slotFree]
          rfl
        · rw [followerGood_taken_msg hstate' htag, loseAttempt_of_none hnone, ← hwait]
          rfl
      rw [hwait', hw]
      rfl
  case missing =>
    refine ⟨_, exec_missingFrame_follower hs hrole, ?_⟩
    have hcounted : (s.followerBad none 0).msg.wait =
        s.msg.wait.map fun w => { w with elapsed := min w.total (w.elapsed + 1) } := by
      cases hstate : s.link.state with
      | acquiring => rw [followerBad_elsewhere (.inl hstate), frameLost_wait, (unread_countBad s).msg]
      | lostOriginating => rw [followerBad_elsewhere (.inr hstate), frameLost_wait, (unread_countBad s).msg]
      | linked =>
        have hunread := (unread_countBad s).trans (unread_handOnBad s.countBad s.link.expected)
        have hnone : (s.countBad.handOnBad s.link.expected).msg.attempt = none := by rw [hunread.msg]; exact ha
        rw [followerBad_linked hstate, frameLost_wait, loseAttempt_of_none hnone]
        show (s.countBad.handOnBad s.link.expected).msg.wait.map _ = _
        rw [hunread.msg]
      | lostForwarding =>
        have hunread := unread_countBad s
        have hnone : s.countBad.msg.attempt = none := by rw [hunread.msg]; exact ha
        rw [followerBad_lostForwarding hstate, frameLost_wait, loseAttempt_of_none hnone]
        show s.countBad.msg.wait.map _ = _
        rw [hunread.msg]
    rw [hcounted, hw]
    rfl
  case ends =>
    rw [exec_retryWaitEnd, whenPowered_of_powered hp, State.endWait,
      if_pos (by rw [State.waitOver, hw]; exact decide_eq_true hover)]
    rfl

end Sys2Proof.Proofs.Retries
end

