-- ==== Sys2Proof/Proofs/Receiving.lean ====
section
/-!
Good, bad and missing frames at a follower's receiver (spec/01 sections 1.3 and 1.5, spec/09 sections 9.2 and 9.3).
-/

namespace Sys2Proof.Proofs.Receiving

open Sys2Proof Sys2Proof.Machine Sys2Proof.Proofs.Commands Sys2Proof.Proofs.Events Sys2Proof.Proofs.Lasting
open Sys2Proof.Proofs.Detection Sys2Proof.Proofs.Frames Sys2Proof.Proofs.Slots Sys2Proof.Proofs.Forwarding
open Sys2Proof.Proofs.Retries Sys2Proof.Proofs.Output

-- One declaration after another, so that the checks of many short proofs do not wait for each other in threads.
set_option Elab.async false

/-! ## A pair written (R168, R169) -/

theorem writePair_sound (s : State) (p : Pair) :
    (s.writePair p).sound =
      if 8192 ≤ s.sound.fifo.length then { s.sound with slips := s.sound.slips + 1 }
      else if s.sound.reader = .filling ∧ s.sound.delay ≤ s.sound.fifo.length + 1 then
        { s.sound with
          fifo := s.sound.fifo ++ [p], reader := .playing
          reasons := { s.sound.reasons with fill := false, underflow := false } }
      else { s.sound with fifo := s.sound.fifo ++ [p] } := by
  unfold State.writePair State.endFilling
  by_cases hfull : 8192 ≤ s.sound.fifo.length
  · rw [if_pos hfull]
    refine (congrArg State.sound (if_pos hfull)).trans (slip_sound s)
  · rw [if_neg hfull]
    refine (congrArg State.sound (if_neg hfull)).trans ?_
    have hlen : (s.sound.fifo ++ [p]).length = s.sound.fifo.length + 1 := by simp
    by_cases hstarts : s.sound.reader = .filling ∧ s.sound.delay ≤ s.sound.fifo.length + 1
    · rw [if_pos hstarts]
      exact congrArg State.sound (if_pos ⟨hstarts.1, by show _ ≤ (_ ++ [p]).length; rw [hlen]; exact hstarts.2,
        by show 1 ≤ (_ ++ [p]).length; rw [hlen]; omega⟩)
    · rw [if_neg hstarts]
      refine congrArg State.sound (if_neg fun h => hstarts ⟨h.1, ?_⟩)
      rw [← hlen]; exact h.2.1

theorem writePair_wrote (s : State) (p : Pair) : Sound.wrote s.sound (s.writePair p).sound p := by
  rw [writePair_sound, Sound.wrote]
  by_cases hfull : 8192 ≤ s.sound.fifo.length
  · have hroom : ¬ s.sound.fifo.length < 8192 := by omega
    simp only [if_pos hfull, hroom, false_and, if_false, and_self]
  · have hroom : s.sound.fifo.length < 8192 := by omega
    by_cases hst : s.sound.reader = .filling ∧ s.sound.delay ≤ s.sound.fifo.length + 1
    · simp only [if_neg hfull, hroom, hst, and_self, if_true]
    · simp only [if_neg hfull, hroom, hst, true_and, if_true, if_false, and_self]

/-- A pair written leaves the mute reasons that are not the FIFO's. -/
theorem writePair_reasons (s : State) (p : Pair) :
    (s.writePair p).sound.reasons =
      { s.sound.reasons with
        fill := (s.writePair p).sound.reasons.fill, underflow := (s.writePair p).sound.reasons.underflow } := by
  rw [writePair_sound]
  split
  · rfl
  · split <;> rfl

theorem writePair_slips (s : State) (p : Pair) (h : 8192 ≤ s.sound.fifo.length) :
    (s.writePair p).latchedFlag .audioSlip = true := by
  rw [State.writePair, if_pos (by exact h)]
  exact slip_latches s

/-! ## A bad or missing frame in LINKED (R4, R6) -/

theorem badCounted_frame (s : State) :
    badCounted s =
      { s with
        link := countedLink s, sound := (badCounted s).sound, events := (badCounted s).events
        msg := (badCounted s).msg } := by
  unfold badCounted
  dsimp only
  split
  · rw [State.latch_frame]
    split <;> rfl
  · rfl

/-- The sound path after a bad frame has been counted at a follower. -/
theorem badCounted_sound {s : State} (h : s.link.role = .follower) :
    (badCounted s).sound =
      { s.sound with reasons := { s.sound.reasons with
          badRun := if s.link.runCount = 15 then true else s.sound.reasons.badRun } } := by
  unfold badCounted
  dsimp only
  rw [is_follower h]
  by_cases hcount : s.link.runCount = 15
  · rw [if_pos (by omega), if_pos hcount, State.latch_frame]
    rfl
  · rw [if_neg (by omega), if_neg hcount]
    rfl

theorem badCounted_latches {s : State} (h : s.link.runCount = 15) : (badCounted s).latchedFlag .badFrames = true := by
  unfold badCounted
  dsimp only
  rw [if_pos (by omega), latchedFlag_latch, decide_eq_true rfl, Bool.or_true]

/-- The state with a bad frame handed on. -/
def badHeard (s : State) : State := (badCounted s).handOnBad s.link.expected

/-- The state with the last pair repeated. -/
def badWritten (s : State) : State := (badCounted s).writePair s.link.lastPair

theorem badWritten_frame (s : State) :
    badWritten s =
      { s with
        link := countedLink s, sound := (badWritten s).sound, events := (badWritten s).events
        msg := (badWritten s).msg } :=
  ((badCounted s).writePair_frame s.link.lastPair).trans
    (congrArg (fun t : State => { t with
      sound := (badWritten s).sound, events := (badWritten s).events, msg := (badWritten s).msg }) (badCounted_frame s))

theorem badWritten_detection (s : State) : SameDetection s (badWritten s) := by
  rw [badWritten_frame]
  exact ⟨rfl, rfl, rfl⟩

theorem badHeard_of_expected {s : State} {n : Nat} (h : s.link.expected = some n) :
    badHeard s = (badWritten s).handFrame n 0 true false := by
  have hlast : (badCounted s).link.lastPair = s.link.lastPair := by rw [badCounted_frame]
  unfold badHeard State.handOnBad
  rw [h, hlast]
  rfl

theorem badHeard_of_none {s : State} (h : s.link.expected = none) : badHeard s = badWritten s := by
  have hlast : (badCounted s).link.lastPair = s.link.lastPair := by rw [badCounted_frame]
  unfold badHeard State.handOnBad
  rw [h, hlast]
  rfl

theorem badHeard_frame {s : State} (hc : s.cue.calm = true) :
    badHeard s =
      { s with
        link := countedLink s, sound := (badWritten s).sound, events := (badWritten s).events
        msg := (badWritten s).msg, det := (badHeard s).det, cue := (badHeard s).cue } := by
  obtain ⟨hdet, hcue, -⟩ := badWritten_detection s
  have hcw : (badWritten s).cue.calm = true := by rw [hcue]; exact hc
  have hw := badWritten_frame s
  cases hn : s.link.expected with
  | none =>
    rw [badHeard_of_none hn, hdet, hcue]
    exact hw
  | some n =>
    rw [badHeard_of_expected hn]
    exact (State.handFrame_of_calm hcw n 0 true false nofun).trans (congrArg (fun t : State => { t with
      det := ((badWritten s).handFrame n 0 true false).det, cue := ((badWritten s).handFrame n 0 true false).cue }) hw)

theorem badHeard_detection {s : State} (hc : s.cue.calm = true) :
    (∀ n, s.link.expected = some n →
      (badHeard s).det = (s.handFrame n 0 true false).det ∧ (badHeard s).cue = (s.handFrame n 0 true false).cue) ∧
      (s.link.expected = none → (badHeard s).det = s.det ∧ (badHeard s).cue = s.cue) := by
  have hd := badWritten_detection s
  refine ⟨fun n hn => ?_, fun hn => ?_⟩
  · rw [badHeard_of_expected hn]
    exact handFrame_congr hd hc n 0 true false nofun
  · rw [badHeard_of_none hn]
    exact ⟨hd.1, hd.2.1⟩

/-! ## The end of a frame that was lost -/

/-- The state with a bad frame forwarded, its sync realigning the reckoning, or a missing frame's window closed. -/
def windowJudged (s : State) (f : Option LinkFrame) (sync : Option Nat) : State :=
  s.setLink { s.link.windowPast sync with output := f }

/-- A lost slot's frame changes the link, the message unit and the latched set. -/
theorem frameLost_loseAttempt (s : State) (f : Option LinkFrame) (sync : Option Nat) :
    frameLost (windowJudged s.loseAttempt f sync) =
      { s with
        link := { s.link.windowPast sync with output := f, tracking := none }
        msg := waitCounted { s.loseAttempt.msg with
          assembly := none, assemblyErrors := lostErrors s.loseAttempt, slotFree := false }
        events := s.loseAttempt.events } := by
  have hlose := s.loseAttempt_frame
  have hcount := State.countWait_frame (slotSide { s.loseAttempt with
    link := { s.link.windowPast sync with output := f, tracking := none } } none (lostErrors s.loseAttempt) false)
  rw [countWait_msg_eq] at hcount
  rw [windowJudged, loseAttempt_link, frameLost_eq]
  refine hcount.trans ?_
  exact congrArg (fun t : State => ({ t with
    link := { s.link.windowPast sync with output := f, tracking := none }
    msg := waitCounted { s.loseAttempt.msg with
      assembly := none, assemblyErrors := lostErrors s.loseAttempt, slotFree := false } } : State)) hlose

theorem loseAttempt_assembly (s : State) :
    s.loseAttempt.msg.assembly = s.msg.assembly ∧ s.loseAttempt.msg.assemblyErrors = s.msg.assemblyErrors := by
  by_cases ha : s.msg.attempt = none
  · rw [loseAttempt_of_none ha]; exact ⟨rfl, rfl⟩
  by_cases hlimit : s.paramNat .retryLimit ≤ s.msg.attempts + 1
  · rw [loseAttempt_gives_up ha hlimit, latch_msg_eq]; exact ⟨rfl, rfl⟩
  cases hl : s.msg.lastTry with
  | true => rw [loseAttempt_last ha (Nat.not_le.mp hlimit) hl]; exact ⟨rfl, rfl⟩
  | false => rw [loseAttempt_waits ha (Nat.not_le.mp hlimit) hl]; exact ⟨rfl, rfl⟩

theorem loseAttempt_latched (s : State) (f : Flag) (h : s.latchedFlag f = true) : s.loseAttempt.latchedFlag f = true := by
  by_cases ha : s.msg.attempt = none
  · rw [loseAttempt_of_none ha]; exact h
  by_cases hlimit : s.paramNat .retryLimit ≤ s.msg.attempts + 1
  · rw [loseAttempt_gives_up ha hlimit, latchedFlag_latch]
    exact Bool.or_eq_true_iff.mpr (.inl h)
  cases hl : s.msg.lastTry with
  | true => rw [loseAttempt_last ha (Nat.not_le.mp hlimit) hl]; exact h
  | false => rw [loseAttempt_waits ha (Nat.not_le.mp hlimit) hl]; exact h

/-- A bad or missing frame at a follower in LINKED. -/
theorem followerBad_linked_eq {s : State} (h : s.link.state = .linked) (f : Option LinkFrame) (sync : Nat) :
    s.followerBad f sync = frameLost (windowJudged (badHeard s).loseAttempt f (f.map fun _ => sync)) := by
  rw [followerBad_linked h, countBad_eq (.inr (by rw [h]; decide))]
  rfl

theorem exec_frameReceived_bad {s : State} {f : LinkFrame} {sync : Nat} (hs : s.Ready) (hrole : s.link.role = .follower)
    (hf : frameGood f = false) (hsync : s.syncLate sync = false) :
    exec (.frameReceived f sync) s = .next (s.followerBad (some f) sync) := by
  rw [exec_frameReceived, whenSettled_of_ready hs, State.frameArrives_of_in_window hsync, State.receive,
    not_master hrole, if_neg Bool.false_ne_true, if_neg (ne_true_of_eq_false hf)]

/-- Frames of two steps one after the other, the second in three of the blocks of the first. -/
theorem framed_through {s u t : State}
    (hu : u = { s with link := u.link, msg := u.msg, det := u.det, cue := u.cue, sound := u.sound, events := u.events })
    (ht : t = { u with link := t.link, msg := t.msg, events := t.events }) :
    t = { s with link := t.link, msg := t.msg, det := t.det, cue := t.cue, sound := t.sound, events := t.events } := by
  cases s; cases u; cases t
  simp only [State.mk.injEq] at hu ht ⊢
  obtain ⟨-, -, -, -, hqueue, htray, hlamp, hmon, -, htape, hremote, -, hstore, hparams, hpowered, hdrawn, hpending⟩ := hu
  obtain ⟨-, -, -, -, hqueue', htray', hlamp', hmon', -, htape', hremote', -, hstore', hparams', hpowered', hdrawn',
    hpending'⟩ := ht
  exact ⟨trivial, trivial, trivial, trivial, hqueue'.trans hqueue, htray'.trans htray, hlamp'.trans hlamp,
    hmon'.trans hmon, trivial, htape'.trans htape, hremote'.trans hremote, trivial, hstore'.trans hstore,
    hparams'.trans hparams, hpowered'.trans hpowered, hdrawn'.trans hdrawn, hpending'.trans hpending⟩

/-- What a bad or missing frame in LINKED leaves. -/
theorem badFrame_linked {s : State} (hs : s.Ready) (hrole : s.link.role = .follower) (hstate : s.link.state = .linked)
    (f : Option LinkFrame) (sync : Nat) {t : State} (ht : t = s.followerBad f sync) :
    t.link = { countedLink s with
        output := f, tracking := none, windowClosed := f.isNone
        reckoning := (f.map fun _ => some (sync % 128)).getD s.link.reckoning } ∧
      Sound.wrote s.sound t.sound s.link.lastPair ∧
      (s.link.runCount = 15 → t.sound.reasons.badRun = true ∧ t.latchedFlag .badFrames = true) ∧
      t.det = (badHeard s).det ∧ t.cue = (badHeard s).cue ∧
      t.msg.assembly = none ∧ t.msg.slotFree = false ∧ t.msg.assemblyErrors = lostErrors s ∧
      t = { s with
        link := t.link, msg := t.msg, det := t.det, cue := t.cue, sound := t.sound, events := t.events } := by
  have hc := State.calm_of_quiet hs.2
  have hframe := badHeard_frame hc
  have hend := frameLost_loseAttempt (badHeard s) f (f.map fun _ => sync)
  rw [← followerBad_linked_eq hstate, ← ht] at hend
  have hlink : (badHeard s).link = countedLink s := by rw [hframe]
  have hsound : (badHeard s).sound = (badWritten s).sound := by rw [hframe]
  have hunread : Unread s (badHeard s) := by
    have h := (unread_countBad s).trans (unread_handOnBad s.countBad s.link.expected)
    rw [countBad_eq (.inr (by rw [hstate]; decide))] at h
    exact h
  have hbase := badCounted_sound hrole
  refine ⟨?_, ?_, fun hcount => ⟨?_, ?_⟩, by rw [hend], by rw [hend], by rw [hend]; rfl, by rw [hend]; rfl, ?_, ?_⟩
  · rw [hend, hlink]
    cases f <;> rfl
  · have hwrote := writePair_wrote (badCounted s) s.link.lastPair
    rw [hbase] at hwrote
    rw [hend, hsound]
    exact hwrote
  · have hreasons := writePair_reasons (badCounted s) s.link.lastPair
    rw [hend, hsound, badWritten, hreasons, hbase, if_pos hcount]
  · have hlatched : (badHeard s).loseAttempt.latchedFlag .badFrames = true := by
      refine loseAttempt_latched _ _ ?_
      have h : (badCounted s).latchedFlag .badFrames = true := badCounted_latches hcount
      exact (unread_handOnBad (badCounted s) s.link.expected).latched _ h
    rw [hend]
    exact hlatched
  · obtain ⟨hasm, herr⟩ := loseAttempt_assembly (badHeard s)
    rw [hend]
    exact lostErrors_congr (hasm.trans (by rw [hunread.msg])) (herr.trans (by rw [hunread.msg]))
  · exact framed_through (u := badHeard s) (by rw [hframe]) (by rw [hend])

end Sys2Proof.Proofs.Receiving
end

