-- ==== Sys2Proof/Proofs/Blocks.lean ====
section
/-!
Blocks of the cue detector, damaged and clean (spec/04 sections 4.2 to 4.6), and a frame missing at the last place of
one.
-/

namespace Sys2Proof.Proofs.Blocks

open Sys2Proof Sys2Proof.Machine Sys2Proof.Proofs.Detection Sys2Proof.Proofs.Retries Sys2Proof.Proofs.Receiving

-- One declaration after another, so that the checks of many short proofs do not wait for each other in threads.
set_option Elab.async false

/-- A block with a damaged frame is judged by the verdict before it (R73). -/
theorem verdictFor_damaged (s : State) {d : Detector} (h : d.damaged = true) :
    verdictFor s d = if d.prevDamaged then none else d.prevVerdict :=
  if_pos h

/-- A bad frame at the last place of the block in progress ends it damaged (R61, R72). -/
theorem handFrame_ends_damaged {s : State} {b n : Nat} (hc : s.cue.calm = true) (h : s.det.state = .inBlock b)
    (hn : n % 160 = 159) (x : Sample) :
    s.handFrame n x true false =
      blockEnded s ({ s.det with damaged := true }.takeSample x) := by
  rw [handFrame_joins hc h (.inl rfl), Bool.or_true, Bool.or_false]
  exact if_pos hn

/-- A power is the quotient, kept between 0 and the largest a word holds (R67). -/
theorem tonePower_eq (x : Tone) (f : Filter) :
    (tonePower x f : Int) =
      max 0 (min 4294967295
        ((f.latest * f.latest + f.before * f.before - toneCoefficient x * f.latest / 16384 * f.before) / 65536)) :=
  Int.toNat_of_nonneg (le_max_left _ _)

/-- Settles O26: by the state of the detector that takes the frame. -/
theorem damagedBlockHoldsVerdict : Obligations.DamagedBlockHoldsVerdict := by
  unfold Obligations.DamagedBlockHoldsVerdict
  refine ⟨fun s b n hs hrole hlinked hdet hn hlast => ?_, fun s n x bad broke hs => ?_, takeSample_eq, fun x f => ?_⟩
  · have hc := State.calm_of_quiet hs.2
    obtain ⟨-, -, -, hd, hcue, -⟩ := badFrame_linked hs hrole hlinked none 0 rfl
    obtain ⟨hd', hcue'⟩ := (badHeard_detection hc).1 n hn
    refine ⟨_, exec_missingFrame_follower hs hrole, ?_⟩
    rw [hd, hcue, hd', hcue', handFrame_ends_damaged hc hdet hlast]
    have hv : verdictFor s ({ s.det with damaged := true }.takeSample 0) =
        if s.det.prevDamaged then none else s.det.prevVerdict := verdictFor_damaged s rfl
    exact ⟨rfl, rfl, hv, congrArg (s.cue.verdict _) hv⟩
  · have hc := State.calm_of_quiet hs.2
    refine ⟨fun h hn => handFrame_waiting h hn x bad broke, fun h hn => handFrame_begins hc h hn x bad broke,
      fun h => handFrame_boundary hc h n x bad broke, fun b h hb => handFrame_joins hc h hb x bad,
      fun b h hbroke hb hn => ?_⟩
    subst hbroke
    have hv : verdictFor s { s.det with damaged := true } = if s.det.prevDamaged then none else s.det.prevVerdict :=
      verdictFor_damaged s rfl
    rw [handFrame_breaks hc h hb hn x bad]
    simp only [blockEnded, hv]
    rfl
  · rw [tonePower_eq]
    cases x <;> rfl

end Sys2Proof.Proofs.Blocks
end

