-- ==== Sys2Proof/Proofs/Window.lean ====
section
/-!
A receive window that has closed stays closed through whatever falls due (R3; log 23), and a bad, a missing and a late
frame in LINKED.
-/

namespace Sys2Proof.Proofs.Window

open Sys2Proof Sys2Proof.Machine Sys2Proof.Proofs.Commands Sys2Proof.Proofs.Lasting Sys2Proof.Proofs.Detection
open Sys2Proof.Proofs.Frames Sys2Proof.Proofs.Forwarding Sys2Proof.Proofs.Retries Sys2Proof.Proofs.Receiving

-- One declaration after another, so that the checks of many short proofs do not wait for each other in threads.
set_option Elab.async false

/-! ## The window through the due steps -/

/-- The receive window is as it was. -/
structure Windowed (s t : State) : Prop where
  closed : t.link.windowClosed = s.link.windowClosed := by rfl

theorem Windowed.refl (s : State) : Windowed s s := {}

theorem Windowed.trans {s t u : State} (h : Windowed s t) (k : Windowed t u) : Windowed s u :=
  ⟨k.closed.trans h.closed⟩

theorem Windowed.ite {s t u : State} {c : Prop} [Decidable c] (h : c → Windowed s t) (k : ¬ c → Windowed s u) :
    Windowed s (if c then t else u) := by
  split
  · exact h ‹_›
  · exact k ‹_›

theorem Windowed.of_through {s t : State} (h : Through s t) : Windowed s t := ⟨by rw [h.link]⟩

theorem windowed_latch (s : State) (f : Flag) : Windowed s (s.latch f) := ⟨by rw [State.latch_frame]⟩

theorem windowed_lossTimeout (s : State) : Windowed s s.lossTimeout := by
  have hengine : Windowed s s.engineDue := .of_through (through_engineDue s)
  refine .ite (fun _ => .ite (fun _ => ?_) fun _ => .ite (fun _ => {}) fun _ => {}) fun _ => .refl s
  exact (hengine.trans {}).trans (windowed_latch _ _)

theorem windowed_ringOpens (s : State) : Windowed s s.ringOpens :=
  .ite (fun _ => Windowed.trans {} (windowed_latch _ _)) fun _ => .refl s

theorem windowed_enumExpires (s : State) : Windowed s s.enumExpires :=
  .ite (fun _ => .ite (fun _ => Windowed.trans {} (windowed_latch _ _)) fun _ => {}) fun _ => .refl s

theorem through_beginDissolve (s : State) (target duration : Nat) (loaded : Bool) :
    Through s (s.beginDissolve target duration loaded) := .ite (fun _ => through_setLamp s _) fun _ => {}

theorem through_requestSwap (s : State) : Through s s.requestSwap :=
  .ite (fun _ => .ite (fun _ => {}) fun _ => through_startSwap s) fun _ => .refl s

theorem through_lampFailure (s : State) : Through s s.lampFailure := by
  refine .ite (fun _ => ?_) fun _ => .refl s
  unfold State.lampFails
  have hdark : ∀ t : State, Through t ((t.latch .lampFailed).lampFall s.allowed) :=
    fun t => (through_latch t _).trans (through_lampFall _ _)
  exact .ite (fun _ => (Through.trans {} (hdark _)).trans (through_requestSwap _)) fun _ => Through.trans {} (hdark _)

theorem through_litMinute (s : State) : Through s s.litMinute :=
  .ite (fun _ => .ite (fun _ => Through.trans {} (through_requestLampWrite _ _)) fun _ => {}) fun _ => .refl s

theorem through_swapTimeout (s : State) : Through s s.swapTimeout :=
  .ite (fun _ => (Through.trans {} (through_latch _ _)).trans (through_offer _)) fun _ => .refl s

theorem through_fanStalls (s : State) : Through s s.fanStalls :=
  (Through.trans {} (through_latch _ _)).trans (through_lampFall _ _)

theorem through_jam (s : State) : Through s s.jam :=
  ((Through.trans {} (through_latch _ _)).trans (through_latchIf _ _ _)).trans (through_trayRests _)

theorem through_beginShutterOpen (s : State) : Through s s.beginShutterOpen :=
  Through.switched {} (through_endMotion _)

theorem through_settleEnd (s : State) : Through s s.settleEnd :=
  .ite (fun _ => .ite (fun _ => through_endMotion s) fun _ => through_boundary s _ (through_beginShutterOpen s))
    fun _ => .refl s

theorem through_pauseExpires (s : State) : Through s s.pauseExpires :=
  .ite (fun _ => Through.trans {} (through_offer _)) fun _ => .refl s

theorem windowed_placeOrDiscard (s : State) (a : Action) (source : ActionSource) :
    Windowed s (s.placeOrDiscard a source) :=
  .ite (fun _ => .of_through (through_place s _ _)) fun _ => windowed_latch s _

theorem windowed_sendRelay (s : State) (a : Action) (scope : KeyScope) : Windowed s (s.sendRelay a scope) :=
  .ite (fun _ => {}) fun _ => windowed_latch s _

theorem windowed_keyScope (s : State) (a : Action) (scope : KeyScope) : Windowed s (s.keyScope a scope) := by
  cases scope with
  | here => exact windowed_placeOrDiscard s a .key
  | relay => exact .ite (fun _ => {}) fun _ => windowed_sendRelay s a .relay
  | both => exact .ite (fun _ => {}) fun _ => (windowed_placeOrDiscard s a .key).trans (windowed_sendRelay _ a .both)

theorem windowed_keyRepeats (s : State) : Windowed s s.keyRepeats := by
  unfold State.keyRepeats
  split
  · refine .ite (fun _ => .ite (fun _ => {}) fun _ => ?_) fun _ => .refl s
    split
    · refine .ite (fun _ => ?_) fun _ => {}
      exact Windowed.trans {} (.ite (fun _ => {}) fun _ => windowed_keyScope _ _ _)
    · exact {}
  · exact .refl s

theorem windowed_relayExpires (s : State) : Windowed s s.relayExpires := by
  unfold State.relayExpires
  split
  · exact .ite (fun _ => Windowed.trans {} (windowed_latch _ _)) fun _ => .refl s
  · exact .refl s

theorem windowed_latchRaw (s : State) : Windowed s s.latchRaw := by
  unfold State.latchRaw
  suffices h : ∀ (flags : List Flag) (t : State),
      Windowed t (flags.foldl (fun t f => if s.rawFlag f then t.latch f else t) t) from h _ _
  intro flags
  induction flags with
  | nil => exact .refl
  | cons f flags ih => exact fun t => (Windowed.ite (fun _ => windowed_latch t f) fun _ => .refl t).trans (ih _)

theorem through_senseCheck (s : State) : Through s s.senseCheck :=
  .ite (fun _ => .ite (fun _ => Through.trans {} (through_endMotion _)) fun _ => {}) fun _ => .refl s

theorem windowed_linkReset (s : State) (m : Message) : Windowed s (s.linkReset m) := by
  have hrest : ∀ t : State, Windowed t t.latchRaw.senseCheck.moveSwap := fun t =>
    (windowed_latchRaw t).trans (.of_through ((through_senseCheck _).trans (through_moveSwap _)))
  have hreply : Windowed s (if m.needsReply then s.restarted.enqueueReply (replyTo m (.good [])) else s.restarted) :=
    .ite (fun _ => {}) fun _ => {}
  have hall := hreply.trans (hrest _)
  refine .ite (fun _ => ?_) fun _ => ?_
  · exact hall.trans (.of_through ((Through.trans {} (through_reformDemand _)).trans (through_requestLampWrite _ _)))
  · exact hall.trans (.of_through (through_reformDemand _))

theorem windowed_carryReset (s : State) : Windowed s s.carryReset := by
  unfold State.carryReset
  split
  · exact .ite (fun _ => windowed_linkReset s _) fun _ => .refl s
  · exact .refl s

theorem through_enterUnhomed (s : State) : Through s s.enterUnhomed := Through.trans {} (through_trayRests _)

theorem through_changerStop (s : State) : Through s s.changerStop := by
  have stops (t : Tray) : Through s (s.setTray t) := {}
  unfold State.changerStop
  dsimp only
  split
  case h_6 => exact (stops _).trans (through_endMotion _)
  case h_7 => exact (stops _).trans (through_endMotion _)
  case h_16 => exact Through.trans (t := s.setTray _) {} (through_enterUnhomed _)
  all_goals exact stops _

theorem through_stopAll (s : State) : Through s s.stopAll := Through.trans (t := s.purge) {} (through_changerStop _)

theorem windowed_raiseShowSafe (s : State) : Windowed s s.raiseShowSafe := by
  refine .ite (fun _ => .ite (fun _ => ?_) fun _ => {}) fun _ => .refl s
  exact Windowed.trans {} (.of_through ((through_stopAll _).trans (through_beginDissolve _ _ _ _)))

/-- What falls due leaves the receive window as it is. -/
theorem windowed_settle (s : State) : Windowed s (settle s) := by
  unfold settle
  have hstuck : ∀ t : State, Windowed t t.stuckTone := fun t =>
    .ite (fun _ => .of_through (through_enterStuck t)) fun _ => .refl t
  have hstuckEnd : ∀ t : State, Windowed t t.stuckEnd := fun t => .ite (fun _ => {}) fun _ => .refl t
  have hlink := ((((((Windowed.of_through (through_calibrationEnds s)).trans (hstuck _)).trans (hstuckEnd _)).trans
    (.of_through (through_wordCompletes _))).trans (windowed_lossTimeout _)).trans (windowed_ringOpens _)).trans
    (windowed_raiseShowSafe _)
  have hwait : ∀ t : State, Windowed t t.endWait := fun t => .ite (fun _ => {}) fun _ => .refl t
  have hdissolve : ∀ t : State, Windowed t t.dissolveEnds := fun t => .ite (fun _ => {}) fun _ => .refl t
  have hlamp := (((((hlink.trans (hwait _)).trans (windowed_enumExpires _)).trans (hdissolve _)).trans
    (.of_through (through_lampFailure _))).trans (.of_through (through_litMinute _))).trans
    (.of_through (through_swapTimeout _))
  have hstart : ∀ t : State, Through t t.fanStartTimeout := fun t => .ite (fun _ => through_fanStalls t) fun _ => .refl t
  have hsilent : ∀ t : State, Through t t.fanSupervisionTimeout := fun t =>
    .ite (fun _ => through_fanStalls t) fun _ => .refl t
  have hrests : ∀ t : State, Windowed t t.fanRests := fun t => .ite (fun _ => {}) fun _ => .refl t
  have hrested : ∀ t : State, Windowed t t.fanRestEnds := fun t => .ite (fun _ => {}) fun _ => .refl t
  have hcooled : ∀ t : State, Through t t.cooldownEnds := fun t =>
    .ite (fun _ => (through_reformDemand t).trans (through_lampFall _ _)) fun _ => .refl t
  have hfan := (((((hlamp.trans (.of_through (hstart _))).trans (.of_through (hsilent _))).trans (hrests _)).trans
    (hrested _))).trans (.of_through (hcooled _))
  have hlimit : ∀ t : State, Through t t.phaseLimit := fun t => .ite (fun _ => through_jam t) fun _ => .refl t
  have hseek : ∀ t : State, Through t t.seekExhausted := fun t => .ite (fun _ => through_jam t) fun _ => .refl t
  have htray := hfan.trans (.of_through ((((hlimit _).trans (hseek _)).trans (through_settleEnd _)).trans
    (through_pauseExpires _)))
  have hhold : ∀ t : State, Windowed t t.endHold := fun t => .ite (fun _ => {}) fun _ => .refl t
  exact (((htray.trans (hhold _)).trans (windowed_keyRepeats _)).trans (windowed_relayExpires _)).trans
    (windowed_carryReset _)

/-! ## A missing frame closes the window -/

theorem isMaster_iff {s : State} : s.isMaster = true ↔ s.link.role = .master := decide_eq_true_iff

theorem followerBad_lostForwarding_eq {s : State} (h : s.link.state = .lostForwarding) (f : Option LinkFrame)
    (sync : Nat) :
    s.followerBad f sync = frameLost (windowJudged (badCounted s).loseAttempt f (f.map fun _ => sync)) := by
  rw [followerBad_lostForwarding h, countBad_eq (.inr (by rw [h]; decide))]
  rfl

theorem missed_master {s : State} (h : s.link.role = .master) :
    s.miss.link.windowClosed = true ∧ s.miss.powered = s.powered := by
  have hmiss : s.miss = s.masterBad none := if_pos (isMaster_iff.mpr h)
  rw [hmiss, State.masterBad, countBad_eq (.inl h), State.abandon_frame]
  exact ⟨rfl, by rw [State.setLink, badCounted_frame]⟩

theorem missed_follower {s : State} (hs : s.Ready) (h : s.link.role = .follower)
    (hstate : s.link.state = .linked ∨ s.link.state = .lostForwarding) :
    s.miss.link.windowClosed = true ∧ s.miss.powered = s.powered := by
  have hmiss : s.miss = s.followerBad none 0 := by rw [State.miss, not_master h, if_neg Bool.false_ne_true]
  rw [hmiss]
  rcases hstate with hstate | hstate
  · obtain ⟨hlink, -, -, -, -, -, -, -, hframe⟩ := badFrame_linked hs h hstate none 0 rfl
    exact ⟨by rw [hlink]; rfl, by rw [hframe]⟩
  · rw [followerBad_lostForwarding_eq hstate, frameLost_loseAttempt]
    exact ⟨rfl, by rw [badCounted_frame]⟩

theorem exec_missingFrame {s : State} (hs : s.Ready) : exec .missingFrame s = .next s.miss := whenSettled_of_ready hs _

/-- The late sync of a frame: the receiver judges a frame time missing, and takes the frame after what that makes
due. -/
theorem exec_frameReceived_late {s : State} {sync : Nat} (hs : s.Ready) (hlate : s.syncLate sync = true)
    (hclosed : s.miss.link.windowClosed = true) (hpow : s.miss.powered = true) (f : LinkFrame) :
    exec (.frameReceived f sync) s = exec (.frameReceived f sync) s.miss := by
  have hwindow : (settle s.miss).syncLate sync = false :=
    State.syncLate_of_windowClosed ((windowed_settle s.miss).closed.trans hclosed) sync
  rw [exec_frameReceived, exec_frameReceived, whenSettled_of_ready hs, State.frameArrives_of_late hlate, whenSettled,
    whenPowered_of_powered hpow, State.frameArrives_of_in_window hwindow]

/-! ## O5 -/

theorem syncLate_iff (s : State) (sync : Nat) :
    s.syncLate sync = true ↔
      (s.link.role = .master ∨ s.link.state = .linked ∨ s.link.state = .lostForwarding) ∧
        s.link.windowClosed = false ∧
        ∃ r, s.link.reckoning = some r ∧ 5 ≤ (sync + 128 - r % 128) % 128 ∧ (sync + 128 - r % 128) % 128 ≤ 101 := by
  simp only [State.syncLate, State.opensWindow, Bool.and_eq_true, Bool.or_eq_true, isMaster_iff,
    decide_eq_true_eq, Bool.not_eq_true', Option.any_eq_true, and_assoc, or_assoc]

/-- Settles O5: a bad and a missing frame by what `badFrame_linked` says of both, and a late sync by the window that
its missing frame closes. -/
theorem badFrameHandledInPlace : Obligations.BadFrameHandledInPlace := by
  unfold Obligations.BadFrameHandledInPlace
  refine ⟨fun s bad hs hrole hlinked hbad => ?_, syncLate_iff, fun s f sync hs hlate => ?_⟩
  · obtain ⟨hsome, hnone⟩ := badHeard_detection (State.calm_of_quiet hs.2)
    cases bad with
    | none =>
      obtain ⟨hlink, hwrote, hrun, hdet, hcue, hasm, hfree, herr, hframe⟩ := badFrame_linked hs hrole hlinked none 0 rfl
      refine ⟨_, exec_missingFrame_follower hs hrole, hlink, hwrote, hrun, ?_, ?_, hasm, hfree, herr, hframe⟩
      all_goals rw [hdet, hcue]
      exacts [hsome, hnone]
    | some x =>
      obtain ⟨hgood, hsync⟩ := hbad x rfl
      obtain ⟨hlink, hwrote, hrun, hdet, hcue, hasm, hfree, herr, hframe⟩ :=
        badFrame_linked hs hrole hlinked (some x.1) x.2 rfl
      refine ⟨_, exec_frameReceived_bad hs hrole hgood hsync, hlink, hwrote, hrun, ?_, ?_, hasm, hfree, herr, hframe⟩
      all_goals rw [hdet, hcue]
      exacts [hsome, hnone]
  · obtain ⟨hwhere, -⟩ := (syncLate_iff s sync).mp hlate
    have hmissed : s.miss.link.windowClosed = true ∧ s.miss.powered = s.powered := by
      cases hrole : s.link.role with
      | master => exact missed_master hrole
      | follower => exact missed_follower hs hrole (hwhere.resolve_left (by rw [hrole]; decide))
    exact ⟨_, exec_missingFrame hs, hmissed.1,
      exec_frameReceived_late hs hlate hmissed.1 (hmissed.2.trans hs.1) f⟩

end Sys2Proof.Proofs.Window
end

