-- ==== Sys2Proof/Proofs/Reading.lean ====
section
/-!
A slot is read the same whatever else of the frame came first (spec/02 sections 2.2 and 2.3), and what follows the
reading (spec/01 section 1.4).
-/

namespace Sys2Proof.Proofs.Reading

open Sys2Proof Sys2Proof.Machine Sys2Proof.Proofs.Events Sys2Proof.Proofs.Frames Sys2Proof.Proofs.Slots
open Sys2Proof.Proofs.Forwarding Sys2Proof.Proofs.Retries Sys2Proof.Proofs.Receiving

-- One declaration after another, so that the checks of many short proofs do not wait for each other in threads.
set_option Elab.async false

/-! ## The reading of a slot -/

/-- What the reading of a slot depends on in a follower is the same, save the assembly. -/
structure SameReading (s u : State) : Prop where
  assembly : u.msg.assembly = s.msg.assembly := by rfl
  errors : u.msg.assemblyErrors = s.msg.assemblyErrors := by rfl
  rx : u.msg.rx = s.msg.rx := by rfl
  address : u.link.address = s.link.address := by rfl
  role : u.link.role = s.link.role := by rfl
  groups : u.link.groups = s.link.groups := by rfl

theorem SameReading.of_unread {s u : State} (h : Unread s u) : SameReading s u where
  assembly := by rw [h.msg]
  errors := by rw [h.msg]
  rx := by rw [h.msg]
  address := h.address
  role := h.role
  groups := h.groups

theorem SameReading.refl (s : State) : SameReading s s := {}

theorem SameReading.symm {s u : State} (h : SameReading s u) : SameReading u s where
  assembly := h.assembly.symm
  errors := h.errors.symm
  rx := h.rx.symm
  address := h.address.symm
  role := h.role.symm
  groups := h.groups.symm

theorem SameReading.trans {s t u : State} (h : SameReading s t) (k : SameReading t u) : SameReading s u where
  assembly := k.assembly.trans h.assembly
  errors := k.errors.trans h.errors
  rx := k.rx.trans h.rx
  address := k.address.trans h.address
  role := k.role.trans h.role
  groups := k.groups.trans h.groups

/-- Two steps that read the same of a message unit leave the same. -/
theorem SameReading.between {s u s' u' : State} (h : SameReading s u) (hs : SameReading s s') (hu : SameReading u u') :
    SameReading s' u' := (hs.symm.trans h).trans hu

theorem SameReading.ite {s u s' u' : State} {c d : Prop} [Decidable c] [Decidable d] (hcd : c ↔ d)
    (h : c → SameReading s u) (k : ¬ c → SameReading s' u') :
    SameReading (if c then s else s') (if d then u else u') := by
  by_cases hc : c
  · rw [if_pos hc, if_pos (hcd.mp hc)]; exact h hc
  · rw [if_neg hc, if_neg (mt hcd.mpr hc)]; exact k hc

theorem sameReading_latch (s : State) (f : Flag) : SameReading s (s.latch f) := by
  have hframe := s.latch_frame f
  rw [latch_msg_eq] at hframe
  rw [hframe]
  exact {}

variable {s u : State}

theorem sameReading_abandon (h : SameReading s u) : SameReading s.abandon u.abandon := by
  rw [abandon_eq, abandon_eq]
  exact { h with assembly := rfl, errors := lostErrors_congr h.assembly h.errors }

theorem sameReading_placeRx (h : SameReading s u) (m : Message) : SameReading (s.placeRx m) (u.placeRx m) := by
  refine .ite (by rw [h.rx]) (fun _ => ?_) fun _ => h.between (sameReading_latch s _) (sameReading_latch u _)
  exact { h with rx := congrArg (· ++ [m]) h.rx }

theorem sameReading_deliverRelay (h : SameReading s u) (m : Message) :
    SameReading (s.deliverRelay m) (u.deliverRelay m) := by
  unfold State.deliverRelay
  split
  · refine .ite .rfl (fun _ => ?_) fun _ => .ite .rfl (fun _ => sameReading_placeRx h m) fun _ => h
    have hsent (t : State) (o : OutMsg) : SameReading t (if t.isMaster && t.placeFree then t.enqueueReply o else t) := by
      split <;> exact {}
    exact h.between (hsent s _) (hsent u _)
  · exact h

theorem sameReading_deliverEnumerate (h : SameReading s u) (m : Message) :
    SameReading (s.deliverEnumerate m) (u.deliverEnumerate m) := by
  unfold State.deliverEnumerate
  split
  · exact h
  · refine .ite (by rw [State.isFollower, State.isFollower, h.role]) (fun _ => ?_) fun _ => sameReading_placeRx h m
    have hnumbered (c : Byte) :
        SameReading (s.setLink { s.link with address := addressOf c }) (u.setLink { u.link with address := addressOf c }) :=
      { h with address := rfl }
    exact sameReading_placeRx (hnumbered _) m

theorem sameReading_deliver (h : SameReading s u) (m : Message) : SameReading (s.deliver m) (u.deliver m) :=
  .ite .rfl (fun _ => h) fun _ => .ite .rfl (fun _ => sameReading_deliverRelay h m) fun _ =>
    .ite .rfl (fun _ => sameReading_deliverEnumerate h m) fun _ => sameReading_placeRx h m

theorem takesDest_congr (h : SameReading s u) (d : Byte) : u.takesDest d = s.takesDest d := by
  have hgroups : u.inGroup = s.inGroup := by
    funext g
    rw [State.inGroup, State.inGroup, h.groups]
  rw [State.takesDest, State.takesDest, hgroups, h.address]

theorem sameReading_judgeMessage (h : SameReading s u) (bytes : List Byte) (check : Byte) :
    SameReading (s.judgeMessage bytes check) (u.judgeMessage bytes check) := by
  have hended : SameReading (s.setMsg { s.msg with assembly := none }) (u.setMsg { u.msg with assembly := none }) :=
    { h with assembly := rfl }
  unfold State.judgeMessage
  split
  · refine .ite .rfl (fun _ => ?_) fun _ => sameReading_abandon h
    exact .ite (by rw [takesDest_congr hended]) (fun _ => sameReading_deliver hended _) fun _ => hended
  · exact sameReading_abandon h

/-- A slot read by two units that agree in what the reading depends on leaves them so. -/
theorem sameReading_takeSlot (h : SameReading s u) (tag : SlotTag) (b : Byte) :
    SameReading (s.takeSlot tag b) (u.takeSlot tag b) := by
  cases tag with
  | idle => exact sameReading_abandon h
  | start => exact { sameReading_abandon h with assembly := rfl }
  | body =>
    cases ha : s.msg.assembly with
    | none =>
      rw [takeSlot_body_of_none ha, takeSlot_body_of_none (h.assembly.trans ha)]
      exact h
    | some bytes =>
      have hu := h.assembly.trans ha
      cases happ : appendBody bytes b with
      | some more =>
        rw [takeSlot_body ha happ, takeSlot_body hu happ]
        exact { h with assembly := rfl }
      | none =>
        rw [takeSlot_body_of_excess ha happ, takeSlot_body_of_excess hu happ]
        exact sameReading_abandon h
  | done =>
    cases ha : s.msg.assembly with
    | none =>
      rw [takeSlot_done_of_none ha, takeSlot_done_of_none (h.assembly.trans ha)]
      exact h
    | some bytes =>
      rw [takeSlot_done ha, takeSlot_done (h.assembly.trans ha)]
      exact sameReading_judgeMessage h _ _

/-! ## What forwarding leaves of the message unit -/

theorem writeSlot_msg (s : State) (a : Attempt) :
    (s.writeSlot a).2.msg = { s.msg with
      attempt := (s.writeSlot a).2.msg.attempt, replies := (s.writeSlot a).2.msg.replies
      attempts := (s.writeSlot a).2.msg.attempts, lastTry := (s.writeSlot a).2.msg.lastTry } := by
  obtain ⟨slots, e⟩ := a
  match slots with
  | [] => rfl
  | [x] => cases e <;> rfl
  | x :: y :: rest => rfl

theorem sameReading_supplySlot (s : State) (mayBegin : Bool) : SameReading s (s.supplySlot mayBegin).2 := by
  have hwrite (a : Attempt) : SameReading s (s.writeSlot a).2 := by
    rw [State.writeSlot_frame, writeSlot_msg]
    exact {}
  cases ha : s.msg.attempt with
  | some a => rw [supplySlot_attempt ha]; exact hwrite a
  | none =>
    by_cases hq : mayBegin = false ∨ s.msg.wait ≠ none ∨ s.msg.replies = []
    · rw [supplySlot_quiet ha hq]; exact .refl s
    · simp only [not_or, Bool.not_eq_false, not_not] at hq
      obtain ⟨rfl, hw, hr⟩ := hq
      obtain ⟨m, rest, hr⟩ := List.exists_cons_of_ne_nil hr
      rw [supplySlot_begins ha hw hr]
      exact {}

theorem sameReading_loseAttempt (s : State) : SameReading s s.loseAttempt := by
  by_cases ha : s.msg.attempt = none
  · rw [loseAttempt_of_none ha]; exact .refl s
  by_cases hlimit : s.paramNat .retryLimit ≤ s.msg.attempts + 1
  · rw [loseAttempt_gives_up ha hlimit]
    exact SameReading.trans {} (sameReading_latch _ _)
  cases hl : s.msg.lastTry with
  | true => rw [loseAttempt_last ha (Nat.not_le.mp hlimit) hl]; exact {}
  | false => rw [loseAttempt_waits ha (Nat.not_le.mp hlimit) hl]; exact {}

theorem sameReading_forward (s : State) (f : LinkFrame) : SameReading s (s.forward f) := by
  by_cases htag : f.tag = .idle
  · rw [forward_idle s htag]
    exact (sameReading_supplySlot s _).trans { address := (congrArg LinkRx.address (supplySlot_link s _)).symm
                                               role := (congrArg LinkRx.role (supplySlot_link s _)).symm
                                               groups := (congrArg LinkRx.groups (supplySlot_link s _)).symm }
  · rw [forward_taken s htag]
    exact (sameReading_loseAttempt s).trans { address := (congrArg LinkRx.address (loseAttempt_link s)).symm
                                              role := (congrArg LinkRx.role (loseAttempt_link s)).symm
                                              groups := (congrArg LinkRx.groups (loseAttempt_link s)).symm }

/-- A frame forwarded changes the link's output and tracking, the message unit, the latched set and, in a master, the
enumeration's wait alone. -/
theorem forward_frame (s : State) (f : LinkFrame) :
    s.forward f = { s with
      link := { s.link with output := (s.forward f).link.output, tracking := (s.forward f).link.tracking }
      msg := (s.forward f).msg, tape := (s.forward f).tape, events := (s.forward f).events } := by
  by_cases htag : f.tag = .idle
  · have hframe := s.supplySlot_frame s.msg.slotFree
    rw [forward_idle s htag, hframe]
    rfl
  · have hframe := s.loseAttempt_frame
    rw [forward_taken s htag, hframe]
    rfl

theorem forward_tape {s : State} (h : s.link.role = .follower) (he : s.enumeratesAsMaster) (f : LinkFrame) :
    (s.forward f).tape = s.tape := by
  by_cases htag : f.tag = .idle
  · rw [forward_idle s htag, supplySlot_follower h he]
    rfl
  · rw [forward_taken s htag, State.loseAttempt_frame]
    rfl

theorem forward_latched (s : State) (f : LinkFrame) (x : Flag) (h : s.latchedFlag x = true) :
    (s.forward f).latchedFlag x = true := by
  by_cases htag : f.tag = .idle
  · rw [forward_idle s htag]
    show (s.supplySlot _).2.latchedFlag x = true
    rw [State.supplySlot_frame]
    exact h
  · rw [forward_taken s htag]
    exact loseAttempt_latched s x h

end Sys2Proof.Proofs.Reading
end

