-- ==== Sys2Proof/Proofs/GoodFrames.lean ====
section
/-!
A good frame numbered, handed on and taken (spec/01 sections 1.3 and 1.5, spec/09 sections 9.2 and 9.3).
-/

namespace Sys2Proof.Proofs.GoodFrames

open Sys2Proof Sys2Proof.Machine Sys2Proof.Proofs.Commands Sys2Proof.Proofs.Events Sys2Proof.Proofs.Detection
open Sys2Proof.Proofs.Frames Sys2Proof.Proofs.Slots Sys2Proof.Proofs.Forwarding Sys2Proof.Proofs.Retries
open Sys2Proof.Proofs.Receiving Sys2Proof.Proofs.Window Sys2Proof.Proofs.Reading

-- One declaration after another, so that the checks of many short proofs do not wait for each other in threads.
set_option Elab.async false

theorem latched_latchIf (s : State) (c : Bool) (f g : Flag) (h : s.latchedFlag g = true) :
    (s.latchIf c f).latchedFlag g = true := by
  cases c with
  | false => exact h
  | true => exact (latchedFlag_latch s f g).trans (by rw [h]; rfl)

theorem latchIf_latches (s : State) {c : Bool} (h : c = true) (f : Flag) : (s.latchIf c f).latchedFlag f = true := by
  rw [h]
  exact (latchedFlag_latch s f f).trans (by rw [decide_eq_true rfl, Bool.or_true])

theorem number_lt {f : LinkFrame} (h : frameGood f = true) : f.number.toNat < 64000 := by
  rw [frameGood, Bool.and_eq_true] at h
  exact of_decide_eq_true h.2

/-! ## Numbered and counted (R3, R4, R7) -/

/-- The link after a good frame has been numbered and counted. -/
abbrev numberedLink (s : State) (n sync : Nat) : LinkRx :=
  { s.link with
    expected := some (if n = 63999 then 0 else n + 1), runCount := 0, sinceGood := 0
    seqJump := s.link.jumps n, reckoning := some (sync % 128), windowClosed := false }

theorem countGood_frame (s : State) {n : Nat} (hn : n < 64000) (sync : Nat) :
    s.countGood n sync =
      { s with
        link := numberedLink s n sync, sound := (s.countGood n sync).sound, msg := (s.countGood n sync).msg
        events := (s.countGood n sync).events } := by
  unfold State.countGood
  dsimp only
  rw [State.latchIf_frame, nextFrameNumber_eq hn]
  split <;> rfl

theorem countGood_sound (s : State) (n sync : Nat) :
    (s.countGood n sync).sound =
      if s.isFollower then { s.sound with reasons := { s.sound.reasons with badRun := false } } else s.sound := by
  unfold State.countGood
  dsimp only
  rw [State.latchIf_frame]
  cases s.isFollower <;> rfl

theorem countGood_latches {s : State} {n : Nat} (h : s.link.jumps n = true) (sync : Nat) :
    (s.countGood n sync).latchedFlag .seqJump = true := latchIf_latches _ h _

/-! ## Handed on (R5, R168, R198) -/

/-- The pair a frame hands on. -/
abbrev handedPair (f : LinkFrame) : Pair := if f.silent then (0, 0) else (f.left, f.right)

/-- The state with the frame's flags taken and its pair still to be written. -/
abbrev flagged (u : State) (f : LinkFrame) : State :=
  { u with
    link := { u.link with lastPair := handedPair f, showRunning := f.showRunning, tapeEnd := f.tapeEnd }
    sound := { u.sound with reasons := { u.sound.reasons with silent := f.silent } } }

/-- The state with the frame's pair written. -/
def paired (u : State) (f : LinkFrame) : State :=
  ((flagged u f).writePair (handedPair f)).latchIf (f.tapeEnd && !u.link.tapeEnd) .tapeEnd

theorem handOn_eq (u : State) (f : LinkFrame) (jump : Bool) :
    u.handOn f jump = (paired u f).handFrame f.number.toNat (if f.silent then 0 else f.cue) false jump := by
  have hpair : ((handed f f.left, handed f f.right) : Pair) = handedPair f := by
    unfold handed handedPair
    cases f.silent <;> rfl
  unfold State.handOn
  rw [hpair]
  rfl

theorem paired_frame (u : State) (f : LinkFrame) :
    paired u f = { u with
      link := (flagged u f).link, sound := (paired u f).sound, msg := (paired u f).msg, events := (paired u f).events } := by
  have hwrite := (flagged u f).writePair_frame (handedPair f)
  unfold paired
  rw [State.latchIf_frame, hwrite]

theorem paired_sound (u : State) (f : LinkFrame) : (paired u f).sound = ((flagged u f).writePair (handedPair f)).sound := by
  rw [paired, State.latchIf_frame]

theorem paired_wrote (u : State) (f : LinkFrame) : Sound.wrote u.sound (paired u f).sound (handedPair f) := by
  rw [paired_sound]
  exact writePair_wrote (flagged u f) (handedPair f)

theorem paired_reasons (u : State) (f : LinkFrame) :
    (paired u f).sound.reasons = { u.sound.reasons with
      silent := f.silent, fill := (paired u f).sound.reasons.fill
      underflow := (paired u f).sound.reasons.underflow } := by
  rw [paired_sound]
  exact writePair_reasons (flagged u f) (handedPair f)

theorem paired_slips {u : State} (h : 8192 ≤ u.sound.fifo.length) (f : LinkFrame) :
    (paired u f).latchedFlag .audioSlip = true :=
  latched_latchIf _ _ _ _ (writePair_slips (flagged u f) (handedPair f) h)

theorem paired_tapeEnd {u : State} {f : LinkFrame} (h : f.tapeEnd = true) (hu : u.link.tapeEnd = false) :
    (paired u f).latchedFlag .tapeEnd = true := latchIf_latches _ (by rw [h, hu]; rfl) _

theorem paired_latched {u : State} {f : LinkFrame} {x : Flag} (h : u.latchedFlag x = true) :
    (paired u f).latchedFlag x = true :=
  latched_latchIf _ _ _ _ ((unread_writePair (flagged u f) (handedPair f)).latched x h)

theorem handOn_frame {u : State} (hc : u.cue.calm = true) (f : LinkFrame) (jump : Bool)
    (hj : jump = true → f.number.toNat % 160 ≠ 159) :
    u.handOn f jump = { u with
      link := (flagged u f).link, sound := (paired u f).sound, msg := (paired u f).msg, events := (paired u f).events
      det := (u.handFrame f.number.toNat (if f.silent then 0 else f.cue) false jump).det
      cue := (u.handFrame f.number.toNat (if f.silent then 0 else f.cue) false jump).cue } := by
  have hp := paired_frame u f
  have hd : SameDetection u (paired u f) := by rw [hp]; exact ⟨rfl, rfl, rfl⟩
  have hcp : (paired u f).cue.calm = true := by rw [hd.2.1]; exact hc
  obtain ⟨hdet, hcue⟩ := handFrame_congr hd hc f.number.toNat (if f.silent then 0 else f.cue) false jump hj
  rw [handOn_eq, State.handFrame_of_calm hcp _ _ _ _ hj, hdet, hcue]
  exact congrArg (fun t : State => { t with
    det := (u.handFrame f.number.toNat (if f.silent then 0 else f.cue) false jump).det
    cue := (u.handFrame f.number.toNat (if f.silent then 0 else f.cue) false jump).cue }) hp

/-! ## Taken, forwarded and counted -/

/-- A good frame's end: its slot noted, and a frame time of a wait counted. -/
def closed (v : State) (f : LinkFrame) : State := (v.noteSlot (freesNext f.tag)).countWait

theorem closed_eq (v : State) (f : LinkFrame) :
    closed v f = { v with msg := waitCounted { v.msg with slotFree := freesNext f.tag } } := by
  rw [closed, State.countWait_frame, countWait_msg_eq]
  rfl

theorem freesNext_eq (tag : SlotTag) : freesNext tag = decide (tag = .idle ∨ tag = .done) := by cases tag <;> rfl

/-- The state with the frame's slot read and the frame, where that is due, forwarded. -/
def passed (h : State) (f : LinkFrame) (forwards : Bool) : State :=
  if forwards then (h.takeSlot f.tag f.byte).forward f else h.takeSlot f.tag f.byte

theorem enumeratesAsMaster_of_read {s h : State} (k : SlotRead s h) (he : s.enumeratesAsMaster) :
    h.enumeratesAsMaster := by
  intro hrole a ha
  rw [k.msg] at ha
  exact he (k.role.symm.trans hrole) a ha

variable {h : State} {f : LinkFrame} {forwards : Bool}

theorem passed_frame (hrole : h.link.role = .follower) :
    passed h f forwards = { h with
      link := { h.link with
        address := (passed h f forwards).link.address, output := (passed h f forwards).link.output
        tracking := (passed h f forwards).link.tracking }
      msg := (passed h f forwards).msg, tape := (passed h f forwards).tape, events := (passed h f forwards).events } := by
  have hread := slotRead_takeSlot hrole f.tag f.byte
  have htake := h.takeSlot_frame f.tag f.byte
  cases forwards with
  | false =>
    show h.takeSlot f.tag f.byte = { h with
      link := { h.link with
        address := (h.takeSlot f.tag f.byte).link.address, output := (h.takeSlot f.tag f.byte).link.output
        tracking := (h.takeSlot f.tag f.byte).link.tracking }
      msg := (h.takeSlot f.tag f.byte).msg, tape := (h.takeSlot f.tag f.byte).tape
      events := (h.takeSlot f.tag f.byte).events }
    rw [hread.output, hread.tracking, show (h.takeSlot f.tag f.byte).tape = h.tape by rw [htake]]
    exact htake
  | true =>
    have hforward := forward_frame (h.takeSlot f.tag f.byte) f
    have haddress := (sameReading_forward (h.takeSlot f.tag f.byte) f).address
    show (h.takeSlot f.tag f.byte).forward f = { h with
      link := { h.link with
        address := ((h.takeSlot f.tag f.byte).forward f).link.address
        output := ((h.takeSlot f.tag f.byte).forward f).link.output
        tracking := ((h.takeSlot f.tag f.byte).forward f).link.tracking }
      msg := ((h.takeSlot f.tag f.byte).forward f).msg, tape := ((h.takeSlot f.tag f.byte).forward f).tape
      events := ((h.takeSlot f.tag f.byte).forward f).events }
    rw [haddress]
    exact hforward.trans (congrArg (fun t : State => { t with
      link := { t.link with
        output := ((h.takeSlot f.tag f.byte).forward f).link.output
        tracking := ((h.takeSlot f.tag f.byte).forward f).link.tracking }
      msg := ((h.takeSlot f.tag f.byte).forward f).msg, tape := ((h.takeSlot f.tag f.byte).forward f).tape
      events := ((h.takeSlot f.tag f.byte).forward f).events }) htake)

theorem passed_tape (hrole : h.link.role = .follower) (he : h.enumeratesAsMaster) :
    (passed h f forwards).tape = h.tape := by
  have hread := slotRead_takeSlot hrole f.tag f.byte
  have htape : (h.takeSlot f.tag f.byte).tape = h.tape := by rw [State.takeSlot_frame]
  cases forwards with
  | false => exact htape
  | true => exact (forward_tape (hread.role.trans hrole) (enumeratesAsMaster_of_read hread he) f).trans htape

theorem passed_reading : SameReading (h.takeSlot f.tag f.byte) (passed h f forwards) := by
  cases forwards with
  | false => exact .refl _
  | true => exact sameReading_forward _ f

theorem passed_latched (hrole : h.link.role = .follower) (x : Flag) (hx : h.latchedFlag x = true) :
    (passed h f forwards).latchedFlag x = true := by
  have htaken := (slotRead_takeSlot hrole f.tag f.byte).latched x hx
  cases forwards with
  | false => exact htaken
  | true => exact forward_latched _ f x htaken

theorem followerGood_closed {s : State} (hstate : s.link.state ≠ .lostOriginating) (f : LinkFrame) (sync : Nat) :
    s.followerGood f sync = closed (passed (heard s f sync) f true) f := followerGood_eq hstate f sync

theorem enterLink_linked {s : State} (hstate : s.link.state = .linked ∨ s.link.state = .acquiring) :
    s.enterLink .linked = s.setLink { s.link with state := .linked } := by
  rcases hstate with hstate | hstate <;> rw [State.enterLink, hstate] <;> rfl

/-! ## A good frame handed on, taken and passed -/

/-- The state with a good frame handed on, its slot read, the frame forwarded where that is due, and a wait counted. -/
def finished (u : State) (f : LinkFrame) (jump forwards : Bool) : State := closed (passed (u.handOn f jump) f forwards) f

section
variable {u : State} {jump : Bool}

theorem enumeratesAsMaster_handOn (he : u.enumeratesAsMaster) : (u.handOn f jump).enumeratesAsMaster :=
  enumeratesAsMaster_of_read (.of_unread (unread_handOn u f jump)) he

theorem finished_frame (hrole : u.link.role = .follower) (hc : u.cue.calm = true)
    (hj : jump = true → f.number.toNat % 160 ≠ 159) :
    finished u f jump forwards = { u with
      link := { (flagged u f).link with
        address := (finished u f jump forwards).link.address, output := (finished u f jump forwards).link.output
        tracking := (finished u f jump forwards).link.tracking }
      msg := (finished u f jump forwards).msg
      det := (u.handFrame f.number.toNat (if f.silent then 0 else f.cue) false jump).det
      cue := (u.handFrame f.number.toNat (if f.silent then 0 else f.cue) false jump).cue
      sound := (paired u f).sound, tape := (finished u f jump forwards).tape
      events := (finished u f jump forwards).events } := by
  have hrole' := (unread_handOn u f jump).role.trans hrole
  have hpass := passed_frame (f := f) (forwards := forwards) hrole'
  rw [handOn_frame hc f jump hj] at hpass
  rw [finished, closed_eq, handOn_frame hc f jump hj]
  exact congrArg (fun t : State => { t with msg := waitCounted { t.msg with slotFree := freesNext f.tag } }) hpass

theorem finished_tape (hrole : u.link.role = .follower) (he : u.enumeratesAsMaster) (hc : u.cue.calm = true)
    (hj : jump = true → f.number.toNat % 160 ≠ 159) : (finished u f jump forwards).tape = u.tape := by
  rw [finished, closed_eq]
  show (passed (u.handOn f jump) f forwards).tape = u.tape
  rw [passed_tape ((unread_handOn u f jump).role.trans hrole) (enumeratesAsMaster_handOn he), handOn_frame hc f jump hj]

theorem finished_latched (hrole : u.link.role = .follower) {x : Flag} (hx : (paired u f).latchedFlag x = true) :
    (finished u f jump forwards).latchedFlag x = true := by
  have hhanded : (u.handOn f jump).latchedFlag x = true := by
    rw [handOn_eq]
    exact (unread_handFrame _ _ _ _ _).latched x hx
  rw [finished, closed_eq]
  exact passed_latched ((unread_handOn u f jump).role.trans hrole) x hhanded

/-- The slot is read as it would have been before the frame was handed on. -/
theorem finished_reading : SameReading (u.takeSlot f.tag f.byte) (finished u f jump forwards) := by
  have hread : SameReading (u.takeSlot f.tag f.byte) (passed (u.handOn f jump) f forwards) :=
    (sameReading_takeSlot (.of_unread (unread_handOn u f jump)) f.tag f.byte).trans passed_reading
  rw [finished, closed_eq]
  exact { hread with }

theorem finished_slotFree : (finished u f jump forwards).msg.slotFree = decide (f.tag = .idle ∨ f.tag = .done) := by
  rw [finished, closed_eq, ← freesNext_eq]
  rfl

end

/-! ## O3 -/

/-- The state with a good frame numbered and counted in LINKED. -/
def linked (s : State) (f : LinkFrame) (sync : Nat) : State :=
  (s.countGood f.number.toNat sync).setLink { numberedLink s f.number.toNat sync with state := .linked }

theorem linked_frame {s : State} {f : LinkFrame} (hf : frameGood f = true) (sync : Nat) :
    linked s f sync = { s with
      link := (linked s f sync).link, sound := (linked s f sync).sound, msg := (linked s f sync).msg
      events := (linked s f sync).events } :=
  congrArg (fun t : State => t.setLink { numberedLink s f.number.toNat sync with state := .linked })
    (countGood_frame s (number_lt hf) sync)

theorem unread_linked (s : State) (f : LinkFrame) (sync : Nat) : Unread s (linked s f sync) :=
  have h := unread_countGood s f.number.toNat sync
  h.trans { role := h.role.symm, address := h.address.symm, groups := h.groups.symm, tracking := h.tracking.symm
            output := h.output.symm }

theorem followerGood_linked {s : State} {f : LinkFrame} (hf : frameGood f = true) (hbroken : f.broken = false)
    (hstate : s.link.state = .linked ∨ s.link.state = .acquiring) (sync : Nat) :
    s.followerGood f sync = finished (linked s f sync) f (s.link.jumps f.number.toNat) true := by
  have hstate' : s.link.state ≠ .lostOriginating := by rcases hstate with h | h <;> rw [h] <;> decide
  have hlink : (s.countGood f.number.toNat sync).link = numberedLink s f.number.toNat sync := by
    rw [countGood_frame s (number_lt hf)]
  rw [followerGood_closed hstate', heard, if_neg (by rw [hbroken]; decide),
    enterLink_linked (by rw [hlink]; exact hstate), hlink]
  rfl

/-- A step in four blocks and then one in six change the six. -/
theorem six_blocks {s u t : State} {l l' : LinkRx} {m m' : MsgUnit} {d : Detector} {c : CueEngine} {x x' : Sound}
    {e e' : Events} (hu : u = { s with link := l, sound := x, msg := m, events := e })
    (ht : t = { u with link := l', msg := m', det := d, cue := c, sound := x', events := e' }) :
    t = { s with
      link := t.link, msg := t.msg, det := t.det, cue := t.cue, sound := t.sound, events := t.events } := by
  subst hu ht
  rfl

/-- Settles O3: the frame numbered (`countGood_frame`), then what handing it on leaves. -/
theorem goodFrameHandedOn : Obligations.GoodFrameHandedOn := by
  intro s f sync hs hrole hstate he hf hbroken hsync hj jump pair heardDet read
  have hc := State.calm_of_quiet hs.2
  have hl := linked_frame (s := s) hf sync
  have hd : SameDetection s (linked s f sync) := by rw [hl]; exact ⟨rfl, rfl, rfl⟩
  obtain ⟨hdet, hcue⟩ := handFrame_congr hd hc f.number.toNat (if f.silent then 0 else f.cue) false jump hj
  have hunread := unread_linked s f sync
  have hrole' := hunread.role.trans hrole
  have hc' : (linked s f sync).cue.calm = true := by rw [hd.2.1]; exact hc
  have hframe := finished_frame (forwards := true) hrole' hc' hj
  rw [finished_tape hrole' (enumeratesAsMaster_of_read (.of_unread hunread) he) hc' hj] at hframe
  have hread : SameReading read (finished (linked s f sync) f jump true) :=
    (sameReading_takeSlot (.of_unread hunread) f.tag f.byte).trans finished_reading
  have hsound : (linked s f sync).sound = { s.sound with reasons := { s.sound.reasons with badRun := false } } :=
    (countGood_sound s _ sync).trans (if_pos (is_follower hrole))
  have hreasons := paired_reasons (linked s f sync) f
  have hwrote := paired_wrote (linked s f sync) f
  rw [hsound] at hreasons hwrote
  refine ⟨finished (linked s f sync) f jump true, ?runs, ?_⟩
  case runs => rw [exec_frameReceived_good hs hrole hf hsync, followerGood_linked hf hbroken hstate]
  have hlink : _ = _ := congrArg State.link hframe
  have hsnd : _ = _ := congrArg State.sound hframe
  have htapeEnd : (linked s f sync).link.tapeEnd = s.link.tapeEnd := rfl
  rw [hlink, hsnd, hreasons]
  refine ⟨rfl, rfl, rfl, rfl, rfl, rfl, rfl, fun h => ?jumped, rfl, rfl, rfl, fun h h0 => ?ended, rfl, rfl, hwrote,
    fun h => ?slipped, (congrArg State.det hframe).trans hdet, (congrArg State.cue hframe).trans hcue, hread.assembly,
    hread.errors, hread.rx, hread.address, finished_slotFree, ?frame⟩
  case jumped =>
    refine finished_latched hrole' ?_
    exact paired_latched (countGood_latches h sync)
  case ended => exact finished_latched hrole' (paired_tapeEnd h h0)
  case slipped => exact finished_latched hrole' (paired_slips (by rw [hsound]; exact h) f)
  case frame => rw [← hlink, ← hsnd]; exact six_blocks hl hframe

end Sys2Proof.Proofs.GoodFrames
end

