-- ==== Sys2Proof/Proofs/Returning.lean ====
section
/-!
The frames that return to a master (spec/01 section 1.6, spec/10 section 10.5).
-/

namespace Sys2Proof.Proofs.Returning

open Sys2Proof Sys2Proof.Machine Sys2Proof.Proofs.Commands Sys2Proof.Proofs.Events Sys2Proof.Proofs.Frames
open Sys2Proof.Proofs.Retries Sys2Proof.Proofs.Receiving Sys2Proof.Proofs.Window Sys2Proof.Proofs.GoodFrames

-- One declaration after another, so that the checks of many short proofs do not wait for each other in threads.
set_option Elab.async false

theorem not_follower {s : State} (h : s.link.role = .master) : s.isFollower = false := by rw [State.isFollower, h]; rfl

/-! ## A slot at a master (R24, R26) -/

/-- A master's address is not given by an ENUMERATE (R18). -/
theorem deliverEnumerate_master {s : State} (h : s.link.role = .master) (m : Message) :
    (s.deliverEnumerate m).link = s.link := by
  unfold State.deliverEnumerate
  split
  · rfl
  · rw [not_follower h, Bool.false_and, if_neg Bool.false_ne_true, State.placeRx_frame]

theorem deliver_master {s : State} (h : s.link.role = .master) (m : Message) : (s.deliver m).link = s.link := by
  unfold State.deliver
  split
  · rfl
  · split
    · rw [State.deliverRelay_frame]
    · split
      · exact deliverEnumerate_master h m
      · rw [State.placeRx_frame]

theorem judgeMessage_master {s : State} (h : s.link.role = .master) (bytes : List Byte) (check : Byte) :
    (s.judgeMessage bytes check).link = s.link := by
  unfold State.judgeMessage
  split
  · split
    · dsimp only
      split
      · exact deliver_master (s := s.setMsg { s.msg with assembly := none }) h _
      · rfl
    · rw [State.abandon_frame]
  · rw [State.abandon_frame]

theorem takeSlot_master {s : State} (h : s.link.role = .master) (tag : SlotTag) (b : Byte) :
    (s.takeSlot tag b).link = s.link := by
  unfold State.takeSlot
  split
  · rw [State.abandon_frame]
  · show s.abandon.link = s.link
    rw [State.abandon_frame]
  · split
    · split
      · rfl
      · rw [State.abandon_frame]
    · rfl
  · split
    · exact judgeMessage_master h _ _
    · rfl

/-- A slot at a master changes its message unit and its latched set alone. -/
theorem takeSlot_master_frame {s : State} (h : s.link.role = .master) (tag : SlotTag) (b : Byte) :
    s.takeSlot tag b = { s with msg := (s.takeSlot tag b).msg, events := (s.takeSlot tag b).events } := by
  have hframe := s.takeSlot_frame tag b
  rw [takeSlot_master h] at hframe
  exact hframe

/-! ## A good frame (R16, R188) -/

/-- The tape unit with its ring closed by a frame's return. -/
abbrev ringClosed (x : Tape) : Tape :=
  { x with ring := .closed, sinceReturn := 0, enumDue := if x.ring = .closed then x.enumDue else true }

theorem ringReturns_eq (s : State) : s.ringReturns = s.setTape (ringClosed s.tape) := by
  unfold State.ringReturns
  by_cases h : s.tape.ring = .closed
  · rw [if_pos h, ringClosed, if_pos h, ← h]
  · rw [if_neg h, ringClosed, if_neg h]

theorem countGood_master {s : State} (h : s.link.role = .master) {n : Nat} (hn : n < 64000) (sync : Nat) :
    s.countGood n sync = { s with
      link := numberedLink s n sync, msg := (s.countGood n sync).msg, events := (s.countGood n sync).events } := by
  have hframe := countGood_frame s hn sync
  rw [countGood_sound, not_follower h, if_neg Bool.false_ne_true] at hframe
  exact hframe

theorem masterGood_eq {s : State} (h : s.link.role = .master) {f : LinkFrame} (hf : frameGood f = true) (sync : Nat) :
    s.masterGood f sync = { s with
      link := numberedLink s f.number.toNat sync
      msg := ((s.countGood f.number.toNat sync).takeSlot f.tag f.byte).msg
      tape := if f.broken then s.tape else ringClosed s.tape
      events := ((s.countGood f.number.toNat sync).takeSlot f.tag f.byte).events } := by
  have hcount := countGood_master h (number_lt hf) sync
  have hrole : (s.countGood f.number.toNat sync).link.role = .master := by rw [hcount]; exact h
  have htake := (takeSlot_master_frame hrole f.tag f.byte).trans (congrArg (fun t : State => { t with
    msg := ((s.countGood f.number.toNat sync).takeSlot f.tag f.byte).msg
    events := ((s.countGood f.number.toNat sync).takeSlot f.tag f.byte).events }) hcount)
  unfold State.masterGood
  dsimp only
  rw [ringReturns_eq]
  cases f.broken with
  | true => exact htake
  | false =>
    have htape : ((s.countGood f.number.toNat sync).takeSlot f.tag f.byte).tape = s.tape :=
      (congrArg State.tape htake).trans rfl
    rw [if_neg Bool.false_ne_true, if_neg Bool.false_ne_true, htape]
    exact congrArg (fun t : State => t.setTape (ringClosed s.tape)) htake

/-! ## A bad or missing frame (R3, R16) -/

theorem latch_msg_master {s : State} (h : s.link.role = .master) (f : Flag) : (s.latch f).msg = s.msg := by
  cases hf : s.latchedFlag f with
  | true => rw [latch_of_latched hf]
  | false =>
    rw [latch_of_clear hf]
    refine (congrArg State.msg (if_neg ?_)).trans rfl
    rintro ⟨-, hfollower, -⟩
    exact absurd (h.symm.trans hfollower) (by decide)

theorem badCounted_master {s : State} (h : s.link.role = .master) :
    badCounted s = { s with link := countedLink s, events := (badCounted s).events } := by
  have hfollower := not_follower h
  by_cases hcount : s.link.runCount = 15
  · have hlatch : badCounted s = (s.setLink (countedLink s)).latch .badFrames := by
      unfold badCounted
      dsimp only
      rw [if_pos (by omega), hfollower]
      rfl
    have hmsg := latch_msg_master (s := s.setLink (countedLink s)) h .badFrames
    have hframe := (s.setLink (countedLink s)).latch_frame .badFrames
    rw [hmsg, ← hlatch] at hframe
    exact hframe
  · rw [badCounted_of_ne hcount]
    rfl

theorem masterBad_eq {s : State} (h : s.link.role = .master) (sync : Option Nat) :
    s.masterBad sync = { s with
      link := (countedLink s).windowPast sync, msg := { s.msg with assembly := none, assemblyErrors := lostErrors s }
      events := (badCounted s).events } := by
  have hbad := badCounted_master h
  rw [State.masterBad, countBad_eq (.inl h), abandon_eq, hbad]
  rfl

/-- Settles O6: a good frame by `masterGood_eq`, a bad or missing one by `masterBad_eq`. -/
theorem masterTakesReturningFrame : Obligations.MasterTakesReturningFrame := by
  unfold Obligations.MasterTakesReturningFrame
  refine ⟨fun s f sync hs hrole hf hsync => ?good, fun s bad hs hrole hbad => ?bad⟩
  case good =>
    have hrun : exec (.frameReceived f sync) s = .next (s.masterGood f sync) := by
      rw [exec_frameReceived, whenSettled_of_ready hs, State.frameArrives_of_in_window hsync, State.receive,
        if_pos (isMaster_iff.mpr hrole), if_pos hf]
    rw [masterGood_eq hrole hf] at hrun
    exact ⟨_, hrun, rfl, rfl, rfl⟩
  case bad =>
    have latches (hcount : s.link.runCount ≠ 15) : (badCounted s).events = s.events := by
      rw [badCounted_of_ne hcount]
      rfl
    cases bad with
    | none =>
      have hrun : exec .missingFrame s = .next (s.masterBad none) :=
        (exec_missingFrame hs).trans (congrArg _ (if_pos (isMaster_iff.mpr hrole)))
      rw [masterBad_eq hrole] at hrun
      exact ⟨_, hrun, badCounted_latches, latches, rfl⟩
    | some x =>
      obtain ⟨hgood, hsync⟩ := hbad x rfl
      have hrun : exec (.frameReceived x.1 x.2) s = .next (s.masterBad (some x.2)) := by
        rw [exec_frameReceived, whenSettled_of_ready hs, State.frameArrives_of_in_window hsync, State.receive,
          if_pos (isMaster_iff.mpr hrole), if_neg (ne_true_of_eq_false hgood)]
      rw [masterBad_eq hrole] at hrun
      exact ⟨_, hrun, badCounted_latches, latches, rfl⟩

end Sys2Proof.Proofs.Returning
end

