-- ==== Sys2Proof/Proofs/LinkLoss.lean ====
section
/-!
A link loss begins and ends, and show-safe (spec/01 section 1.5).
-/

namespace Sys2Proof.Proofs.LinkLoss

open Sys2Proof Sys2Proof.Machine Sys2Proof.Proofs.Commands Sys2Proof.Proofs.Events Sys2Proof.Proofs.Detection
open Sys2Proof.Proofs.Frames Sys2Proof.Proofs.Slots Sys2Proof.Proofs.Forwarding Sys2Proof.Proofs.Retries
open Sys2Proof.Proofs.Receiving Sys2Proof.Proofs.Reading Sys2Proof.Proofs.GoodFrames Sys2Proof.Proofs.Keys

-- One declaration after another, so that the checks of many short proofs do not wait for each other in threads.
set_option Elab.async false

/-! ## A loss begins (R11 to R13, R63, R87) -/

/-- The state in which a loss has begun, its flag still to be latched. -/
abbrev losing (u : State) (x : LinkState) : State :=
  { u with
    link := { u.link with state := x, showSafeCount := 0, showSafe := false }
    sound := { u.sound with reasons := { u.sound.reasons with link := true } }
    det := Detector.restart
    cue := { u.cue with
      state := .ready, word := [], discarding := false, gap := 0, stuckCount := 0, completion := .none } }

/-- The entry into a loss from ACQUIRING or LINKED: what stands due in the engine comes first (R84, R85). -/
theorem enterLink_loses {s : State} (h : s.link.state = .acquiring ∨ s.link.state = .linked) {x : LinkState}
    (hx : x.isLost = true) : s.enterLink x = (losing s.engineDue x).latch .linkLost := by
  have hloses : (x.isLost && !s.link.state.isLost) = true := by rcases h with h | h <;> rw [h, hx] <;> rfl
  exact if_pos hloses

theorem enterLink_stays_lost {s : State} (h : s.link.state = .lostForwarding) :
    s.enterLink .lostOriginating = s.setLink { s.link with state := .lostOriginating } := by
  rw [State.enterLink, h]
  rfl

theorem runStuck_iff {c : CueEngine} : c.runStuck = true ↔ ∃ x n, c.state = .run x n ∧ 16 ≤ n := by
  unfold CueEngine.runStuck
  split
  case h_1 x n h =>
    rw [decide_eq_true_eq, h]
    exact ⟨fun hn => ⟨x, n, rfl, hn⟩, fun ⟨y, m, hr, hm⟩ => by cases hr; exact hm⟩
  case h_2 h => exact ⟨nofun, fun ⟨x, n, hr, _⟩ => absurd hr (h x n)⟩

theorem not_runStuck {c : CueEngine} (h : ∀ x n, c.state = .run x n → n < 16) : c.runStuck = false := by
  rw [← Bool.not_eq_true, runStuck_iff]
  rintro ⟨x, n, hr, hn⟩
  exact absurd (h x n hr) (by omega)

theorem not_stuckOver {c : CueEngine} (h : c.state = .stuck → c.stuckCount < 2) : c.stuckOver = false := by
  rw [CueEngine.stuckOver, ← Bool.not_eq_true, Bool.and_eq_true, decide_eq_true_eq, decide_eq_true_eq]
  rintro ⟨hs, hn⟩
  exact absurd (h hs) (by omega)

theorem next_inj {s t : State} (h : (Host.Outcome.next s : Host.Outcome State Fault Refusal) = .next t) : s = t := by
  cases h
  rfl

/-- 32 frame times without a good frame (R11). -/
theorem lossTimeout_of_due {s : State} (hrole : s.link.role = .follower) (hstate : s.link.state ≠ .lostOriginating)
    (hcount : 32 ≤ s.link.sinceGood) : s.lossTimeout = s.enterLink .lostOriginating := by
  refine if_pos ?_
  rw [State.lossDue, is_follower hrole, decide_eq_true hstate]
  exact decide_eq_true hcount

/-! ## A loss ends (R12 to R14) -/

/-- The state with a good frame numbered and counted, an attempt in a frame of the unit's own lost, and the loss
ended. -/
def rejoined (s : State) (f : LinkFrame) (sync : Nat) (loses : Bool) : State :=
  let t := if loses then (s.countGood f.number.toNat sync).loseAttempt else s.countGood f.number.toNat sync
  (t.setReasons { t.sound.reasons with link := false }).setLink
    { t.link with state := .linked, showSafeCount := 0, showSafe := false }

theorem enterLink_rejoins {s : State} (h : s.link.state = .lostForwarding ∨ s.link.state = .lostOriginating) :
    s.enterLink .linked =
      (s.setReasons { s.sound.reasons with link := false }).setLink
        { s.link with state := .linked, showSafeCount := 0, showSafe := false } := by
  rcases h with h | h <;> rw [State.enterLink, h] <;> rfl

theorem rejoined_frame {s : State} (hrole : s.link.role = .follower) {f : LinkFrame} (hf : frameGood f = true)
    (sync : Nat) (loses : Bool) :
    rejoined s f sync loses = { s with
      link := { numberedLink s f.number.toNat sync with state := .linked, showSafeCount := 0, showSafe := false }
      sound := { s.sound with reasons := { s.sound.reasons with badRun := false, link := false } }
      msg := (rejoined s f sync loses).msg, events := (rejoined s f sync loses).events } := by
  have hcount := countGood_frame s (number_lt hf) sync
  rw [countGood_sound, is_follower hrole, if_pos rfl] at hcount
  unfold rejoined
  cases loses with
  | false => rw [hcount]; rfl
  | true =>
    dsimp only
    rw [if_pos rfl, State.loseAttempt_frame, hcount]
    rfl

theorem followerGood_rejoins {s : State} {f : LinkFrame} (hf : frameGood f = true) (hbroken : f.broken = false)
    (hstate : s.link.state = .lostForwarding ∨ s.link.state = .lostOriginating) (sync : Nat) :
    s.followerGood f sync =
      finished (rejoined s f sync (decide (s.link.state = .lostOriginating))) f (s.link.jumps f.number.toNat)
        (!decide (s.link.state = .lostOriginating) || s.link.forwardsAfterLoss sync) := by
  have hcount := countGood_frame s (number_lt hf) sync
  have hlink : (s.countGood f.number.toNat sync).link.state = s.link.state := by rw [hcount]
  rcases hstate with h | h
  · rw [followerGood_closed (by rw [h]; decide), heard, if_neg (by rw [hbroken]; decide),
      enterLink_rejoins (.inl (hlink.trans h)), h]
    rfl
  · have hlose : (s.countGood f.number.toNat sync).loseAttempt.link.state = .lostOriginating :=
      (congrArg LinkRx.state (loseAttempt_link _)).trans (hlink.trans h)
    have horiginating : decide (s.link.state = .lostOriginating) = true := decide_eq_true h
    unfold State.followerGood
    simp only [horiginating, hbroken, if_true,
      Bool.false_eq_true, if_false, enterLink_rejoins (.inr hlose), Bool.true_and, Bool.not_true, Bool.false_or]
    cases s.link.forwardsAfterLoss sync <;> rfl

/-- What a good frame leaves that ends a loss. -/
theorem goodFrame_rejoins {s : State} {f : LinkFrame} (hs : s.Ready) (hrole : s.link.role = .follower)
    (hf : frameGood f = true) (loses forwards : Bool) (sync : Nat)
    (hj : s.link.jumps f.number.toNat = true → f.number.toNat % 160 ≠ 159) {t : State}
    (ht : t = finished (rejoined s f sync loses) f (s.link.jumps f.number.toNat) forwards) :
    t.link.state = .linked ∧ t.sound.reasons.link = false ∧ t.link.showSafe = false ∧ t.link.showSafeCount = 0 ∧
      t.link.lastPair = handedPair f ∧ t.link.showRunning = f.showRunning ∧
      Sound.wrote s.sound t.sound (handedPair f) := by
  have hu := rejoined_frame hrole hf sync loses
  have hcs := State.calm_of_quiet hs.2
  have hc : (rejoined s f sync loses).cue.calm = true := by rw [hu]; exact hcs
  have hframe := finished_frame (forwards := forwards) (by rw [hu]; exact hrole) hc hj
  rw [← ht] at hframe
  have hreasons := paired_reasons (rejoined s f sync loses) f
  have hwrote := paired_wrote (rejoined s f sync loses) f
  have hlink : _ = _ := congrArg State.link hframe
  have hsound : _ = _ := congrArg State.sound hframe
  rw [hlink, hsound, hreasons]
  rw [hu] at hwrote ⊢
  exact ⟨rfl, rfl, rfl, rfl, rfl, rfl, hwrote⟩

theorem rejoined_link {s : State} (hrole : s.link.role = .follower) {f : LinkFrame} (hf : frameGood f = true)
    (sync : Nat) (loses : Bool) :
    (rejoined s f sync loses).link.role = .follower ∧ (rejoined s f sync loses).link.output = s.link.output ∧
      (rejoined s f sync loses).link.tracking = s.link.tracking := by
  rw [rejoined_frame hrole hf sync loses]
  exact ⟨hrole, rfl, rfl⟩

/-- The output of a good frame that ends a loss: forwarded or not. -/
theorem goodFrame_rejoins_output {s : State} {f : LinkFrame} (hrole : s.link.role = .follower)
    (hf : frameGood f = true) (loses jump : Bool) (sync : Nat) :
    (finished (rejoined s f sync loses) f jump false).link.output = s.link.output ∧
      (f.tag ≠ .idle → s.link.tracking = none → (f.tag = .start → f.byte ≠ 0x01) →
        (finished (rejoined s f sync loses) f jump true).link.output = some f) := by
  obtain ⟨hr, houtput, htracking⟩ := rejoined_link hrole hf sync loses
  have hon := unread_handOn (rejoined s f sync loses) f jump
  have hread := slotRead_takeSlot (hon.role.trans hr) f.tag f.byte
  rw [finished, finished, closed_eq, closed_eq]
  exact ⟨hread.output.trans (hon.output.trans houtput), fun htag htrack hbyte =>
    forward_output hf htag (hread.tracking.trans (hon.tracking.trans (htracking.trans htrack))) hbyte⟩

theorem forwardsAfterLoss_iff {l : LinkRx} {r : Nat} (h : l.reckoning = some r) (sync : Nat) :
    l.forwardsAfterLoss sync = decide (76 ≤ (sync + 230 - r % 128) % 128) := by
  have hsum : sync + 102 + 128 - r % 128 = sync + 230 - r % 128 := rfl
  rw [LinkRx.forwardsAfterLoss, h, Option.getD_some, hsum]

/-! ## A broken frame begins a loss (R11, R12, R198) -/

/-- The state with a broken frame numbered, its loss begun and its TAPE_END flag kept. -/
def broken (s : State) (f : LinkFrame) (sync : Nat) : State :=
  ((losing (s.countGood f.number.toNat sync) .lostForwarding).latch .linkLost).keepBroken f

theorem heard_broken {s : State} (hc : s.cue.calm = true) {f : LinkFrame} (hf : frameGood f = true)
    (hbroken : f.broken = true) (hstate : s.link.state = .linked ∨ s.link.state = .acquiring) (sync : Nat) :
    heard s f sync = broken s f sync := by
  have hcount := countGood_frame s (number_lt hf) sync
  have hlink : (s.countGood f.number.toNat sync).link.state = s.link.state := by rw [hcount]
  have hcue : (s.countGood f.number.toNat sync).cue.calm = true := by rw [hcount]; exact hc
  rw [heard, if_pos hbroken, enterLink_loses (by rw [hlink]; exact hstate.symm) rfl, State.engineDue_of_calm hcue]
  rfl

theorem broken_frame {s : State} (hrole : s.link.role = .follower) {f : LinkFrame} (hf : frameGood f = true)
    (sync : Nat) :
    broken s f sync = { losing s .lostForwarding with
      link := { numberedLink s f.number.toNat sync with
        state := .lostForwarding, showSafeCount := 0, showSafe := false, tapeEnd := f.tapeEnd }
      sound := { s.sound with reasons := { s.sound.reasons with badRun := false, link := true } }
      msg := (broken s f sync).msg, events := (broken s f sync).events } := by
  have hcount := countGood_frame s (number_lt hf) sync
  rw [countGood_sound, is_follower hrole, if_pos rfl] at hcount
  unfold broken
  rw [State.latch_frame, hcount]
  rfl

theorem broken_latches (s : State) (f : LinkFrame) (sync : Nat) : (broken s f sync).latchedFlag .linkLost = true :=
  (latchedFlag_latch _ .linkLost .linkLost).trans (by rw [decide_eq_true rfl, Bool.or_true])

/-! ## Show-safe (R13, R106, R147) -/

theorem raiseShowSafe_of_due {s : State} (hloss : s.inLoss = true) (hsafe : s.link.showSafe = false)
    (hcount : 200 ≤ s.link.showSafeCount) :
    s.raiseShowSafe =
      if s.paramOn .safeAction then (s.setLink { s.link with showSafe := true }).stopAll.beginDissolve 0 100 false
      else s.setLink { s.link with showSafe := true } := by
  refine (if_pos ?_).trans rfl
  rw [State.showSafeDue, hloss, hsafe]
  exact decide_eq_true hcount

/-- Settles O7: a loss by what stands due in the engine (`enterLink_loses`), a frame that begins or ends one by
`broken_frame` and `goodFrame_rejoins`, and show-safe by SAFE_ACTION. -/
theorem linkLossAndShowSafe : Obligations.LinkLossAndShowSafe := by
  unfold Obligations.LinkLossAndShowSafe
  refine ⟨fun s u hp hrole hcount => ⟨fun hstate => ?lost, fun hstate => ?stays⟩,
    fun s f sync hs hrole hf hsync => ⟨fun hbroken hstate => ?begins, fun hbroken hstate hj => ?ends⟩,
    fun s hp hloss hsafe hcount => ?showSafe⟩
  case lost =>
    have hne : s.link.state ≠ .lostOriginating := by rcases hstate with h | h <;> rw [h] <;> decide
    have hwork (hu : s.engineDue = u) :
        exec .linkLossTimeout s = .next ((losing u .lostOriginating).latch .linkLost) := by
      rw [exec_linkLossTimeout, whenPowered_of_powered hp, lossTimeout_of_due hrole hne hcount,
        enterLink_loses hstate rfl, hu]
    refine ⟨fun hu hnone hrun hstuck => hwork ?_, fun hrun hu => hwork ?_, fun hrun hstuck hu => hwork ?_⟩
    · rw [hu, State.engineDue, not_runStuck hrun, not_stuckOver hstuck, State.wordCompletes, hnone]
      rfl
    · rw [exec_stuckTone, whenPowered_of_powered hp, State.stuckTone, if_pos (runStuck_iff.mpr hrun)] at hu
      rw [State.engineDue, if_pos (runStuck_iff.mpr hrun)]
      exact next_inj hu
    · rw [exec_wordComplete, whenPowered_of_powered hp] at hu
      rw [State.engineDue, not_runStuck hrun, not_stuckOver hstuck]
      exact next_inj hu
  case stays =>
    rw [exec_linkLossTimeout, whenPowered_of_powered hp, lossTimeout_of_due hrole (by rw [hstate]; decide) hcount,
      enterLink_stays_lost hstate]
    rfl
  case begins =>
    have hne : s.link.state ≠ .lostOriginating := by rcases hstate with h | h <;> rw [h] <;> decide
    have hframe := broken_frame hrole hf sync
    have hrole' : (broken s f sync).link.role = .follower := by rw [hframe]; exact hrole
    have hpass := passed_frame (h := broken s f sync) (f := f) (forwards := true) hrole'
    have hlatched := passed_latched (f := f) (forwards := true) hrole' .linkLost (broken_latches s f sync)
    refine ⟨_, exec_frameReceived_good hs hrole hf hsync, ?_⟩
    rw [followerGood_closed hne, heard_broken (State.calm_of_quiet hs.2) hf hbroken hstate, closed_eq]
    refine ⟨by rw [hpass, hframe], by rw [hpass, hframe], hlatched, ?_⟩
    rw [hpass, hframe]
    exact ⟨rfl, rfl, rfl, rfl, rfl, rfl⟩
  case ends =>
    have hend := followerGood_rejoins hf hbroken hstate sync
    obtain ⟨hl, hreason, hss, hssc, hpair, hshow, hwrote⟩ := goodFrame_rejoins hs hrole hf _ _ sync hj hend
    refine ⟨_, exec_frameReceived_good hs hrole hf hsync, hl, hreason, hss, hssc, hpair, hshow, hwrote,
      fun r horiginating hr => ?_⟩
    obtain ⟨hkept, hforwarded⟩ := goodFrame_rejoins_output hrole hf (decide (s.link.state = .lostOriginating))
      (s.link.jumps f.number.toNat) sync
    rw [hend, forwardsAfterLoss_iff hr, decide_eq_true horiginating, Bool.not_true, Bool.false_or]
    rw [decide_eq_true horiginating] at hkept hforwarded
    refine ⟨fun hlate => ?_, fun hlate htag htrack hbyte => ?_⟩
    · rw [decide_eq_false (by omega)]; exact hkept
    · rw [decide_eq_true hlate]; exact hforwarded htag htrack hbyte
  case showSafe =>
    have hwork := raiseShowSafe_of_due hloss hsafe hcount
    refine ⟨fun hhold => ?_, fun hdark hrest => ?_⟩
    · rw [exec_showSafeRaised, whenPowered_of_powered hp, hwork, State.paramOn, decide_eq_false (not_not.mpr hhold)]
      rfl
    · rw [exec_showSafeRaised, whenPowered_of_powered hp, hwork, State.paramOn, decide_eq_true hdark, if_pos rfl,
        stopAll_resting (s := s.setLink { s.link with showSafe := true }) hrest]
      rfl

end Sys2Proof.Proofs.LinkLoss
end

