-- ==== Sys2Proof/Proofs/Assembly.lean ====
section
/-!
The assembly of a message from its slots, its address and its delivery (spec/02 sections 2.1 to 2.4).
-/

namespace Sys2Proof.Proofs.Assembly

open Sys2Proof Sys2Proof.Machine Sys2Proof.Proofs.Handler Sys2Proof.Proofs.Frames Sys2Proof.Proofs.Retries
open Sys2Proof.Proofs.Window

-- One declaration after another, so that the checks of many short proofs do not wait for each other in threads.
set_option Elab.async false

/-! ## A message in slots (R21, R24) -/

/-- A state with bytes of a message in assembly. -/
def assembling (s : State) (bytes : List Byte) : State := s.setMsg { s.msg with assembly := some bytes }

theorem takeSlots_append (s : State) (xs ys : List (SlotTag × Byte)) :
    s.takeSlots (xs ++ ys) = (s.takeSlots xs).takeSlots ys := List.foldl_append

theorem takeSlots_cons (s : State) (x : SlotTag × Byte) (xs : List (SlotTag × Byte)) :
    s.takeSlots (x :: xs) = (s.takeSlot x.1 x.2).takeSlots xs := rfl

theorem message_bytes_length (m : Message) : m.bytes.length = 4 + m.payload.length := by
  simp only [Message.bytes, List.length_append, List.length_cons, List.length_nil]

/-- Each byte of a message may join those before it. -/
theorem appendBody_of_prefix {m : Message} (h : m.payload.length ≤ 24) {p : List Byte} {b : Byte}
    (hp : p ++ [b] <+: m.bytes) : appendBody p b = some (p ++ [b]) := by
  have hlen := hp.length_le
  rw [message_bytes_length] at hlen
  unfold appendBody
  dsimp only
  by_cases h3 : (p ++ [b]).length ≤ 3
  · exact if_pos h3
  · have hat : (p ++ [b]).getD 3 0 = byteOf m.payload.length := by
      have hget := hp.getElem (i := 3) (by omega)
      rw [List.getD_eq_getElem _ _ (by omega), hget]
      rfl
    rw [if_neg h3, hat, toNat_byteOf (by omega)]
    exact if_neg (by omega)

theorem takeSlots_body {s : State} {m : Message} (h : m.payload.length ≤ 24) (xs p : List Byte)
    (hp : p ++ xs <+: m.bytes) :
    (assembling s p).takeSlots (xs.map fun b => (.body, b)) = assembling s (p ++ xs) := by
  induction xs generalizing p with
  | nil => rw [List.append_nil]; rfl
  | cons b xs ih =>
    have hone : p ++ [b] <+: m.bytes := by
      refine List.IsPrefix.trans ?_ hp
      rw [show p ++ b :: xs = (p ++ [b]) ++ xs by simp]
      exact List.prefix_append _ _
    have hrest := ih (p ++ [b]) (by simpa using hp)
    rw [List.map_cons, takeSlots_cons, takeSlot_body (s := assembling s p) rfl (appendBody_of_prefix h hone)]
    rw [List.append_assoc] at hrest
    exact hrest

theorem takeSlot_begins {s : State} (h : s.msg.assembly = none) (b : Byte) :
    s.takeSlot .start b = assembling s [b] := by
  have habandon : s.abandon = s := by
    rw [State.abandon, h]
    rfl
  rw [takeSlot_start, habandon]
  rfl

theorem slotsOf_bytes (m : Message) :
    slotsOf m.bytes =
      ((SlotTag.start, m.kind) :: m.bytes.tail.map fun b => (SlotTag.body, b)) ++
        [(.done, messageCheck 0x00 m.bytes)] := rfl

/-- A message's slots before its END. -/
theorem takeSlots_until_check {s : State} (h : s.msg.assembly = none) {m : Message} (hm : m.payload.length ≤ 24) :
    s.takeSlots ((slotsOf m.bytes).dropLast) = assembling s m.bytes := by
  rw [slotsOf_bytes, List.dropLast_concat, takeSlots_cons, takeSlot_begins h]
  exact takeSlots_body hm m.bytes.tail [m.kind] (List.prefix_refl m.bytes)

theorem takeSlots_message (s : State) (m : Message) :
    s.takeSlots (slotsOf m.bytes) =
      (s.takeSlots ((slotsOf m.bytes).dropLast)).takeSlot .done (messageCheck 0x00 m.bytes) := by
  rw [slotsOf_bytes, List.dropLast_concat, takeSlots_append, takeSlots_cons]
  generalize messageCheck 0x00 m.bytes = check
  rfl

theorem messageOf_bytes {m : Message} (h : m.payload.length ≤ 24) : messageOf m.bytes = some m :=
  if_pos (toNat_byteOf (n := m.payload.length) (by omega)).symm

theorem assembling_ends {s : State} (h : s.msg.assembly = none) (bytes : List Byte) :
    (assembling s bytes).setMsg { (assembling s bytes).msg with assembly := none } = s := by
  show s.setMsg { s.msg with assembly := none } = s
  rw [← h]
  rfl

theorem judgeMessage_right {s : State} (h : s.msg.assembly = none) {m : Message} (hm : m.payload.length ≤ 24) :
    (assembling s m.bytes).judgeMessage m.bytes (messageCheck 0x00 m.bytes) =
      if s.takesDest m.dest then s.deliver m else s := by
  unfold State.judgeMessage
  rw [messageOf_bytes hm]
  refine (if_pos rfl).trans ?_
  rw [assembling_ends h]

theorem judgeMessage_wrong {s : State} {m : Message} (hm : m.payload.length ≤ 24) {check : Byte}
    (hc : check ≠ messageCheck 0x00 m.bytes) :
    (assembling s m.bytes).judgeMessage m.bytes check =
      s.setMsg { s.msg with assembly := none, assemblyErrors := min 255 (s.msg.assemblyErrors + 1) } := by
  unfold State.judgeMessage
  rw [messageOf_bytes hm]
  exact (if_neg hc).trans (abandon_eq _)

/-! ## The destination (R26) -/

theorem groupTaken_iff (s : State) (d : Byte) :
    (groupOfDest d).any s.inGroup = true ↔ ∃ g, g < 8 ∧ d.toNat = 0x40 + g ∧ s.link.groups.getLsbD g = true := by
  unfold groupOfDest
  by_cases h : 0x40 ≤ d.toNat ∧ d.toNat ≤ 0x47
  · rw [if_pos h]
    refine ⟨fun hg => ⟨d.toNat - 0x40, by omega, by omega, hg⟩, fun ⟨g, _, hd, hg⟩ => ?_⟩
    have hgd : d.toNat - 0x40 = g := by omega
    rw [hgd]
    exact hg
  · rw [if_neg h]
    exact ⟨nofun, fun ⟨g, hg, hd, _⟩ => absurd ⟨by omega, by omega⟩ h⟩

theorem takesDest_iff (s : State) (d : Byte) :
    s.takesDest d = true ↔
      d = 0xFF ∨ (∃ g, g < 8 ∧ d.toNat = 0x40 + g ∧ s.link.groups.getLsbD g = true) ∨
        s.link.address = some d.toNat := by
  have haddress : (s.link.address.any fun a => decide (d.toNat = a)) = true ↔ s.link.address = some d.toNat := by
    rw [Option.any_eq_true]
    exact ⟨fun ⟨a, ha, hd⟩ => by rw [ha, of_decide_eq_true hd], fun ha => ⟨_, ha, decide_eq_true rfl⟩⟩
  rw [State.takesDest, Bool.or_eq_true, Bool.or_eq_true, decide_eq_true_eq, groupTaken_iff, haddress, or_assoc]

/-! ## The delivery (R18, R26, R27, R33) -/

theorem deliver_command (s : State) {m : Message} (h1 : m.kind ≠ 0x01) (h0 : m.kind ≠ 0x80) (hn : m.kind ≠ 0x81)
    (h2 : m.kind ≠ 0x82) : s.deliver m = s.placeRx m := by
  rw [State.deliver, if_neg (not_or.mpr ⟨h0, hn⟩), if_neg h2, if_neg h1]

theorem deliver_relay (s : State) {m : Message} (h : m.kind = 0x82) : s.deliver m = s.deliverRelay m := by
  rw [State.deliver, h, if_neg (by decide), if_pos rfl]

theorem deliver_enumerate (s : State) {m : Message} (h : m.kind = 0x01) : s.deliver m = s.deliverEnumerate m := by
  rw [State.deliver, h, if_neg (by decide), if_neg (by decide), if_pos rfl]

theorem deliverEnumerate_empty (s : State) {m : Message} (h : m.payload = []) : s.deliverEnumerate m = s := by
  rw [State.deliverEnumerate, h]

theorem deliverEnumerate_count (s : State) {m : Message} {c : Byte} {rest : List Byte} (h : m.payload = c :: rest) :
    s.deliverEnumerate m =
      (if s.link.role = .follower ∧ m.dest = 0xFF then s.setLink { s.link with address := addressOf c }
       else s).placeRx m := by
  have hcond : (s.isFollower && decide (m.dest = 0xFF)) = true ↔ s.link.role = .follower ∧ m.dest = 0xFF := by
    rw [Bool.and_eq_true, State.isFollower, decide_eq_true_eq, decide_eq_true_eq]
  rw [State.deliverEnumerate, h]
  by_cases hc : s.link.role = .follower ∧ m.dest = 0xFF
  · rw [if_pos hc]
    exact if_pos (hcond.mpr hc)
  · rw [if_neg hc]
    exact if_neg (mt hcond.mp hc)

theorem exists_five {record : List Byte} (h : record.length = 5) :
    ∃ origin k a b c, record = [origin, k, a, b, c] := by
  match record, h with
  | [origin, k, a, b, c], _ => exact ⟨origin, k, a, b, c, rfl⟩

theorem deliverRelay_first (s : State) {m : Message} {record : List Byte} (hr : record.length = 5)
    (h : m.payload = 0x00 :: record) :
    s.deliverRelay m =
      if s.link.role = .master ∧ s.placesUsed < 4 then
        s.enqueueReply { kind := 0x82, dest := 0xFF, payload := 0x01 :: record }
      else s := by
  obtain ⟨origin, k, a, b, c, rfl⟩ := exists_five hr
  have hcond : (s.isMaster && s.placeFree) = true ↔ s.link.role = .master ∧ s.placesUsed < 4 := by
    rw [Bool.and_eq_true, isMaster_iff]
    exact and_congr_right fun _ => decide_eq_true_iff
  rw [State.deliverRelay, h]
  refine (if_pos rfl).trans ?_
  by_cases hc : s.link.role = .master ∧ s.placesUsed < 4
  · rw [if_pos hc]
    exact if_pos (hcond.mpr hc)
  · rw [if_neg hc]
    exact if_neg (mt hcond.mp hc)

theorem deliverRelay_copy (s : State) {m : Message} {record : List Byte} (hr : record.length = 5)
    (h : m.payload = 0x01 :: record) : s.deliverRelay m = s.placeRx m := by
  obtain ⟨origin, k, a, b, c, rfl⟩ := exists_five hr
  rw [State.deliverRelay, h]
  exact (if_neg (by decide)).trans (if_pos rfl)

theorem deliverRelay_ill_formed (s : State) {m : Message}
    (h : m.payload.length ≠ 6 ∨ 1 < (m.payload.headD 0).toNat) : s.deliverRelay m = s := by
  unfold State.deliverRelay
  split
  case h_1 marker origin k a b c hp =>
    rw [hp] at h
    have hmarker : 1 < marker.toNat := h.resolve_left (fun hl => hl rfl)
    have h0 : marker ≠ 0x00 := fun h0 => by rw [h0] at hmarker; exact absurd hmarker (by decide)
    have h1 : marker ≠ 0x01 := fun h1 => by rw [h1] at hmarker; exact absurd hmarker (by decide)
    rw [if_neg h0, if_neg h1]
  case h_2 => rfl

/-- Settles O10: the slots of a message (`takeSlots_until_check`), its END judged, its destination and its delivery by
kind. -/
theorem messageAssembled : Obligations.MessageAssembled := by
  unfold Obligations.MessageAssembled
  refine ⟨fun s m hm ha => ⟨?right, fun check hc => ?wrong⟩, takesDest_iff, fun s m => ⟨deliver_command s, fun h => if_pos h,
    fun h he => (deliver_enumerate s h).trans (deliverEnumerate_empty s he),
    fun c rest h hp => (deliver_enumerate s h).trans (deliverEnumerate_count s hp),
    fun record h hr => ⟨fun hp => (deliver_relay s h).trans (deliverRelay_first s hr hp),
      fun hp => (deliver_relay s h).trans (deliverRelay_copy s hr hp)⟩,
    fun h hill => (deliver_relay s h).trans (deliverRelay_ill_formed s hill)⟩⟩
  case right =>
    rw [takeSlots_message, takeSlots_until_check ha hm, takeSlot_done rfl, judgeMessage_right ha hm]
  case wrong =>
    rw [takeSlots_until_check ha hm, takeSlot_done rfl, judgeMessage_wrong hm hc, ← ha]
    rfl

end Sys2Proof.Proofs.Assembly
end

