-- ==== Sys2Proof/Proofs/Building.lean ====
section
/-!
The frame a master builds (spec/10 sections 10.1 and 10.3 to 10.5, spec/02 section 2.4).
-/

namespace Sys2Proof.Proofs.Building

open Sys2Proof Sys2Proof.Machine Sys2Proof.Proofs.Commands Sys2Proof.Proofs.Detection Sys2Proof.Proofs.Frames
open Sys2Proof.Proofs.Slots Sys2Proof.Proofs.Forwarding Sys2Proof.Proofs.Receiving Sys2Proof.Proofs.Window
open Sys2Proof.Proofs.Returning Sys2Proof.Proofs.Output

-- One declaration after another, so that the checks of many short proofs do not wait for each other in threads.
set_option Elab.async false

/-! ## The slot of a frame the master builds (R33, R187) -/

/-- The attempt that follows the START of a master's ENUMERATE. -/
abbrev enumerating : Attempt :=
  { slots :=
      [0xFF, 0x00, 0x01, 0x01].map (fun b => (SlotTag.body, b)) ++
        [(.done, messageCheck 0x00 [0x01, 0xFF, 0x00, 0x01, 0x01])]
    enumerate := true }

theorem masterSlot_attempt {s : State} {a : Attempt} (h : s.msg.attempt = some a) : s.masterSlot = s.writeSlot a := by
  rw [State.masterSlot, h]

theorem masterSlot_enumerates {s : State} (h : s.msg.attempt = none) (hd : s.tape.enumDue = true) :
    s.masterSlot =
      ((.start, 0x01), (s.setTape { s.tape with enumDue := false }).setMsg { s.msg with attempt := some enumerating }) := by
  rw [State.masterSlot, h]
  exact if_pos hd

theorem masterSlot_begins {s : State} {m : OutMsg} {rest : List OutMsg} (h : s.msg.attempt = none)
    (hd : s.tape.enumDue = false) (hr : s.msg.replies = m :: rest) :
    s.masterSlot = ((.start, m.kind), s.setMsg { s.msg with attempt := some (following s m) }) := by
  rw [State.masterSlot, h]
  refine (if_neg (ne_true_of_eq_false hd)).trans ?_
  rw [newAttempt_eq hr]
  rfl

theorem masterSlot_idle {s : State} (h : s.msg.attempt = none) (hd : s.tape.enumDue = false)
    (hr : s.msg.replies = []) : s.masterSlot = ((.idle, 0x00), s) := by
  rw [State.masterSlot, h]
  refine (if_neg (ne_true_of_eq_false hd)).trans ?_
  rw [State.newAttempt, hr]

/-- The slot changes the message unit and of the tape unit the enumeration alone. -/
theorem masterSlot_frame (s : State) :
    s.masterSlot.2 = { s with
      msg := s.masterSlot.2.msg
      tape := { s.tape with enumDue := s.masterSlot.2.tape.enumDue, enumWait := s.masterSlot.2.tape.enumWait } } := by
  cases ha : s.msg.attempt with
  | some a =>
    rw [masterSlot_attempt ha]
    obtain ⟨slots, e⟩ := a
    match slots with
    | [] => rfl
    | [x] => cases e <;> rfl
    | x :: y :: rest => rfl
  | none =>
    cases hd : s.tape.enumDue with
    | true => rw [masterSlot_enumerates ha hd]; rfl
    | false =>
      cases hr : s.msg.replies with
      | nil => rw [masterSlot_idle ha hd hr]
      | cons m rest => rw [masterSlot_begins ha hd hr]; rfl

/-! ## The frame built (R181, R186) -/

theorem builtFrame_good {s : State} (h : s.tape.nextNumber < 64000) (r : Readings) (slot : SlotTag × Byte) :
    frameGood (s.builtFrame r slot) = true ∧ (s.builtFrame r slot).number.toNat = s.tape.nextNumber := by
  have hnumber : (s.builtFrame r slot).number.toNat = s.tape.nextNumber := by
    show (BitVec.ofNat 16 s.tape.nextNumber).toNat = s.tape.nextNumber
    rw [BitVec.toNat_ofNat]
    exact Nat.mod_eq_of_lt (by omega)
  refine ⟨?_, hnumber⟩
  rw [frameGood, hnumber, decide_eq_true (p := s.tape.nextNumber < Config.frameNumbers) h, Bool.and_true,
    decide_eq_true_eq]
  rfl

/-- A frame's contents depend on the transport, the next number and the parameters. -/
theorem builtFrame_congr {s u : State} (ht : u.tape.transport = s.tape.transport)
    (hn : u.tape.nextNumber = s.tape.nextNumber) (hp : u.params = s.params) (r : Readings) (slot : SlotTag × Byte) :
    u.builtFrame r slot = s.builtFrame r slot := by
  unfold State.builtFrame State.paramInt State.paramNat State.param
  rw [ht, hn, hp]

/-! ## A frame time of the master's clock -/

/-- The tape unit with a reading taken and a frame time of the ring and the enumeration counted. -/
abbrev clockedTape (x : Tape) (r : Readings) : Tape :=
  { x with
    latest := some r
    calibration := x.calibration.map fun c =>
      { count := min 256 (c.count + 1), sumLeft := c.sumLeft + r.left.toNat
        sumRight := c.sumRight + r.right.toNat, sumCue := c.sumCue + r.cue.toNat }
    sinceReturn := min 32 (x.sinceReturn + 1), enumWait := x.enumWait.map fun n => min 64 (n + 1) }

/-- The state with a reading taken and a frame time counted. -/
def clocked (s : State) (r : Readings) : State := s.setTape (clockedTape s.tape r)

/-- The frame built, and the state with it on the link output and its SILENT flag as a mute reason. -/
def sentFrame (s : State) (r : Readings) : LinkFrame := s.builtFrame r (clocked s r).masterSlot.1

def sent (s : State) (r : Readings) : State :=
  { s with
    link := { s.link with output := some (sentFrame s r) }, msg := (clocked s r).masterSlot.2.msg
    sound := { s.sound with reasons := { s.sound.reasons with silent := (sentFrame s r).silent } }
    tape := { clockedTape s.tape r with
      nextNumber := nextFrameNumber s.tape.nextNumber, enumDue := (clocked s r).masterSlot.2.tape.enumDue
      enumWait := (clocked s r).masterSlot.2.tape.enumWait } }

/-- The state with the built frame's pair written. -/
def soundSent (s : State) (r : Readings) : State :=
  (sent s r).writePair ((sentFrame s r).left, (sentFrame s r).right)

/-- A state with a frame on the link output, its number taken, and its SILENT flag as a mute reason. -/
def putOut (w : State) (f : LinkFrame) : State :=
  let v := (w.setLink { w.link with output := some f }).setTape
    { w.tape with nextNumber := nextFrameNumber w.tape.nextNumber }
  v.setReasons { v.sound.reasons with silent := f.silent }

/-- The frame put out, its pair written and its cue sample handed to the detector. -/
def handedOver (w : State) (f : LinkFrame) (n : Nat) : State :=
  ((putOut w f).writePair (f.left, f.right)).handFrame n f.cue false false

theorem putOut_masterSlot (s : State) (r : Readings) :
    putOut (clocked s r).masterSlot.2 (sentFrame s r) = sent s r :=
  (congrArg (putOut · (sentFrame s r)) (masterSlot_frame (clocked s r))).trans rfl

theorem buildFrame_eq {s : State} (h : s.link.role = .master) (r : Readings) :
    s.buildFrame r = (soundSent s r).handFrame s.tape.nextNumber (sentFrame s r).cue false false := by
  have hslot := masterSlot_frame (clocked s r)
  have hbuilt : (clocked s r).masterSlot.2.builtFrame r (clocked s r).masterSlot.1 = sentFrame s r := by
    refine builtFrame_congr ?_ ?_ ?_ r _ <;> rw [hslot] <;> rfl
  refine (if_pos (isMaster_iff.mpr h)).trans ?_
  show handedOver (clocked s r).masterSlot.2
    ((clocked s r).masterSlot.2.builtFrame r (clocked s r).masterSlot.1) s.tape.nextNumber = _
  rw [hbuilt, handedOver, putOut_masterSlot]
  rfl

/-! ## What the sending leaves -/

theorem writePair_msg_master {s : State} (h : s.link.role = .master) (p : Pair) : (s.writePair p).msg = s.msg := by
  unfold State.writePair State.endFilling
  split
  · exact latch_msg_master (s := s.setSound { s.sound with slips := s.sound.slips + 1 }) h _
  · split <;> rfl

theorem writePair_events {s : State} (h : s.sound.fifo.length < 8192) (p : Pair) :
    (s.writePair p).events = s.events := by
  unfold State.writePair State.endFilling
  rw [if_neg (by show ¬ 8192 ≤ _; omega)]
  split <;> rfl

theorem soundSent_frame {s : State} (h : s.link.role = .master) (r : Readings) :
    soundSent s r = { sent s r with sound := (soundSent s r).sound, events := (soundSent s r).events } := by
  have hframe := (sent s r).writePair_frame ((sentFrame s r).left, (sentFrame s r).right)
  rw [writePair_msg_master (s := sent s r) h] at hframe
  exact hframe

/-- What a frame built leaves. -/
theorem buildFrame_frame {s : State} (hc : s.cue.calm = true) (h : s.link.role = .master) (r : Readings) :
    s.buildFrame r = { sent s r with
      sound := (soundSent s r).sound, events := (soundSent s r).events
      det := (s.handFrame s.tape.nextNumber (sentFrame s r).cue false false).det
      cue := (s.handFrame s.tape.nextNumber (sentFrame s r).cue false false).cue } := by
  have hsound := soundSent_frame h r
  have hd : SameDetection s (soundSent s r) := by rw [hsound]; exact ⟨rfl, rfl, rfl⟩
  have hcs : (soundSent s r).cue.calm = true := by rw [hd.2.1]; exact hc
  obtain ⟨hdet, hcue⟩ := handFrame_congr hd hc s.tape.nextNumber (sentFrame s r).cue false false nofun
  rw [buildFrame_eq h, State.handFrame_of_calm hcs _ _ false false nofun, hdet, hcue]
  exact congrArg (fun t : State => { t with
    det := (s.handFrame s.tape.nextNumber (sentFrame s r).cue false false).det
    cue := (s.handFrame s.tape.nextNumber (sentFrame s r).cue false false).cue }) hsound

/-- A sample keeps to the bounds of its word. -/
theorem toInt_sampleOf (x : Int) : (sampleOf x).toInt = max (-32768) (min 32767 x) := by
  unfold sampleOf clampInt
  rw [BitVec.toInt_ofInt]
  exact Int.bmod_eq_of_le (by omega) (by omega)

theorem toInt_trackSample (code : BitVec 12) (trim : Int) :
    (trackSample code trim).toInt = max (-32768) (min 32767 (((code.toNat : Int) - 2048 + 8 * trim) * 16)) :=
  toInt_sampleOf _

theorem builtFrame_playing {s : State} (h : s.tape.transport = .playing) (r : Readings) (slot : SlotTag × Byte) :
    let f := s.builtFrame r slot
    f.showRunning = true ∧ f.silent = false ∧ f.left = trackSample r.left (s.paramInt .trimL) ∧
      f.right = trackSample r.right (s.paramInt .trimR) ∧
      f.cue = cueSample r.cue (s.paramInt .trimC) (s.paramNat .cueGain) := by
  have hplaying : decide (s.tape.transport = .playing) = true := decide_eq_true h
  exact ⟨hplaying, congrArg Bool.not hplaying, if_pos hplaying, if_pos hplaying, if_pos hplaying⟩

theorem builtFrame_silent {s : State} (h : s.tape.transport ≠ .playing) (r : Readings) (slot : SlotTag × Byte) :
    let f := s.builtFrame r slot
    f.showRunning = false ∧ f.silent = true ∧ f.left = 0 ∧ f.right = 0 ∧ f.cue = 0 := by
  have hplaying : decide (s.tape.transport = .playing) = false := decide_eq_false h
  have hnot := ne_true_of_eq_false hplaying
  exact ⟨hplaying, congrArg Bool.not hplaying, if_neg hnot, if_neg hnot, if_neg hnot⟩

/-! ## The tape unit after the frame -/

theorem masterSlot_enumDue (s : State) :
    s.masterSlot.2.tape.enumDue = if s.msg.attempt = none then false else s.tape.enumDue := by
  cases ha : s.msg.attempt with
  | some a =>
    rw [masterSlot_attempt ha, if_neg nofun]
    obtain ⟨slots, e⟩ := a
    match slots with
    | [] => rfl
    | [x] => cases e <;> rfl
    | x :: y :: rest => rfl
  | none =>
    rw [if_pos rfl]
    cases hd : s.tape.enumDue with
    | true => rw [masterSlot_enumerates ha hd]; rfl
    | false =>
      cases hr : s.msg.replies with
      | nil => rw [masterSlot_idle ha hd hr]; exact hd
      | cons m rest => rw [masterSlot_begins ha hd hr]; exact hd

/-- The END of an ENUMERATE begins its wait. -/
theorem masterSlot_enumWait_ends {s : State} {x : SlotTag × Byte}
    (h : s.msg.attempt = some { slots := [x], enumerate := true }) : s.masterSlot.2.tape.enumWait = some 0 := by
  rw [masterSlot_attempt h]
  rfl

theorem masterSlot_enumWait_stays {s : State}
    (h : ∀ x, s.msg.attempt ≠ some { slots := [x], enumerate := true }) :
    s.masterSlot.2.tape.enumWait = s.tape.enumWait := by
  cases ha : s.msg.attempt with
  | some a =>
    rw [masterSlot_attempt ha]
    obtain ⟨slots, e⟩ := a
    match slots, e with
    | [], _ => rfl
    | [x], true => exact absurd ha (h x)
    | [x], false => rfl
    | x :: y :: rest, _ => rfl
  | none =>
    cases hd : s.tape.enumDue with
    | true => rw [masterSlot_enumerates ha hd]; rfl
    | false =>
      cases hr : s.msg.replies with
      | nil => rw [masterSlot_idle ha hd hr]
      | cons m rest => rw [masterSlot_begins ha hd hr]; rfl

theorem sent_tape {s : State} (hn : s.tape.nextNumber < 64000) (r : Readings) {w : Option Nat}
    (hw : (clocked s r).masterSlot.2.tape.enumWait = w) :
    (sent s r).tape = { clockedTape s.tape r with
      nextNumber := if s.tape.nextNumber = 63999 then 0 else s.tape.nextNumber + 1
      enumDue := if s.msg.attempt = none then false else s.tape.enumDue, enumWait := w } := by
  rw [sent, hw, masterSlot_enumDue, nextFrameNumber_eq hn]
  rfl

/-! ## O50 -/

theorem sent_goesOn {s : State} (r : Readings) {x : SlotTag × Byte} {more : List (SlotTag × Byte)} {e : Bool}
    (h : s.msg.attempt = some { slots := x :: more, enumerate := e }) :
    (sentFrame s r).tag = x.1 ∧ (sentFrame s r).byte = x.2 ∧
      (more ≠ [] → (sent s r).msg = { s.msg with attempt := some { slots := more, enumerate := e } }) ∧
      (more = [] →
        (sent s r).msg =
          if e then { s.msg with attempt := none }
          else { s.msg with attempt := none, replies := s.msg.replies.tail, attempts := 0, lastTry := false }) := by
  have hslot := masterSlot_attempt (s := clocked s r) h
  show (clocked s r).masterSlot.1.1 = x.1 ∧ (clocked s r).masterSlot.1.2 = x.2 ∧
    (more ≠ [] → (clocked s r).masterSlot.2.msg = _) ∧ (more = [] → (clocked s r).masterSlot.2.msg = _)
  rw [hslot]
  cases more with
  | nil => exact ⟨rfl, rfl, fun h => absurd rfl h, fun _ => by cases e <;> rfl⟩
  | cons y rest => exact ⟨rfl, rfl, fun _ => rfl, nofun⟩

/-- Settles O50: the frame by `builtFrame_good`, its slot by what the master has to send, the rest by
`buildFrame_frame`. -/
theorem masterBuildsFrame : Obligations.MasterBuildsFrame := by
  intro s l r c hs hrole hn begun
  have hframe := buildFrame_frame (State.calm_of_quiet hs.2) hrole { left := l, right := r, cue := c }
  have hrun : exec (.masterFrameBuild l r c) s = .next (s.buildFrame { left := l, right := r, cue := c }) := by
    rw [exec_masterFrameBuild, whenSettled_of_ready hs]
  rw [hframe] at hrun
  generalize hrd : ({ left := l, right := r, cue := c } : Readings) = rd at hrun
  obtain ⟨hgood, hnumber⟩ := builtFrame_good hn rd (clocked s rd).masterSlot.1
  have hreasons := writePair_reasons (sent s rd) ((sentFrame s rd).left, (sentFrame s rd).right)
  refine ⟨_, sentFrame s rd, hrun, rfl, hgood, hnumber, rfl, fun hplay => ?playing,
    fun hstop => builtFrame_silent hstop rd _, rfl, fun x more e ha => sent_goesOn rd ha, fun ha hd => ?enumerates,
    fun m rest ha hd hr => ?begins, fun ha hd hr => ?idle, ?tape,
    writePair_wrote (sent s rd) ((sentFrame s rd).left, (sentFrame s rd).right), ?reason,
    fun hfull => writePair_slips (sent s rd) _ hfull, rfl, rfl,
    fun hroom => writePair_events (s := sent s rd) hroom _, rfl⟩
  case playing =>
    obtain ⟨hshow, hsilent, hleft, hright, hcue⟩ := builtFrame_playing hplay rd (clocked s rd).masterSlot.1
    subst hrd
    refine ⟨hshow, hsilent, (congrArg BitVec.toInt hleft).trans (toInt_trackSample _ _),
      (congrArg BitVec.toInt hright).trans (toInt_trackSample _ _), (congrArg BitVec.toInt hcue).trans ?_⟩
    rw [cueSample, toInt_sampleOf, toInt_trackSample]
  case enumerates =>
    have hslot := masterSlot_enumerates (s := clocked s rd) ha hd
    show (clocked s rd).masterSlot.1.1 = _ ∧ (clocked s rd).masterSlot.1.2 = _ ∧ (clocked s rd).masterSlot.2.msg = _
    rw [hslot]
    exact ⟨rfl, rfl, rfl⟩
  case begins =>
    have hslot := masterSlot_begins (s := clocked s rd) ha hd hr
    show (clocked s rd).masterSlot.1.1 = _ ∧ (clocked s rd).masterSlot.1.2 = _ ∧ (clocked s rd).masterSlot.2.msg = _
    rw [hslot]
    exact ⟨rfl, rfl, rfl⟩
  case idle =>
    have hslot := masterSlot_idle (s := clocked s rd) ha hd hr
    show (clocked s rd).masterSlot.1.1 = _ ∧ (clocked s rd).masterSlot.1.2 = _ ∧ (clocked s rd).masterSlot.2.msg = _
    rw [hslot]
    exact ⟨rfl, rfl, rfl⟩
  case tape =>
    by_cases hends : ∃ x, s.msg.attempt = some { slots := [x], enumerate := true }
    · obtain ⟨x, hx⟩ := hends
      refine (sent_tape hn rd (masterSlot_enumWait_ends (s := clocked s rd) hx)).trans ?_
      subst hrd
      rw [hx]
    · have hstays : ∀ x, s.msg.attempt ≠ some { slots := [x], enumerate := true } := not_exists.mp hends
      refine (sent_tape hn rd (masterSlot_enumWait_stays (s := clocked s rd) hstays)).trans ?_
      subst hrd
      cases ha : s.msg.attempt with
      | none => rfl
      | some a =>
        obtain ⟨slots, e⟩ := a
        match slots, e with
        | [], _ => rfl
        | [x], true => exact absurd ha (hstays x)
        | [x], false => rfl
        | x :: y :: rest, _ => rfl
  case reason => exact congrArg MuteReasons.silent hreasons

end Sys2Proof.Proofs.Building
end
